-- ==== Sys2Proof/Word.lean ====
section
/-! DEFINITION. The number types of the MJ432: bytes, host port words, station identities and buffer
handles, with the conversion from a frame's byte to an identity. -/

namespace Sys2Proof

/-- One byte of a frame or of a buffer. -/
abbrev Byte := BitVec 8

/-- One 16-bit word of the host port (R183). -/
abbrev Word := BitVec 16

/-- A station identity, 0 to 31 (00_scope.md, Conventions). -/
abbrev StationId := Fin 32

/-- A buffer handle, 0 to 127 (R1). -/
abbrev Handle := Fin 128

/-- The identity as a whole byte, as a frame carries it (R181). -/
abbrev StationId.byte (p : StationId) : Byte := BitVec.ofNat 8 p.val

end Sys2Proof
end

