-- ==== Sys2Proof/Machine/Frames.lean ====
section
/-! DEFINITION. The rail's frames: the bits on the line (R106), the preamble and delimiter (R108), the
bytes of each kind (R109, R181, R182) and the frame check (R110). -/

namespace Sys2Proof.Machine

/-! ### Types -/

/-- The two levels of the rail (R105). -/
inductive Level where
  | dominant
  | recessive
  deriving DecidableEq, Repr

/-- The level of a pin. A pin whose name ends in # is asserted low. -/
inductive PinLevel where
  | low
  | high
  deriving DecidableEq, Repr

/-- What one bit time is, as its two halves are sensed (R106). -/
inductive BitTime where
  | bit (b : Bool)
  | idle
  | violation
  deriving DecidableEq, Repr

/-- The six kinds of frame (R181). -/
inductive FrameKind where
  | announce
  | leave
  | greet
  | message
  | credit
  | reply
  deriving DecidableEq, Repr

/-- The status of a REPLY, with the fields that GREETED adds (R117, R182). -/
inductive ReplyStatus where
  | accept
  | stale
  | noCredit
  | greeted (sess grant : Byte)
  deriving DecidableEq, Repr

/-- The three values a MESSAGE or CREDIT frame takes from the peer's record at its start (R49). -/
structure Carried where
  srcSess : Byte
  dstSess : Byte
  total   : Byte
  deriving DecidableEq, Repr

/-- A frame this station drives, with every field as fixed at its start (R114). -/
inductive Frame where
  | announce (src : StationId)
  | leave (src : StationId)
  | greet (src dst : StationId) (sess grant : Byte)
  | message (src dst : StationId) (carried : Carried) (seq : Byte) (tag : Word) (payload : List Byte)
  | credit (src dst : StationId) (carried : Carried)
  | reply (src dst : StationId) (status : ReplyStatus)
  deriving DecidableEq, Repr

/-! ### The line code -/

/-- The two halves in which a bit is sent (R106). -/
def bitHalves (b : Bool) : Level × Level :=
  if b then (.recessive, .dominant) else (.dominant, .recessive)

/-- How the RIF classes a bit time by its two halves (R106). -/
def classifyHalves : Level × Level → BitTime
  | (.dominant, .recessive) => .bit false
  | (.recessive, .dominant) => .bit true
  | (.recessive, .recessive) => .idle
  | (.dominant, .dominant) => .violation

/-- The bits of a byte, most significant first (R108). -/
def byteBits (b : Byte) : List Bool :=
  [b.getLsbD 7, b.getLsbD 6, b.getLsbD 5, b.getLsbD 4, b.getLsbD 3, b.getLsbD 2, b.getLsbD 1,
    b.getLsbD 0]

/-- The byte of eight bits, most significant first (R108). -/
def byteOfBits (b7 b6 b5 b4 b3 b2 b1 b0 : Bool) : Byte :=
  BitVec.ofBool b7 ++ BitVec.ofBool b6 ++ BitVec.ofBool b5 ++ BitVec.ofBool b4
    ++ BitVec.ofBool b3 ++ BitVec.ofBool b2 ++ BitVec.ofBool b1 ++ BitVec.ofBool b0

/-- Bits assembled eight to a byte; none when the frame ends part-way through a byte (R108, R111). -/
def bytesOfBits : List Bool → Option (List Byte)
  | [] => some []
  | b7 :: b6 :: b5 :: b4 :: b3 :: b2 :: b1 :: b0 :: rest =>
    (bytesOfBits rest).map (byteOfBits b7 b6 b5 b4 b3 b2 b1 b0 :: ·)
  | _ => none

/-! ### The frame check -/

/-- One covered bit into the check register (R110). -/
def checkBit (reg : BitVec 32) (b : Bool) : BitVec 32 :=
  if xor b reg.msb then (reg <<< 1) ^^^ 0x04C11DB7#32 else reg <<< 1

/-- One covered byte into the check register, most significant bit first (R110). -/
def checkByte (reg : BitVec 32) (b : Byte) : BitVec 32 := (byteBits b).foldl checkBit reg

/-- The frame check of the covered bytes: the register starts at all ones and is inverted (R110). -/
def frameCheck (bytes : List Byte) : BitVec 32 := ~~~ bytes.foldl checkByte (BitVec.allOnes 32)

/-- The four bytes of a check, most significant first (R110). -/
def checkBytes (c : BitVec 32) : List Byte :=
  [c.extractLsb' 24 8, c.extractLsb' 16 8, c.extractLsb' 8 8, c.extractLsb' 0 8]

/-- A frame proper closed by its check (R110). -/
def withCheck (body : List Byte) : List Byte := body ++ checkBytes (frameCheck body)

/-- The last four bytes equal the check of the bytes before them (R110). -/
def checkMatches (bytes : List Byte) : Bool :=
  bytes.drop (bytes.length - 4) == checkBytes (frameCheck (bytes.take (bytes.length - 4)))

/-! ### The bytes of a frame -/

/-- The kind code (R181). -/
def FrameKind.code : FrameKind → BitVec 4
  | .announce => 1
  | .leave => 2
  | .greet => 3
  | .message => 4
  | .credit => 5
  | .reply => 6

/-- The kind that a code names, none for an unused code (R181). -/
def FrameKind.ofCode (c : BitVec 4) : Option FrameKind :=
  if c = 1 then some .announce else if c = 2 then some .leave else if c = 3 then some .greet
  else if c = 4 then some .message else if c = 5 then some .credit else if c = 6 then some .reply
  else none

/-- Byte 0 of a frame of version 1 (R181). -/
def FrameKind.byte0 (k : FrameKind) : Byte := k.code ++ 1#4

/-- The destination byte that means all stations (R120). -/
def broadcastByte : Byte := 63

/-- The status code of a REPLY (R182). -/
def ReplyStatus.code : ReplyStatus → Byte
  | .accept => 1
  | .stale => 2
  | .noCredit => 3
  | .greeted _ _ => 4

/-- The status that a received status byte hands on; none for a code not among the four (R119, R182). -/
def ReplyStatus.ofBytes (code sess grant : Byte) : Option ReplyStatus :=
  if code = 1 then some .accept else if code = 2 then some .stale
  else if code = 3 then some .noCredit else if code = 4 then some (.greeted sess grant) else none

/-- The kind of a frame. -/
def Frame.kind : Frame → FrameKind
  | .announce _ => .announce
  | .leave _ => .leave
  | .greet _ _ _ _ => .greet
  | .message _ _ _ _ _ _ => .message
  | .credit _ _ _ => .credit
  | .reply _ _ _ => .reply

/-- The bytes before the check (R181). -/
def Frame.body : Frame → List Byte
  | .announce s => [FrameKind.announce.byte0, s.byte, broadcastByte]
  | .leave s => [FrameKind.leave.byte0, s.byte, broadcastByte]
  | .greet s d sess grant => [FrameKind.greet.byte0, s.byte, d.byte, sess, grant]
  | .message s d c seq tag payload =>
    [FrameKind.message.byte0, s.byte, d.byte, c.srcSess, c.dstSess, seq, c.total,
      tag.extractLsb' 8 8, tag.extractLsb' 0 8, BitVec.ofNat 8 (payload.length - 1)] ++ payload
  | .credit s d c => [FrameKind.credit.byte0, s.byte, d.byte, c.srcSess, c.dstSess, c.total]
  | .reply s d (.greeted sess grant) =>
    [FrameKind.reply.byte0, s.byte, d.byte, 4, sess, grant]
  | .reply s d .accept => [FrameKind.reply.byte0, s.byte, d.byte, 1]
  | .reply s d .stale => [FrameKind.reply.byte0, s.byte, d.byte, 2]
  | .reply s d .noCredit => [FrameKind.reply.byte0, s.byte, d.byte, 3]

/-- The frame proper (R109, R110). -/
def Frame.bytes (f : Frame) : List Byte := withCheck f.body

/-- The sixteen bits that open every transmission (R108). -/
def startBits : List Bool := byteBits 0xAA ++ byteBits 0xB4

/-- Every bit of a transmission in the order sent (R114). -/
def Frame.lineBits (f : Frame) : List Bool := startBits ++ f.bytes.flatMap byteBits

/-- The halves a station drives for a frame (R106, R114). -/
def Frame.lineHalves (f : Frame) : List (Level × Level) := f.lineBits.map bitHalves

/-- The largest number of bytes a good frame has (R111). -/
def frameBytesMax : Nat := 270

/-- The size a frame of a known kind with version 1 must have, once its bytes give it (R109). -/
def frameSize (kind : FrameKind) (bytes : List Byte) : Option Nat :=
  match kind with
  | .announce | .leave => some 7
  | .greet => some 9
  | .credit => some 10
  | .reply => bytes[3]?.map fun status => if status = 4 then 10 else 8
  | .message => bytes[9]?.map fun len => 14 + (len.toNat + 1)

/-- The destination suits the kind (R112). -/
def suitsKind (kind : FrameKind) (dst : Byte) : Bool :=
  match kind with
  | .announce | .leave => dst == broadcastByte
  | .greet | .message | .credit | .reply => dst.toNat < 32

/-- The bit of a bit time that is a 0 or a 1. -/
def BitTime.value? : BitTime → Option Bool
  | .bit b => some b
  | .idle => none
  | .violation => none

/-- The bits of a reception; none when a bit time in it is a code violation (R111). The idle bit time
that ends a reception is not in the list, so an idle one inside ends it as bad too. -/
def receptionBits : List BitTime → Option (List Bool)
  | [] => some []
  | t :: rest =>
    match t.value?, receptionBits rest with
    | some b, some bs => some (b :: bs)
    | _, _ => none

/-- The bytes that the RIF assembles from a reception's bit times; none when the start is not found, a
violation is sensed, a byte is incomplete or the reception reaches 271 bytes: the frame is bad (R108, R111). -/
def receivedBytes (times : List BitTime) : Option (List Byte) :=
  match receptionBits times with
  | none => none
  | some bits =>
    if bits.take 16 = startBits then
      match bytesOfBits (bits.drop 16) with
      | some bytes => if bytes.length ≤ frameBytesMax then some bytes else none
      | none => none
    else none

/-- The bits before the first bit time that is idle or a violation. That a receiver assembles nothing after
a violation, though the reception goes on to its first idle bit time, is the model's choice: the spec says of
such a frame only that it ends bad (R111, log 31). -/
def leadingBits : List BitTime → List Bool
  | [] => []
  | t :: rest =>
    match t.value? with
    | some b => b :: leadingBits rest
    | none => []

/-- The whole bytes of some bits, a partial byte at the end left out. -/
def wholeBytes : List Bool → List Byte
  | b7 :: b6 :: b5 :: b4 :: b3 :: b2 :: b1 :: b0 :: rest =>
    byteOfBits b7 b6 b5 b4 b3 b2 b1 b0 :: wholeBytes rest
  | _ => []

/-- The bytes assembled by the time a reception ends, good or bad (R108, R113). -/
def assembledBytes (times : List BitTime) : List Byte :=
  if (leadingBits times).take 16 = startBits then wholeBytes ((leadingBits times).drop 16) else []

end Sys2Proof.Machine
end

