-- ==== Sys2Proof/Syntax.lean ====
section
/-! DEFINITION. The commands of the MJ432: one constructor of Instr for each row of
spec/opcode_table.json. The table gives the rows no operands; the operands are those the rules name (log 6). -/

namespace Sys2Proof

/-- The profile registers that the host writes (R141). -/
inductive ProfileReg where
  | retry
  | train
  | reserve (p : StationId)
  deriving DecidableEq, Repr

/-- The ten header bytes of a MESSAGE as received, unchecked (R109, R113, R181): the kind is MESSAGE. -/
structure MessageHeader where
  version     : BitVec 4
  src         : Byte
  dst         : Byte
  srcSess     : Byte
  dstSess     : Byte
  seq         : Byte
  creditTotal : Byte
  tag         : Word
  /-- The payload length less one. -/
  lengthByte  : Byte
  deriving DecidableEq, Repr

/-- The payload length that a header states, 1 to 256 (R109). -/
def MessageHeader.length (h : MessageHeader) : Nat := h.lengthByte.toNat + 1

/-- The commands. In the frame ends, `src` is the whole source byte and `dst` a destination that suits
a unicast kind; ANNOUNCE and LEAVE suit 63 alone (R112). -/
inductive Instr where
  -- the board (R152): the straps SID4..SID0 and RATE1 RATE0 as sampled, and whether the first bit
  -- time sensed is line activity (R107)
  | pinResetAssert
  | pinResetRelease (sid : StationId) (rate : BitVec 2) (lineActive : Bool)
  -- host reads that take something, and host writes (R171)
  | txtakeRead
  | releaseWrite (word : Word)
  | windowRead (k : BitVec 7)
  | windowWrite (k : BitVec 7) (word : Word)
  | sendGoWrite (word : Word)
  | inboundPopRead
  | completionPopRead
  | peerEventPopRead
  | attentionRead
  | finishWrite (word : Word)
  | stateChangeRead
  | attnEnableWrite (word : Word)
  | profileWrite (reg : ProfileReg) (word : Word)
  | registerWrite (addr : BitVec 9) (word : Word)
  -- the host's commands (R143)
  | join
  | leave
  | restart
  | regreet (peer : BitVec 6)
  | clearFault
  | clearFlags
  | unusedCommandCode (code : BitVec 4)
  -- the line, the window and the timers
  | lineBusy
  | settleGap
  | windowLastSlotEnd
  | slotStart
  | trainGapEnd
  | collision
  | ownFrameEnd
  | ownAnnounceEnd
  | ownLeaveEnd
  | ownReplyEnd
  | replyMoment
  | replyTimeout
  | listenTimeout
  -- frames received: `payload` is the payload bytes that are assembled after this header (log 7)
  | messageHeader (h : MessageHeader) (payload : List Byte)
  | messageFrameEnd (src : Byte) (dst : StationId)
  | creditFrameEnd (src : Byte) (dst : StationId) (srcSess dstSess creditTotal : Byte)
  | greetFrameEnd (src : Byte) (dst : StationId) (sess grant : Byte)
  | announceFrameEnd (src : Byte)
  | leaveFrameEnd (src : Byte)
  | replyFrameEnd (src : Byte) (dst : StationId) (status sess grant : Byte)
  | unknownKindFrameEnd
  | badFrameEnd
  | lineIdle
  deriving DecidableEq, Repr

end Sys2Proof
end

