-- ==== Sys2Proof/Decode.lean ====
section
/-! DEFINITION. How the outside reaches the commands: the table gives its rows no bits; a bus cycle
stands for a command by its address (R171, R173, R183), and what the Rail Interface assembles stands for a
header or a frame end (R108 to R113). -/

namespace Sys2Proof

/-- No row of spec/opcode_table.json gives bits, so no word spells a command. -/
def decodeTableWord (_nbits _w : Nat) : Option Instr := none

/-! ### Bus cycles -/

/-- The command that a word written to COMMAND gives: code in bits 3 to 0, peer field in bits 13 to 8, the
other bits ignored (R173, R183, R184). -/
def commandOfWord (w : Word) : Instr :=
  let code : BitVec 4 := w.extractLsb' 0 4
  if code = 1 then .join
  else if code = 2 then .leave
  else if code = 3 then .restart
  else if code = 4 then .regreet (w.extractLsb' 8 6)
  else if code = 5 then .clearFault
  else if code = 6 then .clearFlags
  else .unusedCommandCode code

/-- The identity of a PROFILE_RESERVE register (R171). -/
def reserveIndex (addr : BitVec 9) : StationId := ⟨addr.toNat % 32, Nat.mod_lt _ (by decide)⟩

/-- The command that a write cycle stands for (R171). -/
def hostWriteCommand (addr : BitVec 9) (w : Word) : Instr :=
  if addr.toNat < 0x080 then .windowWrite (addr.extractLsb' 0 7) w
  else if addr = 0x102 then commandOfWord w
  else if addr = 0x109 then .releaseWrite w
  else if addr = 0x115 then .sendGoWrite w
  else if addr = 0x141 then .finishWrite w
  else if addr = 0x142 then .attnEnableWrite w
  else if addr = 0x150 then .profileWrite .retry w
  else if addr = 0x151 then .profileWrite .train w
  else if 0x160 ≤ addr.toNat ∧ addr.toNat ≤ 0x17F then .profileWrite (.reserve (reserveIndex addr)) w
  else .registerWrite addr w

/-- The command that a read cycle stands for; none where the read takes nothing and only returns the
value of the register (R171). -/
def hostReadCommand (addr : BitVec 9) : Option Instr :=
  if addr.toNat < 0x080 then some (.windowRead (addr.extractLsb' 0 7))
  else if addr = 0x101 then some .stateChangeRead
  else if addr = 0x108 then some .txtakeRead
  else if addr = 0x118 then some .inboundPopRead
  else if addr = 0x120 then some .completionPopRead
  else if addr = 0x128 then some .peerEventPopRead
  else if addr = 0x140 then some .attentionRead
  else none

/-! ### Receptions -/

/-- The station a destination byte of a unicast kind names. -/
def unicastDst (b : Byte) : Option StationId :=
  if h : b.toNat < 32 then some ⟨b.toNat, h⟩ else none

/-- The kind of a frame of a known kind with version 1 (R109, R181). -/
def knownKind (b0 : Byte) : Option Machine.FrameKind :=
  if b0.extractLsb' 0 4 = 1#4 then Machine.FrameKind.ofCode (b0.extractLsb' 4 4) else none

/-- The MESSAGE header that the tenth byte completes, when the first byte holds the MESSAGE kind
(R113, R181). -/
def headerOf : List Byte → Option MessageHeader
  | b0 :: src :: dst :: srcSess :: dstSess :: seq :: total :: tagHi :: tagLo :: len :: _ =>
    if b0.extractLsb' 4 4 = 4#4 then
      some { version := b0.extractLsb' 0 4, src := src, dst := dst, srcSess := srcSess,
             dstSess := dstSess, seq := seq, creditTotal := total, tag := tagHi ++ tagLo,
             lengthByte := len }
    else none
  | _ => none

/-- The payload bytes that a MESSAGE reception hands on, none past the stated length (R111, R113). -/
def payloadOf (bytes : List Byte) (h : MessageHeader) : List Byte := (bytes.drop 10).take h.length

/-- The header command of a reception, when one is handed (R113). -/
def headerCommand (bytes : List Byte) : Option Instr :=
  (headerOf bytes).map fun h => .messageHeader h (payloadOf bytes h)

/-- The frame end of a good frame of a known kind with version 1 (R109, R112, R113): ill-addressed, it is
handed as a frame of no known kind. -/
def goodFrameCommand (kind : Machine.FrameKind) (bytes : List Byte) : Instr :=
  match kind, bytes with
  | .announce, _ :: src :: dst :: _ =>
    if dst = Machine.broadcastByte then .announceFrameEnd src else .unknownKindFrameEnd
  | .leave, _ :: src :: dst :: _ =>
    if dst = Machine.broadcastByte then .leaveFrameEnd src else .unknownKindFrameEnd
  | .greet, _ :: src :: dst :: sess :: grant :: _ =>
    match unicastDst dst with
    | some d => .greetFrameEnd src d sess grant
    | none => .unknownKindFrameEnd
  | .message, _ :: src :: dst :: _ =>
    match unicastDst dst with
    | some d => .messageFrameEnd src d
    | none => .unknownKindFrameEnd
  | .credit, _ :: src :: dst :: srcSess :: dstSess :: total :: _ =>
    match unicastDst dst with
    | some d => .creditFrameEnd src d srcSess dstSess total
    | none => .unknownKindFrameEnd
  | .reply, _ :: src :: dst :: status :: b4 :: b5 :: _ =>
    match unicastDst dst with
    | some d => if status = 4 then .replyFrameEnd src d status b4 b5 else .replyFrameEnd src d status 0 0
    | none => .unknownKindFrameEnd
  | _, _ => .badFrameEnd

/-- The frame end of a reception whose bytes were assembled; none when its start was not found, it held a
violation or a partial byte, or it reached 271 bytes (R108, R110 to R112). -/
def frameEndCommand : Option (List Byte) → Instr
  | none => .badFrameEnd
  | some bytes =>
    if Machine.checkMatches bytes = false then .badFrameEnd
    else
      match bytes.head?.bind knownKind with
      | some kind =>
        if Machine.frameSize kind bytes = some bytes.length then goodFrameCommand kind bytes
        else .badFrameEnd
      | none =>
        if 7 ≤ bytes.length ∧ bytes.length ≤ Machine.frameBytesMax then .unknownKindFrameEnd
        else .badFrameEnd

/-- The commands of one reception from its first dominant half to its frame end (R108, R113). A header is
handed as soon as it is assembled, whether or not the frame then ends good. -/
def receptionCommands (times : List Machine.BitTime) : List Instr :=
  .lineBusy :: ((headerCommand (Machine.assembledBytes times)).toList
    ++ [frameEndCommand (Machine.receivedBytes times)])

end Sys2Proof
end

