-- ==== Sys2Proof/Config.lean ====
section
/-! DEFINITION. The principal numbers of the MJ432 (00_scope.md, Principal numbers), and the three
values after reset that come from the board and not from the spec. The spec leaves no value of the part
undefined, so there is no free value here. -/

namespace Sys2Proof.Config

/-- Idle bit times before a contention window begins (R107, R123). -/
abbrev settleGap : Nat := 16
/-- The idle count at which the listen timeout is handed and counting stops (R107). -/
abbrev listenTimeout : Nat := 1024
/-- The bit time of the idle period at which a reply starts (R117). -/
abbrev replyStart : Nat := 6
/-- The idle count at which the reply timeout expires (R118). -/
abbrev replyTimeout : Nat := 24
/-- The bit time of the idle period at which the next frame of a train starts (R120). -/
abbrev trainGapEnd : Nat := 9
/-- Bit times of one slot (R123). -/
abbrev slotBits : Nat := 4
/-- Bit times of one contention window: 64 slots (R123). -/
abbrev windowBits : Nat := 256
/-- Entries of the Send List and the Completion List together (R66). -/
abbrev sendBudget : Nat := 32
/-- The most credits a station holds toward a peer (R46). -/
abbrev creditMax : Nat := 15
/-- The largest total reservation R that JOIN accepts (R143). -/
abbrev reserveMax : Nat := 112
/-- Bytes of one buffer (R1). -/
abbrev bufferBytes : Nat := 256
/-- The value of a byte of buffer memory that nothing has written since pin reset (R5, R17). -/
abbrev clearByte : Byte := 0

/-- DESIGN CHOICE (log 5, unsafe): the identity straps of State.reset. The board sets them. -/
abbrev resetSid : StationId := 0
/-- DESIGN CHOICE (log 5, unsafe): the rate straps of State.reset, RATE1 RATE0. The board sets them. -/
abbrev resetRate : BitVec 2 := 0
/-- DESIGN CHOICE (log 5, unsafe): whether State.reset finds activity on the line. -/
abbrev resetLineActive : Bool := false

end Sys2Proof.Config
end

