-- ==== Sys2Proof/Machine/Memory.lean ====
section
/-! DEFINITION. Buffer memory (R17): bytes at addresses, address 256 h + b for byte b of buffer h. The
list has one canonical form: addresses strictly rising, and no byte listed that an unlisted address reads
as. An unlisted byte reads 0x00, which pin reset writes to every byte (R5, R152). -/

namespace Sys2Proof.Machine

/-- The bytes of buffer memory. -/
def memoryBytes : Nat := 32768

/-- The canonical form of a memory. -/
abbrev Memory.wf (m : List Host.Cell) : Prop :=
  m.Pairwise (fun c d => c.1 < d.1) ∧ ∀ c ∈ m, c.2 ≠ Config.clearByte ∧ c.1 < memoryBytes

/-- The byte at an address. -/
def Memory.read : List Host.Cell → Nat → Byte
  | [], _ => Config.clearByte
  | (b, v) :: rest, a => if b = a then v else Memory.read rest a

/-- A byte put at the front of a memory whose addresses are all higher. -/
def Memory.cons (a : Nat) (v : Byte) (m : List Host.Cell) : List Host.Cell :=
  if v = Config.clearByte then m else (a, v) :: m

/-- One byte written, in canonical form. -/
def Memory.write : List Host.Cell → Nat → Byte → List Host.Cell
  | [], a, v => Memory.cons a v []
  | (b, w) :: rest, a, v =>
    if a < b then Memory.cons a v ((b, w) :: rest)
    else if a = b then Memory.cons a v rest
    else (b, w) :: Memory.write rest a v

/-- Bytes written from an address upward. -/
def Memory.writeBytes : List Host.Cell → Nat → List Byte → List Host.Cell
  | m, _, [] => m
  | m, a, v :: vs => Memory.writeBytes (Memory.write m a v) (a + 1) vs

/-- The address of byte i of a buffer. -/
def bufferAddress (h : Handle) (i : Nat) : Nat := Config.bufferBytes * h.val + i

/-- Bytes 0 to n - 1 of a buffer (R17). -/
def Memory.buffer (m : List Host.Cell) (h : Handle) (n : Nat) : List Byte :=
  (List.range n).map fun i => Memory.read m (bufferAddress h i)

end Sys2Proof.Machine
end

