-- ==== Sys2Proof/Machine/Blocks.lean ====
section
/-! DEFINITION. The types of the state: the names of states, statuses and reasons, the records of the
lists, and one structure for each block that owns state (00_scope.md, Block overview). -/

namespace Sys2Proof.Machine

/-! ### Names of states, statuses and reasons -/

/-- The station state (R139). -/
inductive StationState where
  | offline | listening | announcing | online | leaving | halted
  deriving DecidableEq, Repr

/-- The state of a peer record; SELF is the record at the station's own identity (R18). -/
inductive PeerState where
  | absent | greeting | isOpen | lost | self
  deriving DecidableEq, Repr

/-- The reason of a peer event (R43). -/
inductive Reason where
  | announced | heard | greeted | answered | staleReply | noCreditReply | protocolFault
  | greetExhausted | retryExhausted | hostRegreet | left
  deriving DecidableEq, Repr

/-- The completion statuses (R82). -/
inductive Status where
  | delivered | sessionReset | refusedNoCredit | retryExhausted | unreachable | peerLeft | withdrawn
  deriving DecidableEq, Repr

/-- The kinds of protocol fault (R166). -/
inductive FaultKind where
  | creditOverrun | creditRange | sequence | duplicateId
  deriving DecidableEq, Repr

/-- The phase of a Send List entry (R64). -/
inductive Phase where
  | waiting | sending | retry
  deriving DecidableEq, Repr

/-- The class of a header verdict (R87). -/
inductive VerdictClass where
  | ignored | outside | sequence | duplicate | overrun | admitted
  deriving DecidableEq, Repr

/-- The line state (R107). -/
inductive LineState where
  | idle | busy
  deriving DecidableEq, Repr

/-- The window kind (R122). -/
inductive WindowKind where
  | rotation | ordered
  deriving DecidableEq, Repr

/-- The exchange state (R130). -/
inductive Exchange where
  | idle | transmitting | awaitReply
  deriving DecidableEq, Repr

/-- The state of a handle; FILLING, POSTED and HELD carry the peer field, which is absent in every
other state (R1). -/
inductive HandleState where
  | unassigned
  | txFree
  | composing
  | queued
  | rxFree
  | filling (peer : StationId)
  | posted (peer : StationId)
  | held (peer : StationId)
  deriving DecidableEq, Repr

/-! ### Records -/

/-- One record of the Peer Table (R18). -/
structure Peer where
  state         : PeerState
  mySess        : Byte
  theirSess     : Option Byte
  creditsHeld   : Nat
  creditSeen    : Byte
  nextSeq       : Byte
  lastRxSeq     : Option Byte
  r             : Nat
  inUse         : Nat
  releasedTotal : Byte
  ackedTotal    : Byte
  ctlAttempts   : Nat
  deriving DecidableEq, Repr

/-- One entry of the Send List (R64). -/
structure SendEntry where
  handle   : Handle
  dest     : StationId
  length   : Nat
  tag      : Word
  quiet    : Bool
  seq      : Option Byte
  attempts : Nat
  phase    : Phase
  deriving DecidableEq, Repr

/-- One record of the Completion List (R82). -/
structure Completion where
  tag      : Word
  dest     : StationId
  handle   : Handle
  status   : Status
  attempts : Nat
  deriving DecidableEq, Repr

/-- One record of the Inbound List (R102). -/
structure Inbound where
  handle : Handle
  source : StationId
  length : Nat
  tag    : Word
  sess   : Byte
  deriving DecidableEq, Repr

/-- The header verdict (R87). The source is the whole byte received. -/
structure Verdict where
  source  : Byte
  srcSess : Byte
  dstSess : Byte
  seq     : Byte
  total   : Byte
  tag     : Word
  length  : Nat
  cls     : VerdictClass
  deriving DecidableEq, Repr

/-- The current-fill descriptor when it holds a fill (R87). -/
structure Fill where
  handle : Handle
  source : StationId
  seq    : Byte
  tag    : Word
  length : Nat
  sess   : Byte
  deriving DecidableEq, Repr

/-- One entry of the Peer Event List (R163). -/
structure PeerEvent where
  peer    : StationId
  state   : PeerState
  reason  : Reason
  changes : Nat
  deriving DecidableEq, Repr

/-- The Fault Record when it holds a captured fault (R166). -/
structure FaultRecord where
  kind  : FaultKind
  peer  : StationId
  frame : FrameKind
  value : Byte
  more  : Bool
  deriving DecidableEq, Repr

/-- The item being sent (R130). A CREDIT or MESSAGE keeps the values its frame carried, since its
outcome is applied to the record only if they still match (R53, R61). -/
inductive Item where
  | announce
  | leave
  | greet (p : StationId)
  | credit (p : StationId) (c : Carried)
  | message (h : Handle) (p : StationId) (c : Carried)
  deriving DecidableEq, Repr

/-- A reception that the RIF assembles, and whether its MESSAGE header has been handed (R108, R113). -/
structure Reception where
  headerSeen : Bool
  deriving DecidableEq, Repr

/-- A reply that is due: the status handed at the frame end. With GREETED the two fields are those of
the GREET to be answered (R31, R116). -/
structure ReplyDue where
  peer   : StationId
  status : ReplyStatus
  deriving DecidableEq, Repr

/-- The frame on the line that RESTART has broken off: a reception in assembly, with its MESSAGE header
handed or not, or a transmission of the station's own. No event of it follows but one that reaches the
station together with the RESTART (R121, R151, log 30). -/
inductive Broken where
  | reception (headerSeen : Bool)
  | own (kind : FrameKind)
  deriving DecidableEq, Repr

/-! ### The blocks -/

/-- Rail Interface (R107, R114), with what a RESTART taken first leaves to be told of the frame on the
line (R151). -/
structure Rif where
  line      : LineState
  idleCount : Nat
  reception : Option Reception
  transmit  : Option Frame
  replyDue  : Option ReplyDue
  broken    : Option Broken
  deriving DecidableEq, Repr

/-- Contention Unit (R122), with the slot in which the station contends in the window now running (R125). -/
structure Ctu where
  lw        : StationId
  lwKnown   : Bool
  kind      : WindowKind
  slotClock : Option Nat
  slot      : Option Nat
  deriving DecidableEq, Repr

/-- Transmit Arbiter (R130). -/
structure Txa where
  exchange : Exchange
  train    : Nat
  gap      : Bool
  item     : Option Item
  deriving DecidableEq, Repr

/-- Session Unit (R18, R25). -/
structure Ssu where
  peers     : Vector Peer 32
  greetList : List StationId
  deriving DecidableEq, Repr

/-- Credit Unit (R56, R59). The STARVED condition of an entry is computed from its record (log 10). -/
structure Cru where
  list   : List StationId
  demand : Bool
  deriving DecidableEq, Repr

/-- Buffer Manager (R1, R2, R15, R17). Byte b of buffer h is at address 256 h + b. -/
structure Bfm where
  table  : Vector HandleState 128
  txFree : List Handle
  rxFree : List Handle
  winsel : Handle
  mem    : List Host.Cell
  deriving DecidableEq, Repr

/-- Send Unit (R64, R83). -/
structure Snu where
  sendList    : List SendEntry
  completions : List Completion
  deriving DecidableEq, Repr

/-- Receive Unit (R87). -/
structure Rxu where
  verdict : Option Verdict
  fill    : Option Fill
  inbound : List Inbound
  deriving DecidableEq, Repr

/-- Station Controller (R139 to R142, R134, R156). A working retry limit of none is unlimited. -/
structure Stc where
  state           : StationState
  leaveMark       : Bool
  sid             : StationId
  rate            : BitVec 2
  retryReg        : BitVec 2
  trainReg        : BitVec 3
  reserveRegs     : Vector (BitVec 4) 32
  retryLimit      : Option Nat
  trainLimit      : Nat
  reserveTotal    : Nat
  pendingAnnounce : Bool
  pendingLeave    : Bool
  latch           : Bool
  profileLocked   : Bool
  deriving DecidableEq, Repr

/-- Attention Unit (R157). Bit n of the flags is source n. -/
structure Atu where
  enables    : BitVec 5
  inService  : BitVec 5
  peerEvents : List PeerEvent
  fault      : Option FaultRecord
  deriving DecidableEq, Repr

/-- Host Port (R176, R183): the view and result registers at the widths of their fields, the staging
registers, PEER_SELECT, WINDOW_MISUSE, and the value the last read cycle drove on D15 to D0 (log 9). -/
structure Hpu where
  inSource      : BitVec 5
  inLength      : BitVec 9
  inTag         : Word
  inSess        : Byte
  cTag          : Word
  cDest         : BitVec 5
  cStatus       : BitVec 3
  cAttempts     : Byte
  peState       : BitVec 3
  peReason      : BitVec 4
  peChanges     : Byte
  releaseResult : BitVec 4
  sendResult    : BitVec 4
  commandResult : BitVec 4
  sendHandle    : Word
  sendDest      : Word
  sendLength    : Word
  sendTag       : Word
  sendFlags     : Word
  peerSelect    : StationId
  windowMisuse  : Bool
  readData      : Word
  deriving DecidableEq, Repr

end Sys2Proof.Machine
end

