-- ==== Sys2Proof/Machine/ResetValues.lean ====
section
/-! DEFINITION. The value of each block after pin reset (R152 and the tables it gathers). -/

namespace Sys2Proof.Machine

/-- A record other than SELF after pin reset, RESTART and JOIN, with the reservation in force (R19). -/
def Peer.fresh (r : Nat) : Peer :=
  { state := .absent, mySess := 0, theirSess := none, creditsHeld := 0, creditSeen := 0, nextSeq := 0,
    lastRxSeq := none, r := r, inUse := 0, releasedTotal := 0, ackedTotal := 0, ctlAttempts := 0 }

/-- The record at the station's own identity: SELF, and 0 in every other field (R18, R19). -/
def Peer.selfRecord : Peer := { Peer.fresh 0 with state := .self }

/-- The Peer Table with every record fresh (R19). -/
def freshPeers (sid : StationId) (r : StationId → Nat) : Vector Peer 32 :=
  Vector.ofFn fun p => if p = sid then Peer.selfRecord else Peer.fresh (r p)

/-- Nothing sent or assembled, the line as it is found: BUSY with activity whose start was not seen, or
IDLE with idle count 1 (R107, R121). -/
def Rif.clear (lineActive : Bool) : Rif :=
  { line := if lineActive then .busy else .idle, idleCount := if lineActive then 0 else 1,
    reception := none, transmit := none, replyDue := none, broken := none }

/-- LW unknown, ORDERED, no slot clock (R122). -/
def Ctu.clear : Ctu :=
  { lw := 0, lwKnown := false, kind := .ordered, slotClock := none, slot := none }

/-- IDLE, train count 0, gap flag clear, no item (R130). -/
def Txa.clear : Txa := { exchange := .idle, train := 0, gap := false, item := none }

/-- Every record fresh with r 0, the Greet List empty (R19). -/
def Ssu.clear (sid : StationId) : Ssu := { peers := freshPeers sid fun _ => 0, greetList := [] }

/-- The list empty, normal mode (R63). -/
def Cru.clear : Cru := { list := [], demand := false }

/-- Every handle UNASSIGNED, the free lists empty, WINSEL 0 (R5), with the buffer memory given. -/
def Bfm.clear (mem : List Host.Cell) : Bfm :=
  { table := Vector.replicate 128 .unassigned, txFree := [], rxFree := [], winsel := 0, mem := mem }

/-- Both lists empty (R86). -/
def Snu.clear : Snu := { sendList := [], completions := [] }

/-- No verdict, no fill, the Inbound List empty (R104). -/
def Rxu.clear : Rxu := { verdict := none, fill := none, inbound := [] }

/-- OFFLINE with the profile registers at their defaults (R141, R152). The three working values are not
used before a JOIN latches them: DESIGN CHOICE (log 17). -/
def Stc.afterPinReset (sid : StationId) (rate : BitVec 2) : Stc :=
  { state := .offline, leaveMark := false, sid := sid, rate := rate, retryReg := 1, trainReg := 1,
    reserveRegs := Vector.replicate 32 3, retryLimit := some 16, trainLimit := 2, reserveTotal := 0,
    pendingAnnounce := false, pendingLeave := false, latch := false, profileLocked := false }

/-- In-service flags clear, Peer Event List and Fault Record empty (R157), with the enables given. -/
def Atu.clear (enables : BitVec 5) : Atu :=
  { enables := enables, inService := 0, peerEvents := [], fault := none }

/-- Views, results, staging registers and selections 0, WINDOW_MISUSE clear (R152, R176). The value of
the last read cycle is 0: DESIGN CHOICE (log 9). -/
def Hpu.clear : Hpu :=
  { inSource := 0, inLength := 0, inTag := 0, inSess := 0, cTag := 0, cDest := 0, cStatus := 0,
    cAttempts := 0, peState := 0, peReason := 0, peChanges := 0, releaseResult := 0, sendResult := 0,
    commandResult := 0, sendHandle := 0, sendDest := 0, sendLength := 0, sendTag := 0, sendFlags := 0,
    peerSelect := 0, windowMisuse := false, readData := 0 }

end Sys2Proof.Machine
end

