-- ==== Sys2Proof/Machine/State.lean ====
section
/-! DEFINITION. The state of the MJ432 as plain data: the queue of commands, RESET# and the eleven
blocks; the reasons a step can stop; the state after pin reset. -/

namespace Sys2Proof.Machine

/-- The MJ432: the commands that wait, RESET# held low or not (R152), and the eleven blocks. -/
structure State where
  pending  : List Instr
  resetLow : Bool
  rif      : Rif
  ctu      : Ctu
  txa      : Txa
  ssu      : Ssu
  cru      : Cru
  bfm      : Bfm
  snu      : Snu
  rxu      : Rxu
  stc      : Stc
  atu      : Atu
  hpu      : Hpu
  deriving DecidableEq, Repr

/-- The part has no way to stop: every command it can be given has an effect, none or some, and the part
goes on (log 26). So no fault is ever raised; there is no constructor. -/
inductive Fault where
  deriving DecidableEq, Repr

/-- The model's refusals. -/
inductive Refusal where
  /-- Raised by exec alone, for a command that has no meaning yet; safe. No arm raises it now. -/
  | notModelled (mnemonic : String)
  deriving DecidableEq, Repr

/-- The machine right after pin reset (R152), with the straps and the line of Config (log 5). -/
def State.reset : State :=
  { pending := []
    resetLow := false
    rif := Rif.clear Config.resetLineActive
    ctu := Ctu.clear
    txa := Txa.clear
    ssu := Ssu.clear Config.resetSid
    cru := Cru.clear
    bfm := Bfm.clear []
    snu := Snu.clear
    rxu := Rxu.clear
    stc := Stc.afterPinReset Config.resetSid Config.resetRate
    atu := Atu.clear 0
    hpu := Hpu.clear }

end Sys2Proof.Machine
end

