-- ==== Sys2Proof/Machine/Operands.lean ====
section
/-! DEFINITION. Operand forms and layouts: arithmetic of the wrapping counters (R48), identities and
handles taken from bytes and words (R174, R175, R182), the codes of names (R184), the fields of the host
port's registers (R183), and the value that a read of each register returns (R171). -/

namespace Sys2Proof.Machine

/-! ### Wrapping counters and counts -/

/-- The distance from a to b (R48). -/
def distance (a b : Byte) : Nat := (b - a).toNat

/-- The station a source byte names; none for a value over 31 (R182). -/
def stationOf (b : Byte) : Option StationId :=
  if h : b.toNat < 32 then some ⟨b.toNat, h⟩ else none

/-- The handle a word names; none for a value over 127 (R174, R175). -/
def handleOf (w : Word) : Option Handle :=
  if h : w.toNat < 128 then some ⟨w.toNat, h⟩ else none

/-- The identity a whole word names; none for a value over 31 (R175). -/
def stationOfWord (w : Word) : Option StationId :=
  if h : w.toNat < 32 then some ⟨w.toNat, h⟩ else none

/-- The low seven bits of a word as a handle (R15). -/
def lowHandle (w : Word) : Handle := ⟨w.toNat % 128, Nat.mod_lt _ (by decide)⟩

/-- The low five bits of a word as an identity (R177). -/
def lowStation (w : Word) : StationId := ⟨w.toNat % 32, Nat.mod_lt _ (by decide)⟩

/-- A received grant: a value over 15 is taken as 15 (R24). -/
def grantTaken (grant : Byte) : Nat := min Config.creditMax grant.toNat

/-- The retry limit that a retry code gives, none for unlimited (R141). -/
def retryLimitOf (code : BitVec 2) : Option Nat :=
  if code = 0 then some 4 else if code = 1 then some 16 else if code = 2 then some 64 else none

/-- A count has reached the retry limit (R36, R78): never when the limit is unlimited. -/
def reachesLimit (limit : Option Nat) (n : Nat) : Bool :=
  match limit with
  | some l => l ≤ n
  | none => false

/-- The train limit that a train code gives (R141). -/
def trainLimitOf (code : BitVec 3) : Nat := code.toNat + 1

/-- The attempts of a Send List entry raised by one, stopping at 255 (R75). -/
def SendEntry.raised (e : SendEntry) : Nat := min 255 (e.attempts + 1)

/-- ctl_attempts raised by one, stopping at 64 (R36). -/
def Peer.raisedCtl (q : Peer) : Nat := min 64 (q.ctlAttempts + 1)

/-- The distance from acked_total to released_total (R54). -/
def Peer.unacked (q : Peer) : Nat := distance q.ackedTotal q.releasedTotal

/-- The room for a peer (R54, R91). -/
def Peer.room (q : Peer) : Nat := q.r - q.inUse - q.unacked

/-- The grant this station sends a peer (R24). -/
def Peer.grant (q : Peer) : Byte := BitVec.ofNat 8 (q.r - q.inUse)

/-- A Credit Return List entry for the peer is STARVED (R57). -/
def Peer.starved (q : Peer) : Bool := q.unacked == q.r - q.inUse

/-- A frame with these session fields belongs to the current session with the peer (R33). -/
def Peer.inSession (q : Peer) (srcSess dstSess : Byte) : Bool :=
  q.state == .isOpen && q.theirSess == some srcSess && q.mySess == dstSess

/-- The peer is OPEN with the session numbers that a frame of this station carried (R53, R61). -/
def Peer.carries (q : Peer) (c : Carried) : Bool :=
  q.state == .isOpen && q.mySess == c.srcSess && q.theirSess == some c.dstSess

/-- What a MESSAGE or CREDIT frame to the peer carries at its start (R49). The peer is OPEN then, so
their_sess holds a value. -/
def Peer.carried (q : Peer) : Carried :=
  { srcSess := q.mySess, dstSess := q.theirSess.getD 0, total := q.releasedTotal }

/-! ### Codes (R184) -/

def StationState.code : StationState → BitVec 3
  | .offline => 1
  | .listening => 2
  | .announcing => 3
  | .online => 4
  | .leaving => 5
  | .halted => 6

def PeerState.code : PeerState → BitVec 3
  | .absent => 1
  | .greeting => 2
  | .isOpen => 3
  | .lost => 4
  | .self => 5

def Reason.code : Reason → BitVec 4
  | .announced => 1
  | .heard => 2
  | .greeted => 3
  | .answered => 4
  | .staleReply => 5
  | .noCreditReply => 6
  | .protocolFault => 7
  | .greetExhausted => 8
  | .retryExhausted => 9
  | .hostRegreet => 10
  | .left => 11

def Status.code : Status → BitVec 3
  | .delivered => 1
  | .sessionReset => 2
  | .refusedNoCredit => 3
  | .retryExhausted => 4
  | .unreachable => 5
  | .peerLeft => 6
  | .withdrawn => 7

def FaultKind.code : FaultKind → BitVec 3
  | .creditOverrun => 1
  | .creditRange => 2
  | .sequence => 3
  | .duplicateId => 4

/-- The results of a command (R143, R184). -/
inductive CommandResult where
  | done | refusedState | refusedProfile | refusedPeer | refusedCommand
  deriving DecidableEq, Repr

def CommandResult.code : CommandResult → BitVec 4
  | .done => 1
  | .refusedState => 2
  | .refusedProfile => 3
  | .refusedPeer => 4
  | .refusedCommand => 5

/-- The results of a RELEASE (R10, R184). -/
inductive ReleaseResult where
  | doneRx | doneTx | badHandle
  deriving DecidableEq, Repr

def ReleaseResult.code : ReleaseResult → BitVec 4
  | .doneRx => 1
  | .doneTx => 2
  | .badHandle => 3

/-- The results of a SEND_GO (R68, R184). -/
inductive SendResult where
  | accepted | notOnline | badDest | badLength | noPeer | unreachable | listFull | badHandle
  deriving DecidableEq, Repr

def SendResult.code : SendResult → BitVec 4
  | .accepted => 1
  | .notOnline => 2
  | .badDest => 3
  | .badLength => 4
  | .noPeer => 5
  | .unreachable => 6
  | .listFull => 7
  | .badHandle => 8

/-! ### Words read at the host port (R183) -/

/-- What a pop port or TXTAKE returns when it has nothing to give, and what a refused window read
returns (R16, R183). -/
def noneWord : Word := 0xFFFF

/-- A handle as the value of a pop or a TXTAKE (R183). -/
def handleWord (h : Handle) : Word := BitVec.ofNat 16 h.val

/-- An identity as the value of a pop (R183). -/
def stationWord (p : StationId) : Word := BitVec.ofNat 16 p.val

/-- Two 8-bit fields of one word (R183). -/
def packWord (hi lo : Byte) : Word := hi ++ lo

/-- A field in the low bits of a word, the bits above it 0 (R183). -/
def fieldWord {w : Nat} (v : BitVec w) : Word := v.setWidth 16

/-- The value of STATUS (R172, R183). -/
def statusWord (s : State) : Word :=
  0#1 ++ BitVec.ofNat 5 s.ctu.lw.val ++ BitVec.ofBool s.ctu.lwKnown
    ++ BitVec.ofBool (s.ctu.kind == .rotation) ++ BitVec.ofBool s.cru.demand
    ++ BitVec.ofBool s.stc.profileLocked ++ BitVec.ofBool s.hpu.windowMisuse
    ++ BitVec.ofBool s.stc.latch ++ BitVec.ofBool s.stc.leaveMark ++ s.stc.state.code

/-- The value a read of STATE_CHANGE returns: the state, and the latch as it stands (R156, R183). -/
def stateChangeWord (s : State) : Word :=
  fieldWord (BitVec.ofBool s.stc.latch ++ 0#1 ++ s.stc.state.code)

/-- The value of PROFILE_IDENT: identity, RATE0 in bit 8 and RATE1 in bit 9 (R140, R183). -/
def identWord (s : State) : Word :=
  fieldWord (s.stc.rate ++ 0#3 ++ BitVec.ofNat 5 s.stc.sid.val)

/-- The record that the peer view shows: at the station's own identity SELF and 0 elsewhere (R18, R177). -/
def viewedPeer (s : State) : Peer :=
  if s.hpu.peerSelect = s.stc.sid then Peer.selfRecord else s.ssu.peers[s.hpu.peerSelect]

/-- The seven registers of the peer view, PV_STATE first (R177, R183). -/
def peerViewWord (q : Peer) (n : Nat) : Word :=
  if n = 0 then
    fieldWord (BitVec.ofBool q.lastRxSeq.isSome ++ BitVec.ofBool q.theirSess.isSome ++ 0#5
      ++ q.state.code)
  else if n = 1 then packWord q.mySess (q.theirSess.getD 0)
  else if n = 2 then packWord q.nextSeq (q.lastRxSeq.getD 0)
  else if n = 3 then packWord (BitVec.ofNat 8 q.creditsHeld) q.creditSeen
  else if n = 4 then packWord (BitVec.ofNat 8 q.r) (BitVec.ofNat 8 q.inUse)
  else if n = 5 then packWord q.releasedTotal q.ackedTotal
  else fieldWord (BitVec.ofNat 7 q.ctlAttempts)

/-- Two list lengths of one LIST_LEVELS register (R178). -/
def levelWord (first second : Nat) : Word := packWord (BitVec.ofNat 8 first) (BitVec.ofNat 8 second)

/-- The five registers of the fault view, FLT_KIND first; an empty record reads 0 (R166, R179). -/
def faultViewWord (f : Option FaultRecord) (n : Nat) : Word :=
  match f with
  | none => 0
  | some f =>
    if n = 0 then fieldWord f.kind.code
    else if n = 1 then stationWord f.peer
    else if n = 2 then fieldWord f.frame.code
    else if n = 3 then fieldWord f.value
    else fieldWord (BitVec.ofBool f.more)

/-- The value that a read of a register returns, for every address whose read has no effect (R171). A
write-only register, an acting port (its read is a command of its own) and an unmapped address give 0. -/
def registerWord (s : State) (addr : BitVec 9) : Word :=
  if addr = 0x100 then statusWord s
  else if addr = 0x103 then fieldWord s.hpu.commandResult
  else if addr = 0x104 then handleWord s.bfm.winsel
  else if addr = 0x10A then fieldWord s.hpu.releaseResult
  else if addr = 0x110 then s.hpu.sendHandle
  else if addr = 0x111 then s.hpu.sendDest
  else if addr = 0x112 then s.hpu.sendLength
  else if addr = 0x113 then s.hpu.sendTag
  else if addr = 0x114 then s.hpu.sendFlags
  else if addr = 0x116 then fieldWord s.hpu.sendResult
  else if addr = 0x119 then fieldWord s.hpu.inSource
  else if addr = 0x11A then fieldWord s.hpu.inLength
  else if addr = 0x11B then s.hpu.inTag
  else if addr = 0x11C then fieldWord s.hpu.inSess
  else if addr = 0x121 then s.hpu.cTag
  else if addr = 0x122 then fieldWord s.hpu.cDest
  else if addr = 0x123 then fieldWord s.hpu.cStatus
  else if addr = 0x124 then fieldWord s.hpu.cAttempts
  else if addr = 0x129 then fieldWord s.hpu.peState
  else if addr = 0x12A then fieldWord (s.hpu.peReason ++ s.hpu.peChanges)
  else if addr = 0x130 then stationWord s.hpu.peerSelect
  else if 0x131 ≤ addr.toNat ∧ addr.toNat ≤ 0x137 then
    peerViewWord (viewedPeer s) (addr.toNat - 0x131)
  else if addr = 0x142 then fieldWord s.atu.enables
  else if addr = 0x143 then fieldWord s.atu.inService
  else if 0x148 ≤ addr.toNat ∧ addr.toNat ≤ 0x14C then
    faultViewWord s.atu.fault (addr.toNat - 0x148)
  else if addr = 0x150 then fieldWord s.stc.retryReg
  else if addr = 0x151 then fieldWord s.stc.trainReg
  else if addr = 0x152 then identWord s
  else if 0x160 ≤ addr.toNat ∧ addr.toNat ≤ 0x17F then
    fieldWord s.stc.reserveRegs[addr.toNat % 32]
  else if addr = 0x180 then levelWord s.bfm.txFree.length s.bfm.rxFree.length
  else if addr = 0x181 then levelWord s.snu.sendList.length s.snu.completions.length
  else if addr = 0x182 then levelWord s.rxu.inbound.length s.atu.peerEvents.length
  else if addr = 0x183 then levelWord s.cru.list.length s.ssu.greetList.length
  else 0

/-- What a read cycle at such an address drives on D15 to D0; while RESET# is low, 0 (R152, R169). -/
def hostRead (s : State) (addr : BitVec 9) : Word :=
  if s.resetLow then 0 else registerWord s addr

end Sys2Proof.Machine
end

