-- ==== Sys2Proof/Machine/Flags.lean ====
section
/-! DEFINITION. Flags and conditions: the five attention sources, the pending source and ATN# (R158 to
R162), demand mode (R59), and the sticky flags. -/

namespace Sys2Proof.Machine

/-! ### Attention -/

/-- The condition of attention source n (R158). -/
def State.condition (s : State) (n : Fin 5) : Bool :=
  match n with
  | 0 => s.atu.fault.isSome
  | 1 => !s.atu.peerEvents.isEmpty
  | 2 => !s.snu.completions.isEmpty
  | 3 => !s.rxu.inbound.isEmpty
  | 4 => s.stc.latch

/-- No source in service is numbered n or lower (R159). -/
def aboveService (inService : BitVec 5) (n : Fin 5) : Bool :=
  (List.finRange 5).all fun m => !inService.getLsbD m.val || decide (n < m)

/-- Source n is pending: enabled, with its condition true, and numbered lower than every source in
service (R159). -/
def State.sourcePending (s : State) (n : Fin 5) : Bool :=
  s.atu.enables.getLsbD n.val && s.condition n && aboveService s.atu.inService n

/-- The lowest-numbered pending source (R160). -/
def State.pendingSource (s : State) : Option (Fin 5) := (List.finRange 5).find? s.sourcePending

/-- ATN# is asserted (R159); while RESET# is held low it is released (R157). -/
def State.atnAsserted (s : State) : Bool :=
  !s.resetLow && (List.finRange 5).any s.sourcePending

/-- The lowest-numbered source in service (R161). -/
def lowestInService (inService : BitVec 5) : Option (Fin 5) :=
  (List.finRange 5).find? fun n => inService.getLsbD n.val

/-- The flag of source n. -/
def sourceBit (n : Fin 5) : BitVec 5 := 1#5 <<< n.val

/-- A source taken into service (R160). -/
def State.setInService (s : State) (n : Fin 5) : State :=
  { s with atu := { s.atu with inService := s.atu.inService ||| sourceBit n } }

/-- A source finished (R161). -/
def State.clearInService (s : State) (n : Fin 5) : State :=
  { s with atu := { s.atu with inService := s.atu.inService &&& ~~~ sourceBit n } }

/-! ### Demand mode -/

/-- Some entry of the Credit Return List is STARVED (R57). -/
def State.anyStarved (s : State) : Bool := s.cru.list.any fun p => s.ssu.peers[p].starved

/-- The mode after an evaluation (R59). -/
def demandAfter (demand : Bool) (entries : Nat) (starved : Bool) : Bool :=
  if demand then !(entries ≤ 2 && !starved) else 6 ≤ entries || starved

/-- The Credit Unit evaluates its mode (R59). -/
def State.evalDemand (s : State) : State :=
  { s with cru := { s.cru with demand := demandAfter s.cru.demand s.cru.list.length s.anyStarved } }

/-! ### Sticky flags -/

/-- A refused window access sets WINDOW_MISUSE (R16). -/
def State.setMisuse (s : State) : State := { s with hpu := { s.hpu with windowMisuse := true } }

/-- A profile write outside OFFLINE sets PROFILE_LOCKED (R141). -/
def State.setLocked (s : State) : State := { s with stc := { s.stc with profileLocked := true } }

/-- CLEAR_FLAGS clears both sticky flags (R155). -/
def State.clearSticky (s : State) : State :=
  { s with
    hpu := { s.hpu with windowMisuse := false }
    stc := { s.stc with profileLocked := false } }

end Sys2Proof.Machine
end

