-- ==== Sys2Proof/Machine/Ops.lean ====
section
/-! DEFINITION. The shared operations: the claims that one block makes on another, the session changes
with all they hand on, completions, fills, the station changes, exchanges and trains. -/

namespace Sys2Proof.Machine

/-! ### Host port -/

/-- The value that a read cycle drives on D15 to D0 (R169). -/
def State.drive (s : State) (w : Word) : State := { s with hpu := { s.hpu with readData := w } }

/-- A host write: ignored while RESET# is held low (R152). -/
def State.onWrite (s : State) (f : State → State) : State := if s.resetLow then s else f s

/-- A host read: 0 and nothing else while RESET# is held low (R152). -/
def State.onRead (s : State) (f : State → State) : State := if s.resetLow then s.drive 0 else f s

/-- A rail event or a moment of the rail: nothing is sensed or timed while RESET# is held low (R152). -/
def State.onRail (s : State) (f : State → State) : State := if s.resetLow then s else f s

/-- The result of a command replaces the one before (R143). -/
def State.commandResult (s : State) (r : CommandResult) : State :=
  { s with hpu := { s.hpu with commandResult := r.code } }

/-! ### Buffer Manager -/

/-- The state of a handle. -/
def State.handle (s : State) (h : Handle) : HandleState := s.bfm.table[h]

/-- A handle takes a state (R1). -/
def State.setHandle (s : State) (h : Handle) (x : HandleState) : State :=
  { s with bfm := { s.bfm with table := s.bfm.table.set h x } }

/-- A handle returns to the transmit side at the tail of the TX Free List (R2, R9, R10). -/
def State.returnTx (s : State) (h : Handle) : State :=
  { s with bfm := { s.bfm with table := s.bfm.table.set h .txFree, txFree := s.bfm.txFree ++ [h] } }

/-- A handle returns to the receive side at the tail of the RX Free List (R2, R10, R13). -/
def State.returnRx (s : State) (h : Handle) : State :=
  { s with bfm := { s.bfm with table := s.bfm.table.set h .rxFree, rxFree := s.bfm.rxFree ++ [h] } }

/-- Payload bytes into a buffer from byte 0 upward (R11, R17). -/
def State.writePayload (s : State) (h : Handle) (bytes : List Byte) : State :=
  { s with bfm := { s.bfm with mem := Memory.writeBytes s.bfm.mem (bufferAddress h 0) bytes } }

/-- The pool built from the reservation total (R4): handles below 128 - R to the transmit side and the
others to the receive side, each list in ascending order; WINSEL and memory as they were. -/
def Bfm.build (b : Bfm) (total : Nat) : Bfm :=
  { b with
    table := Vector.ofFn fun h => if h.val < 128 - total then .txFree else .rxFree
    txFree := (List.finRange 128).filter fun h => h.val < 128 - total
    rxFree := (List.finRange 128).filter fun h => !decide (h.val < 128 - total) }

/-! ### Peer Table and Greet List -/

/-- The record of a station. -/
def State.peer (s : State) (p : StationId) : Peer := s.ssu.peers[p]

/-- A record takes a value (R21). -/
def State.setPeer (s : State) (p : StationId) (q : Peer) : State :=
  { s with ssu := { s.ssu with peers := s.ssu.peers.set p q } }

/-- The session zeroed, ctl_attempts kept (R22): at a GREET frame start and on entry to LOST. -/
def Peer.zeroedKeepCtl (q : Peer) : Peer :=
  { q with creditsHeld := 0, creditSeen := 0, nextSeq := 0, lastRxSeq := none, releasedTotal := 0,
           ackedTotal := 0, theirSess := none }

/-- The session zeroed with ctl_attempts (R22). -/
def Peer.zeroed (q : Peer) : Peer := { q.zeroedKeepCtl with ctlAttempts := 0 }

/-- An entry joins the Greet List at its tail, unless the peer has one (R25). -/
def State.appendGreet (s : State) (p : StationId) : State :=
  if p ∈ s.ssu.greetList then s
  else { s with ssu := { s.ssu with greetList := s.ssu.greetList ++ [p] } }

/-- The peer's entry leaves the Greet List (R25). -/
def State.removeGreet (s : State) (p : StationId) : State :=
  { s with ssu := { s.ssu with greetList := s.ssu.greetList.filter (· ≠ p) } }

/-- The peer's entry moves to the tail of the Greet List (R30). -/
def State.greetToTail (s : State) (p : StationId) : State :=
  if p ∈ s.ssu.greetList then
    { s with ssu := { s.ssu with greetList := s.ssu.greetList.filter (· ≠ p) ++ [p] } }
  else s

/-! ### Credit Return List -/

/-- An entry joins the Credit Return List at its tail, unless the peer has one, and the mode is
evaluated (R56, R59). -/
def State.addCredit (s : State) (p : StationId) : State :=
  (if p ∈ s.cru.list then s
    else { s with cru := { s.cru with list := s.cru.list ++ [p] } }).evalDemand

/-- The peer's entry, if any, leaves the Credit Return List, and the mode is evaluated (R42, R59). -/
def State.dropCredit (s : State) (p : StationId) : State :=
  ({ s with cru := { s.cru with list := s.cru.list.filter (· ≠ p) } } : State).evalDemand

/-- The peer's entry leaves its place and rejoins at the tail, and the mode is evaluated (R61). -/
def State.creditToTail (s : State) (p : StationId) : State :=
  (if p ∈ s.cru.list then
      { s with cru := { s.cru with list := s.cru.list.filter (· ≠ p) ++ [p] } }
    else s).evalDemand

/-! ### Peer events and faults -/

/-- A peer event folded into a list: the peer's entry updated where it stands (R164). -/
def foldEvent (p : StationId) (st : PeerState) (why : Reason) : List PeerEvent → List PeerEvent
  | [] => [{ peer := p, state := st, reason := why, changes := 1 }]
  | e :: rest =>
    if e.peer = p then
      { e with state := st, reason := why, changes := min 255 (e.changes + 1) } :: rest
    else e :: foldEvent p st why rest

/-- The Session Unit hands a peer event (R43, R164). -/
def State.peerEvent (s : State) (p : StationId) (st : PeerState) (why : Reason) : State :=
  { s with atu := { s.atu with peerEvents := foldEvent p st why s.atu.peerEvents } }

/-- A fault is captured when the record is empty, and otherwise sets MORE (R166, R167). -/
def State.handFault (s : State) (kind : FaultKind) (p : StationId) (frame : FrameKind) (value : Byte) :
    State :=
  { s with
    atu :=
      { s.atu with
        fault :=
          some
            (match s.atu.fault with
            | none => { kind := kind, peer := p, frame := frame, value := value, more := false }
            | some f => { f with more := true }) } }

/-! ### Completions -/

/-- A completion record joins the tail of the Completion List (R82). -/
def State.addCompletion (s : State) (e : SendEntry) (st : Status) (attempts : Nat) : State :=
  { s with
    snu :=
      { s.snu with
        completions := s.snu.completions ++
          [{ tag := e.tag, dest := e.dest, handle := e.handle, status := st, attempts := attempts }] } }

/-- What the completion of one entry does once the entry has left the Send List: its handle is returned,
and a record is appended unless the entry is QUIET and DELIVERED (R82, R84). -/
def State.completeEntry (s : State) (e : SendEntry) (st : Status) (attempts : Nat) : State :=
  if e.quiet = true ∧ st = .delivered then s.returnTx e.handle
  else (s.returnTx e.handle).addCompletion e st attempts

/-- The entries that a cause completes leave the Send List and complete in list order (R82). The cause
gives each entry it completes a status and the attempts of its record. -/
def State.completeWhere (s : State) (cause : SendEntry → Option (Status × Nat)) : State :=
  let kept := s.snu.sendList.filter fun e => (cause e).isNone
  s.snu.sendList.foldl
    (fun t e =>
      match cause e with
      | some (st, n) => t.completeEntry e st n
      | none => t)
    { s with snu := { s.snu with sendList := kept } }

/-- The attempts of an entry that a notice completes: raised by one when the notice finds it SENDING,
since a frame of the destination has then ended its exchange unanswered, else kept (R80). -/
def SendEntry.noticeAttempts (e : SendEntry) : Nat :=
  if e.phase = .sending then e.raised else e.attempts

/-- A RESTART notice: the sent entry to p completes SESSION_RESET (R80). -/
def restartCause (p : StationId) (e : SendEntry) : Option (Status × Nat) :=
  if e.dest = p ∧ e.phase ≠ .waiting then some (.sessionReset, e.noticeAttempts) else none

/-- A LOST notice: the entry named as its cause completes RETRY_EXHAUSTED, every other entry to p
UNREACHABLE (R79, R81). -/
def lostCause (p : StationId) (named : Option Handle) (e : SendEntry) : Option (Status × Nat) :=
  if e.dest = p then
    some (if named = some e.handle then .retryExhausted else .unreachable, e.noticeAttempts)
  else none

/-- A LEFT notice: every entry to p completes PEER_LEFT (R81). -/
def leftCause (p : StationId) (e : SendEntry) : Option (Status × Nat) :=
  if e.dest = p then some (.peerLeft, e.noticeAttempts) else none

/-- The LEAVE command: every entry that is not SENDING completes WITHDRAWN (R85). -/
def leaveCause (e : SendEntry) : Option (Status × Nat) :=
  if e.phase = .sending then none else some (.withdrawn, e.attempts)

/-- Entry to HALTED: every entry completes WITHDRAWN with its attempts as they stand (R86). -/
def haltedCause (e : SendEntry) : Option (Status × Nat) := some (.withdrawn, e.attempts)

/-- The entry that holds a handle completes with a status (R75 to R77, R85). -/
def entryCause (h : Handle) (st : Status) (counted : Bool) (e : SendEntry) : Option (Status × Nat) :=
  if e.handle = h ∧ e.phase = .sending then some (st, if counted then e.raised else e.attempts)
  else none

/-! ### Session changes -/

/-- A GREET to p becomes owed (R26), with what the change hands on: if p was OPEN, its Credit Return List
entry goes (R42) and, where the cause gives a RESTART notice, its sent entry completes (R41). -/
def State.greetOwed (s : State) (p : StationId) (why : Reason) (notice : Bool) : State :=
  let q := s.peer p
  let s1 := s.setPeer p { q.zeroed with mySess := q.mySess + 1, state := .greeting }
  let s2 := s1.appendGreet p
  let s3 :=
    if q.state = .isOpen then
      (if notice then (s2.dropCredit p).completeWhere (restartCause p) else s2.dropCredit p)
    else s2
  s3.peerEvent p .greeting why

/-- p becomes LOST (R37). -/
def State.becomeLost (s : State) (p : StationId) (why : Reason) (named : Option Handle) : State :=
  let q := s.peer p
  let s1 := (s.setPeer p { q.zeroedKeepCtl with state := .lost }).removeGreet p
  let s2 := if q.state = .isOpen then s1.dropCredit p else s1
  (s2.completeWhere (lostCause p named)).peerEvent p .lost why

/-- p sends LEAVE: its record becomes ABSENT unless it is so already (R40). -/
def State.peerLeft (s : State) (p : StationId) : State :=
  let q := s.peer p
  if q.state = .absent then s
  else
    let s1 := (s.setPeer p { q.zeroed with state := .absent }).removeGreet p
    let s2 := if q.state = .isOpen then s1.dropCredit p else s1
    (s2.completeWhere (leftCause p)).peerEvent p .absent .left

/-- p is heard (R38). -/
def State.hear (s : State) (p : StationId) : State :=
  if (s.peer p).state = .absent ∨ (s.peer p).state = .lost then s.greetOwed p .heard true else s

/-- An ANNOUNCE from p (R27). -/
def State.announced (s : State) (p : StationId) : State :=
  match (s.peer p).state with
  | .greeting => s.setPeer p { s.peer p with ctlAttempts := 0 }
  | .absent | .isOpen | .lost => s.greetOwed p .announced true
  | .self => s

/-- A protocol fault in a frame from p ends its session, if p is OPEN (R35). -/
def State.protocolFault (s : State) (p : StationId) : State :=
  if (s.peer p).state = .isOpen then s.greetOwed p .protocolFault true else s

/-- The session toward p opens at the greeter (R29, R42). -/
def State.openSession (s : State) (p : StationId) (sess grant : Byte) : State :=
  let q := s.peer p
  let q' := { q with state := .isOpen, theirSess := some sess, creditsHeld := grantTaken grant,
                     ctlAttempts := 0 }
  let s1 := (s.setPeer p q').removeGreet p
  let s2 := if q'.releasedTotal = q'.ackedTotal then s1 else s1.addCredit p
  s2.peerEvent p .isOpen .answered

/-- The effects of answering a GREET from p, made at the start of the GREETED reply (R31, R41, R42). -/
def State.answerGreet (s : State) (p : StationId) (sess grant : Byte) : State :=
  let q := s.peer p
  let q' := { q.zeroed with mySess := q.mySess + 1, theirSess := some sess,
                            creditsHeld := grantTaken grant, state := .isOpen }
  let s1 := (s.setPeer p q').removeGreet p
  let s2 := if q.state = .isOpen then s1.dropCredit p else s1
  (s2.completeWhere (restartCause p)).peerEvent p .isOpen .greeted

/-! ### Received credit totals, faults and replies -/

/-- A reply status is handed to the RIF (R116). -/
def State.handReply (s : State) (p : StationId) (status : ReplyStatus) : State :=
  { s with rif := { s.rif with replyDue := some { peer := p, status := status } } }

/-- A received total is out of range (R50). -/
def Peer.totalOutOfRange (q : Peer) (total : Byte) : Bool :=
  distance q.creditSeen total ≠ 0 && Config.creditMax < q.creditsHeld + distance q.creditSeen total

/-- A received total is applied: credits_held rises by the distance, which may be 0 (R50). -/
def Peer.applyTotal (q : Peer) (total : Byte) : Peer :=
  { q with creditsHeld := q.creditsHeld + distance q.creditSeen total, creditSeen := total }

/-- A credit total from p is evaluated and the frame is answered (R50 to R52, R95, R96). -/
def State.evaluateTotal (s : State) (p : StationId) (frame : FrameKind) (total : Byte) : State :=
  if (s.peer p).totalOutOfRange total then
    ((s.handFault .creditRange p frame total).protocolFault p).handReply p .stale
  else (s.setPeer p ((s.peer p).applyTotal total)).handReply p .accept

/-! ### Fills -/

/-- A fill starts with handle h, the head of the RX Free List (R11, R92). -/
def State.startFill (s : State) (p : StationId) (h : Handle) (rest : List Handle) (v : Verdict)
    (payload : List Byte) : State :=
  let q := s.peer p
  let s1 :=
    { s with
      bfm := { s.bfm with table := s.bfm.table.set h (.filling p), rxFree := rest }
      rxu :=
        { s.rxu with
          fill := some { handle := h, source := p, seq := v.seq, tag := v.tag, length := v.length,
                         sess := v.srcSess } } }
  ((s1.setPeer p { q with inUse := q.inUse + 1 }).evalDemand).writePayload h (payload.take v.length)

/-- The fill in progress, if any, is aborted (R13). -/
def State.abortFill (s : State) : State :=
  match s.rxu.fill with
  | none => s
  | some f =>
    let q := s.peer f.source
    let s1 := (s.returnRx f.handle).setPeer f.source { q with inUse := q.inUse - 1 }
    ({ s1 with rxu := { s1.rxu with fill := none } } : State).evalDemand

/-- No header verdict stands (R87). -/
def State.forgetVerdict (s : State) : State := { s with rxu := { s.rxu with verdict := none } }

/-- The verdict is dropped and a fill in progress is aborted: the frame gave no good MESSAGE (R94, R154). -/
def State.dropVerdict (s : State) : State := s.abortFill.forgetVerdict

/-- The fill in progress is posted and last_rx_seq of p takes the frame's seq (R12, R95). -/
def State.postFill (s : State) (p : StationId) (seq : Byte) : State :=
  match s.rxu.fill with
  | none => s
  | some f =>
    let s1 : State :=
      { s with
        bfm := { s.bfm with table := s.bfm.table.set f.handle (.posted f.source) }
        rxu :=
          { s.rxu with
            fill := none
            inbound := s.rxu.inbound ++
              [{ handle := f.handle, source := f.source, length := f.length, tag := f.tag,
                 sess := f.sess }] } }
    s1.setPeer p { s1.peer p with lastRxSeq := some seq }

/-! ### Contention Unit -/

/-- A good non-reply frame sets LW to its source and the kind to ROTATION; a source over 31 changes
nothing (R127). -/
def State.takeWinner (s : State) (src : Byte) : State :=
  match stationOf src with
  | some p => { s with ctu := { s.ctu with lw := p, lwKnown := true, kind := .rotation } }
  | none => s

/-- A bad frame or a collision makes the next window ORDERED (R127, R128). -/
def State.takeOrdered (s : State) : State := { s with ctu := { s.ctu with kind := .ordered } }

/-- n idle bit times pass: the idle count rises and stops at 1,024 (R107), and the slot clock follows,
256 bit times to a window (R123). -/
def State.elapse (s : State) (n : Nat) : State :=
  { s with
    rif := { s.rif with idleCount := min Config.listenTimeout (s.rif.idleCount + n) }
    ctu := { s.ctu with slotClock := s.ctu.slotClock.map fun c => (c + n) % Config.windowBits } }

/-- The idle period goes on to its n-th bit time; a period already past it stays (R107, log 3). -/
def State.elapseTo (s : State) (n : Nat) : State := s.elapse (n - s.rif.idleCount)

/-! ### Work, tier and slot -/

/-- A Send List entry's own conditions for eligibility: its destination OPEN, not SENDING, and RETRY or
WAITING with a credit (R71). -/
def SendEntry.ready (peers : Vector Peer 32) (e : SendEntry) : Bool :=
  peers[e.dest].state == .isOpen &&
    (e.phase == .retry || (e.phase == .waiting && 1 ≤ peers[e.dest].creditsHeld))

/-- The oldest eligible entry of a list whose earlier entries have the destinations `seen` (R71). -/
def firstEligible (peers : Vector Peer 32) (seen : List StationId) : List SendEntry → Option SendEntry
  | [] => none
  | e :: rest =>
    if e.dest ∉ seen ∧ e.ready peers = true then some e
    else firstEligible peers (e.dest :: seen) rest

/-- The oldest eligible Send List entry (R71). -/
def State.eligible (s : State) : Option SendEntry := firstEligible s.ssu.peers [] s.snu.sendList

/-- The work that the Transmit Arbiter may choose (R131). -/
inductive Work where
  | announce
  | leave
  | greet (p : StationId)
  | credit (p : StationId)
  | message (e : SendEntry)
  deriving DecidableEq, Repr

/-- The choice of frame (R131). With the leave mark set the station starts no frame of its own (R148). -/
def State.choose (s : State) : Option Work :=
  match s.stc.state with
  | .announcing => if s.stc.pendingAnnounce && !s.stc.leaveMark then some .announce else none
  | .leaving => if s.stc.pendingLeave then some .leave else none
  | .online =>
    if s.stc.leaveMark then none
    else
      match s.ssu.greetList, s.cru.demand, s.cru.list, s.eligible with
      | p :: _, _, _, _ => some (.greet p)
      | [], true, p :: _, _ => some (.credit p)
      | [], _, _, some e => some (.message e)
      | [], _, p :: _, none => some (.credit p)
      | [], _, [], none => none
  | .offline | .listening | .halted => none

/-- The tier in which the station contends, urgent or not, by the work it holds; none when it does not
contend (R124). -/
def State.tier (s : State) : Option Bool :=
  if s.txa.exchange = .idle ∧ s.txa.gap = false then
    match s.choose with
    | some .announce | some .leave | some (.greet _) => some true
    | some (.credit _) => some s.cru.demand
    | some (.message _) => some false
    | none => none
  else none

/-- The slot index of identity s (R125). -/
def slotIndex (kind : WindowKind) (sid lw : StationId) : Nat :=
  match kind with
  | .rotation => (sid - lw - 1 : Fin 32).val
  | .ordered => sid.val

/-- A contention window begins at this bit time: the slot clock runs from 0, and the station decides its
tier and slot (R123 to R125). -/
def State.beginWindow (s : State) : State :=
  { s with
    ctu :=
      { s.ctu with
        slotClock := some 0
        slot := s.tier.map fun urgent =>
          (if urgent then 0 else 32) + slotIndex s.ctu.kind s.stc.sid s.ctu.lw } }

/-! ### Transmissions -/

/-- A transmission starts: the line is BUSY, the window and the idle period end, and a reply that was due
is not sent (R107, R114, R117, R123). -/
def State.transmit (s : State) (f : Frame) : State :=
  { s with
    rif := { line := .busy, idleCount := 0, reception := none, transmit := some f, replyDue := none,
             broken := none }
    ctu := { s.ctu with slotClock := none, slot := none } }

/-- The Transmit Arbiter records the item of a frame that starts (R132). -/
def State.arbiterStarts (s : State) (item : Item) (train : Nat) : State :=
  { s with txa := { exchange := .transmitting, train := train, gap := false, item := some item } }

/-- The entry that holds a handle becomes SENDING with a seq (R73). -/
def State.entrySending (s : State) (h : Handle) (seq : Byte) : State :=
  { s with
    snu :=
      { s.snu with
        sendList := s.snu.sendList.map fun e =>
          if e.handle = h then { e with seq := some seq, phase := .sending } else e } }

/-- The first-attempt claims: next_seq advances and one credit is spent (R47). -/
def Peer.firstAttempt (q : Peer) : Peer :=
  { q with nextSeq := q.nextSeq + 1, creditsHeld := q.creditsHeld - 1 }

/-- The chosen frame starts, with the effects its owner makes at the frame start (R28, R60, R73, R132). -/
def State.startWork (s : State) (w : Work) (train : Nat) : State :=
  let me := s.stc.sid
  match w with
  | .announce => (s.arbiterStarts .announce train).transmit (.announce me)
  | .leave => (s.arbiterStarts .leave train).transmit (.leave me)
  | .greet p =>
    let q := s.peer p
    ((s.setPeer p q.zeroedKeepCtl).arbiterStarts (.greet p) train).transmit
      (.greet me p q.mySess q.grant)
  | .credit p =>
    let c := (s.peer p).carried
    (s.arbiterStarts (.credit p c) train).transmit (.credit me p c)
  | .message e =>
    let q := s.peer e.dest
    let first := e.phase == .waiting
    let seq := if first then q.nextSeq else e.seq.getD 0
    let s1 := if first then s.setPeer e.dest q.firstAttempt else s
    ((s1.entrySending e.handle seq).arbiterStarts (.message e.handle e.dest q.carried) train).transmit
      (.message me e.dest q.carried seq e.tag (Memory.buffer s.bfm.mem e.handle e.length))

/-! ### The end of a train, the station's changes -/

/-- The Transmit Arbiter is IDLE with no train, no gap and no item (R130, R138). -/
def State.arbiterIdle (s : State) : State := { s with txa := Txa.clear }

/-- The decision on the train after an outcome (R136, R138). -/
def State.decideTrain (s : State) (answered : Bool) : State :=
  if answered = true ∧ s.txa.train < s.stc.trainLimit ∧ s.choose.isSome = true then
    { s with txa := { s.txa with exchange := .idle, gap := true, item := none } }
  else s.arbiterIdle

/-- The station's part in the line is settled (R148). -/
def State.settled (s : State) : Bool :=
  s.txa.exchange == .idle && s.rif.reception.isNone && s.rif.replyDue.isNone && s.rif.transmit.isNone

/-- Every record other than SELF ABSENT with its session zeroed, my_sess, r and in_use kept (R44). -/
def forgetPeers (sid : StationId) (peers : Vector Peer 32) : Vector Peer 32 :=
  Vector.ofFn fun p => if p = sid then peers[p] else { peers[p].zeroed with state := .absent }

/-- The station enters LEAVING (R149). -/
def State.enterLeaving (s : State) : State :=
  { s with
    ssu := { peers := forgetPeers s.stc.sid s.ssu.peers, greetList := [] }
    cru := Cru.clear
    stc := { s.stc with state := .leaving, leaveMark := false, pendingLeave := true } }

/-- With the leave mark set in ONLINE, the station enters LEAVING once its part is settled (R148). -/
def State.settleLeave (s : State) : State :=
  if s.stc.state = .online ∧ s.stc.leaveMark = true ∧ s.settled = true then s.enterLeaving else s

/-- The station enters HALTED (R154). -/
def State.enterHalted (s : State) : State :=
  let t := (s.arbiterIdle.completeWhere haltedCause).dropVerdict
  { t with
    rif := { t.rif with transmit := none, replyDue := none }
    stc := { t.stc with state := .halted, leaveMark := false, pendingAnnounce := false,
                        pendingLeave := false, latch := true } }

/-- Listening ends in ANNOUNCING (R145). -/
def State.endListening (s : State) : State :=
  if s.stc.state = .listening then
    { s with stc := { s.stc with state := .announcing, pendingAnnounce := true } }
  else s

/-! ### Outcomes of exchanges -/

/-- An ACCEPT of a MESSAGE or CREDIT frame to p (R53, R36). -/
def State.acceptTotal (s : State) (p : StationId) (c : Carried) : State :=
  let q := s.peer p
  if q.carries c then
    let q' := { q with ackedTotal := c.total, ctlAttempts := 0 }
    if q'.ackedTotal = q'.releasedTotal then (s.setPeer p q').dropCredit p
    else (s.setPeer p q').evalDemand
  else s.setPeer p { q with ctlAttempts := 0 }

/-- A STALE or NO_CREDIT reply ends the session, if p is OPEN (R34). -/
def State.refusedReply (s : State) (p : StationId) (why : Reason) (notice : Bool) : State :=
  if (s.peer p).state = .isOpen then s.greetOwed p why notice else s

/-- The outcome of a GREET exchange (R29, R30). -/
def State.greetOutcome (s : State) (p : StationId) (r : Option ReplyStatus) : State :=
  let q := s.peer p
  match r with
  | some (.greeted sess grant) => if q.state = .greeting then s.openSession p sess grant else s
  | some .accept | some .stale | some .noCredit | none =>
    if q.state = .greeting ∧ p ∈ s.ssu.greetList then
      let s1 := (s.setPeer p { q with ctlAttempts := q.raisedCtl }).greetToTail p
      if reachesLimit s.stc.retryLimit q.raisedCtl then s1.becomeLost p .greetExhausted none else s1
    else s

/-- The outcome of a CREDIT exchange (R61). -/
def State.creditOutcome (s : State) (p : StationId) (c : Carried) (r : Option ReplyStatus) : State :=
  let q := s.peer p
  match r with
  | some .accept => s.acceptTotal p c
  | some .stale => s.refusedReply p .staleReply true
  | some .noCredit | some (.greeted _ _) | none =>
    if q.carries c then
      let s1 := (s.setPeer p { q with ctlAttempts := q.raisedCtl }).creditToTail p
      if reachesLimit s.stc.retryLimit q.raisedCtl then s1.becomeLost p .retryExhausted none else s1
    else s

/-- The entry that is SENDING from a handle. -/
def State.sendingEntry (s : State) (h : Handle) : Option SendEntry :=
  s.snu.sendList.find? fun e => e.handle = h ∧ e.phase = .sending

/-- The entry that is SENDING from a handle goes to RETRY with its attempts as given (R74, R78). -/
def State.entryRetry (s : State) (h : Handle) (counted : Bool) : State :=
  { s with
    snu :=
      { s.snu with
        sendList := s.snu.sendList.map fun e =>
          if e.handle = h ∧ e.phase = .sending then
            { e with phase := .retry, attempts := if counted then e.raised else e.attempts }
          else e } }

/-- An unanswered MESSAGE exchange with entry e (R78, R79). -/
def State.messageUnanswered (s : State) (e : SendEntry) : State :=
  if reachesLimit s.stc.retryLimit e.raised then
    s.becomeLost e.dest .retryExhausted (some e.handle)
  else s.entryRetry e.handle true

/-- The outcome of a MESSAGE exchange (R75 to R79), and with the leave mark set (R85): the entry completes
DELIVERED on ACCEPT and WITHDRAWN on any other outcome, with no check of the retry limit. -/
def State.messageOutcome (s : State) (h : Handle) (p : StationId) (c : Carried)
    (r : Option ReplyStatus) : State :=
  match r with
  | some .accept => (s.completeWhere (entryCause h .delivered true)).acceptTotal p c
  | some .stale =>
    (s.completeWhere (entryCause h (if s.stc.leaveMark then .withdrawn else .sessionReset) true)).refusedReply
      p .staleReply true
  | some .noCredit =>
    (s.completeWhere
        (entryCause h (if s.stc.leaveMark then .withdrawn else .refusedNoCredit) true)).refusedReply
      p .noCreditReply false
  | some (.greeted _ _) | none =>
    if s.stc.leaveMark then s.completeWhere (entryCause h .withdrawn true)
    else
      match s.sendingEntry h with
      | some e => s.messageUnanswered e
      | none => s

/-- The outcome handed to the owner of the item (R119, R133). A broadcast is handed no reply. -/
def State.applyOutcome (s : State) (item : Item) (r : Option ReplyStatus) : State :=
  match item with
  | .greet p => s.greetOutcome p r
  | .credit p c => s.creditOutcome p c r
  | .message h p c => s.messageOutcome h p c r
  | .announce | .leave => s

/-- The outcome answered the frame (R136). -/
def answers (item : Item) (r : Option ReplyStatus) : Bool :=
  match item, r with
  | .greet _, some (.greeted _ _) => true
  | .credit _ _, some .accept => true
  | .credit _ _, some .stale => true
  | .message _ _ _, some .accept => true
  | .message _ _ _, some .stale => true
  | .message _ _ _, some .noCredit => true
  | .announce, _ => true
  | _, _ => false

/-- The exchange ends with an outcome: its owner applies it, the arbiter returns to IDLE with no item, a
station that waited to leave enters LEAVING, and the train is decided (R133, R136, R148). -/
def State.finishExchange (s : State) (r : Option ReplyStatus) : State :=
  match s.txa.item with
  | none => s
  | some item =>
    let s1 := s.applyOutcome item r
    let s2 := { s1 with txa := { s1.txa with exchange := .idle, item := none } }
    s2.settleLeave.decideTrain (answers item r)

/-- What a frame end does last: it ends a reply await with its outcome, and a station that waits to leave
enters LEAVING if its part is settled (R118, R119, R148). -/
def State.endAwait (s : State) (r : Option ReplyStatus) : State :=
  if s.txa.exchange = .awaitReply then s.finishExchange r else s.settleLeave

/-! ### Frame ends -/

/-- A reception ends: the line is IDLE and that bit time is the first of the idle period (R107, R111). -/
def State.lineFree (s : State) : State :=
  { s with rif := { s.rif with line := .idle, idleCount := 1, reception := none, broken := none } }

/-- A frame end can be handed: of the reception in assembly, or of the one that a RESTART has just broken
off, when the two reach the station together and the RESTART is taken first (R113, R151, log 30). -/
def Rif.endsReception (r : Rif) : Bool :=
  r.reception.isSome || r.broken == some (.reception false) || r.broken == some (.reception true)

/-- A good frame with this source is a duplicate identity (R153). -/
def State.isDuplicate (s : State) (src : Byte) : Bool :=
  stationOf src == some s.stc.sid &&
    (s.stc.state == .listening || s.stc.state == .announcing || s.stc.state == .online
      || s.stc.state == .leaving)

/-- What a good frame of a known kind does at its end beside its effect in ONLINE (R127, R145, R153). -/
def State.goodFrame (s : State) (src : Byte) (kind : FrameKind) (effect : State → State)
    (outcome : Option ReplyStatus) : State :=
  let s1 := s.lineFree
  let s2 := if kind = .reply then s1 else s1.takeWinner src
  if s2.isDuplicate src then (s2.handFault .duplicateId s2.stc.sid kind 0).enterHalted
  else
    let s3 := if kind ≠ .reply ∧ (stationOf src).isSome = true then s2.endListening else s2
    let s4 := if s3.stc.state = .online then effect s3 else s3.dropVerdict
    s4.endAwait outcome

/-- A frame end is handed for a reception and at no other time (R113, R151, log 4). -/
def State.onReception (s : State) (f : State → State) : State :=
  s.onRail fun t => if t.rif.endsReception then f t else t

/-- p is heard, if the source byte names a station (R38, R182). -/
def State.hearSource (s : State) (src : Byte) : State :=
  match stationOf src with
  | some p => s.hear p
  | none => s

/-- The RXU acts on the verdict of a MESSAGE that ends good (R95 to R101). -/
def State.actOnVerdict (s : State) : State :=
  match s.rxu.verdict with
  | none => s
  | some v =>
    let s0 := s.forgetVerdict
    match stationOf v.source with
    | none => s0
    | some p =>
      match v.cls with
      | .ignored => s0
      | .outside => s0.handReply p .stale
      | .sequence => ((s0.handFault .sequence p .message v.seq).protocolFault p).handReply p .stale
      | .overrun =>
        ((s0.handFault .creditOverrun p .message v.seq).protocolFault p).handReply p .noCredit
      | .duplicate => s0.evaluateTotal p .message v.total
      | .admitted => (s0.postFill p v.seq).evaluateTotal p .message v.total

/-- A good MESSAGE in ONLINE: the RXU acts, no fill outlives the frame, then the source is heard (R38,
R87, R100). -/
def State.messageEffect (src : Byte) (s : State) : State :=
  s.actOnVerdict.dropVerdict.hearSource src

/-- A good CREDIT in ONLINE (R38, R52). -/
def State.creditEffect (src : Byte) (dst : StationId) (srcSess dstSess total : Byte) (s : State) :
    State :=
  let s0 := s.dropVerdict
  match stationOf src with
  | none => s0
  | some p =>
    if dst = s0.stc.sid then
      if (s0.peer p).inSession srcSess dstSess then s0.evaluateTotal p .credit total
      else (s0.handReply p .stale).hear p
    else s0.hear p

/-- A good GREET in ONLINE: answered when addressed to this station, otherwise its source is heard
(R31, R38). -/
def State.greetEffect (src : Byte) (dst : StationId) (sess grant : Byte) (s : State) : State :=
  let s0 := s.dropVerdict
  match stationOf src with
  | none => s0
  | some p => if dst = s0.stc.sid then s0.handReply p (.greeted sess grant) else s0.hear p

/-- A good ANNOUNCE in ONLINE (R27). -/
def State.announceEffect (src : Byte) (s : State) : State :=
  match stationOf src with
  | none => s.dropVerdict
  | some p => s.dropVerdict.announced p

/-- A good LEAVE in ONLINE (R40). -/
def State.leaveEffect (src : Byte) (s : State) : State :=
  match stationOf src with
  | none => s.dropVerdict
  | some p => s.dropVerdict.peerLeft p

/-- A good REPLY in ONLINE (R38). -/
def State.replyEffect (src : Byte) (s : State) : State := s.dropVerdict.hearSource src

/-- The destination of the frame whose reply is awaited. -/
def Item.dest? : Item → Option StationId
  | .greet p => some p
  | .credit p _ => some p
  | .message _ p _ => some p
  | .announce => none
  | .leave => none

/-- The outcome that a good REPLY brings to the exchange in progress: its status when it comes from the
destination of the frame and is addressed to this station, else no reply (R118, R119). -/
def State.replyOutcome (s : State) (src : Byte) (dst : StationId) (status sess grant : Byte) :
    Option ReplyStatus :=
  if (s.txa.item.bind Item.dest?).isSome = true ∧ stationOf src = s.txa.item.bind Item.dest?
      ∧ dst = s.stc.sid then
    ReplyStatus.ofBytes status sess grant
  else none

/-! ### MESSAGE headers -/

/-- The sequence check (R90): the class it decides, none for a new message. -/
def sequenceCheck (last : Option Byte) (seq : Byte) : Option VerdictClass :=
  match last with
  | some v => if seq = v then some .duplicate else if seq = v + 1 then none else some .sequence
  | none => if seq = 0 then none else some .sequence

/-- The class of an examined header from station p: the checks in order (R89 to R91). The room check
admits with room 1 or more; R54 makes the RX Free List non-empty then (log 16). -/
def State.judge (s : State) (p : StationId) (h : MessageHeader) : VerdictClass :=
  let q := s.peer p
  if q.inSession h.srcSess h.dstSess then
    match sequenceCheck q.lastRxSeq h.seq with
    | some cls => cls
    | none => if 1 ≤ q.room ∧ s.bfm.rxFree ≠ [] then .admitted else .overrun
  else .outside

/-- The verdict on a header with the class given (R87). -/
def verdictOf (h : MessageHeader) (cls : VerdictClass) : Verdict :=
  { source := h.src, srcSess := h.srcSess, dstSess := h.dstSess, seq := h.seq, total := h.creditTotal,
    tag := h.tag, length := h.length, cls := cls }

/-- The class of an examined header (R88, R89). -/
def State.headerClass (s : State) (h : MessageHeader) : VerdictClass :=
  match stationOf h.src with
  | none => .ignored
  | some p =>
    if s.stc.state ≠ .online ∨ s.stc.leaveMark = true ∨ p = s.stc.sid then .ignored else s.judge p h

/-- The end of a MESSAGE header: the RXU examines it if its version is 1 and its destination is the
station's own identity, and an ADMITTED verdict starts a fill (R88, R89, R92). At most one handle is
FILLING (R11): no fill is in progress when a header arrives. -/
def State.takeHeader (s : State) (h : MessageHeader) (payload : List Byte) : State :=
  let s0 : State := { s with rif := { s.rif with reception := some { headerSeen := true } } }
  if h.version = 1 ∧ stationOf h.dst = some s.stc.sid then
    let v := verdictOf h (s.headerClass h)
    let s1 : State := { s0 with rxu := { s0.rxu with verdict := some v } }
    match v.cls, stationOf h.src, s1.bfm.rxFree, s1.rxu.fill with
    | .admitted, some p, f :: rest, none => s1.startFill p f rest v payload
    | _, _, _, _ => s1
  else s0

/-- A MESSAGE header that reaches the station together with a RESTART taken first finds it OFFLINE, where
every header is IGNORED (R88, R151). The reception has been dropped, so the verdict stands until the line turns
IDLE, where its frame ends (R87, R111). -/
def State.takeBrokenHeader (s : State) (h : MessageHeader) : State :=
  let s0 : State := { s with rif := { s.rif with broken := none } }
  if h.version = 1 ∧ stationOf h.dst = some s.stc.sid then
    { s0 with rxu := { s0.rxu with verdict := some (verdictOf h .ignored) } }
  else s0

/-! ### Resets -/

/-- The part after the release of RESET# (R152): every block in its pin-reset state, the straps sampled,
buffer memory zeroed. The queue of commands is outside the part. -/
def State.afterPinReset (s : State) (sid : StationId) (rate : BitVec 2) (lineActive : Bool) : State :=
  { pending := s.pending
    resetLow := false
    rif := Rif.clear lineActive
    ctu := Ctu.clear
    txa := Txa.clear
    ssu := Ssu.clear sid
    cru := Cru.clear
    bfm := Bfm.clear []
    snu := Snu.clear
    rxu := Rxu.clear
    stc := Stc.afterPinReset sid rate
    atu := Atu.clear 0
    hpu := Hpu.clear }

/-- What RESTART breaks off of the frame on the line (R121, R151). -/
def Rif.brokenOff (r : Rif) : Option Broken :=
  match r.transmit, r.reception with
  | some f, _ => some (.own f.kind)
  | none, some x => some (.reception x.headerSeen)
  | none, none => none

/-- The blocks as RESTART leaves them (R151, R152): straps, profile registers, attention enables and
buffer memory kept, the line taken from the line itself, the frame on it broken off; the value of the last
read cycle is no state of a block and stays. -/
def State.afterRestart (s : State) : State :=
  { s with
    rif := { Rif.clear (s.rif.line == .busy) with broken := s.rif.brokenOff }
    ctu := Ctu.clear
    txa := Txa.clear
    ssu := Ssu.clear s.stc.sid
    cru := Cru.clear
    bfm := Bfm.clear s.bfm.mem
    snu := Snu.clear
    rxu := Rxu.clear
    stc :=
      { s.stc with state := .offline, leaveMark := false, pendingAnnounce := false,
                   pendingLeave := false, latch := false, profileLocked := false }
    atu := Atu.clear s.atu.enables
    hpu := { Hpu.clear with readData := s.hpu.readData } }

/-- The reservation total R of the profile registers over the 31 other identities (R144). -/
def reserveSum (sid : StationId) (regs : Vector (BitVec 4) 32) : Nat :=
  ((List.finRange 32).map fun p => if p = sid then 0 else (regs[p]).toNat).sum

/-- JOIN accepted: every block rebuilds its state from the profile latched (R142, R144). The slot clock
stays (R122); a slot left from before is no longer the station's (R129, log 21), and no event that came with
an earlier RESTART is still to be taken (log 30). -/
def State.joined (s : State) : State :=
  let total := reserveSum s.stc.sid s.stc.reserveRegs
  { s with
    rif := { s.rif with broken := none }
    ctu := { s.ctu with lw := 0, lwKnown := false, kind := .ordered, slot := none }
    ssu := { peers := freshPeers s.stc.sid fun p => (s.stc.reserveRegs[p]).toNat, greetList := [] }
    cru := Cru.clear
    bfm := s.bfm.build total
    snu := Snu.clear
    rxu := Rxu.clear
    stc :=
      { s.stc with state := .listening, retryLimit := retryLimitOf s.stc.retryReg,
                   trainLimit := trainLimitOf s.stc.trainReg, reserveTotal := total }
    atu := { s.atu with peerEvents := [] }
    hpu :=
      { s.hpu with inSource := 0, inLength := 0, inTag := 0, inSess := 0, cTag := 0, cDest := 0,
                   cStatus := 0, cAttempts := 0, peState := 0, peReason := 0, peChanges := 0,
                   commandResult := CommandResult.done.code } }

end Sys2Proof.Machine
end

