-- ==== Sys2Proof/Machine/AttentionPorts.lean ====
section
/-! DEFINITION. The attention ports and STATE_CHANGE (R156, R158, R160, R161). -/

namespace Sys2Proof.Machine

/-- The lowest-numbered pending source is taken into service and returned; 7 when none is (R160). -/
def State.takeSource (s : State) : State :=
  match s.pendingSource with
  | none => s.drive 7
  | some n => (s.setInService n).drive (BitVec.ofNat 16 n.val)

/-- ATTENTION_READ (R160). -/
def execAttentionRead (s : State) : Host.Outcome State Fault Refusal :=
  .next (s.onRead State.takeSource)

/-- The lowest-numbered source in service is finished (R161). -/
def State.finishSource (s : State) : State :=
  match lowestInService s.atu.inService with
  | none => s
  | some n => s.clearInService n

/-- FINISH_WRITE (R161): the word written is ignored. -/
def execFinishWrite (_word : Word) (s : State) : Host.Outcome State Fault Refusal :=
  .next (s.onWrite State.finishSource)

/-- The state and the latch are returned and the latch is cleared (R156). -/
def State.takeStateChange (s : State) : State :=
  ({ s with stc := { s.stc with latch := false } } : State).drive (stateChangeWord s)

/-- STATE_CHANGE_READ (R156). -/
def execStateChangeRead (s : State) : Host.Outcome State Fault Refusal :=
  .next (s.onRead State.takeStateChange)

/-- All five enables are replaced (R158). -/
def State.setEnables (s : State) (w : Word) : State :=
  { s with atu := { s.atu with enables := w.extractLsb' 0 5 } }

/-- ATTN_ENABLE_WRITE (R158). -/
def execAttnEnableWrite (word : Word) (s : State) : Host.Outcome State Fault Refusal :=
  .next (s.onWrite fun t => t.setEnables word)

end Sys2Proof.Machine
end

