-- ==== Sys2Proof/Machine/BufferPorts.lean ====
section
/-! DEFINITION. The buffer ports: TXTAKE, RELEASE and the buffer window (R7, R10, R16, R174). -/

namespace Sys2Proof.Machine

/-! ### TXTAKE -/

/-- The oldest handle of the TX Free List becomes COMPOSING and is returned; 0xFFFF when there is none (R7). -/
def State.takeTx (s : State) : State :=
  match s.bfm.txFree with
  | [] => s.drive noneWord
  | h :: rest =>
    ({ s with bfm := { s.bfm with table := s.bfm.table.set h .composing, txFree := rest } } : State).drive
      (handleWord h)

/-- TXTAKE_READ (R7). -/
def execTxtakeRead (s : State) : Host.Outcome State Fault Refusal := .next (s.onRead State.takeTx)

/-! ### RELEASE -/

/-- The result of a RELEASE replaces the one before (R10). -/
def State.releaseResult (s : State) (r : ReleaseResult) : State :=
  { s with hpu := { s.hpu with releaseResult := r.code } }

/-- A HELD buffer of p is given back: the handle returns to the receive side, in_use of p falls and its
released_total advances, and an OPEN p has a Credit Return List entry (R10, R55). -/
def State.releaseHeld (s : State) (h : Handle) (p : StationId) : State :=
  let q := s.peer p
  let s1 :=
    (s.returnRx h).setPeer p { q with inUse := q.inUse - 1, releasedTotal := q.releasedTotal + 1 }
  if q.state = .isOpen then s1.addCredit p else s1

/-- A write to RELEASE (R10). -/
def State.release (s : State) (w : Word) : State :=
  match handleOf w with
  | none => s.releaseResult .badHandle
  | some h =>
    match s.handle h with
    | .held p => (s.releaseHeld h p).releaseResult .doneRx
    | .composing => (s.returnTx h).releaseResult .doneTx
    | .unassigned | .txFree | .queued | .rxFree | .filling _ | .posted _ => s.releaseResult .badHandle

/-- RELEASE_WRITE (R10). -/
def execReleaseWrite (word : Word) (s : State) : Host.Outcome State Fault Refusal :=
  .next (s.onWrite fun t => t.release word)

/-! ### WINDOW -/

/-- A window read is served in this state of the selected handle (R16). -/
def HandleState.readable : HandleState → Bool
  | .composing | .posted _ | .held _ => true
  | .unassigned | .txFree | .queued | .rxFree | .filling _ => false

/-- Word k of the window: byte 2k high, byte 2k + 1 low (R183). -/
def State.windowWord (s : State) (k : BitVec 7) : Word :=
  packWord (Memory.read s.bfm.mem (bufferAddress s.bfm.winsel (2 * k.toNat)))
    (Memory.read s.bfm.mem (bufferAddress s.bfm.winsel (2 * k.toNat + 1)))

/-- A window read: the word, or 0xFFFF with WINDOW_MISUSE set (R16). -/
def State.readWindow (s : State) (k : BitVec 7) : State :=
  if (s.handle s.bfm.winsel).readable then s.drive (s.windowWord k) else s.setMisuse.drive noneWord

/-- WINDOW_READ (R16). -/
def execWindowRead (k : BitVec 7) (s : State) : Host.Outcome State Fault Refusal :=
  .next (s.onRead fun t => t.readWindow k)

/-- A window write: both bytes are stored into a COMPOSING buffer; otherwise WINDOW_MISUSE is set (R16). -/
def State.writeWindow (s : State) (k : BitVec 7) (w : Word) : State :=
  if s.handle s.bfm.winsel = .composing then
    { s with
      bfm :=
        { s.bfm with
          mem := Memory.writeBytes s.bfm.mem (bufferAddress s.bfm.winsel (2 * k.toNat))
            [w.extractLsb' 8 8, w.extractLsb' 0 8] } }
  else s.setMisuse

/-- WINDOW_WRITE (R16). -/
def execWindowWrite (k : BitVec 7) (word : Word) (s : State) : Host.Outcome State Fault Refusal :=
  .next (s.onWrite fun t => t.writeWindow k word)

end Sys2Proof.Machine
end

