-- ==== Sys2Proof/Machine/Commands.lean ====
section
/-! DEFINITION. The host's commands (R143, R173). -/

namespace Sys2Proof.Machine

/-! ### JOIN -/

/-- JOIN (R143 to R145): with the line silent for the whole listen timeout, listening ends at once. -/
def State.join (s : State) : State :=
  if s.stc.state ≠ .offline then s.commandResult .refusedState
  else if Config.reserveMax < reserveSum s.stc.sid s.stc.reserveRegs then s.commandResult .refusedProfile
  else if s.rif.line = .idle ∧ s.rif.idleCount = Config.listenTimeout then s.joined.endListening
  else s.joined

/-- JOIN (R144). -/
def execJoin (s : State) : Host.Outcome State Fault Refusal := .next (s.onWrite State.join)

/-! ### LEAVE -/

/-- The station's ANNOUNCE is on the line. -/
def State.announceOnLine (s : State) : Bool :=
  match s.rif.transmit with
  | some (.announce _) => true
  | _ => false

/-- A station not yet seen goes OFFLINE at once; the latch is not set (R147). -/
def State.leaveUnseen (s : State) : State :=
  { s with stc := { s.stc with state := .offline, leaveMark := false, pendingAnnounce := false } }

/-- The leave mark is set (R147, R148). -/
def State.markLeave (s : State) : State := { s with stc := { s.stc with leaveMark := true } }

/-- LEAVE (R143, R147, R148). -/
def State.leave (s : State) : State :=
  if s.stc.leaveMark then s.commandResult .refusedState
  else
    match s.stc.state with
    | .listening => s.leaveUnseen.commandResult .done
    | .announcing =>
      (if s.announceOnLine then s.markLeave else s.leaveUnseen).commandResult .done
    | .online => ((s.completeWhere leaveCause).markLeave.settleLeave).commandResult .done
    | .offline | .leaving | .halted => s.commandResult .refusedState

/-- LEAVE (R148). -/
def execLeave (s : State) : Host.Outcome State Fault Refusal := .next (s.onWrite State.leave)

/-! ### RESTART and the others -/

/-- RESTART (R151): COMMAND_RESULT reads 0 after it. -/
def execRestart (s : State) : Host.Outcome State Fault Refusal := .next (s.onWrite State.afterRestart)

/-- REGREET (R39, R173): the peer field is read whole, 0 to 63. -/
def State.regreet (s : State) (peer : BitVec 6) : State :=
  if s.stc.state ≠ .online then s.commandResult .refusedState
  else
    match stationOf (peer.setWidth 8) with
    | none => s.commandResult .refusedPeer
    | some p =>
      if (s.peer p).state = .lost then (s.greetOwed p .hostRegreet false).commandResult .done
      else s.commandResult .refusedPeer

/-- REGREET (R39). -/
def execRegreet (peer : BitVec 6) (s : State) : Host.Outcome State Fault Refusal :=
  .next (s.onWrite fun t => t.regreet peer)

/-- The Fault Record is emptied with its MORE flag (R168). -/
def State.emptyFault (s : State) : State := { s with atu := { s.atu with fault := none } }

/-- CLEAR_FAULT (R155, R168). -/
def execClearFault (s : State) : Host.Outcome State Fault Refusal :=
  .next (s.onWrite fun t => t.emptyFault.commandResult .done)

/-- CLEAR_FLAGS (R155). -/
def execClearFlags (s : State) : Host.Outcome State Fault Refusal :=
  .next (s.onWrite fun t => t.clearSticky.commandResult .done)

/-- A code that names no command (R143, R173). -/
def execUnusedCommandCode (_code : BitVec 4) (s : State) : Host.Outcome State Fault Refusal :=
  .next (s.onWrite fun t => t.commandResult .refusedCommand)

end Sys2Proof.Machine
end

