-- ==== Sys2Proof/Machine/FrameEnds.lean ====
section
/-! DEFINITION. What the Rail Interface hands of frames that others send: MESSAGE headers and frame ends
(R89, R100, R111 to R113, R119). -/

namespace Sys2Proof.Machine

/-- A MESSAGE header is handed once in a reception (R113), or with a RESTART that has just broken the
reception off (R151). -/
def State.headerArrives (s : State) (h : MessageHeader) (payload : List Byte) : State :=
  if s.rif.reception = some { headerSeen := false } then s.takeHeader h payload
  else if s.rif.broken = some (.reception false) then s.takeBrokenHeader h
  else s

/-- MESSAGE_HEADER (R89): `payload` is the bytes that follow in this frame (log 7). -/
def execMessageHeader (h : MessageHeader) (payload : List Byte) (s : State) :
    Host.Outcome State Fault Refusal :=
  .next (s.onRail fun t => t.headerArrives h payload)

/-- MESSAGE_FRAME_END (R100). -/
def execMessageFrameEnd (src : Byte) (_dst : StationId) (s : State) : Host.Outcome State Fault Refusal :=
  .next (s.onReception fun t => t.goodFrame src .message (State.messageEffect src) none)

/-- CREDIT_FRAME_END (R52). -/
def execCreditFrameEnd (src : Byte) (dst : StationId) (srcSess dstSess creditTotal : Byte) (s : State) :
    Host.Outcome State Fault Refusal :=
  .next (s.onReception fun t =>
    t.goodFrame src .credit (State.creditEffect src dst srcSess dstSess creditTotal) none)

/-- GREET_FRAME_END (R31, R38). -/
def execGreetFrameEnd (src : Byte) (dst : StationId) (sess grant : Byte) (s : State) :
    Host.Outcome State Fault Refusal :=
  .next (s.onReception fun t => t.goodFrame src .greet (State.greetEffect src dst sess grant) none)

/-- ANNOUNCE_FRAME_END (R27). -/
def execAnnounceFrameEnd (src : Byte) (s : State) : Host.Outcome State Fault Refusal :=
  .next (s.onReception fun t => t.goodFrame src .announce (State.announceEffect src) none)

/-- LEAVE_FRAME_END (R40). -/
def execLeaveFrameEnd (src : Byte) (s : State) : Host.Outcome State Fault Refusal :=
  .next (s.onReception fun t => t.goodFrame src .leave (State.leaveEffect src) none)

/-- REPLY_FRAME_END (R119). -/
def execReplyFrameEnd (src : Byte) (dst : StationId) (status sess grant : Byte) (s : State) :
    Host.Outcome State Fault Refusal :=
  .next (s.onReception fun t =>
    t.goodFrame src .reply (State.replyEffect src) (t.replyOutcome src dst status sess grant))

/-- UNKNOWN_KIND_FRAME_END (R112): it ends a reply await as no reply and does nothing else. -/
def execUnknownKindFrameEnd (s : State) : Host.Outcome State Fault Refusal :=
  .next (s.onReception fun t => (t.lineFree.dropVerdict).endAwait none)

/-- BAD_FRAME_END (R94, R111, R127). -/
def execBadFrameEnd (s : State) : Host.Outcome State Fault Refusal :=
  .next (s.onReception fun t => (t.lineFree.takeOrdered.dropVerdict).endAwait none)

end Sys2Proof.Machine
end

