-- ==== Sys2Proof/Machine/LineEvents.lean ====
section
/-! DEFINITION. The line becoming BUSY and IDLE, the contention window and the timers (R107, R117, R118,
R120, R123 to R126, R137). -/

namespace Sys2Proof.Machine

/-! ### The line -/

/-- Activity on an IDLE line: the line is BUSY and a reception begins; the window and the idle period end,
a reply due is left unsent (R117, log 11) and a train gap ends its train (R120, R138, log 12). -/
def State.senseBusy (s : State) : State :=
  if s.rif.line = .idle then
    let t : State :=
      { s with
        rif := { s.rif with line := .busy, idleCount := 0, reception := some { headerSeen := false },
                            replyDue := none }
        ctu := { s.ctu with slotClock := none, slot := none } }
    if t.txa.gap then t.arbiterIdle else t
  else s

/-- LINE_BUSY (R107, R108). -/
def execLineBusy (s : State) : Host.Outcome State Fault Refusal := .next (s.onRail State.senseBusy)

/-- An idle bit time on a BUSY line that carries no reception and no transmission of this station: after a
cut, or after a frame that RESTART has broken off (R107, R115, R121). A verdict on that frame ends with it
(R87). -/
def State.senseIdle (s : State) : State :=
  if s.rif.line = .busy ∧ s.rif.reception = none ∧ s.rif.transmit = none then s.lineFree.forgetVerdict
  else s

/-- LINE_IDLE (R107). -/
def execLineIdle (s : State) : Host.Outcome State Fault Refusal := .next (s.onRail State.senseIdle)

/-! ### Windows -/

/-- The settle gap expires on an IDLE line with no window running: a window begins (R107, R123). -/
def State.settleGap (s : State) : State :=
  if s.rif.line = .idle ∧ s.ctu.slotClock = none then (s.elapseTo Config.settleGap).beginWindow else s

/-- SETTLE_GAP (R123). -/
def execSettleGap (s : State) : Host.Outcome State Fault Refusal := .next (s.onRail State.settleGap)

/-- Slot 63 ends with the line idle throughout: the next window begins at the next bit time (R123). -/
def State.windowTurn (s : State) : State :=
  match s.ctu.slotClock with
  | none => s
  | some c =>
    if s.rif.line = .idle then (s.elapse (Config.windowBits - c)).beginWindow else s

/-- WINDOW_LAST_SLOT_END (R123). -/
def execWindowLastSlotEnd (s : State) : Host.Outcome State Fault Refusal :=
  .next (s.onRail State.windowTurn)

/-- The station takes no further part in the window (R126). -/
def State.noSlot (s : State) : State := { s with ctu := { s.ctu with slot := none } }

/-- The slot of the contending station begins (R126). -/
def State.slotBegins (s : State) : State :=
  match s.ctu.slot, s.ctu.slotClock with
  | some k, some c =>
    if s.rif.line = .idle then
      let t := (s.elapse (Config.slotBits * k - c)).noSlot
      match t.choose with
      | some w => t.startWork w 1
      | none => t
    else s.noSlot
  | _, _ => s

/-- SLOT_START (R126). -/
def execSlotStart (s : State) : Host.Outcome State Fault Refusal := .next (s.onRail State.slotBegins)

/-! ### The gaps and timeouts of an exchange -/

/-- The train gap ends (R120, R137). -/
def State.gapEnds (s : State) : State :=
  if s.txa.gap then
    if s.rif.line = .idle then
      let t := s.elapseTo Config.trainGapEnd
      match t.choose with
      | some w => t.startWork w (s.txa.train + 1)
      | none => t.arbiterIdle
    else s.arbiterIdle
  else s

/-- TRAIN_GAP_END (R137). -/
def execTrainGapEnd (s : State) : Host.Outcome State Fault Refusal := .next (s.onRail State.gapEnds)

/-- The reply that is due starts, with the effects of answering a GREET (R31, R117). -/
def State.startReply (s : State) (d : ReplyDue) : State :=
  match d.status with
  | .greeted sess grant =>
    let t := s.answerGreet d.peer sess grant
    t.transmit (.reply s.stc.sid d.peer (.greeted (t.peer d.peer).mySess (t.peer d.peer).grant))
  | .accept => s.transmit (.reply s.stc.sid d.peer .accept)
  | .stale => s.transmit (.reply s.stc.sid d.peer .stale)
  | .noCredit => s.transmit (.reply s.stc.sid d.peer .noCredit)

/-- The reply moment (R117). -/
def State.replyMoment (s : State) : State :=
  match s.rif.replyDue with
  | none => s
  | some d => if s.rif.line = .idle then s.startReply d else s

/-- REPLY_MOMENT (R117). -/
def execReplyMoment (s : State) : Host.Outcome State Fault Refusal := .next (s.onRail State.replyMoment)

/-- The reply timeout expires: the outcome is no reply (R118, R119). -/
def State.replyTimeout (s : State) : State :=
  if s.txa.exchange = .awaitReply ∧ s.rif.line = .idle then
    (s.elapseTo Config.replyTimeout).finishExchange none
  else s

/-- REPLY_TIMEOUT (R118). -/
def execReplyTimeout (s : State) : Host.Outcome State Fault Refusal :=
  .next (s.onRail State.replyTimeout)

/-- The listen timeout expires, once in an idle period (R107, R145). -/
def State.listenTimeout (s : State) : State :=
  if s.rif.line = .idle ∧ s.rif.idleCount < Config.listenTimeout then
    (s.elapseTo Config.listenTimeout).endListening
  else s

/-- LISTEN_TIMEOUT (R145). -/
def execListenTimeout (s : State) : Host.Outcome State Fault Refusal :=
  .next (s.onRail State.listenTimeout)

end Sys2Proof.Machine
end

