-- ==== Sys2Proof/Machine/OwnFrames.lean ====
section
/-! DEFINITION. The ends of the station's own transmissions: a collision (R115), and the ends of an
exchange's frame, an ANNOUNCE, a LEAVE and a REPLY (R114, R117, R118, R133, R146, R150). -/

namespace Sys2Proof.Machine

/-- The station's own transmission has ended. -/
def State.stopSending (s : State) : State := { s with rif := { s.rif with transmit := none } }

/-- The item of a cut exchange stays with its owner (R135): a MESSAGE entry goes to RETRY (R74), or with
the leave mark set is withdrawn as an entry that is SENDING no longer (R85, log 13); an ANNOUNCE cut after
a LEAVE makes the station OFFLINE (R147). -/
def State.cutExchange (s : State) : State :=
  let t := s.arbiterIdle
  match s.txa.item with
  | some (.message h _ _) =>
    if s.stc.leaveMark then t.completeWhere (entryCause h .withdrawn false) else t.entryRetry h false
  | some .announce =>
    if s.stc.leaveMark then
      { t with stc := { t.stc with state := .offline, leaveMark := false, pendingAnnounce := false } }
    else t
  | some .leave | some (.greet _) | some (.credit _ _) | none => t

/-- A collision that reaches the station together with a RESTART taken first finds no exchange: the next
window is ORDERED (R115, R128, R151, log 30). -/
def State.collideBroken (s : State) : State :=
  match s.rif.broken with
  | some (.own _) => { s.takeOrdered with rif := { s.rif with broken := none } }
  | some (.reception _) | none => s

/-- A mismatch cuts the station's own transmission (R115, R128); a REPLY that is cut has no exchange. -/
def State.collide (s : State) : State :=
  match s.rif.transmit with
  | none => s.collideBroken
  | some f =>
    let t := s.stopSending.takeOrdered
    (if f.kind = .reply then t else t.cutExchange).settleLeave

/-- COLLISION (R115). -/
def execCollision (s : State) : Host.Outcome State Fault Refusal := .next (s.onRail State.collide)

/-- An own frame that is no REPLY has ended whole: the line is IDLE, and the CTU takes the station's own
identity as the last winner (R114, R127). -/
def State.ownEnd (s : State) : State := s.lineFree.stopSending.takeWinner s.stc.sid.byte

/-- The end of an own frame of these kinds that reaches the station together with a RESTART taken first
finds it OFFLINE: the line is IDLE and the CTU takes the frame, a REPLY apart (R127, R151, log 30). -/
def State.endBroken (s : State) (kinds : List FrameKind) : State :=
  match s.rif.broken with
  | some (.own k) =>
    if k ∈ kinds then (if k = .reply then s.lineFree else s.lineFree.takeWinner s.stc.sid.byte) else s
  | some (.reception _) | none => s

/-- The station's GREET, MESSAGE or CREDIT has ended: its reply is awaited (R118, R133). -/
def State.awaitReply (s : State) : State :=
  let t := s.ownEnd
  { t with txa := { t.txa with exchange := .awaitReply } }

/-- The end of a frame of this station's own that asks for a reply. -/
def State.frameEnds (s : State) : State :=
  match s.rif.transmit with
  | some (.greet _ _ _ _) => s.awaitReply
  | some (.message _ _ _ _ _ _) => s.awaitReply
  | some (.credit _ _ _) => s.awaitReply
  | some (.announce _) | some (.leave _) | some (.reply _ _ _) => s
  | none => s.endBroken [.greet, .message, .credit]

/-- OWN_FRAME_END (R118). -/
def execOwnFrameEnd (s : State) : Host.Outcome State Fault Refusal := .next (s.onRail State.frameEnds)

/-- The station's ANNOUNCE has gone out whole: ONLINE with the latch set, or OFFLINE when LEAVE was taken
during it (R146, R147); then the train is decided (R136). -/
def State.announceEnds (s : State) : State :=
  match s.rif.transmit with
  | some (.announce _) =>
    let t := s.ownEnd
    (if s.stc.leaveMark then
      ({ t with
          stc := { t.stc with state := .offline, leaveMark := false, pendingAnnounce := false } } : State)
    else
      { t with
        stc := { t.stc with state := .online, pendingAnnounce := false, latch := true } }).decideTrain true
  | some (.leave _) | some (.greet _ _ _ _) | some (.message _ _ _ _ _ _) | some (.credit _ _ _)
  | some (.reply _ _ _) => s
  | none => s.endBroken [.announce]

/-- OWN_ANNOUNCE_END (R146). -/
def execOwnAnnounceEnd (s : State) : Host.Outcome State Fault Refusal :=
  .next (s.onRail State.announceEnds)

/-- The station's LEAVE has gone out whole: OFFLINE, the latch set, the arbiter idle (R150). -/
def State.leaveEnds (s : State) : State :=
  match s.rif.transmit with
  | some (.leave _) =>
    let t := s.ownEnd.arbiterIdle
    { t with stc := { t.stc with state := .offline, pendingLeave := false, latch := true } }
  | some (.announce _) | some (.greet _ _ _ _) | some (.message _ _ _ _ _ _) | some (.credit _ _ _)
  | some (.reply _ _ _) => s
  | none => s.endBroken [.leave]

/-- OWN_LEAVE_END (R150). -/
def execOwnLeaveEnd (s : State) : Host.Outcome State Fault Refusal := .next (s.onRail State.leaveEnds)

/-- The station's REPLY has ended: LW stays, and a station that waits to leave may be settled (R117, R127,
R148). -/
def State.replyEnds (s : State) : State :=
  match s.rif.transmit with
  | some (.reply _ _ _) => s.lineFree.stopSending.settleLeave
  | some (.announce _) | some (.leave _) | some (.greet _ _ _ _) | some (.message _ _ _ _ _ _)
  | some (.credit _ _ _) => s
  | none => s.endBroken [.reply]

/-- OWN_REPLY_END (R117). -/
def execOwnReplyEnd (s : State) : Host.Outcome State Fault Refusal := .next (s.onRail State.replyEnds)

end Sys2Proof.Machine
end

