-- ==== Sys2Proof/Machine/PopPorts.lean ====
section
/-! DEFINITION. The pop ports and their views (R83, R103, R165, R176). -/

namespace Sys2Proof.Machine

/-- The oldest inbound record is removed, its handle becomes HELD and the views take the record; an empty
list gives 0xFFFF and views of 0 (R14, R103). -/
def State.inboundPop (s : State) : State :=
  match s.rxu.inbound with
  | [] =>
    ({ s with hpu := { s.hpu with inSource := 0, inLength := 0, inTag := 0, inSess := 0 } } : State).drive
      noneWord
  | r :: rest =>
    ({ s.setHandle r.handle (.held r.source) with
        rxu := { s.rxu with inbound := rest }
        hpu := { s.hpu with inSource := BitVec.ofNat 5 r.source.val, inLength := BitVec.ofNat 9 r.length,
                            inTag := r.tag, inSess := r.sess } } : State).drive (handleWord r.handle)

/-- INBOUND_POP_READ (R103). -/
def execInboundPopRead (s : State) : Host.Outcome State Fault Refusal :=
  .next (s.onRead State.inboundPop)

/-- The oldest completion record is removed and latched (R83). -/
def State.completionPop (s : State) : State :=
  match s.snu.completions with
  | [] =>
    ({ s with hpu := { s.hpu with cTag := 0, cDest := 0, cStatus := 0, cAttempts := 0 } } : State).drive
      noneWord
  | c :: rest =>
    ({ s with
        snu := { s.snu with completions := rest }
        hpu := { s.hpu with cTag := c.tag, cDest := BitVec.ofNat 5 c.dest.val, cStatus := c.status.code,
                            cAttempts := BitVec.ofNat 8 c.attempts } } : State).drive
      (handleWord c.handle)

/-- COMPLETION_POP_READ (R83). -/
def execCompletionPopRead (s : State) : Host.Outcome State Fault Refusal :=
  .next (s.onRead State.completionPop)

/-- The oldest peer event is removed and latched (R165). -/
def State.peerEventPop (s : State) : State :=
  match s.atu.peerEvents with
  | [] =>
    ({ s with hpu := { s.hpu with peState := 0, peReason := 0, peChanges := 0 } } : State).drive noneWord
  | e :: rest =>
    ({ s with
        atu := { s.atu with peerEvents := rest }
        hpu := { s.hpu with peState := e.state.code, peReason := e.reason.code,
                            peChanges := BitVec.ofNat 8 e.changes } } : State).drive
      (stationWord e.peer)

/-- PEER_EVENT_POP_READ (R165). -/
def execPeerEventPopRead (s : State) : Host.Outcome State Fault Refusal :=
  .next (s.onRead State.peerEventPop)

end Sys2Proof.Machine
end

