-- ==== Sys2Proof/Machine/Registers.lean ====
section
/-! DEFINITION. Writes of the profile registers (R141) and of every other register (R171). -/

namespace Sys2Proof.Machine

/-- A profile register keeps the low bits of the word that make its field (R141). -/
def Stc.storeProfile (c : Stc) (reg : ProfileReg) (w : Word) : Stc :=
  match reg with
  | .retry => { c with retryReg := w.extractLsb' 0 2 }
  | .train => { c with trainReg := w.extractLsb' 0 3 }
  | .reserve p => { c with reserveRegs := c.reserveRegs.set p (w.extractLsb' 0 4) }

/-- A profile write is stored in OFFLINE; elsewhere it is ignored and PROFILE_LOCKED is set (R141, R180). -/
def State.writeProfile (s : State) (reg : ProfileReg) (w : Word) : State :=
  if s.stc.state = .offline then { s with stc := s.stc.storeProfile reg w } else s.setLocked

/-- PROFILE_WRITE (R141). -/
def execProfileWrite (reg : ProfileReg) (word : Word) (s : State) : Host.Outcome State Fault Refusal :=
  .next (s.onWrite fun t => t.writeProfile reg word)

/-- A write at an address with no row of its own: WINSEL (R15), the staging registers (R67) and
PEER_SELECT (R177) take the word; at every other address nothing changes (R171, log 18). -/
def State.writeRegister (s : State) (addr : BitVec 9) (w : Word) : State :=
  if addr = 0x104 then { s with bfm := { s.bfm with winsel := lowHandle w } }
  else if addr = 0x110 then { s with hpu := { s.hpu with sendHandle := w } }
  else if addr = 0x111 then { s with hpu := { s.hpu with sendDest := w } }
  else if addr = 0x112 then { s with hpu := { s.hpu with sendLength := w } }
  else if addr = 0x113 then { s with hpu := { s.hpu with sendTag := w } }
  else if addr = 0x114 then { s with hpu := { s.hpu with sendFlags := w } }
  else if addr = 0x130 then { s with hpu := { s.hpu with peerSelect := lowStation w } }
  else s

/-- REGISTER_WRITE (R171). -/
def execRegisterWrite (addr : BitVec 9) (word : Word) (s : State) : Host.Outcome State Fault Refusal :=
  .next (s.onWrite fun t => t.writeRegister addr word)

end Sys2Proof.Machine
end

