-- ==== Sys2Proof/Machine/Reset.lean ====
section
/-! DEFINITION. The board's commands: RESET# driven low and released (R152). -/

namespace Sys2Proof.Machine

/-- RESET# held low (R121, R152): a transmission is cut, nothing is assembled and every block is clear, the
enables too. What the release alone sets stays until then: the straps, the profile registers and buffer
memory; none of them can be read while RESET# is low (log 8). -/
def State.heldInReset (s : State) : State :=
  { s.afterRestart with resetLow := true, rif := Rif.clear (s.rif.line == .busy), atu := Atu.clear 0 }

/-- PIN_RESET_ASSERT (R152). -/
def execPinResetAssert (s : State) : Host.Outcome State Fault Refusal := .next s.heldInReset

/-- PIN_RESET_RELEASE (R152): the straps are sampled (R140) and every block takes its pin-reset state. -/
def execPinResetRelease (sid : StationId) (rate : BitVec 2) (lineActive : Bool) (s : State) :
    Host.Outcome State Fault Refusal :=
  .next (s.afterPinReset sid rate lineActive)

end Sys2Proof.Machine
end

