-- ==== Sys2Proof/Machine/SendPorts.lean ====
section
/-! DEFINITION. SEND_GO: the checks in their order, and acceptance (R68, R69, R175). -/

namespace Sys2Proof.Machine

/-- The result of a SEND_GO replaces the one before (R68). -/
def State.sendResult (s : State) (r : SendResult) : State :=
  { s with hpu := { s.hpu with sendResult := r.code } }

/-- An accepted request: the handle is QUEUED and an entry joins the Send List (R69). -/
def State.acceptSend (s : State) (h : Handle) (dest : StationId) : State :=
  let s1 := s.setHandle h .queued
  { s1 with
    snu :=
      { s1.snu with
        sendList := s1.snu.sendList ++
          [{ handle := h, dest := dest, length := s.hpu.sendLength.toNat, tag := s.hpu.sendTag,
             quiet := s.hpu.sendFlags.getLsbD 0, seq := none, attempts := 0, phase := .waiting }] } }

/-- The checks that follow once the destination is known not to be ABSENT or LOST (R68). -/
def State.sendClaim (s : State) (dest : StationId) : State :=
  if Config.sendBudget ≤ s.snu.sendList.length + s.snu.completions.length then s.sendResult .listFull
  else
    match handleOf s.hpu.sendHandle with
    | none => s.sendResult .badHandle
    | some h =>
      if s.handle h = .composing then (s.acceptSend h dest).sendResult .accepted
      else s.sendResult .badHandle

/-- A write to SEND_GO: the checks in order (R68). -/
def State.sendGo (s : State) : State :=
  if s.stc.state ≠ .online ∨ s.stc.leaveMark = true then s.sendResult .notOnline
  else
    match stationOfWord s.hpu.sendDest with
    | none => s.sendResult .badDest
    | some dest =>
      if dest = s.stc.sid then s.sendResult .badDest
      else if s.hpu.sendLength.toNat < 1 ∨ 256 < s.hpu.sendLength.toNat then s.sendResult .badLength
      else
        match (s.peer dest).state with
        | .absent => s.sendResult .noPeer
        | .lost => s.sendResult .unreachable
        | .greeting | .isOpen | .self => s.sendClaim dest

/-- SEND_GO_WRITE (R68): the word written is ignored. -/
def execSendGoWrite (_word : Word) (s : State) : Host.Outcome State Fault Refusal :=
  .next (s.onWrite State.sendGo)

end Sys2Proof.Machine
end

