-- ==== Sys2Proof/Machine/Dispatch.lean ====
section
/-! DEFINITION. The dispatch: one arm per command of spec/opcode_table.json, each one call of its meaning. -/

namespace Sys2Proof.Machine

/-- The effect of one command on everything but the queue. -/
def exec (i : Instr) (s : State) : Host.Outcome State Fault Refusal :=
  match i with
  | .pinResetAssert => Sys2Proof.Machine.execPinResetAssert s
  | .pinResetRelease sid rate lineActive => Sys2Proof.Machine.execPinResetRelease sid rate lineActive s
  | .txtakeRead => Sys2Proof.Machine.execTxtakeRead s
  | .releaseWrite word => Sys2Proof.Machine.execReleaseWrite word s
  | .windowRead k => Sys2Proof.Machine.execWindowRead k s
  | .windowWrite k word => Sys2Proof.Machine.execWindowWrite k word s
  | .sendGoWrite word => Sys2Proof.Machine.execSendGoWrite word s
  | .inboundPopRead => Sys2Proof.Machine.execInboundPopRead s
  | .completionPopRead => Sys2Proof.Machine.execCompletionPopRead s
  | .peerEventPopRead => Sys2Proof.Machine.execPeerEventPopRead s
  | .attentionRead => Sys2Proof.Machine.execAttentionRead s
  | .finishWrite word => Sys2Proof.Machine.execFinishWrite word s
  | .stateChangeRead => Sys2Proof.Machine.execStateChangeRead s
  | .attnEnableWrite word => Sys2Proof.Machine.execAttnEnableWrite word s
  | .profileWrite reg word => Sys2Proof.Machine.execProfileWrite reg word s
  | .registerWrite addr word => Sys2Proof.Machine.execRegisterWrite addr word s
  | .join => Sys2Proof.Machine.execJoin s
  | .leave => Sys2Proof.Machine.execLeave s
  | .restart => Sys2Proof.Machine.execRestart s
  | .regreet peer => Sys2Proof.Machine.execRegreet peer s
  | .clearFault => Sys2Proof.Machine.execClearFault s
  | .clearFlags => Sys2Proof.Machine.execClearFlags s
  | .unusedCommandCode code => Sys2Proof.Machine.execUnusedCommandCode code s
  | .lineBusy => Sys2Proof.Machine.execLineBusy s
  | .settleGap => Sys2Proof.Machine.execSettleGap s
  | .windowLastSlotEnd => Sys2Proof.Machine.execWindowLastSlotEnd s
  | .slotStart => Sys2Proof.Machine.execSlotStart s
  | .trainGapEnd => Sys2Proof.Machine.execTrainGapEnd s
  | .collision => Sys2Proof.Machine.execCollision s
  | .ownFrameEnd => Sys2Proof.Machine.execOwnFrameEnd s
  | .ownAnnounceEnd => Sys2Proof.Machine.execOwnAnnounceEnd s
  | .ownLeaveEnd => Sys2Proof.Machine.execOwnLeaveEnd s
  | .ownReplyEnd => Sys2Proof.Machine.execOwnReplyEnd s
  | .replyMoment => Sys2Proof.Machine.execReplyMoment s
  | .replyTimeout => Sys2Proof.Machine.execReplyTimeout s
  | .listenTimeout => Sys2Proof.Machine.execListenTimeout s
  | .messageHeader h payload => Sys2Proof.Machine.execMessageHeader h payload s
  | .messageFrameEnd src dst => Sys2Proof.Machine.execMessageFrameEnd src dst s
  | .creditFrameEnd src dst srcSess dstSess creditTotal => Sys2Proof.Machine.execCreditFrameEnd src dst srcSess dstSess creditTotal s
  | .greetFrameEnd src dst sess grant => Sys2Proof.Machine.execGreetFrameEnd src dst sess grant s
  | .announceFrameEnd src => Sys2Proof.Machine.execAnnounceFrameEnd src s
  | .leaveFrameEnd src => Sys2Proof.Machine.execLeaveFrameEnd src s
  | .replyFrameEnd src dst status sess grant => Sys2Proof.Machine.execReplyFrameEnd src dst status sess grant s
  | .unknownKindFrameEnd => Sys2Proof.Machine.execUnknownKindFrameEnd s
  | .badFrameEnd => Sys2Proof.Machine.execBadFrameEnd s
  | .lineIdle => Sys2Proof.Machine.execLineIdle s

end Sys2Proof.Machine
end

