-- ==== Sys2Proof/Machine/Timing.lean ====
section
/-! DEFINITION. The command that the next idle bit time brings, for a step on an empty queue (log 2). -/

namespace Sys2Proof.Machine

/-- The next bit time is the n-th of the idle period, or a later one. -/
def State.nextIdle (s : State) (n : Nat) : Bool := n ≤ s.rif.idleCount + 1

/-- The start of the station's slot is reached by the next bit time (R126). -/
def State.slotDue (s : State) : Bool :=
  match s.ctu.slot, s.ctu.slotClock with
  | some k, some c => Config.slotBits * k ≤ c + 1
  | _, _ => false

/-- The event that the next idle bit time brings on an IDLE line: the reply moment (R117), the end of the
train gap (R120), the settle gap (R107), a slot start (R126), the reply timeout (R118), the end of a window
(R123) or the listen timeout (R107). -/
def State.dueCommand (s : State) : Option Instr :=
  if s.rif.replyDue.isSome && s.nextIdle Config.replyStart then some .replyMoment
  else if s.txa.gap && s.nextIdle Config.trainGapEnd then some .trainGapEnd
  else if s.ctu.slotClock.isNone && s.nextIdle Config.settleGap then some .settleGap
  else if s.slotDue then some .slotStart
  else if s.txa.exchange == .awaitReply && s.nextIdle Config.replyTimeout then some .replyTimeout
  else if s.ctu.slotClock == some (Config.windowBits - 1) then some .windowLastSlotEnd
  else if s.rif.idleCount + 1 == Config.listenTimeout then some .listenTimeout
  else none

/-- Idle bit times pass only while the line is IDLE and RESET# is released. -/
def State.timePasses (s : State) : Bool := !s.resetLow && s.rif.line == .idle

end Sys2Proof.Machine
end

