-- ==== Sys2Proof/Machine/Step.lean ====
section
/-! DEFINITION. One step: the command at the front of the queue, or one bit time when the queue is empty. -/

namespace Sys2Proof.Machine

/-- The queue without its front command. -/
def State.withPending (s : State) (q : List Instr) : State := { s with pending := q }

/-- One bit time with no command waiting (log 2): on an IDLE line the event it brings, or one more idle
bit time; on a BUSY line, or while RESET# is low, nothing. -/
def State.bitTime (s : State) : Host.Outcome State Fault Refusal :=
  if s.timePasses then
    match s.dueCommand with
    | some c => exec c s
    | none => .next (s.elapse 1)
  else .next s

/-- One step: next, fault or refused. -/
def step (s : State) : Host.Outcome State Fault Refusal :=
  match s.pending with
  | c :: rest => exec c (s.withPending rest)
  | [] => s.bitTime

/-- The command that a word of the table spells, put at the front of the queue. -/
def State.withFetchWord (s : State) (nbits w : Nat) : State :=
  match decodeTableWord nbits w with
  | some c => s.withPending (c :: s.pending)
  | none => s

end Sys2Proof.Machine
end

