-- ==== Sys2Proof/Effects.lean ====
section
/-! DEFINITION. The effects that the statements name, each written out field by field from its rule and
apart from the operations of Machine/: the statements say that the commands bring exactly these. -/

namespace Sys2Proof

/-- The command is the end of a frame that is not this station's: a bad one, one of no known kind, or a good
one whose source is not its identity (R113, R153). -/
def Instr.EndsFrameOfOther (c : Instr) (me : StationId) : Prop :=
  c = .badFrameEnd ∨ c = .unknownKindFrameEnd ∨
    ∃ (src : Byte) (dst : StationId) (b1 b2 b3 : Byte), src ≠ me.byte ∧
      (c = .messageFrameEnd src dst ∨ c = .creditFrameEnd src dst b1 b2 b3 ∨
        c = .greetFrameEnd src dst b1 b2 ∨ c = .announceFrameEnd src ∨ c = .leaveFrameEnd src ∨
        c = .replyFrameEnd src dst b1 b2 b3)

end Sys2Proof

namespace Sys2Proof.Machine

/-! ### Circumstances -/

/-- A reception of an ONLINE station ends, with no LEAVE taken and no reply awaited. -/
def State.AtFrameEnd (s : State) : Prop :=
  s.resetLow = false ∧ s.rif.reception.isSome = true ∧ s.stc.state = .online ∧
    s.stc.leaveMark = false ∧ s.txa.exchange ≠ .awaitReply

/-- An ONLINE station with no LEAVE taken that awaits the reply to an item. -/
def State.Awaiting (s : State) (item : Item) : Prop :=
  s.resetLow = false ∧ s.stc.state = .online ∧ s.stc.leaveMark = false ∧
    s.txa.exchange = .awaitReply ∧ s.txa.item = some item

/-! ### Completions (R82) -/

/-- The record that the completion of one entry appends, none for a QUIET delivery (R82, R84). -/
def recordsOf (cause : SendEntry → Option (Status × Nat)) (e : SendEntry) : List Completion :=
  match cause e with
  | some (st, n) =>
    if e.quiet = true ∧ st = .delivered then []
    else [{ tag := e.tag, dest := e.dest, handle := e.handle, status := st, attempts := n }]
  | none => []

/-- The handles that a cause returns, in list order (R9). -/
def handlesOf (cause : SendEntry → Option (Status × Nat)) (l : List SendEntry) : List Handle :=
  (l.filter fun e => (cause e).isSome).map SendEntry.handle

/-- The Send Unit once the entries of a cause have completed (R82). -/
def Snu.completed (u : Snu) (cause : SendEntry → Option (Status × Nat)) : Snu :=
  { sendList := u.sendList.filter fun e => (cause e).isNone
    completions := u.completions ++ u.sendList.flatMap (recordsOf cause) }

/-- The Buffer Manager once transmit handles have been returned (R9). -/
def Bfm.freed (b : Bfm) (handles : List Handle) : Bfm :=
  { b with
    table := Vector.ofFn fun h => if h ∈ handles then .txFree else b.table[h]
    txFree := b.txFree ++ handles }

/-- Entries complete: nothing but the lists and their handles changes (R82). -/
def State.completed (s : State) (cause : SendEntry → Option (Status × Nat)) : State :=
  { s with snu := s.snu.completed cause, bfm := s.bfm.freed (handlesOf cause s.snu.sendList) }

/-- The attempts of an entry that a session notice completes (R80): one more when the frame that gives
the notice has ended the entry's own exchange. -/
def noticeCount (e : SendEntry) : Nat := if e.phase = .sending then min 255 (e.attempts + 1) else e.attempts

/-- The entry to p that has been sent completes SESSION_RESET (R80). -/
def sentReset (p : StationId) (e : SendEntry) : Option (Status × Nat) :=
  if e.dest = p ∧ (e.phase = .sending ∨ e.phase = .retry) then some (.sessionReset, noticeCount e) else none

/-- The entry of a handle completes with a status and attempts raised by one (R75 to R77). -/
def exchangeEnds (h : Handle) (st : Status) (e : SendEntry) : Option (Status × Nat) :=
  if e.handle = h ∧ e.phase = .sending then some (st, min 255 (e.attempts + 1)) else none

/-! ### Session changes (R26, R35, R37, R40) -/

/-- The Credit Unit with another list, its mode evaluated over the records given (R57, R59). -/
def Cru.evaluated (c : Cru) (list : List StationId) (peers : Vector Peer 32) : Cru :=
  { list := list
    demand := demandAfter c.demand list.length
      (list.any fun p =>
        distance peers[p].ackedTotal peers[p].releasedTotal == peers[p].r - peers[p].inUse) }

/-- A record whose session is zeroed, with the state, my_sess and ctl_attempts given (R22). -/
def Peer.ended (q : Peer) (st : PeerState) (mySess : Byte) (ctl : Nat) : Peer :=
  { state := st, mySess := mySess, theirSess := none, creditsHeld := 0, creditSeen := 0, nextSeq := 0,
    lastRxSeq := none, r := q.r, inUse := q.inUse, releasedTotal := 0, ackedTotal := 0,
    ctlAttempts := ctl }

/-- A record toward which a GREET has become owed (R26). -/
def Peer.owed (q : Peer) : Peer := q.ended .greeting (q.mySess + 1) 0

/-- The Session Unit with one record replaced and that peer's Greet List entry added or removed (R25). -/
def Ssu.updated (u : Ssu) (p : StationId) (q : Peer) (listed : Bool) : Ssu :=
  { peers := u.peers.set p q
    greetList :=
      if listed = false then u.greetList.filter (· ≠ p)
      else if p ∈ u.greetList then u.greetList
      else u.greetList ++ [p] }

/-- The Attention Unit with a peer event folded in (R164). -/
def Atu.told (a : Atu) (p : StationId) (st : PeerState) (why : Reason) : Atu :=
  { a with peerEvents := foldEvent p st why a.peerEvents }

/-- A GREET to a peer that was not OPEN becomes owed (R26, R43). -/
def State.greetNow (s : State) (p : StationId) (why : Reason) : State :=
  { s with
    ssu := s.ssu.updated p (s.peer p).owed true
    atu := s.atu.told p .greeting why }

/-- A good frame from p is heard: an ABSENT or LOST p becomes GREETING with a GREET owed (R38). -/
def State.heardFrom (s : State) (p : StationId) : State :=
  if (s.peer p).state = .absent ∨ (s.peer p).state = .lost then s.greetNow p .heard else s

/-- ctl_attempts of p becomes 0, and no other field changes (R53, log 14). -/
def State.ctlCleared (s : State) (p : StationId) : State :=
  { s with ssu := { s.ssu with peers := s.ssu.peers.set p { s.peer p with ctlAttempts := 0 } } }

/-- The session with an OPEN peer ends: its record is replaced, its Credit Return List entry goes, the
entries of a notice complete and the change is reported (R40 to R43). -/
def State.sessionEnds (s : State) (p : StationId) (q : Peer) (listed : Bool) (why : Reason)
    (cause : SendEntry → Option (Status × Nat)) : State :=
  let u : State :=
    { s with
      ssu := s.ssu.updated p q listed
      cru := s.cru.evaluated (s.cru.list.filter (· ≠ p)) (s.ssu.peers.set p q)
      atu := s.atu.told p q.state why }
  u.completed cause

/-- The session with an OPEN peer restarts with the RESTART notice (R26, R41). -/
def State.sessionRestarts (s : State) (p : StationId) (why : Reason) : State :=
  s.sessionEnds p (s.peer p).owed true why (sentReset p)

/-- A fault is handed to the Attention Unit (R166, R167). -/
def State.faulted (s : State) (kind : FaultKind) (p : StationId) (frame : FrameKind) (value : Byte) : State :=
  { s with
    atu :=
      { s.atu with
        fault :=
          match s.atu.fault with
          | none => some { kind := kind, peer := p, frame := frame, value := value, more := false }
          | some f => some { f with more := true } } }

/-! ### The line -/

/-- The idle period stands at its n-th bit time, n not past, and the slot clock with it (R107, R123). -/
def State.idleAt (s : State) (n : Nat) : State :=
  { s with
    rif := { s.rif with idleCount := n }
    ctu := { s.ctu with slotClock := s.ctu.slotClock.map fun c => (c + (n - s.rif.idleCount)) % 256 } }

/-- A reception has ended: the line is IDLE with idle count 1, and no verdict stands (R107, R87). -/
def State.received (s : State) : State :=
  { s with
    rif := { s.rif with line := .idle, idleCount := 1, reception := none, broken := none }
    rxu := { s.rxu with verdict := none } }

/-- A good non-reply frame has come from p (R127). -/
def State.wonBy (s : State) (p : StationId) : State :=
  { s with ctu := { s.ctu with lw := p, lwKnown := true, kind := .rotation } }

/-- A reply with this status is due to p (R116). -/
def State.replying (s : State) (p : StationId) (status : ReplyStatus) : State :=
  { s with rif := { s.rif with replyDue := some { peer := p, status := status } } }

/-- A frame of this station's own is on the line (R107, R114, R123). -/
def State.sending (s : State) (f : Frame) : State :=
  { s with
    rif := { line := .busy, idleCount := 0, reception := none, transmit := some f, replyDue := none,
             broken := none }
    ctu := { s.ctu with slotClock := none, slot := none } }

/-- An item is being sent as the n-th frame of its train (R132). -/
def State.carrying (s : State) (item : Item) (n : Nat) : State :=
  { s with txa := { exchange := .transmitting, train := n, gap := false, item := some item } }

/-- What every MESSAGE and CREDIT frame to a peer takes from its record (R49). -/
def Peer.frameFields (q : Peer) : Carried :=
  { srcSess := q.mySess, dstSess := q.theirSess.getD 0, total := q.releasedTotal }

/-- A frame starts as the n-th of its train, with the effects its owner makes at the frame start: a GREET
zeroes the session and keeps ctl_attempts (R22, R28), a first attempt takes next_seq and spends one credit
(R47, R73), a CREDIT changes nothing (R60). -/
def State.starts (s : State) (w : Work) (n : Nat) : State :=
  match w with
  | .announce => (s.carrying .announce n).sending (.announce s.stc.sid)
  | .leave => (s.carrying .leave n).sending (.leave s.stc.sid)
  | .greet p =>
    let q := s.peer p
    (({ s with
        ssu :=
          { s.ssu with peers := s.ssu.peers.set p (q.ended q.state q.mySess q.ctlAttempts) } } :
        State).carrying (.greet p) n).sending
      (.greet s.stc.sid p q.mySess (BitVec.ofNat 8 (q.r - q.inUse)))
  | .credit p =>
    let c := (s.peer p).frameFields
    (s.carrying (.credit p c) n).sending (.credit s.stc.sid p c)
  | .message e =>
    let q := s.peer e.dest
    let seq := if e.phase = .waiting then q.nextSeq else e.seq.getD 0
    let spent : Peer := { q with nextSeq := q.nextSeq + 1, creditsHeld := q.creditsHeld - 1 }
    (({ s with
        ssu :=
          { s.ssu with
            peers := if e.phase = .waiting then s.ssu.peers.set e.dest spent else s.ssu.peers }
        snu :=
          { s.snu with
            sendList := s.snu.sendList.map fun f =>
              if f.handle = e.handle then { f with seq := some seq, phase := .sending } else f } } :
        State).carrying (.message e.handle e.dest q.frameFields) n).sending
      (.message s.stc.sid e.dest q.frameFields seq e.tag
        ((List.range e.length).map fun i => Memory.read s.bfm.mem (256 * e.handle.val + i)))

/-- The exchange has ended: the train goes on when its frame was answered, the count is below the limit
and work is held; otherwise it ends (R133, R136, R138). -/
def State.exchangeOver (s : State) (answered : Bool) : State :=
  { s with
    txa :=
      if answered = true ∧ s.txa.train < s.stc.trainLimit ∧ s.choose ≠ none then
        { exchange := .idle, train := s.txa.train, gap := true, item := none }
      else { exchange := .idle, train := 0, gap := false, item := none } }

/-- acked_total of p takes the total a frame carried, and ctl_attempts is 0 (R53); the Credit Return List
entry goes when the totals are level. -/
def State.acknowledged (s : State) (p : StationId) (c : Carried) : State :=
  let q := { s.peer p with ackedTotal := c.total, ctlAttempts := 0 }
  let peers := s.ssu.peers.set p q
  { s with
    ssu := { s.ssu with peers := peers }
    cru :=
      s.cru.evaluated (if c.total = q.releasedTotal then s.cru.list.filter (· ≠ p) else s.cru.list) peers }

/-- The station enters LEAVING (R149): every other record ABSENT with its session zeroed, the Greet List and
the Credit Return List empty, normal mode, the leave mark clear and a LEAVE pending. -/
def State.leavingNow (s : State) : State :=
  { s with
    ssu :=
      { peers :=
          Vector.ofFn fun p =>
            if p = s.stc.sid then s.peer p else (s.peer p).ended .absent (s.peer p).mySess 0
        greetList := [] }
    cru := { list := [], demand := false }
    stc := { s.stc with state := .leaving, leaveMark := false, pendingLeave := true } }

/-- A station that waits to leave enters LEAVING unless a reply is due (R148). -/
def State.leavesUnlessReplying (s : State) : State :=
  if s.rif.replyDue = none then s.leavingNow else s

/-- The slot of the station in a window that begins now (R124, R125, R148): none when it does not contend,
otherwise the index in the urgent tier or 32 more in the normal tier. -/
def State.SlotByRule (s : State) (slot : Option Nat) : Prop :=
  let index := slotIndex s.ctu.kind s.stc.sid s.ctu.lw
  (s.txa.exchange ≠ .idle ∨ s.txa.gap = true ∨ s.stc.state = .offline ∨ s.stc.state = .listening ∨
      s.stc.state = .halted ∨ (s.stc.leaveMark = true ∧ s.stc.state ≠ .leaving) → slot = none) ∧
    (s.txa.exchange = .idle → s.txa.gap = false → s.stc.leaveMark = false →
      (s.stc.state = .announcing → s.stc.pendingAnnounce = true → slot = some index) ∧
      (s.stc.state = .leaving → s.stc.pendingLeave = true → slot = some index) ∧
      (s.stc.state = .online →
        (s.ssu.greetList ≠ [] ∨ (s.cru.demand = true ∧ s.cru.list ≠ []) → slot = some index) ∧
        (s.ssu.greetList = [] → (s.cru.demand = false ∨ s.cru.list = []) →
          (s.eligible ≠ none ∨ s.cru.list ≠ [] → slot = some (32 + index)) ∧
          (s.eligible = none → s.cru.list = [] → slot = none))))

/-! ### Frames as receptions -/

/-- A frame that this station may send: a MESSAGE has 1 to 256 payload bytes (R109). -/
def Frame.Sendable (f : Frame) : Prop :=
  match f with
  | .message _ _ _ _ _ payload => 1 ≤ payload.length ∧ payload.length ≤ 256
  | .announce _ => True
  | .leave _ => True
  | .greet _ _ _ _ => True
  | .credit _ _ _ => True
  | .reply _ _ _ => True

/-- The MESSAGE header that a receiver of a frame hands on, with the payload that follows (R113). -/
def Frame.headerEvent (f : Frame) : List Instr :=
  match f with
  | .message s d c seq tag payload =>
    [.messageHeader
      { version := 1, src := s.byte, dst := d.byte, srcSess := c.srcSess, dstSess := c.dstSess,
        seq := seq, creditTotal := c.total, tag := tag,
        lengthByte := BitVec.ofNat 8 (payload.length - 1) }
      payload]
  | .announce _ => []
  | .leave _ => []
  | .greet _ _ _ _ => []
  | .credit _ _ _ => []
  | .reply _ _ _ => []

/-- The frame end that a receiver of a whole frame hands on (R113). -/
def Frame.endEvent (f : Frame) : Instr :=
  match f with
  | .announce s => .announceFrameEnd s.byte
  | .leave s => .leaveFrameEnd s.byte
  | .greet s d sess grant => .greetFrameEnd s.byte d sess grant
  | .message s d _ _ _ _ => .messageFrameEnd s.byte d
  | .credit s d c => .creditFrameEnd s.byte d c.srcSess c.dstSess c.total
  | .reply s d .accept => .replyFrameEnd s.byte d 1 0 0
  | .reply s d .stale => .replyFrameEnd s.byte d 2 0 0
  | .reply s d .noCredit => .replyFrameEnd s.byte d 3 0 0
  | .reply s d (.greeted sess grant) => .replyFrameEnd s.byte d 4 sess grant

end Sys2Proof.Machine
end

