-- ==== Sys2Proof/Machine/BusPins.lean ====
section
/-! DEFINITION. The bus cycle at the pins (R169): which levels of CS#, RD# and WR# make a read, a write or no
access, when it is taken, and what the part drives on D15 to D0. A cycle yields a command of the table where
its address has one (R171). -/

namespace Sys2Proof.Machine

/-- The host port's pins at one moment: the levels of CS#, RD# and WR#, A9 to A1, and D15 to D0 as the host
drives them. -/
structure BusPins where
  cs   : PinLevel
  rd   : PinLevel
  wr   : PinLevel
  addr : BitVec 9
  data : Word
  deriving DecidableEq, Repr

/-- CS# low with RD# low and WR# high: a read cycle (R169). -/
def BusPins.reads (p : BusPins) : Bool := p.cs == .low && p.rd == .low && p.wr == .high

/-- CS# low with WR# low and RD# high: a write cycle (R169). -/
def BusPins.writes (p : BusPins) : Bool := p.cs == .low && p.wr == .low && p.rd == .high

/-- The bus cycle in progress: none, a read with the value it drives, a write, or a read or a write that a
fall of RESET# has abandoned. -/
inductive BusCycle where
  | idle
  | reading (value : Word)
  | writing
  | abandonedRead
  | abandonedWrite
  deriving DecidableEq, Repr

/-- An access that is taken. -/
inductive BusAccess where
  | read (addr : BitVec 9)
  | write (addr : BitVec 9) (data : Word)
  deriving DecidableEq, Repr

/-- The command that an access stands for; none for a read that takes nothing (R171). -/
def BusAccess.command : BusAccess → Option Instr
  | .read a => hostReadCommand a
  | .write a w => some (hostWriteCommand a w)

/-- The value of a read cycle that is taken in this state, with the effects of its command made (R169). -/
def State.readValue (s : State) (addr : BitVec 9) : Word :=
  match hostReadCommand addr with
  | none => hostRead s addr
  | some c =>
    match exec c s with
    | .next t => t.hpu.readData
    | .fault _ => 0
    | .refused _ => 0

/-- A cycle begins when the pins make one; a read is taken then, at the address as it stands (R169). -/
def BusPins.begin (p : BusPins) (s : State) : BusCycle × Option BusAccess :=
  if p.reads then (.reading (s.readValue p.addr), some (.read p.addr))
  else if p.writes then (.writing, none)
  else (.idle, none)

/-- The cycle and the access taken as the pins come to stand at p while the part is in state s (R169): a read
cycle holds its value; a write is taken when CS# or WR# is released, with the address and data of that moment,
and when RD# joins it instead, nothing is taken (log 32); an abandoned cycle lasts as long as its levels do, and
ends with nothing taken. Where one cycle ends and another begins at one moment, p is applied twice. -/
def BusCycle.onPins (c : BusCycle) (s : State) (p : BusPins) : BusCycle × Option BusAccess :=
  match c with
  | .idle => p.begin s
  | .reading v => if p.reads then (.reading v, none) else (.idle, none)
  | .writing =>
    if p.writes then (.writing, none)
    else if p.cs = .low ∧ p.wr = .low then (.idle, none)
    else (.idle, some (.write p.addr p.data))
  | .abandonedRead => if p.reads then (.abandonedRead, none) else (.idle, none)
  | .abandonedWrite => if p.writes then (.abandonedWrite, none) else (.idle, none)

/-- RESET# falls: a cycle in progress is abandoned with no effect (R169). -/
def BusCycle.onResetFall : BusCycle → BusCycle
  | .idle => .idle
  | .reading _ | .abandonedRead => .abandonedRead
  | .writing | .abandonedWrite => .abandonedWrite

/-- What the part drives on D15 to D0: the value of a read cycle while it lasts, and nothing otherwise (R169). -/
def BusCycle.dataLines : BusCycle → Option Word
  | .reading v => some v
  | .idle | .writing | .abandonedRead | .abandonedWrite => none

end Sys2Proof.Machine
end

