-- ==== Sys2Proof/Machine/RailPins.lean ====
section
/-! DEFINITION. The rail's pins: the level that RDE and RTX drive and that RRX senses (R105), the half that
the station drives at each moment, and the bit compare of a transmission (R115). -/

namespace Sys2Proof.Machine

/-! ### The pins and the line -/

/-- What the station puts on its two output pins for one half of a bit: RDE asserted or not, and the level
of RTX while RDE is asserted; while it is not, RTX drives nothing (R105). -/
structure RailDrive where
  rde : Bool
  rtx : Option PinLevel
  deriving DecidableEq, Repr

/-- The dominant level is driven by RDE asserted with RTX low; the recessive level by RDE deasserted (R105). -/
def driveHalf : Level → RailDrive
  | .dominant => { rde := true, rtx := some .low }
  | .recessive => { rde := false, rtx := none }

/-- The level of the rail that several stations drive: dominant when one or more of them drive, recessive
when none does (R105). -/
def railLevel (drives : List RailDrive) : Level :=
  if drives.any RailDrive.rde then .dominant else .recessive

/-- RRX for a sensed level: low for dominant, high for recessive (R105). -/
def rrxPin : Level → PinLevel
  | .dominant => .low
  | .recessive => .high

/-- The level that RRX tells (R105). -/
def senseRrx : PinLevel → Level
  | .low => .dominant
  | .high => .recessive

/-! ### What the station drives -/

/-- The n-th half after the frame start that a frame drives; past its last bit the line is left recessive
(R106, R114). -/
def Frame.half (f : Frame) (n : Nat) : Level :=
  match f.lineHalves[n / 2]? with
  | some (first, second) => if n % 2 = 0 then first else second
  | none => .recessive

/-- The level that the station drives in the n-th half after its frame start: recessive when it transmits
nothing (R105). -/
def State.drivenHalf (s : State) (n : Nat) : Level :=
  match s.rif.transmit with
  | some f => f.half n
  | none => .recessive

/-- RDE and RTX in the n-th half after the frame start (R105). -/
def State.railPins (s : State) (n : Nat) : RailDrive := driveHalf (s.drivenHalf n)

/-! ### The compare -/

/-- A mismatch in one half: recessive driven and dominant sensed (R115). -/
def mismatch (driven sensed : Level) : Bool := driven == .recessive && sensed == .dominant

/-- A mismatch in one half or the other of a bit time (R115). -/
def bitMismatch (driven sensed : Level × Level) : Bool :=
  mismatch driven.1 sensed.1 || mismatch driven.2 sensed.2

/-- The bit times that a transmission drives against what it senses in each: up to the first bit time with a
mismatch, which it completes, and none after (R115). -/
def drivenUntilCut : List (Level × Level) → List (Level × Level) → List (Level × Level)
  | d :: ds, x :: xs => if bitMismatch d x then [d] else d :: drivenUntilCut ds xs
  | [], _ => []
  | _, [] => []

/-- A transmission is cut when some bit time of it shows a mismatch (R115). -/
def isCut (driven sensed : List (Level × Level)) : Bool :=
  (driven.zip sensed).any fun p => bitMismatch p.1 p.2

/-- The command of a transmission that goes out whole, by its kind (R114). -/
def FrameKind.ownEnd : FrameKind → Instr
  | .announce => .ownAnnounceEnd
  | .leave => .ownLeaveEnd
  | .reply => .ownReplyEnd
  | .greet | .message | .credit => .ownFrameEnd

/-- The command that ends a transmission, from the bit times sensed while it is driven: the collision of a
cut, in place of the frame end (R114, R115). -/
def Frame.endCommand (f : Frame) (sensed : List (Level × Level)) : Instr :=
  if isCut f.lineHalves sensed then .collision else f.kind.ownEnd

end Sys2Proof.Machine
end

