-- ==== Sys2Proof/Safety.lean ====
section
/-! DEFINITION. What every state of a run is to satisfy: the laws that the spec states of the state. Each is
kept by every step on its own, or with the ones named beside it. -/

namespace Sys2Proof.Machine

/-- Buffer memory keeps its canonical form. -/
def State.MemoryCanonical (s : State) : Prop := Memory.wf s.bfm.mem

/-- The send budget (R66). -/
def State.WithinBudget (s : State) : Prop :=
  s.snu.sendList.length + s.snu.completions.length ≤ Config.sendBudget

/-- The ranges of a peer record (R18, R46), and in_use at most r (R24). -/
def Peer.InBounds (q : Peer) : Prop :=
  q.creditsHeld ≤ 15 ∧ q.ctlAttempts ≤ 64 ∧ q.r ≤ 15 ∧ q.inUse ≤ q.r

/-- Every peer record is in its ranges. -/
def State.PeersInBounds (s : State) : Prop := ∀ p : StationId, (s.peer p).InBounds

/-- The list holds at most one entry per peer: the Greet List (R25), the Credit Return List (R56) and the
Peer Event List, whose counts lie between 1 and 255 (R163). -/
def State.OneEntryPerPeer (s : State) : Prop :=
  s.ssu.greetList.Nodup ∧ s.cru.list.Nodup ∧ (s.atu.peerEvents.map PeerEvent.peer).Nodup ∧
    ∀ e ∈ s.atu.peerEvents, 1 ≤ e.changes ∧ e.changes ≤ 255

/-- While LW_known is clear, the window kind is ORDERED (R122). -/
def State.OrderedUntilKnown (s : State) : Prop := s.ctu.lwKnown = false → s.ctu.kind = .ordered

/-- The leave mark is set in ONLINE and ANNOUNCING alone (R139); an ANNOUNCE is pending exactly in
ANNOUNCING and a LEAVE exactly in LEAVING, and each is on the line in no other state; every other frame is on
the line, and a reply due, in ONLINE alone (R105, R116, R134). A frame that RESTART broke off leaves its last
event to OFFLINE alone (R151). -/
def State.PendingMatchesState (s : State) : Prop :=
  (s.stc.leaveMark = true → s.stc.state = .online ∨ s.stc.state = .announcing) ∧
    (s.stc.pendingAnnounce = true ↔ s.stc.state = .announcing) ∧
    (s.stc.pendingLeave = true ↔ s.stc.state = .leaving) ∧
    (∀ p, s.rif.transmit = some (.announce p) → s.stc.state = .announcing) ∧
    (∀ p, s.rif.transmit = some (.leave p) → s.stc.state = .leaving) ∧
    (∀ f, s.rif.transmit = some f → f.kind ≠ .announce → f.kind ≠ .leave → s.stc.state = .online) ∧
    (s.rif.replyDue ≠ none → s.stc.state = .online) ∧
    (s.rif.broken ≠ none → s.stc.state = .offline)

/-- The idle count and the slot clock follow the line (R107, R123); nothing is sent or assembled on an
IDLE line, no reply is due on a BUSY one (log 11), and a frame that RESTART broke off leaves nothing sent or
assembled (R151). -/
def State.LineConsistent (s : State) : Prop :=
  (s.rif.line = .busy →
      s.rif.idleCount = 0 ∧ s.ctu.slotClock = none ∧ s.ctu.slot = none ∧ s.rif.replyDue = none) ∧
    (s.rif.line = .idle →
      1 ≤ s.rif.idleCount ∧ s.rif.idleCount ≤ 1024 ∧ s.rif.reception = none ∧ s.rif.transmit = none) ∧
    (s.rif.reception ≠ none → s.rif.transmit = none) ∧
    (s.rif.broken ≠ none →
      s.rif.line = .busy ∧ s.rif.reception = none ∧ s.rif.transmit = none) ∧
    ∀ c, s.ctu.slotClock = some c → c < 256

/-- The exchange state follows the item, the train gap and the line (R130, R133): an item is held exactly
while an exchange is in progress, a gap and a reply due stand in IDLE alone, and TRANSMITTING is exactly while
a frame of the station's own that is no REPLY is on the line. -/
def State.ArbiterConsistent (s : State) : Prop :=
  (s.txa.exchange = .idle ↔ s.txa.item = none) ∧
    (s.txa.gap = true → s.txa.exchange = .idle) ∧
    (s.rif.replyDue ≠ none → s.txa.exchange = .idle) ∧
    (s.txa.exchange = .transmitting ↔ ∃ f, s.rif.transmit = some f ∧ f.kind ≠ .reply)

/-- Every handle is in one state, and in the one list or hand that its state names (R1). -/
def State.PoolConsistent (s : State) : Prop :=
  (s.bfm.txFree.Nodup ∧ ∀ h : Handle, h ∈ s.bfm.txFree ↔ s.handle h = .txFree) ∧
    (s.bfm.rxFree.Nodup ∧ ∀ h : Handle, h ∈ s.bfm.rxFree ↔ s.handle h = .rxFree) ∧
    ((s.snu.sendList.map SendEntry.handle).Nodup ∧
      ∀ h : Handle, h ∈ s.snu.sendList.map SendEntry.handle ↔ s.handle h = .queued) ∧
    ((s.rxu.inbound.map Inbound.handle).Nodup ∧
      ∀ (h : Handle) (p : StationId),
        (h, p) ∈ s.rxu.inbound.map (fun r => (r.handle, r.source)) ↔ s.handle h = .posted p) ∧
    ∀ (h : Handle) (p : StationId),
      s.rxu.fill.map (fun f => (f.handle, f.source)) = some (h, p) ↔ s.handle h = .filling p

/-- The records agree with the lists: SELF stands at the station's own identity alone (R18), the Greet List
holds exactly the GREETING peers (R25), the Credit Return List exactly the OPEN peers whose totals differ
(R56), and their_sess is present exactly in OPEN (R18). -/
def State.RecordsMatchLists (s : State) : Prop :=
  ∀ p : StationId,
    ((s.peer p).state = .self ↔ p = s.stc.sid) ∧
      (p ∈ s.ssu.greetList ↔ (s.peer p).state = .greeting) ∧
      (p ∈ s.cru.list ↔
        (s.peer p).state = .isOpen ∧ (s.peer p).releasedTotal ≠ (s.peer p).ackedTotal) ∧
      ((s.peer p).theirSess ≠ none ↔ (s.peer p).state = .isOpen)

/-- The buffers in use and the releases not yet acknowledged are within the reservation of every peer (R54);
while the frame of an exchange is in the session that it was sent in, its total is no further back than
acked_total (R53). -/
def State.RoomKept (s : State) : Prop :=
  (∀ p : StationId,
    (s.peer p).inUse + distance (s.peer p).ackedTotal (s.peer p).releasedTotal ≤ (s.peer p).r) ∧
    ∀ (p : StationId) (c : Carried),
      (s.txa.item = some (.credit p c) ∨ ∃ h, s.txa.item = some (.message h p c)) →
        (s.peer p).mySess = c.srcSess → (s.peer p).theirSess = some c.dstSess →
          distance c.total (s.peer p).releasedTotal ≤
            distance (s.peer p).ackedTotal (s.peer p).releasedTotal

/-- No entry is addressed to the station itself (R68), and no GREET of its own is due an answer (R153). -/
def State.OthersAlone (s : State) : Prop :=
  (∀ e ∈ s.snu.sendList, e.dest ≠ s.stc.sid) ∧
    ∀ (p : StationId) (sess grant : Byte),
      s.rif.replyDue = some { peer := p, status := .greeted sess grant } → p ≠ s.stc.sid

/-- A fill lasts from its header to the end of the same frame (R87). -/
def State.FillInReception (s : State) : Prop :=
  s.rxu.fill ≠ none → s.rif.reception = some { headerSeen := true }

/-- No verdict exists between frames (R87): it stands while the reception that gave it is in assembly, its header
handed, or, when a RESTART taken before that header has dropped the reception, in OFFLINE on a line that is still
BUSY (log 30). -/
def State.VerdictInFrame (s : State) : Prop :=
  s.rxu.verdict ≠ none →
    s.rif.line = .busy ∧ s.rif.transmit = none ∧ s.rif.broken = none ∧
      (s.rif.reception = some { headerSeen := true } ∨
        (s.rif.reception = none ∧ s.stc.state = .offline))

/-- The station whose message a buffer holds (R1). -/
def HandleState.holder? : HandleState → Option StationId
  | .filling p => some p
  | .posted p => some p
  | .held p => some p
  | .unassigned => none
  | .txFree => none
  | .composing => none
  | .queued => none
  | .rxFree => none

/-- The number of buffers that hold messages of p: FILLING, POSTED or HELD (R18). -/
def State.buffersOf (s : State) (p : StationId) : Nat :=
  (List.finRange 128).countP fun h => (s.handle h).holder? = some p

/-- in_use of every peer counts the buffers that hold its messages (R18, R54). -/
def State.BuffersCounted (s : State) : Prop := ∀ p : StationId, (s.peer p).inUse = s.buffersOf p

/-- A handle is on the transmit side (R1). -/
def HandleState.transmitSide : HandleState → Bool
  | .txFree => true
  | .composing => true
  | .queued => true
  | .unassigned => false
  | .rxFree => false
  | .filling _ => false
  | .posted _ => false
  | .held _ => false

/-- Before a JOIN every handle is UNASSIGNED; from a JOIN on no handle is, the transmit side is 128 - R
handles, and the reservations of the records add up to R, at most 112 (R3, R4). -/
def State.SidesCounted (s : State) : Prop :=
  (∀ h : Handle, s.handle h = .unassigned) ∨
    ((∀ h : Handle, s.handle h ≠ .unassigned) ∧
      (List.finRange 128).countP (fun h => (s.handle h).transmitSide) = 128 - s.stc.reserveTotal ∧
      ((List.finRange 32).map fun p => (s.peer p).r).sum = s.stc.reserveTotal ∧
      s.stc.reserveTotal ≤ 112)

end Sys2Proof.Machine
end

