-- ==== Sys2Proof/WellFormed.lean ====
section
/-! DEFINITION. Which commands are well formed: what the types of Syntax.lean do not already say. -/

namespace Sys2Proof

/-- The addresses whose write is a row of its own, so that it is no REGISTER_WRITE (R171): WINDOW,
COMMAND, RELEASE, SEND_GO, FINISH, ATTN_ENABLE and the profile registers that can be written. -/
def ownWriteRow (addr : BitVec 9) : Bool :=
  addr.toNat < 0x080 || addr == 0x102 || addr == 0x109 || addr == 0x115 || addr == 0x141
    || addr == 0x142 || addr == 0x150 || addr == 0x151
    || (0x160 ≤ addr.toNat && addr.toNat ≤ 0x17F)

/-- The command codes that name no command (R183): 0 and 7 to 15. -/
def unusedCode (code : BitVec 4) : Bool := code == 0 || 7 ≤ code.toNat

/-- A command is well formed: a REGISTER_WRITE is at an address with no row of its own, an
UNUSED_COMMAND_CODE carries an unused code, and no more payload bytes follow a header than it states
(R111: a byte past the size is assembled no further). -/
def Instr.wf : Instr → Bool
  | .registerWrite addr _ => !ownWriteRow addr
  | .unusedCommandCode code => unusedCode code
  | .messageHeader h payload => payload.length ≤ h.length
  | .pinResetAssert | .pinResetRelease _ _ _ | .txtakeRead | .releaseWrite _ | .windowRead _
  | .windowWrite _ _ | .sendGoWrite _ | .inboundPopRead | .completionPopRead | .peerEventPopRead
  | .attentionRead | .finishWrite _ | .stateChangeRead | .attnEnableWrite _ | .profileWrite _ _
  | .join | .leave | .restart | .regreet _ | .clearFault | .clearFlags | .lineBusy | .settleGap
  | .windowLastSlotEnd | .slotStart | .trainGapEnd | .collision | .ownFrameEnd | .ownAnnounceEnd
  | .ownLeaveEnd | .ownReplyEnd | .replyMoment | .replyTimeout | .listenTimeout
  | .messageFrameEnd _ _ | .creditFrameEnd _ _ _ _ _ | .greetFrameEnd _ _ _ _
  | .announceFrameEnd _ | .leaveFrameEnd _ | .replyFrameEnd _ _ _ _ _ | .unknownKindFrameEnd
  | .badFrameEnd | .lineIdle => true

end Sys2Proof
end

