-- ==== Sys2Proof/Certificates/Slice0/Obligations.lean ====
section
/-! DEFINITION. The statements for the provers, one proposition each. OBLIGATIONS.json lists them with the
rules they come from. -/

open Sys2Proof Sys2Proof.Machine

/-! ### Steps, the queue and reset -/

/-- A step takes the command at the front of the queue (log 1). -/
def Obligations.StepTakesTheFrontCommand : Prop :=
  ∀ (c : Instr) (q : List Instr) (s : State),
    step { s with pending := c :: q } = exec c { s with pending := q }

/-- On an empty queue a step is one bit time of the line, the model's tick (log 2): nothing on a BUSY line or
while RESET# is low; on an IDLE line the event whose moment it is, in the order reply moment, end of the train
gap, settle gap, slot start, reply timeout, end of the window, listen timeout, and with none of them due one
more idle bit time, the idle count stopping at 1,024 (R107, R117, R118, R120, R123, R126). -/
def Obligations.EmptyQueuePassesOneBitTime : Prop :=
  ∀ s : State, s.pending = [] →
    (s.resetLow = true ∨ s.rif.line = .busy → step s = .next s) ∧
    (s.resetLow = false → s.rif.line = .idle →
      let n := s.rif.idleCount + 1
      let reply : Prop := s.rif.replyDue ≠ none ∧ 6 ≤ n
      let gap : Prop := s.txa.gap = true ∧ 9 ≤ n
      let settle : Prop := s.ctu.slotClock = none ∧ 16 ≤ n
      let slot : Prop := ∃ k c : Nat, s.ctu.slot = some k ∧ s.ctu.slotClock = some c ∧ 4 * k ≤ c + 1
      let timeout : Prop := s.txa.exchange = .awaitReply ∧ 24 ≤ n
      let turn : Prop := s.ctu.slotClock = some 255
      (reply → step s = exec .replyMoment s) ∧
      (¬ reply → gap → step s = exec .trainGapEnd s) ∧
      (¬ reply → ¬ gap → settle → step s = exec .settleGap s) ∧
      (¬ reply → ¬ gap → ¬ settle → slot → step s = exec .slotStart s) ∧
      (¬ reply → ¬ gap → ¬ settle → ¬ slot → timeout → step s = exec .replyTimeout s) ∧
      (¬ reply → ¬ gap → ¬ settle → ¬ slot → ¬ timeout → turn → step s = exec .windowLastSlotEnd s) ∧
      (¬ reply → ¬ gap → ¬ settle → ¬ slot → ¬ timeout → ¬ turn → n = 1024 →
        step s = exec .listenTimeout s) ∧
      (¬ reply → ¬ gap → ¬ settle → ¬ slot → ¬ timeout → ¬ turn → n ≠ 1024 →
        step s =
          .next
            { s with
              rif := { s.rif with idleCount := min 1024 n }
              ctu := { s.ctu with slotClock := s.ctu.slotClock.map fun c => (c + 1) % 256 } }))

/-- Every command completes and leaves the rest of the queue alone; no step stops (log 26). -/
def Obligations.EveryCommandCompletes : Prop :=
  (∀ (c : Instr) (s : State), ∃ t : State, exec c s = .next t ∧ t.pending = s.pending) ∧
    ∀ s : State, ∃ t : State, step s = .next t

/-- The machine right after pin reset: the values that R5, R18, R19, R63, R86, R104, R107, R122, R130,
R141, R152, R157 and R176 give. The straps and the line are those of log 5. -/
def Obligations.ResetStateAsTheRulesGive : Prop :=
  (State.reset.pending = [] ∧ State.reset.resetLow = false) ∧
    State.reset.rif =
      { line := .idle, idleCount := 1, reception := none, transmit := none, replyDue := none,
        broken := none } ∧
    State.reset.ctu = { lw := 0, lwKnown := false, kind := .ordered, slotClock := none, slot := none } ∧
    State.reset.txa = { exchange := .idle, train := 0, gap := false, item := none } ∧
    (State.reset.ssu.greetList = [] ∧ State.reset.peer 0 = { Peer.fresh 0 with state := .self } ∧
      ∀ p : StationId, p ≠ 0 →
        State.reset.peer p =
          { state := .absent, mySess := 0, theirSess := none, creditsHeld := 0, creditSeen := 0,
            nextSeq := 0, lastRxSeq := none, r := 0, inUse := 0, releasedTotal := 0, ackedTotal := 0,
            ctlAttempts := 0 }) ∧
    State.reset.cru = { list := [], demand := false } ∧
    (State.reset.bfm.txFree = [] ∧ State.reset.bfm.rxFree = [] ∧ State.reset.bfm.winsel = 0 ∧
      (∀ a : Nat, Memory.read State.reset.bfm.mem a = 0) ∧
      ∀ h : Handle, State.reset.handle h = .unassigned) ∧
    State.reset.snu = { sendList := [], completions := [] } ∧
    State.reset.rxu = { verdict := none, fill := none, inbound := [] } ∧
    (State.reset.stc.state = .offline ∧ State.reset.stc.leaveMark = false ∧
      State.reset.stc.retryReg = 1 ∧ State.reset.stc.trainReg = 1 ∧
      (∀ p : StationId, State.reset.stc.reserveRegs[p] = 3) ∧
      State.reset.stc.pendingAnnounce = false ∧ State.reset.stc.pendingLeave = false ∧
      State.reset.stc.latch = false ∧ State.reset.stc.profileLocked = false) ∧
    State.reset.atu = { enables := 0, inService := 0, peerEvents := [], fault := none } ∧
    State.reset.hpu =
      { inSource := 0, inLength := 0, inTag := 0, inSess := 0, cTag := 0, cDest := 0, cStatus := 0,
        cAttempts := 0, peState := 0, peReason := 0, peChanges := 0, releaseResult := 0,
        sendResult := 0, commandResult := 0, sendHandle := 0, sendDest := 0, sendLength := 0,
        sendTag := 0, sendFlags := 0, peerSelect := 0, windowMisuse := false, readData := 0 }

/-- PIN_RESET_RELEASE puts every block into its pin-reset state with the straps sampled, whatever the state
was, and the line as it is sensed (R107, R140, R141, R152); the working values of the profile and the value of
the last read cycle are the model's (logs 9 and 17). PIN_RESET_ASSERT ends whatever the part was doing and
clears every block (R121, R152); the straps, the profile registers, their working values and buffer memory stay
until the release (log 8), and the value of the last read cycle stays (log 9). While RESET# is held low every
host read returns 0 and every host write is ignored (R152, R169). -/
def Obligations.PinResetBringsTheResetState : Prop :=
  ((∀ (s : State) (sid : StationId) (rate : BitVec 2) (active : Bool), ∃ t : State,
      exec (.pinResetRelease sid rate active) s = .next t ∧ t.pending = s.pending ∧ t.resetLow = false ∧
        t.rif =
          { line := if active then .busy else .idle, idleCount := if active then 0 else 1,
            reception := none, transmit := none, replyDue := none, broken := none } ∧
        t.ctu = State.reset.ctu ∧ t.txa = State.reset.txa ∧ t.cru = State.reset.cru ∧
        t.bfm = State.reset.bfm ∧ t.snu = State.reset.snu ∧ t.rxu = State.reset.rxu ∧
        t.stc = { State.reset.stc with sid := sid, rate := rate } ∧ t.atu = State.reset.atu ∧
        t.hpu = State.reset.hpu ∧ t.ssu.greetList = [] ∧
        ∀ p : StationId, t.peer p = if p = sid then { Peer.fresh 0 with state := .self } else Peer.fresh 0) ∧
   ∀ s : State, ∃ t : State,
     exec .pinResetAssert s = .next t ∧ t.pending = s.pending ∧ t.resetLow = true ∧
       t.rif =
         { line := s.rif.line, idleCount := if s.rif.line = .busy then 0 else 1, reception := none,
           transmit := none, replyDue := none, broken := none } ∧
       t.ctu = State.reset.ctu ∧ t.txa = State.reset.txa ∧ t.cru = State.reset.cru ∧
       t.bfm = { State.reset.bfm with mem := s.bfm.mem } ∧
       t.snu = State.reset.snu ∧ t.rxu = State.reset.rxu ∧ t.atu = State.reset.atu ∧
       t.stc =
         { s.stc with
           state := .offline, leaveMark := false, pendingAnnounce := false, pendingLeave := false,
           latch := false, profileLocked := false } ∧
       t.hpu = { State.reset.hpu with readData := s.hpu.readData } ∧ t.ssu.greetList = [] ∧
       (∀ p : StationId,
         t.peer p = if p = s.stc.sid then { Peer.fresh 0 with state := .self } else Peer.fresh 0) ∧
       t.atnAsserted = false ∧ ∀ addr : BitVec 9, hostRead t addr = 0) ∧
  ∀ s : State, s.resetLow = true →
    (∀ (addr : BitVec 9) (w : Word), exec (hostWriteCommand addr w) s = .next s) ∧
      (∀ (addr : BitVec 9) (c : Instr), hostReadCommand addr = some c →
        exec c s = .next { s with hpu := { s.hpu with readData := 0 } }) ∧
      ∀ addr : BitVec 9, hostRead s addr = 0

/-- CS# low with RD# alone makes a read cycle, taken once at its beginning with a value that it holds on D15 to
D0 until it ends; CS# low with WR# alone makes a write cycle, taken once when CS# or WR# is released, with the
address and data of that moment; CS# high, both strobes or neither make no access, and a read or write that a
fall of RESET# abandons takes nothing and drives nothing for as long as its own levels last (R169; a write that
RD# joins takes nothing, log 32). A bus cycle stands for the command of its address, and a word written to
COMMAND for the command of its code; every such command is well formed (R171, R173, R183). -/
def Obligations.BusCyclesStandForCommands : Prop :=
  ((∀ (s : State) (p : BusPins),
      (p.cs = .low → p.rd = .low → p.wr = .high →
        BusCycle.idle.onPins s p = (.reading (s.readValue p.addr), some (.read p.addr)) ∧
          BusCycle.abandonedRead.onPins s p = (.abandonedRead, none) ∧
          ∀ v : Word, (BusCycle.reading v).onPins s p = (.reading v, none)) ∧
      (p.cs = .low → p.wr = .low → p.rd = .high →
        BusCycle.idle.onPins s p = (.writing, none) ∧ BusCycle.writing.onPins s p = (.writing, none) ∧
          BusCycle.abandonedWrite.onPins s p = (.abandonedWrite, none)) ∧
      (p.cs = .high ∨ p.rd = p.wr → BusCycle.idle.onPins s p = (.idle, none)) ∧
      (p.cs = .high ∨ p.rd = .high ∨ p.wr = .low →
        BusCycle.abandonedRead.onPins s p = (.idle, none) ∧
          ∀ v : Word, (BusCycle.reading v).onPins s p = (.idle, none)) ∧
      (p.cs = .high ∨ p.wr = .high →
        BusCycle.writing.onPins s p = (.idle, some (.write p.addr p.data))) ∧
      (p.cs = .low → p.wr = .low → p.rd = .low → BusCycle.writing.onPins s p = (.idle, none)) ∧
      (p.cs = .high ∨ p.wr = .high ∨ p.rd = .low → BusCycle.abandonedWrite.onPins s p = (.idle, none))) ∧
    (∀ v : Word,
      ((BusCycle.reading v).onResetFall = .abandonedRead ∧ BusCycle.writing.onResetFall = .abandonedWrite ∧
          BusCycle.abandonedRead.onResetFall = .abandonedRead ∧
          BusCycle.abandonedWrite.onResetFall = .abandonedWrite ∧ BusCycle.idle.onResetFall = .idle) ∧
        (BusCycle.reading v).dataLines = some v ∧ BusCycle.idle.dataLines = none ∧
        BusCycle.writing.dataLines = none ∧ BusCycle.abandonedRead.dataLines = none ∧
        BusCycle.abandonedWrite.dataLines = none) ∧
    ∀ (s : State) (addr : BitVec 9),
      (BusAccess.read addr).command = hostReadCommand addr ∧
        (∀ w : Word, (BusAccess.write addr w).command = some (hostWriteCommand addr w)) ∧
        (hostReadCommand addr = none → s.readValue addr = hostRead s addr) ∧
        ∀ (c : Instr) (t : State), hostReadCommand addr = some c → exec c s = .next t →
          s.readValue addr = t.hpu.readData) ∧
  (∀ (k : BitVec 7) (w : Word),
      hostWriteCommand (k.setWidth 9) w = .windowWrite k w ∧
        hostReadCommand (k.setWidth 9) = some (.windowRead k)) ∧
    (∀ w : Word,
      hostWriteCommand 0x109 w = .releaseWrite w ∧ hostWriteCommand 0x115 w = .sendGoWrite w ∧
        hostWriteCommand 0x141 w = .finishWrite w ∧ hostWriteCommand 0x142 w = .attnEnableWrite w ∧
        hostWriteCommand 0x150 w = .profileWrite .retry w ∧
        hostWriteCommand 0x151 w = .profileWrite .train w ∧
        ∀ p : StationId, hostWriteCommand (0x160 + BitVec.ofNat 9 p.val) w = .profileWrite (.reserve p) w) ∧
    (∀ w : Word,
      hostWriteCommand 0x102 w =
        match w.toNat % 16 with
        | 1 => .join
        | 2 => .leave
        | 3 => .restart
        | 4 => .regreet (BitVec.ofNat 6 (w.toNat / 256 % 64))
        | 5 => .clearFault
        | 6 => .clearFlags
        | n => .unusedCommandCode (BitVec.ofNat 4 n)) ∧
    (hostReadCommand 0x101 = some .stateChangeRead ∧ hostReadCommand 0x108 = some .txtakeRead ∧
      hostReadCommand 0x118 = some .inboundPopRead ∧ hostReadCommand 0x120 = some .completionPopRead ∧
      hostReadCommand 0x128 = some .peerEventPopRead ∧ hostReadCommand 0x140 = some .attentionRead) ∧
    ∀ (addr : BitVec 9) (w : Word),
      (ownWriteRow addr = false → hostWriteCommand addr w = .registerWrite addr w) ∧
        (hostWriteCommand addr w).wf = true

/-! ### Invariants of every step -/

/-- Buffer memory keeps its canonical form at every step. -/
def Obligations.StepKeepsMemoryCanonical : Prop :=
  ∀ s t : State, s.MemoryCanonical → step s = .next t → t.MemoryCanonical

/-- Every handle stays in exactly one state and in exactly the one list its state names (R1, R2). -/
def Obligations.StepKeepsThePoolConsistent : Prop :=
  ∀ s t : State, s.PoolConsistent → step s = .next t → t.PoolConsistent

/-- in_use of every peer goes on counting the buffers that hold its messages (R18, R54), and the two sides of
the pool keep their sizes, R and 128 - R of the latest JOIN (R4). -/
def Obligations.StepKeepsTheCountsOfBuffers : Prop :=
  (∀ s t : State, s.PoolConsistent → s.BuffersCounted → step s = .next t → t.BuffersCounted) ∧
  ∀ s t : State, s.PoolConsistent → s.SidesCounted → step s = .next t → t.SidesCounted

/-- The Send List and the Completion List together never hold more than 32 entries (R66). -/
def Obligations.StepKeepsTheSendBudget : Prop :=
  ∀ s t : State, s.WithinBudget → step s = .next t → t.WithinBudget

/-- Every record stays in its ranges: credits_held at most 15, ctl_attempts at most 64, r at most 15 and
in_use at most r (R18, R24, R46). -/
def Obligations.StepKeepsRecordsInRange : Prop :=
  ∀ s t : State, s.PeersInBounds → step s = .next t → t.PeersInBounds

/-- The Greet List, the Credit Return List and the Peer Event List keep at most one entry per peer, and
the counts of peer events stay between 1 and 255 (R25, R56, R163). -/
def Obligations.StepKeepsOneEntryPerPeer : Prop :=
  ∀ s t : State, s.OneEntryPerPeer → step s = .next t → t.OneEntryPerPeer

/-- The idle count, the slot clock, receptions, transmissions and replies due stay consistent with the
line, where no reply being due on a BUSY line is the model's (log 11); a fill lives only inside the reception that
began it, and no verdict exists between frames, where one that a RESTART leaves standing is log 30's (R87, R107,
R114, R123); and the exchange state follows the item, the train gap and the line (R130, R133, R135). -/
def Obligations.StepKeepsTheLineConsistent : Prop :=
  (∀ s t : State, s.LineConsistent → s.FillInReception → s.OrderedUntilKnown →
      s.PendingMatchesState → step s = .next t → t.LineConsistent ∧ t.FillInReception) ∧
    (∀ s t : State, s.LineConsistent → s.PendingMatchesState → s.VerdictInFrame → step s = .next t →
      t.VerdictInFrame) ∧
    ∀ s t : State, s.LineConsistent → s.ArbiterConsistent → step s = .next t → t.ArbiterConsistent

/-- The records stay in agreement with the lists, and for every peer the buffers in use and the releases not
yet acknowledged stay within its reservation (R18, R25, R54, R56). -/
def Obligations.StepKeepsSessionsWithinTheirRoom : Prop :=
  ∀ s t : State, s.LineConsistent → s.ArbiterConsistent → s.PoolConsistent → s.BuffersCounted →
    s.PeersInBounds → s.RecordsMatchLists → s.RoomKept → s.OthersAlone → step s = .next t →
      t.RecordsMatchLists ∧ t.RoomKept ∧ t.OthersAlone

/-- From a JOIN on the RX Free List holds R less the buffers in use, so that a peer with room always finds a
free buffer (R54, R91): an admitted message is never without one (log 16). -/
def Obligations.RoomMeansAFreeBuffer : Prop :=
  ∀ s : State, s.PoolConsistent → s.BuffersCounted → s.SidesCounted →
    (∃ h : Handle, s.handle h ≠ .unassigned) →
      s.bfm.rxFree.length + ((List.finRange 32).map fun p => (s.peer p).inUse).sum =
          s.stc.reserveTotal ∧
        (s.RoomKept → ∀ p : StationId,
          1 ≤ (s.peer p).r - (s.peer p).inUse
              - distance (s.peer p).ackedTotal (s.peer p).releasedTotal →
            (∀ k : StationId, (s.peer k).inUse ≤ (s.peer k).r) → s.bfm.rxFree ≠ [])

/-- LW unknown stays with ORDERED; the leave mark, the pending ANNOUNCE, the pending LEAVE, the station's own
frames and a reply due stay with the station states that may have them, so that the station drives the rail in
ANNOUNCING, ONLINE and LEAVING alone (R105, R116, R122, R134, R139). -/
def Obligations.StepKeepsPendingWorkWithTheState : Prop :=
  ∀ s t : State, s.LineConsistent → s.FillInReception → s.OrderedUntilKnown →
    s.PendingMatchesState → step s = .next t → t.OrderedUntilKnown ∧ t.PendingMatchesState

/-- Right after reset every invariant holds. -/
def Obligations.InvariantsHoldAtReset : Prop :=
  State.reset.MemoryCanonical ∧ State.reset.PoolConsistent ∧ State.reset.BuffersCounted ∧
    State.reset.SidesCounted ∧ State.reset.WithinBudget ∧ State.reset.PeersInBounds ∧
    State.reset.OneEntryPerPeer ∧ State.reset.LineConsistent ∧ State.reset.FillInReception ∧
    State.reset.VerdictInFrame ∧
    State.reset.ArbiterConsistent ∧ State.reset.OrderedUntilKnown ∧ State.reset.PendingMatchesState ∧
    State.reset.RecordsMatchLists ∧ State.reset.RoomKept ∧ State.reset.OthersAlone

/-! ### Buffers -/

/-- TXTAKE takes the oldest free transmit handle into COMPOSING and returns it, and returns 0xFFFF when
there is none (R7). RELEASE of a HELD buffer of p: the handle to the tail of the RX Free List, in_use of p
down and released_total of p up by one whatever the states, and for an OPEN p an entry in the Credit Return
List with demand mode evaluated (R10, R55). RELEASE of a COMPOSING handle returns it to the tail of the TX
Free List; a handle in any other state, or a value over 127, is answered BAD_HANDLE (R10, R174). -/
def Obligations.TakesAndReleasesOfBuffers : Prop :=
  (∀ s : State, s.resetLow = false →
     (s.bfm.txFree = [] →
       exec .txtakeRead s = .next { s with hpu := { s.hpu with readData := 0xFFFF } }) ∧
     ∀ (h : Handle) (rest : List Handle), s.bfm.txFree = h :: rest →
       exec .txtakeRead s =
         .next
           { s with
             bfm := { s.bfm with table := s.bfm.table.set h .composing, txFree := rest }
             hpu := { s.hpu with readData := BitVec.ofNat 16 h.val } }) ∧
  (∀ (s : State) (w : Word) (h : Handle) (p : StationId), s.resetLow = false → w.toNat = h.val →
     s.handle h = .held p →
       let q : Peer :=
         { s.peer p with
           inUse := (s.peer p).inUse - 1, releasedTotal := (s.peer p).releasedTotal + 1 }
       let peers := s.ssu.peers.set p q
       exec (.releaseWrite w) s =
         .next
           { s with
             bfm :=
               { s.bfm with table := s.bfm.table.set h .rxFree, rxFree := s.bfm.rxFree ++ [h] }
             ssu := { s.ssu with peers := peers }
             cru :=
               if (s.peer p).state = .isOpen then
                 s.cru.evaluated (if p ∈ s.cru.list then s.cru.list else s.cru.list ++ [p]) peers
               else s.cru
             hpu := { s.hpu with releaseResult := 1 } }) ∧
  ∀ (s : State) (w : Word), s.resetLow = false →
    (∀ h : Handle, w.toNat = h.val → s.handle h = .composing →
      exec (.releaseWrite w) s =
        .next
          { s with
            bfm := { s.bfm with table := s.bfm.table.set h .txFree, txFree := s.bfm.txFree ++ [h] }
            hpu := { s.hpu with releaseResult := 2 } }) ∧
    ((128 ≤ w.toNat ∨
        ∃ h : Handle, w.toNat = h.val ∧ s.handle h ≠ .composing ∧ ∀ p, s.handle h ≠ .held p) →
      exec (.releaseWrite w) s = .next { s with hpu := { s.hpu with releaseResult := 3 } })

/-- A window read is served when the selected handle is COMPOSING, POSTED or HELD, and otherwise returns
0xFFFF and sets WINDOW_MISUSE. A window write stores its two bytes when the selected handle is COMPOSING and
changes no other byte; in every other state it changes none and sets WINDOW_MISUSE (R16, R17, R183). -/
def Obligations.WindowAccessesAreChecked : Prop :=
  (∀ (s : State) (k : BitVec 7), s.resetLow = false →
     ((s.handle s.bfm.winsel = .composing ∨
         ∃ p, s.handle s.bfm.winsel = .posted p ∨ s.handle s.bfm.winsel = .held p) →
       exec (.windowRead k) s =
         .next
           { s with
             hpu :=
               { s.hpu with
                 readData :=
                   Memory.read s.bfm.mem (256 * s.bfm.winsel.val + 2 * k.toNat)
                     ++ Memory.read s.bfm.mem (256 * s.bfm.winsel.val + 2 * k.toNat + 1) } }) ∧
     ((s.handle s.bfm.winsel ≠ .composing ∧
         ∀ p, s.handle s.bfm.winsel ≠ .posted p ∧ s.handle s.bfm.winsel ≠ .held p) →
       exec (.windowRead k) s =
         .next { s with hpu := { s.hpu with readData := 0xFFFF, windowMisuse := true } })) ∧
  ∀ (s : State) (k : BitVec 7) (w : Word), s.resetLow = false → s.MemoryCanonical →
    (s.handle s.bfm.winsel = .composing →
      ∃ m : List Host.Cell,
        exec (.windowWrite k w) s = .next { s with bfm := { s.bfm with mem := m } } ∧
          ∀ a : Nat,
            Memory.read m a =
              if a = 256 * s.bfm.winsel.val + 2 * k.toNat then w.extractLsb' 8 8
              else if a = 256 * s.bfm.winsel.val + 2 * k.toNat + 1 then w.extractLsb' 0 8
              else Memory.read s.bfm.mem a) ∧
    (s.handle s.bfm.winsel ≠ .composing →
      exec (.windowWrite k w) s = .next { s with hpu := { s.hpu with windowMisuse := true } })

/-- A buffer the host has taken, COMPOSING or HELD, stays so through every command but a RELEASE that names
it, a SEND_GO that names it, JOIN, RESTART and pin reset (R7, R14, R16). -/
def Obligations.HostKeepsTheBuffersItTook : Prop :=
  ∀ (s t : State) (c : Instr) (h : Handle), s.PoolConsistent →
    (s.handle h = .composing ∨ ∃ p, s.handle h = .held p) →
    (∀ w : Word, c = .releaseWrite w → w.toNat ≠ h.val) →
    (∀ w : Word, c = .sendGoWrite w → s.hpu.sendHandle.toNat ≠ h.val) →
    c ≠ .join → c ≠ .restart → c ≠ .pinResetAssert →
    (∀ sid rate act, c ≠ .pinResetRelease sid rate act) →
    exec c s = .next t → t.handle h = s.handle h

/-! ### Send requests -/

/-- SEND_GO checks the request in the order of R68 and refuses it with the result of the first check that
fails; nothing but SEND_RESULT changes (R68, R175). A request that passes every check is ACCEPTED: the handle
is QUEUED and a WAITING entry joins the tail of the Send List (R69). -/
def Obligations.SendGoChecksInOrder : Prop :=
  (∀ (s : State) (w : Word), s.resetLow = false →
     let refused (r : BitVec 4) : Prop :=
       exec (.sendGoWrite w) s = .next { s with hpu := { s.hpu with sendResult := r } }
     (s.stc.state ≠ .online ∨ s.stc.leaveMark = true → refused 2) ∧
     (s.stc.state = .online → s.stc.leaveMark = false →
       (32 ≤ s.hpu.sendDest.toNat ∨ s.hpu.sendDest.toNat = s.stc.sid.val → refused 3) ∧
       ∀ d : StationId, s.hpu.sendDest.toNat = d.val → d ≠ s.stc.sid →
         (s.hpu.sendLength.toNat = 0 ∨ 256 < s.hpu.sendLength.toNat → refused 4) ∧
         (1 ≤ s.hpu.sendLength.toNat → s.hpu.sendLength.toNat ≤ 256 →
           ((s.peer d).state = .absent → refused 5) ∧
           ((s.peer d).state = .lost → refused 6) ∧
           ((s.peer d).state ≠ .absent → (s.peer d).state ≠ .lost →
             (32 ≤ s.snu.sendList.length + s.snu.completions.length → refused 7) ∧
             (s.snu.sendList.length + s.snu.completions.length < 32 →
               (128 ≤ s.hpu.sendHandle.toNat ∨
                   ∃ h : Handle, s.hpu.sendHandle.toNat = h.val ∧ s.handle h ≠ .composing) →
                 refused 8))))) ∧
  ∀ (s : State) (w : Word) (d : StationId) (h : Handle), s.resetLow = false →
    s.stc.state = .online → s.stc.leaveMark = false →
    s.hpu.sendDest.toNat = d.val → d ≠ s.stc.sid →
    1 ≤ s.hpu.sendLength.toNat → s.hpu.sendLength.toNat ≤ 256 →
    (s.peer d).state ≠ .absent → (s.peer d).state ≠ .lost →
    s.snu.sendList.length + s.snu.completions.length < 32 →
    s.hpu.sendHandle.toNat = h.val → s.handle h = .composing →
      exec (.sendGoWrite w) s =
        .next
          { s with
            bfm := { s.bfm with table := s.bfm.table.set h .queued }
            snu :=
              { s.snu with
                sendList := s.snu.sendList ++
                  [{ handle := h, dest := d, length := s.hpu.sendLength.toNat, tag := s.hpu.sendTag,
                     quiet := s.hpu.sendFlags.getLsbD 0, seq := none, attempts := 0,
                     phase := .waiting }] }
            hpu := { s.hpu with sendResult := 1 } }

/-! ### Pops -/

/-- INBOUND_POP removes the oldest record, makes its handle HELD and latches the rest (R14, R103);
COMPLETION_POP removes and latches the oldest completion record (R83); PEER_EVENT_POP the oldest peer event
(R165). Each returns the handle or peer; an empty list gives 0xFFFF and views of 0. -/
def Obligations.PopsTakeTheOldestRecord : Prop :=
  (∀ s : State, s.resetLow = false →
     (s.rxu.inbound = [] →
       exec .inboundPopRead s =
         .next
           { s with
             hpu :=
               { s.hpu with
                 inSource := 0, inLength := 0, inTag := 0, inSess := 0, readData := 0xFFFF } }) ∧
     ∀ (r : Inbound) (rest : List Inbound), s.rxu.inbound = r :: rest →
       exec .inboundPopRead s =
         .next
           { s with
             bfm := { s.bfm with table := s.bfm.table.set r.handle (.held r.source) }
             rxu := { s.rxu with inbound := rest }
             hpu :=
               { s.hpu with
                 inSource := BitVec.ofNat 5 r.source.val, inLength := BitVec.ofNat 9 r.length,
                 inTag := r.tag, inSess := r.sess, readData := BitVec.ofNat 16 r.handle.val } }) ∧
  (∀ s : State, s.resetLow = false →
     (s.snu.completions = [] →
       exec .completionPopRead s =
         .next
           { s with
             hpu :=
               { s.hpu with cTag := 0, cDest := 0, cStatus := 0, cAttempts := 0, readData := 0xFFFF } }) ∧
     ∀ (c : Completion) (rest : List Completion), s.snu.completions = c :: rest →
       exec .completionPopRead s =
         .next
           { s with
             snu := { s.snu with completions := rest }
             hpu :=
               { s.hpu with
                 cTag := c.tag, cDest := BitVec.ofNat 5 c.dest.val, cStatus := c.status.code,
                 cAttempts := BitVec.ofNat 8 c.attempts, readData := BitVec.ofNat 16 c.handle.val } }) ∧
  ∀ s : State, s.resetLow = false →
    (s.atu.peerEvents = [] →
      exec .peerEventPopRead s =
        .next
          { s with
            hpu := { s.hpu with peState := 0, peReason := 0, peChanges := 0, readData := 0xFFFF } }) ∧
    ∀ (e : PeerEvent) (rest : List PeerEvent), s.atu.peerEvents = e :: rest →
      exec .peerEventPopRead s =
        .next
          { s with
            atu := { s.atu with peerEvents := rest }
            hpu :=
              { s.hpu with
                peState := e.state.code, peReason := e.reason.code,
                peChanges := BitVec.ofNat 8 e.changes, readData := BitVec.ofNat 16 e.peer.val } }

/-! ### Attention -/

/-- ATN# is asserted exactly when some source is enabled, has its condition true and is numbered lower than
every source in service; the five conditions are those of the sources (R158, R159). -/
def Obligations.AtnFollowsThePendingSources : Prop :=
  ∀ s : State, s.resetLow = false →
    ((s.atnAsserted = true ↔
        ∃ n : Fin 5, s.atu.enables.getLsbD n.val = true ∧ s.condition n = true ∧
          ∀ m : Fin 5, s.atu.inService.getLsbD m.val = true → n < m) ∧
      ((s.condition 0 = true ↔ s.atu.fault ≠ none) ∧
        (s.condition 1 = true ↔ s.atu.peerEvents ≠ []) ∧
        (s.condition 2 = true ↔ s.snu.completions ≠ []) ∧
        (s.condition 3 = true ↔ s.rxu.inbound ≠ []) ∧ (s.condition 4 = true ↔ s.stc.latch = true)))

/-- An ATTENTION read returns the lowest-numbered pending source and sets its in-service flag, after which
it is the lowest in service and only a lower one can be pending; with none pending it returns 7 and changes
no flag (R160). -/
def Obligations.AttentionReadTakesTheLowestPending : Prop :=
  ∀ s : State, s.resetLow = false →
    ((∀ n : Fin 5, s.sourcePending n = false) →
      exec .attentionRead s = .next { s with hpu := { s.hpu with readData := 7 } }) ∧
    ∀ n : Fin 5, s.sourcePending n = true → (∀ m : Fin 5, m < n → s.sourcePending m = false) →
      ∃ flags : BitVec 5,
        exec .attentionRead s =
          .next
            { s with
              atu := { s.atu with inService := flags }
              hpu := { s.hpu with readData := BitVec.ofNat 16 n.val } } ∧
        (∀ m : Fin 5, flags.getLsbD m.val = true ↔ m = n ∨ s.atu.inService.getLsbD m.val = true) ∧
        (∀ m : Fin 5, flags.getLsbD m.val = true → n ≤ m) ∧
        ∀ k : Fin 5,
          ({ s with atu := { s.atu with inService := flags } } : State).sourcePending k = true → k < n

/-- FINISH clears the in-service flag of the lowest-numbered source in service, whatever the word, and
changes nothing when none is in service; a source below every one that remains is pending again if it is
enabled and its condition is true, and one whose condition is false is not (R161). -/
def Obligations.FinishClearsTheLowestInService : Prop :=
  ∀ (s : State) (w : Word), s.resetLow = false →
    (s.atu.inService = 0 → exec (.finishWrite w) s = .next s) ∧
    ∀ n : Fin 5, s.atu.inService.getLsbD n.val = true →
      (∀ m : Fin 5, m < n → s.atu.inService.getLsbD m.val = false) →
        ∃ t : State,
          exec (.finishWrite w) s = .next t ∧
            t = { s with atu := { s.atu with inService := t.atu.inService } } ∧
            (∀ m : Fin 5,
              t.atu.inService.getLsbD m.val = true ↔ m ≠ n ∧ s.atu.inService.getLsbD m.val = true) ∧
            (∀ k : Fin 5, (∀ m : Fin 5, t.atu.inService.getLsbD m.val = true → k < m) →
              s.atu.enables.getLsbD k.val = true → s.condition k = true →
                t.sourcePending k = true ∧ t.atnAsserted = true) ∧
            ∀ k : Fin 5, s.condition k = false → t.sourcePending k = false

/-- A STATE_CHANGE read returns the state with the latch in bit 4 and clears the latch (R156, R183); a write
to ATTN_ENABLE replaces the five enables (R158). -/
def Obligations.StateChangeReadAndEnables : Prop :=
  ∀ s : State, s.resetLow = false →
    exec .stateChangeRead s =
      .next
        { s with
          stc := { s.stc with latch := false }
          hpu :=
            { s.hpu with
              readData :=
                BitVec.ofNat 16 (s.stc.state.code.toNat + if s.stc.latch = true then 16 else 0) } } ∧
    ∀ w : Word, ∃ e : BitVec 5,
      exec (.attnEnableWrite w) s = .next { s with atu := { s.atu with enables := e } } ∧
        ∀ n : Fin 5, e.getLsbD n.val = w.getLsbD n.val

/-! ### Registers -/

/-- A write to WINSEL selects the handle of its low seven bits in every station state and sets no flag; a
read returns it with the upper bits 0; pin reset and RESTART select 0 and JOIN keeps the selection (R15). -/
def Obligations.WinselSelectsTheWindow : Prop :=
  ∀ (s : State) (w : Word), s.resetLow = false →
    (∃ h : Handle, h.val = w.toNat % 128 ∧
      exec (.registerWrite 0x104 w) s = .next { s with bfm := { s.bfm with winsel := h } }) ∧
    (registerWord s 0x104).toNat = s.bfm.winsel.val ∧
    (∀ (sid : StationId) (rate : BitVec 2) (act : Bool) (t : State),
      exec (.pinResetRelease sid rate act) s = .next t → t.bfm.winsel = 0) ∧
    (∀ t : State, exec .restart s = .next t → t.bfm.winsel = 0) ∧
    ∀ t : State, exec .join s = .next t → t.bfm.winsel = s.bfm.winsel

/-- The staging registers store the whole word and PEER_SELECT its low five bits, with no other effect; a
REGISTER_WRITE at any other address changes nothing: at a read-only or unmapped address by R171, at an address
with a row of its own, where no bus cycle makes one, by log 18 (R67, R171, R177). -/
def Obligations.RegisterWritesStoreTheirFields : Prop :=
  ∀ (s : State) (w : Word), s.resetLow = false →
    exec (.registerWrite 0x110 w) s = .next { s with hpu := { s.hpu with sendHandle := w } } ∧
    exec (.registerWrite 0x111 w) s = .next { s with hpu := { s.hpu with sendDest := w } } ∧
    exec (.registerWrite 0x112 w) s = .next { s with hpu := { s.hpu with sendLength := w } } ∧
    exec (.registerWrite 0x113 w) s = .next { s with hpu := { s.hpu with sendTag := w } } ∧
    exec (.registerWrite 0x114 w) s = .next { s with hpu := { s.hpu with sendFlags := w } } ∧
    (∃ p : StationId, p.val = w.toNat % 32 ∧
      exec (.registerWrite 0x130 w) s = .next { s with hpu := { s.hpu with peerSelect := p } }) ∧
    (registerWord s 0x110 = s.hpu.sendHandle ∧ registerWord s 0x111 = s.hpu.sendDest ∧
      registerWord s 0x112 = s.hpu.sendLength ∧ registerWord s 0x113 = s.hpu.sendTag ∧
      registerWord s 0x114 = s.hpu.sendFlags ∧
      (registerWord s 0x130).toNat = s.hpu.peerSelect.val) ∧
    ∀ addr : BitVec 9, addr ≠ 0x104 → addr ≠ 0x110 → addr ≠ 0x111 → addr ≠ 0x112 → addr ≠ 0x113 →
      addr ≠ 0x114 → addr ≠ 0x130 → exec (.registerWrite addr w) s = .next s

/-- STATUS packs the state, the flags, the mode, the window kind and LW into its bits; the LIST_LEVELS
registers pack two lengths; results, views, enables, in-service flags, straps and the fault view stand in their
fields; a write-only register and every unmapped address read 0 (R140, R171, R172, R176, R178, R179, R183). The peer view at the station's own identity
shows SELF and 0 in every other field; at another identity it shows the record, an absent number as 0 with
its flag clear (R18, R177, R183). -/
def Obligations.ReadWordsPackTheRegisters : Prop :=
  (∀ s : State,
     (registerWord s 0x100).toNat =
       s.stc.state.code.toNat + (if s.stc.leaveMark = true then 8 else 0)
         + (if s.stc.latch = true then 16 else 0) + (if s.hpu.windowMisuse = true then 32 else 0)
         + (if s.stc.profileLocked = true then 64 else 0) + (if s.cru.demand = true then 128 else 0)
         + (if s.ctu.kind = .rotation then 256 else 0) + (if s.ctu.lwKnown = true then 512 else 0)
         + 1024 * s.ctu.lw.val ∧
     (s.bfm.txFree.length < 256 → s.bfm.rxFree.length < 256 →
       (registerWord s 0x180).toNat = 256 * s.bfm.txFree.length + s.bfm.rxFree.length) ∧
     (s.WithinBudget →
       (registerWord s 0x181).toNat = 256 * s.snu.sendList.length + s.snu.completions.length) ∧
     (s.OneEntryPerPeer → s.PoolConsistent →
       (registerWord s 0x182).toNat = 256 * s.rxu.inbound.length + s.atu.peerEvents.length ∧
         (registerWord s 0x183).toNat = 256 * s.cru.list.length + s.ssu.greetList.length) ∧
     ((registerWord s 0x103).toNat = s.hpu.commandResult.toNat ∧
       (registerWord s 0x10A).toNat = s.hpu.releaseResult.toNat ∧
       (registerWord s 0x116).toNat = s.hpu.sendResult.toNat ∧
       (registerWord s 0x119).toNat = s.hpu.inSource.toNat ∧
       (registerWord s 0x11A).toNat = s.hpu.inLength.toNat ∧ registerWord s 0x11B = s.hpu.inTag ∧
       (registerWord s 0x11C).toNat = s.hpu.inSess.toNat ∧ registerWord s 0x121 = s.hpu.cTag ∧
       (registerWord s 0x122).toNat = s.hpu.cDest.toNat ∧
       (registerWord s 0x123).toNat = s.hpu.cStatus.toNat ∧
       (registerWord s 0x124).toNat = s.hpu.cAttempts.toNat ∧
       (registerWord s 0x129).toNat = s.hpu.peState.toNat ∧
       (registerWord s 0x12A).toNat = 256 * s.hpu.peReason.toNat + s.hpu.peChanges.toNat ∧
       (registerWord s 0x142).toNat = s.atu.enables.toNat ∧
       (registerWord s 0x143).toNat = s.atu.inService.toNat ∧
       (registerWord s 0x152).toNat = s.stc.sid.val + 256 * s.stc.rate.toNat) ∧
     (s.atu.fault = none →
       registerWord s 0x148 = 0 ∧ registerWord s 0x149 = 0 ∧ registerWord s 0x14A = 0 ∧
         registerWord s 0x14B = 0 ∧ registerWord s 0x14C = 0) ∧
     (∀ f : FaultRecord, s.atu.fault = some f →
       (registerWord s 0x148).toNat = f.kind.code.toNat ∧ (registerWord s 0x149).toNat = f.peer.val ∧
         (registerWord s 0x14A).toNat = f.frame.code.toNat ∧
         (registerWord s 0x14B).toNat = f.value.toNat ∧
         (registerWord s 0x14C).toNat = if f.more = true then 1 else 0) ∧
     ∀ addr : BitVec 9,
       ((0x080 ≤ addr.toNat ∧ addr.toNat < 0x100) ∨ (0x105 ≤ addr.toNat ∧ addr.toNat ≤ 0x107) ∨
           (0x10B ≤ addr.toNat ∧ addr.toNat ≤ 0x10F) ∨ addr.toNat = 0x117 ∨
           (0x11D ≤ addr.toNat ∧ addr.toNat ≤ 0x11F) ∨ (0x125 ≤ addr.toNat ∧ addr.toNat ≤ 0x127) ∨
           (0x12B ≤ addr.toNat ∧ addr.toNat ≤ 0x12F) ∨ (0x138 ≤ addr.toNat ∧ addr.toNat ≤ 0x13F) ∨
           (0x144 ≤ addr.toNat ∧ addr.toNat ≤ 0x147) ∨ (0x14D ≤ addr.toNat ∧ addr.toNat ≤ 0x14F) ∨
           (0x153 ≤ addr.toNat ∧ addr.toNat ≤ 0x15F) ∨ 0x184 ≤ addr.toNat ∨
           addr.toNat = 0x102 ∨ addr.toNat = 0x109 ∨ addr.toNat = 0x115 ∨ addr.toNat = 0x141) →
         hostReadCommand addr = none ∧ registerWord s addr = 0 ∧ hostRead s addr = 0) ∧
  ∀ s : State,
    (s.hpu.peerSelect = s.stc.sid →
      registerWord s 0x131 = 5 ∧ registerWord s 0x132 = 0 ∧ registerWord s 0x133 = 0 ∧
        registerWord s 0x134 = 0 ∧ registerWord s 0x135 = 0 ∧ registerWord s 0x136 = 0 ∧
        registerWord s 0x137 = 0) ∧
    (s.hpu.peerSelect ≠ s.stc.sid → (s.peer s.hpu.peerSelect).InBounds →
      let q := s.peer s.hpu.peerSelect
      (registerWord s 0x131).toNat =
          q.state.code.toNat + (if q.theirSess ≠ none then 256 else 0)
            + (if q.lastRxSeq ≠ none then 512 else 0) ∧
        registerWord s 0x132 = q.mySess ++ q.theirSess.getD 0 ∧
        registerWord s 0x133 = q.nextSeq ++ q.lastRxSeq.getD 0 ∧
        (registerWord s 0x134).toNat = 256 * q.creditsHeld + q.creditSeen.toNat ∧
        (registerWord s 0x135).toNat = 256 * q.r + q.inUse ∧
        registerWord s 0x136 = q.releasedTotal ++ q.ackedTotal ∧
        (registerWord s 0x137).toNat = q.ctlAttempts)

/-- The codes of states, reasons, statuses, fault kinds, results, commands and frame kinds (R184); none of
the names at the host port has code 0. -/
def Obligations.CodesOfNames : Prop :=
  ((StationState.offline.code, StationState.listening.code, StationState.announcing.code,
      StationState.online.code, StationState.leaving.code, StationState.halted.code)
    = (1, 2, 3, 4, 5, 6)) ∧
    ((PeerState.absent.code, PeerState.greeting.code, PeerState.isOpen.code, PeerState.lost.code,
      PeerState.self.code) = (1, 2, 3, 4, 5)) ∧
    ((Reason.announced.code, Reason.heard.code, Reason.greeted.code, Reason.answered.code,
      Reason.staleReply.code, Reason.noCreditReply.code, Reason.protocolFault.code,
      Reason.greetExhausted.code, Reason.retryExhausted.code, Reason.hostRegreet.code,
      Reason.left.code) = (1, 2, 3, 4, 5, 6, 7, 8, 9, 10, 11)) ∧
    ((Status.delivered.code, Status.sessionReset.code, Status.refusedNoCredit.code,
      Status.retryExhausted.code, Status.unreachable.code, Status.peerLeft.code, Status.withdrawn.code)
      = (1, 2, 3, 4, 5, 6, 7)) ∧
    ((FaultKind.creditOverrun.code, FaultKind.creditRange.code, FaultKind.sequence.code,
      FaultKind.duplicateId.code) = (1, 2, 3, 4)) ∧
    ((commandOfWord 1, commandOfWord 2, commandOfWord 3, commandOfWord 4, commandOfWord 5,
      commandOfWord 6) = (.join, .leave, .restart, .regreet 0, .clearFault, .clearFlags)) ∧
    ((CommandResult.done.code, CommandResult.refusedState.code, CommandResult.refusedProfile.code,
      CommandResult.refusedPeer.code, CommandResult.refusedCommand.code) = (1, 2, 3, 4, 5)) ∧
    ((ReleaseResult.doneRx.code, ReleaseResult.doneTx.code, ReleaseResult.badHandle.code)
      = (1, 2, 3)) ∧
    ((SendResult.accepted.code, SendResult.notOnline.code, SendResult.badDest.code,
      SendResult.badLength.code, SendResult.noPeer.code, SendResult.unreachable.code,
      SendResult.listFull.code, SendResult.badHandle.code) = (1, 2, 3, 4, 5, 6, 7, 8)) ∧
    ((FrameKind.announce.code, FrameKind.leave.code, FrameKind.greet.code, FrameKind.message.code,
      FrameKind.credit.code, FrameKind.reply.code) = (1, 2, 3, 4, 5, 6)) ∧
    ((retryLimitOf 0, retryLimitOf 1, retryLimitOf 2, retryLimitOf 3)
      = (some 4, some 16, some 64, none)) ∧
    (∀ c : BitVec 3, trainLimitOf c = c.toNat + 1) ∧
    ∀ f : FaultRecord, faultViewWord (some f) 2 = fieldWord f.frame.code

/-- A profile write is stored in OFFLINE, the low bits that make the field, and elsewhere sets
PROFILE_LOCKED and nothing else; a read returns the field (R141, R180). -/
def Obligations.ProfileWritesAreStoredInOffline : Prop :=
  ∀ (s : State) (w : Word), s.resetLow = false →
    (s.stc.state = .offline →
      exec (.profileWrite .retry w) s =
          .next { s with stc := { s.stc with retryReg := BitVec.ofNat 2 w.toNat } } ∧
        exec (.profileWrite .train w) s =
          .next { s with stc := { s.stc with trainReg := BitVec.ofNat 3 w.toNat } } ∧
        ∀ p : StationId,
          exec (.profileWrite (.reserve p) w) s =
            .next
              { s with
                stc :=
                  { s.stc with
                    reserveRegs := s.stc.reserveRegs.set p (BitVec.ofNat 4 w.toNat) } }) ∧
    (s.stc.state ≠ .offline → ∀ reg : ProfileReg,
      exec (.profileWrite reg w) s = .next { s with stc := { s.stc with profileLocked := true } }) ∧
    (registerWord s 0x150).toNat = s.stc.retryReg.toNat ∧
    (registerWord s 0x151).toNat = s.stc.trainReg.toNat ∧
    ∀ p : StationId,
      (registerWord s (0x160 + BitVec.ofNat 9 p.val)).toNat = (s.stc.reserveRegs[p]).toNat

/-! ### The host's commands -/

/-- JOIN accepted: the profile is latched, the pool is built from R, every record and list is rebuilt, and
the station is LISTENING, or ANNOUNCING at once when the line has been silent for 1,024 bit times (R4, R19,
R142, R144, R145). What R144 does not name stays, but for the slot of a running window (log 21) and an event
left over from an earlier RESTART (log 30). A JOIN
outside OFFLINE is refused with REFUSED_STATE, and one with R over 112 with REFUSED_PROFILE; an unused
command code is refused with REFUSED_COMMAND; nothing else changes (R143, R173). -/
def Obligations.JoinRebuildsTheStation : Prop :=
  (∀ s : State, s.resetLow = false → s.stc.state = .offline →
     reserveSum s.stc.sid s.stc.reserveRegs ≤ 112 →
       let total := reserveSum s.stc.sid s.stc.reserveRegs
       let silent : Bool := decide (s.rif.line = .idle ∧ s.rif.idleCount = 1024)
       ∃ t : State,
         exec .join s = .next t ∧ t.pending = s.pending ∧ t.resetLow = false ∧
           t.rif = { s.rif with broken := none } ∧ t.txa = s.txa ∧
           t.ctu = { s.ctu with lw := 0, lwKnown := false, kind := .ordered, slot := none } ∧
           (∀ p : StationId,
             t.peer p =
               if p = s.stc.sid then { Peer.fresh 0 with state := .self }
               else Peer.fresh (s.stc.reserveRegs[p]).toNat) ∧
           t.ssu.greetList = [] ∧ t.cru = { list := [], demand := false } ∧
           (∀ h : Handle, t.handle h = if h.val < 128 - total then .txFree else .rxFree) ∧
           t.bfm.txFree.map Fin.val = List.range (128 - total) ∧
           t.bfm.rxFree.map Fin.val = List.range' (128 - total) total ∧
           t.bfm.winsel = s.bfm.winsel ∧ t.bfm.mem = s.bfm.mem ∧
           t.snu = { sendList := [], completions := [] } ∧
           t.rxu = { verdict := none, fill := none, inbound := [] } ∧
           t.stc =
             { s.stc with
               state := if silent then .announcing else .listening
               pendingAnnounce := silent || s.stc.pendingAnnounce
               retryLimit :=
                 if s.stc.retryReg = 0 then some 4 else if s.stc.retryReg = 1 then some 16
                 else if s.stc.retryReg = 2 then some 64 else none
               trainLimit := s.stc.trainReg.toNat + 1
               reserveTotal := total } ∧
           t.atu = { s.atu with peerEvents := [] } ∧
           t.hpu =
             { s.hpu with
               inSource := 0, inLength := 0, inTag := 0, inSess := 0, cTag := 0, cDest := 0,
               cStatus := 0, cAttempts := 0, peState := 0, peReason := 0, peChanges := 0,
               commandResult := 1 }) ∧
  ∀ s : State, s.resetLow = false →
    (s.stc.state ≠ .offline →
      exec .join s = .next { s with hpu := { s.hpu with commandResult := 2 } }) ∧
    (s.stc.state = .offline → 112 < reserveSum s.stc.sid s.stc.reserveRegs →
      exec .join s = .next { s with hpu := { s.hpu with commandResult := 3 } }) ∧
    ∀ code : BitVec 4,
      exec (.unusedCommandCode code) s = .next { s with hpu := { s.hpu with commandResult := 5 } }

/-- LEAVE in LISTENING, or in ANNOUNCING with no ANNOUNCE on the line, makes the station OFFLINE at once;
with the ANNOUNCE on the line it sets the leave mark (R143, R147). LEAVE in ONLINE withdraws every entry that
is not SENDING, in list order, and sets the leave mark; with the station's part in the line settled it
enters LEAVING in the same step, every other record ABSENT and zeroed (R44, R85, R143, R148, R149). A LEAVE in
any other state, or with the mark set, is refused. -/
def Obligations.LeaveInEveryState : Prop :=
  (∀ s : State, s.resetLow = false → s.stc.leaveMark = false →
     (s.stc.state = .listening ∨
         (s.stc.state = .announcing ∧ ∀ p, s.rif.transmit ≠ some (.announce p)) →
       exec .leave s =
         .next
           { s with
             stc := { s.stc with state := .offline, pendingAnnounce := false }
             hpu := { s.hpu with commandResult := 1 } }) ∧
     (s.stc.state = .announcing → (∃ p, s.rif.transmit = some (.announce p)) →
       exec .leave s =
         .next
           { s with
             stc := { s.stc with leaveMark := true }
             hpu := { s.hpu with commandResult := 1 } })) ∧
  ∀ s : State, s.resetLow = false →
    let cause : SendEntry → Option (Status × Nat) := fun e =>
      if e.phase = .sending then none else some (.withdrawn, e.attempts)
    let settled : Prop :=
      s.txa.exchange = .idle ∧ s.rif.reception = none ∧ s.rif.replyDue = none ∧ s.rif.transmit = none
    (s.stc.state = .online → s.stc.leaveMark = false → ¬ settled →
      exec .leave s =
        .next
          { s.completed cause with
            stc := { s.stc with leaveMark := true }
            hpu := { s.hpu with commandResult := 1 } }) ∧
    (s.stc.state = .online → s.stc.leaveMark = false → settled →
      exec .leave s =
        .next { (s.completed cause).leavingNow with hpu := { s.hpu with commandResult := 1 } }) ∧
    (s.stc.leaveMark = true ∨ s.stc.state = .offline ∨ s.stc.state = .leaving ∨ s.stc.state = .halted →
      exec .leave s = .next { s with hpu := { s.hpu with commandResult := 2 } })

/-- RESTART is taken in every state and makes the station OFFLINE with every block as R152 gives; straps,
profile registers, enables and buffer memory stay (R5, R107, R121, R151, R152). The frame on the line is broken
off: a reception or a transmission of the station's own hands no event more (R121), but for one that reaches the
station together with the RESTART and is taken after it (R151, log 30), which acts as in OFFLINE: the line is
IDLE at a frame end, a good frame that is no REPLY sets LW, the station's own among them, a bad frame and a
collision make the next window ORDERED, a MESSAGE header is IGNORED, its verdict standing until the line turns
IDLE (R87, R88, R127, R128). The line's first idle bit time makes it IDLE, where no verdict stands (R87, R107). -/
def Obligations.RestartClearsTheStation : Prop :=
  (∀ s : State, s.resetLow = false → ∃ t : State,
    exec .restart s = .next t ∧ t.pending = s.pending ∧ t.resetLow = false ∧
      t.rif =
        { line := s.rif.line, idleCount := if s.rif.line = .busy then 0 else 1, reception := none,
          transmit := none, replyDue := none, broken := t.rif.broken } ∧
      (∀ f : Frame, s.rif.transmit = some f → t.rif.broken = some (.own f.kind)) ∧
      (s.rif.transmit = none →
        (∀ x : Bool, s.rif.reception = some { headerSeen := x } →
          t.rif.broken = some (.reception x)) ∧
        (s.rif.reception = none → t.rif.broken = none)) ∧
      t.ctu = State.reset.ctu ∧ t.txa = State.reset.txa ∧ t.cru = State.reset.cru ∧
      t.snu = State.reset.snu ∧ t.rxu = State.reset.rxu ∧
      t.bfm = { State.reset.bfm with mem := s.bfm.mem } ∧
      t.stc =
        { s.stc with
          state := .offline, leaveMark := false, pendingAnnounce := false, pendingLeave := false,
          latch := false, profileLocked := false } ∧
      t.atu = { State.reset.atu with enables := s.atu.enables } ∧
      t.hpu = { State.reset.hpu with readData := s.hpu.readData } ∧ t.ssu.greetList = [] ∧
      ∀ p : StationId,
        t.peer p = if p = s.stc.sid then { Peer.fresh 0 with state := .self } else Peer.fresh 0) ∧
  ∀ s : State, s.resetLow = false → s.stc.state = .offline → s.txa.exchange ≠ .awaitReply →
    s.rxu.fill = none → s.rif.reception = none → s.rif.transmit = none →
      let taken : State := { s with rif := { s.rif with broken := none } }
      let free : State := { s with rif := { s.rif with line := .idle, idleCount := 1, broken := none } }
      (∀ x : Bool, s.rif.broken = some (.reception x) →
        exec .badFrameEnd s =
            .next { s.received with ctu := { s.ctu with kind := .ordered } } ∧
          exec .unknownKindFrameEnd s = .next s.received ∧
          (∀ (p dst : StationId) (a b c : Byte),
            (∀ i : Instr,
              i = .announceFrameEnd p.byte ∨ i = .leaveFrameEnd p.byte ∨ i = .greetFrameEnd p.byte dst a b ∨
                  i = .messageFrameEnd p.byte dst ∨ i = .creditFrameEnd p.byte dst a b c →
                exec i s = .next (s.received.wonBy p)) ∧
            exec (.replyFrameEnd p.byte dst a b c) s = .next s.received) ∧
          ∀ (h : MessageHeader) (payload : List Byte),
            exec (.messageHeader h payload) s =
              .next
                (if x = true then s
                else if h.version = 1 ∧ h.dst = s.stc.sid.byte then
                  { taken with
                    rxu :=
                      { s.rxu with
                        verdict :=
                          some
                            { source := h.src, srcSess := h.srcSess, dstSess := h.dstSess, seq := h.seq,
                              total := h.creditTotal, tag := h.tag, length := h.lengthByte.toNat + 1,
                              cls := .ignored } } }
                else taken)) ∧
      (∀ k : FrameKind, s.rif.broken = some (.own k) →
        exec .collision s = .next { taken with ctu := { s.ctu with kind := .ordered } } ∧
        (k = .greet ∨ k = .message ∨ k = .credit →
          exec .ownFrameEnd s = .next (free.wonBy s.stc.sid)) ∧
        (k = .announce → exec .ownAnnounceEnd s = .next (free.wonBy s.stc.sid)) ∧
        (k = .leave → exec .ownLeaveEnd s = .next (free.wonBy s.stc.sid)) ∧
        (k = .reply → exec .ownReplyEnd s = .next free)) ∧
      (s.rif.line = .busy →
        exec .lineIdle s = .next { free with rxu := { s.rxu with verdict := none } })

/-- REGREET makes a LOST peer GREETING with a GREET owed, reason HOST_REGREET, and is DONE; it is refused
with REFUSED_STATE outside ONLINE, and in ONLINE with REFUSED_PEER for a peer that is not LOST, the
station's own identity and a peer over 31 included (R39). -/
def Obligations.RegreetRecoversALostPeer : Prop :=
  ∀ (s : State) (n : BitVec 6), s.resetLow = false →
    (s.stc.state ≠ .online →
      exec (.regreet n) s = .next { s with hpu := { s.hpu with commandResult := 2 } }) ∧
    (s.stc.state = .online →
      (32 ≤ n.toNat ∨ ∃ p : StationId, n.toNat = p.val ∧ (s.peer p).state ≠ .lost) →
      exec (.regreet n) s = .next { s with hpu := { s.hpu with commandResult := 4 } }) ∧
    (s.stc.state = .online → ∀ p : StationId, n.toNat = p.val → (s.peer p).state = .lost →
      exec (.regreet n) s =
        .next { s.greetNow p .hostRegreet with hpu := { s.hpu with commandResult := 1 } })

/-- CLEAR_FAULT and CLEAR_FLAGS are taken in every station state with DONE (R155). CLEAR_FAULT empties the
Fault Record and changes no in-service flag; taken after a fault it leaves nothing, taken before, the fault
is captured afresh with MORE clear (R168). CLEAR_FLAGS clears WINDOW_MISUSE and PROFILE_LOCKED and keeps the
latch; a flag set before it is cleared by it, and an access that is refused after it sets its flag again. -/
def Obligations.ClearFaultAndClearFlags : Prop :=
  (∀ s : State, s.resetLow = false →
     let t : State :=
       { s with atu := { s.atu with fault := none }, hpu := { s.hpu with commandResult := 1 } }
     exec .clearFault s = .next t ∧ t.condition 0 = false ∧
       (∀ n : Nat, faultViewWord t.atu.fault n = 0) ∧
       ∀ (kind : FaultKind) (p : StationId) (frame : FrameKind) (value : Byte),
         (∃ u : State, exec .clearFault (s.handFault kind p frame value) = .next u ∧ u.atu.fault = none) ∧
           (t.handFault kind p frame value).atu.fault =
             some { kind := kind, peer := p, frame := frame, value := value, more := false } ∧
           (t.handFault kind p frame value).condition 0 = true ∧
           (s.atu.enables.getLsbD 0 = true →
             (∀ m : Fin 5, s.atu.inService.getLsbD m.val = true → 0 < m) →
               (t.handFault kind p frame value).sourcePending 0 = true)) ∧
  ∀ s : State, s.resetLow = false →
    exec .clearFault s =
      .next { s with atu := { s.atu with fault := none }, hpu := { s.hpu with commandResult := 1 } } ∧
    exec .clearFlags s =
      .next
        { s with
          stc := { s.stc with profileLocked := false }
          hpu := { s.hpu with windowMisuse := false, commandResult := 1 } } ∧
    ∀ t : State, exec .clearFlags s = .next t →
      (∀ (k : BitVec 7) (u : State), s.handle s.bfm.winsel ≠ .composing →
        (∀ p, s.handle s.bfm.winsel ≠ .posted p ∧ s.handle s.bfm.winsel ≠ .held p) →
          exec (.windowRead k) t = .next u → u.hpu.windowMisuse = true) ∧
      (∀ (k : BitVec 7) (w : Word) (u : State), s.handle s.bfm.winsel ≠ .composing →
        exec (.windowWrite k w) t = .next u → u.hpu.windowMisuse = true) ∧
      ∀ (reg : ProfileReg) (w : Word) (u : State), s.stc.state ≠ .offline →
        exec (.profileWrite reg w) t = .next u → u.stc.profileLocked = true

/-! ### Arithmetic and decisions -/

/-- Session numbers, sequence numbers and credit totals are 8-bit: advancing one adds 1 modulo 256, and the
distance from a to b is (b - a) mod 256, 0 when they are equal (R48). -/
def Obligations.CountersWrapModulo256 : Prop :=
  ∀ a b : Byte,
    (a + 1).toNat = (a.toNat + 1) % 256 ∧ ((255 : Byte) + 1 = 0) ∧
      distance a b = (b.toNat + 256 - a.toNat) % 256 ∧ distance a b ≤ 255 ∧
      (a = b → distance a b = 0)

/-- Demand mode is entered at 6 entries or any STARVED one, left at 2 or fewer with none STARVED, and
otherwise stays (R59). -/
def Obligations.DemandModeHasHysteresis : Prop :=
  ∀ s : State, ∃ mode : Bool,
    s.evalDemand = { s with cru := { s.cru with demand := mode } } ∧
      let starved : Prop :=
        ∃ p ∈ s.cru.list,
          distance (s.peer p).ackedTotal (s.peer p).releasedTotal = (s.peer p).r - (s.peer p).inUse
      (s.cru.demand = false → (mode = true ↔ 6 ≤ s.cru.list.length ∨ starved)) ∧
      (s.cru.demand = true → (mode = false ↔ s.cru.list.length ≤ 2 ∧ ¬ starved))

/-- The choice of frame in each station state, in the order of R131; with the leave mark set no frame of the
station's own is started (R148 in ONLINE, log 27 in ANNOUNCING). An entry is the oldest eligible one exactly when its destination is OPEN, no
earlier entry has its destination, it is RETRY or WAITING with a credit, and no entry before it is so (R71). -/
def Obligations.TheFrameChosenByOrder : Prop :=
  (∀ s : State,
     (s.stc.state = .offline ∨ s.stc.state = .listening ∨ s.stc.state = .halted → s.choose = none) ∧
     (s.stc.state = .announcing →
       s.choose = if s.stc.pendingAnnounce = true ∧ s.stc.leaveMark = false then some .announce else none) ∧
     (s.stc.state = .leaving → s.choose = if s.stc.pendingLeave = true then some .leave else none) ∧
     (s.stc.state = .online → s.stc.leaveMark = true → s.choose = none) ∧
     (s.stc.state = .online → s.stc.leaveMark = false →
       (∀ p rest, s.ssu.greetList = p :: rest → s.choose = some (.greet p)) ∧
       (s.ssu.greetList = [] →
         (∀ p rest, s.cru.demand = true → s.cru.list = p :: rest → s.choose = some (.credit p)) ∧
         (s.cru.demand = false ∨ s.cru.list = [] →
           (∀ e, s.eligible = some e → s.choose = some (.message e)) ∧
           (s.eligible = none →
             s.choose = match s.cru.list with | p :: _ => some (.credit p) | [] => none))))) ∧
  ∀ (s : State) (e : SendEntry),
    s.eligible = some e ↔
      ∃ before after : List SendEntry, s.snu.sendList = before ++ e :: after ∧
        (s.peer e.dest).state = .isOpen ∧ (∀ f ∈ before, f.dest ≠ e.dest) ∧
        (e.phase = .retry ∨ (e.phase = .waiting ∧ 1 ≤ (s.peer e.dest).creditsHeld)) ∧
        ∀ (f : SendEntry) (b c : List SendEntry), before = b ++ f :: c →
          ¬ ((s.peer f.dest).state = .isOpen ∧ (∀ g ∈ b, g.dest ≠ f.dest) ∧
              (f.phase = .retry ∨ (f.phase = .waiting ∧ 1 ≤ (s.peer f.dest).creditsHeld)))

/-- A peer event for a peer with no entry is appended with changes 1; for a peer with an entry it updates
the entry where it stands, changes rising to at most 255 (R164). -/
def Obligations.PeerEventsFoldInPlace : Prop :=
  ∀ (s : State) (p : StationId) (st : PeerState) (why : Reason),
    ((∀ e ∈ s.atu.peerEvents, e.peer ≠ p) →
      s.peerEvent p st why =
        { s with
          atu :=
            { s.atu with
              peerEvents := s.atu.peerEvents ++
                [{ peer := p, state := st, reason := why, changes := 1 }] } }) ∧
    ∀ (a b : List PeerEvent) (e : PeerEvent), s.atu.peerEvents = a ++ e :: b → e.peer = p →
      (∀ f ∈ a, f.peer ≠ p) →
        s.peerEvent p st why =
          { s with
            atu :=
              { s.atu with
                peerEvents :=
                  a ++ { peer := p, state := st, reason := why, changes := min 255 (e.changes + 1) } :: b } }

/-! ### The line and the windows -/

/-- Activity on an IDLE line makes it BUSY: a reception begins, the window and the idle period end, a train
gap ends its train (log 12) and a reply due is not sent (log 11) (R107, R108, R117, R120, R123, R138). On a BUSY
line it changes nothing (log 4). An idle bit time on a BUSY line with no reception and no transmission makes it
IDLE, and no verdict stands then (R87, R107, R115); in every other state LINE_IDLE changes nothing (log 4). -/
def Obligations.LineTurnsBusyAndIdle : Prop :=
  ∀ s : State, s.resetLow = false →
    (s.rif.line = .busy → exec .lineBusy s = .next s) ∧
    (s.rif.line = .idle →
      exec .lineBusy s =
        .next
          { s with
            rif :=
              { s.rif with
                line := .busy, idleCount := 0, reception := some { headerSeen := false },
                replyDue := none }
            ctu := { s.ctu with slotClock := none, slot := none }
            txa :=
              if s.txa.gap = true then { exchange := .idle, train := 0, gap := false, item := none }
              else s.txa }) ∧
    (s.rif.line = .busy → s.rif.reception = none → s.rif.transmit = none →
      exec .lineIdle s =
        .next
          { s with
            rif := { s.rif with line := .idle, idleCount := 1, broken := none }
            rxu := { s.rxu with verdict := none } }) ∧
    (s.rif.line = .idle ∨ s.rif.reception ≠ none ∨ s.rif.transmit ≠ none →
      exec .lineIdle s = .next s)

/-- A window begins at the settle gap of an IDLE line with no window running, and at the end of slot 63 of
a window that ran idle: the slot clock is 0 and the station's slot is decided (R107, R123 to R125). The slot
index is (s - LW - 1) mod 32 in a ROTATION window and s in an ORDERED one, below 32, and distinct
identities have distinct indexes (R125). A command that comes before its moment moves the idle count and the
slot clock on to it (log 3); no slot in ANNOUNCING with the leave mark set is log 27. -/
def Obligations.WindowsBeginWithASlot : Prop :=
  (∀ s : State, s.resetLow = false → s.rif.line = .idle →
     (s.ctu.slotClock = none → s.rif.idleCount ≤ 16 →
       ∃ slot : Option Nat,
         exec .settleGap s =
           .next
             { s with
               rif := { s.rif with idleCount := 16 }
               ctu := { s.ctu with slotClock := some 0, slot := slot } } ∧
         s.SlotByRule slot) ∧
     ∀ c : Nat, s.ctu.slotClock = some c → c < 256 →
       ∃ slot : Option Nat,
         exec .windowLastSlotEnd s =
           .next
             { s with
               rif := { s.rif with idleCount := min 1024 (s.rif.idleCount + (256 - c)) }
               ctu := { s.ctu with slotClock := some 0, slot := slot } } ∧
         s.SlotByRule slot) ∧
  ∀ (a b lw : StationId) (kind : WindowKind),
    slotIndex .rotation a lw = (a.val + 64 - lw.val - 1) % 32 ∧ slotIndex .ordered a lw = a.val ∧
      slotIndex kind a lw < 32 ∧ (slotIndex kind a lw = slotIndex kind b lw → a = b)

/-- At its slot on an IDLE line the station starts the frame that R131 chooses, as the first of a train;
with none to send, or on a BUSY line, it takes no further part in the window (R126, R132). At the end of the
train gap the frame that R131 chooses starts as the next of the train; with none to send, or on a BUSY line,
the train ends (R120, R132, R137, R138). A command that comes before its moment moves the idle count and the
slot clock on to it (log 3). -/
def Obligations.StartsOfTheChosenFrame : Prop :=
  (∀ (s : State) (k c : Nat), s.resetLow = false → s.ctu.slot = some k → s.ctu.slotClock = some c →
     (s.rif.line = .idle →
       (∀ w : Work, s.choose = some w → exec .slotStart s = .next (s.starts w 1)) ∧
       (s.choose = none → c ≤ 4 * k → 4 * k < 256 →
         exec .slotStart s =
           .next
             { s with
               rif := { s.rif with idleCount := min 1024 (s.rif.idleCount + (4 * k - c)) }
               ctu := { s.ctu with slotClock := some (4 * k), slot := none } })) ∧
     (s.rif.line = .busy → exec .slotStart s = .next { s with ctu := { s.ctu with slot := none } })) ∧
  ∀ s : State, s.resetLow = false → s.txa.gap = true →
    (s.rif.line = .idle →
      (∀ w : Work, s.choose = some w →
        exec .trainGapEnd s = .next (s.starts w (s.txa.train + 1))) ∧
      (s.choose = none → s.rif.idleCount ≤ 9 →
        exec .trainGapEnd s =
          .next
            { s.idleAt 9 with txa := { exchange := .idle, train := 0, gap := false, item := none } })) ∧
    (s.rif.line = .busy →
      exec .trainGapEnd s =
        .next { s with txa := { exchange := .idle, train := 0, gap := false, item := none } })

/-! ### The station's own transmissions -/

/-- A collision cuts the transmission, makes the next window ORDERED and, for a frame of an exchange, ends
the exchange with no outcome: a MESSAGE entry goes to RETRY with its attempts unchanged, every other item
stays where it is (R74, R115, R128, R135). A REPLY is cut with no exchange touched. An ANNOUNCE cut after
a LEAVE makes the station OFFLINE (R147). What a collision is: a half driven recessive in which dominant is
sensed; the station completes the bit time of the first one and drives none after it, and the transmission ends
as a collision in place of its own frame end (R115). -/
def Obligations.CollisionCutsTheTransmission : Prop :=
  ((∀ driven sensed : Level,
      mismatch driven sensed = true ↔ driven = .recessive ∧ sensed = .dominant) ∧
    (∀ (before after heard later : List (Level × Level)) (d x : Level × Level),
      before.length = heard.length → (∀ q ∈ before.zip heard, bitMismatch q.1 q.2 = false) →
        mismatch d.1 x.1 = true ∨ mismatch d.2 x.2 = true →
          drivenUntilCut (before ++ d :: after) (heard ++ x :: later) = before ++ [d]) ∧
    (∀ driven sensed : List (Level × Level), driven.length = sensed.length →
      (∀ q ∈ driven.zip sensed, bitMismatch q.1 q.2 = false) → drivenUntilCut driven sensed = driven) ∧
    ∀ (f : Frame) (sensed : List (Level × Level)),
      ((∃ q ∈ f.lineHalves.zip sensed, mismatch q.1.1 q.2.1 = true ∨ mismatch q.1.2 q.2.2 = true) →
        f.endCommand sensed = .collision) ∧
      ((∀ q ∈ f.lineHalves.zip sensed, mismatch q.1.1 q.2.1 = false ∧ mismatch q.1.2 q.2.2 = false) →
        f.endCommand sensed =
          match f.kind with
          | .announce => .ownAnnounceEnd
          | .leave => .ownLeaveEnd
          | .reply => .ownReplyEnd
          | .greet | .message | .credit => .ownFrameEnd)) ∧
  ∀ (s : State) (f : Frame), s.resetLow = false → s.rif.transmit = some f →
    let cut : State :=
      { s with
        rif := { s.rif with transmit := none }
        ctu := { s.ctu with kind := .ordered } }
    let noExchange : Txa := { exchange := .idle, train := 0, gap := false, item := none }
    (s.stc.leaveMark = false → f.kind = .reply → exec .collision s = .next cut) ∧
    (s.stc.leaveMark = false → f.kind ≠ .reply → (∀ h p c, s.txa.item ≠ some (.message h p c)) →
      exec .collision s = .next { cut with txa := noExchange }) ∧
    (s.stc.leaveMark = false → f.kind ≠ .reply → ∀ h p c, s.txa.item = some (.message h p c) →
      exec .collision s =
        .next
          { cut with
            txa := noExchange
            snu :=
              { s.snu with
                sendList := s.snu.sendList.map fun e =>
                  if e.handle = h ∧ e.phase = .sending then { e with phase := .retry } else e } }) ∧
    (s.stc.leaveMark = true → f.kind ≠ .reply → s.txa.item = some .announce →
      exec .collision s =
        .next
          { cut with
            txa := noExchange
            stc := { s.stc with state := .offline, leaveMark := false, pendingAnnounce := false } })

/-- The end of the station's own GREET, MESSAGE or CREDIT begins the wait for its reply, the line IDLE and
the station the last winner (R107, R118, R127, R133); the end of its REPLY leaves LW as it is (R117, R127).
The end of its ANNOUNCE makes it ONLINE with the latch set, or OFFLINE when LEAVE was taken during it, and
then the train is decided (R136, R146, R147); the end of its LEAVE makes it OFFLINE with the latch set and the
train over (R130, R150). -/
def Obligations.OwnTransmissionsEnd : Prop :=
  (∀ (s : State) (f : Frame), s.resetLow = false → s.rif.transmit = some f →
     let rif : Rif :=
       { s.rif with
         line := .idle, idleCount := 1, reception := none, transmit := none, broken := none }
     (f.kind = .greet ∨ f.kind = .message ∨ f.kind = .credit →
       exec .ownFrameEnd s =
         .next
           { s.wonBy s.stc.sid with
             rif := rif
             txa := { s.txa with exchange := .awaitReply } }) ∧
     (f.kind = .reply → s.stc.leaveMark = false → exec .ownReplyEnd s = .next { s with rif := rif })) ∧
  ∀ (s : State) (p : StationId), s.resetLow = false →
    let u : State :=
      { s.wonBy s.stc.sid with
        rif :=
          { s.rif with
            line := .idle, idleCount := 1, reception := none, transmit := none, broken := none } }
    (s.rif.transmit = some (.announce p) → s.stc.leaveMark = false →
      exec .ownAnnounceEnd s =
        .next
          (({ u with stc := { s.stc with state := .online, pendingAnnounce := false, latch := true } } :
            State).exchangeOver true)) ∧
    (s.rif.transmit = some (.announce p) → s.stc.leaveMark = true →
      exec .ownAnnounceEnd s =
        .next
          { u with
            stc := { s.stc with state := .offline, leaveMark := false, pendingAnnounce := false }
            txa := { exchange := .idle, train := 0, gap := false, item := none } }) ∧
    (s.rif.transmit = some (.leave p) →
      exec .ownLeaveEnd s =
        .next
          { u with
            stc := { s.stc with state := .offline, pendingLeave := false, latch := true }
            txa := { exchange := .idle, train := 0, gap := false, item := none } })

/-! ### Replies and outcomes -/

/-- At the reply moment of an IDLE line the reply that is due starts (R117). A GREETED reply opens the
session at its start, whatever the record was: my_sess advanced, the session zeroed, the GREET's sess and
grant taken, the Greet List entry dropped, the sent entry SESSION_RESET, and it carries the new my_sess and
the grant r - in_use (R24, R31, R41 to R43). On a BUSY line no reply starts. -/
def Obligations.ReplyMomentSendsTheReply : Prop :=
  ∀ (s : State) (p : StationId), s.resetLow = false →
    (s.rif.line = .busy → exec .replyMoment s = .next s) ∧
    (s.rif.line = .idle →
      (s.rif.replyDue = some { peer := p, status := .accept } →
        exec .replyMoment s = .next (s.sending (.reply s.stc.sid p .accept))) ∧
      (s.rif.replyDue = some { peer := p, status := .stale } →
        exec .replyMoment s = .next (s.sending (.reply s.stc.sid p .stale))) ∧
      (s.rif.replyDue = some { peer := p, status := .noCredit } →
        exec .replyMoment s = .next (s.sending (.reply s.stc.sid p .noCredit))) ∧
      ∀ sess grant : Byte, s.rif.replyDue = some { peer := p, status := .greeted sess grant } →
        let q := s.peer p
        let opened : Peer :=
          { q.ended .isOpen (q.mySess + 1) 0 with
            theirSess := some sess, creditsHeld := min 15 grant.toNat }
        let u := s.sessionEnds p opened false .greeted (sentReset p)
        exec .replyMoment s =
          .next
            (({ u with cru := if q.state = .isOpen then u.cru else s.cru } : State).sending
              (.reply s.stc.sid p (.greeted (q.mySess + 1) (BitVec.ofNat 8 (q.r - q.inUse))))))

/-- A MESSAGE with no reply within 24 bit times: below the retry limit the entry goes to RETRY with attempts
raised; at the limit it completes RETRY_EXHAUSTED, every other entry to the peer UNREACHABLE, and the peer
becomes LOST. Either way the train ends (R37, R78, R79, R118, R136). A timeout that comes before its moment moves
the idle count on to it (log 3). -/
def Obligations.ReplyTimeoutOfAMessage : Prop :=
  ∀ (s : State) (h : Handle) (p : StationId) (c : Carried) (e : SendEntry),
    s.Awaiting (.message h p c) → s.rif.line = .idle → s.rif.idleCount ≤ 24 →
    e ∈ s.snu.sendList → e.handle = h → e.dest = p → e.phase = .sending →
    (∀ f ∈ s.snu.sendList, f.handle = h → f = e) → (s.peer p).state = .isOpen →
      (s.stc.retryLimit = none ∨ (∃ l, s.stc.retryLimit = some l ∧ min 255 (e.attempts + 1) < l) →
        exec .replyTimeout s =
          .next
            (({ s.idleAt 24 with
                snu :=
                  { s.snu with
                    sendList := s.snu.sendList.map fun f =>
                      if f.handle = h ∧ f.phase = .sending then
                        { f with phase := .retry, attempts := min 255 (f.attempts + 1) }
                      else f } } : State).exchangeOver false)) ∧
      ∀ l : Nat, s.stc.retryLimit = some l → l ≤ min 255 (e.attempts + 1) →
        exec .replyTimeout s =
          .next
            (((s.idleAt 24).sessionEnds p
              ((s.peer p).ended .lost (s.peer p).mySess (s.peer p).ctlAttempts) false .retryExhausted
              fun f =>
                if f.dest = p then
                  some (if f.handle = h then .retryExhausted else .unreachable, noticeCount f)
                else none).exchangeOver false)

/-- A GREET or CREDIT with no reply within 24 bit times raises ctl_attempts, at most to 64, and sends its
entry to the tail of its list; at the retry limit the peer becomes LOST and every entry to it completes
UNREACHABLE (R30, R36, R37, R61, R81, R118). Demand mode is evaluated once when a CREDIT entry has moved to the
tail (log 15), and again when a lost peer's entry is removed (R59, R61). A timeout that comes before its moment
moves the idle count on to it (log 3). -/
def Obligations.ReplyTimeoutOfAGreetOrCredit : Prop :=
  ∀ (s : State) (p : StationId), s.rif.line = .idle → s.rif.idleCount ≤ 24 →
    let q := s.peer p
    let raised : Peer := { q with ctlAttempts := min 64 (q.ctlAttempts + 1) }
    let lost : Peer := q.ended .lost q.mySess (min 64 (q.ctlAttempts + 1))
    let unreachable : SendEntry → Option (Status × Nat) := fun e =>
      if e.dest = p then some (.unreachable, noticeCount e) else none
    let below : Prop :=
      s.stc.retryLimit = none ∨
        ∃ l, s.stc.retryLimit = some l ∧ min 64 (q.ctlAttempts + 1) < l
    let reached : Prop := ∃ l, s.stc.retryLimit = some l ∧ l ≤ min 64 (q.ctlAttempts + 1)
    (s.Awaiting (.greet p) → q.state = .greeting → p ∈ s.ssu.greetList →
      (below →
        exec .replyTimeout s =
          .next
            (({ s.idleAt 24 with
                ssu :=
                  { peers := s.ssu.peers.set p raised
                    greetList := s.ssu.greetList.filter (· ≠ p) ++ [p] } } : State).exchangeOver
              false)) ∧
      (reached →
        exec .replyTimeout s =
          .next
            ((({ s.idleAt 24 with
                  ssu := s.ssu.updated p lost false
                  atu := s.atu.told p .lost .greetExhausted } : State).completed
                unreachable).exchangeOver false))) ∧
    ∀ c : Carried, s.Awaiting (.credit p c) → q.state = .isOpen → q.mySess = c.srcSess →
      q.theirSess = some c.dstSess → p ∈ s.cru.list →
        (below →
          exec .replyTimeout s =
            .next
              (({ s.idleAt 24 with
                  ssu := { s.ssu with peers := s.ssu.peers.set p raised }
                  cru :=
                    s.cru.evaluated (s.cru.list.filter (· ≠ p) ++ [p])
                      (s.ssu.peers.set p raised) } : State).exchangeOver false)) ∧
        (reached →
          exec .replyTimeout s =
            .next
              ((({ s.idleAt 24 with
                    cru :=
                      s.cru.evaluated (s.cru.list.filter (· ≠ p) ++ [p])
                        (s.ssu.peers.set p raised) } : State).sessionEnds p lost false
                .retryExhausted unreachable).exchangeOver false))

/-- The reply to a MESSAGE (R75 to R77): ACCEPT completes the entry DELIVERED and acknowledges the total its
frame carried, while the record is in the session that the frame carried; STALE completes it SESSION_RESET and
NO_CREDIT completes it REFUSED_NO_CREDIT, and either ends the session of an OPEN peer with a GREET owed (R34,
R41, R53). The reply to a CREDIT: ACCEPT acknowledges the total its frame carried, STALE ends the session of an
OPEN peer (R34, R53, R61). In any other session an ACCEPT only sets ctl_attempts to 0 (log 14), and a record that
is not OPEN is not touched by STALE or NO_CREDIT (R34). The reply GREETED to a GREET opens the session of a
GREETING peer with the sess and the grant it carries, the Greet List entry removed, and a Credit Return List entry
when releases were taken since the GREET; a record in any other state stays (R29, R42). Each answers the frame
(R136). A source that is ABSENT or LOST is heard first (R38, R119). -/
def Obligations.RepliesAreTaken : Prop :=
  (∀ (s : State) (h : Handle) (p : StationId) (c : Carried),
     s.Awaiting (.message h p c) → s.rif.reception.isSome = true → s.rxu.fill = none → p ≠ s.stc.sid →
       let u := s.received.heardFrom p
       let same : Prop :=
         (s.peer p).state = .isOpen ∧ (s.peer p).mySess = c.srcSess ∧ (s.peer p).theirSess = some c.dstSess
       (same →
         exec (.replyFrameEnd p.byte s.stc.sid 1 0 0) s =
           .next (((u.completed (exchangeEnds h .delivered)).acknowledged p c).exchangeOver true)) ∧
       (¬ same →
         exec (.replyFrameEnd p.byte s.stc.sid 1 0 0) s =
           .next (((u.completed (exchangeEnds h .delivered)).ctlCleared p).exchangeOver true)) ∧
       ((s.peer p).state = .isOpen →
         exec (.replyFrameEnd p.byte s.stc.sid 2 0 0) s =
             .next
               (((u.completed (exchangeEnds h .sessionReset)).sessionRestarts p
                 .staleReply).exchangeOver true) ∧
           exec (.replyFrameEnd p.byte s.stc.sid 3 0 0) s =
             .next
               (((u.completed (exchangeEnds h .refusedNoCredit)).sessionEnds p (s.peer p).owed
                 true .noCreditReply fun _ => none).exchangeOver true)) ∧
       ((s.peer p).state ≠ .isOpen →
         exec (.replyFrameEnd p.byte s.stc.sid 2 0 0) s =
             .next ((u.completed (exchangeEnds h .sessionReset)).exchangeOver true) ∧
           exec (.replyFrameEnd p.byte s.stc.sid 3 0 0) s =
             .next ((u.completed (exchangeEnds h .refusedNoCredit)).exchangeOver true))) ∧
  ∀ (s : State) (p : StationId), s.rif.reception.isSome = true → s.rxu.fill = none → p ≠ s.stc.sid →
    let u := s.received.heardFrom p
    (∀ c : Carried, s.Awaiting (.credit p c) →
      let same : Prop :=
        (s.peer p).state = .isOpen ∧ (s.peer p).mySess = c.srcSess ∧ (s.peer p).theirSess = some c.dstSess
      (same →
        exec (.replyFrameEnd p.byte s.stc.sid 1 0 0) s = .next ((u.acknowledged p c).exchangeOver true)) ∧
      (¬ same →
        exec (.replyFrameEnd p.byte s.stc.sid 1 0 0) s = .next ((u.ctlCleared p).exchangeOver true)) ∧
      ((s.peer p).state = .isOpen →
        exec (.replyFrameEnd p.byte s.stc.sid 2 0 0) s =
          .next ((u.sessionRestarts p .staleReply).exchangeOver true)) ∧
      ((s.peer p).state ≠ .isOpen →
        exec (.replyFrameEnd p.byte s.stc.sid 2 0 0) s = .next (u.exchangeOver true))) ∧
    (s.Awaiting (.greet p) → ∀ sess grant : Byte,
      let opened : Peer :=
        { u.peer p with
          state := .isOpen, theirSess := some sess, creditsHeld := min 15 grant.toNat, ctlAttempts := 0 }
      ((u.peer p).state = .greeting →
        exec (.replyFrameEnd p.byte s.stc.sid 4 sess grant) s =
          .next
            (({ u with
                ssu := u.ssu.updated p opened false
                cru :=
                  if opened.releasedTotal = opened.ackedTotal then s.cru
                  else
                    s.cru.evaluated (if p ∈ s.cru.list then s.cru.list else s.cru.list ++ [p])
                      (u.ssu.peers.set p opened)
                atu := u.atu.told p .isOpen .answered } : State).exchangeOver true)) ∧
      ((u.peer p).state ≠ .greeting →
        exec (.replyFrameEnd p.byte s.stc.sid 4 sess grant) s = .next (u.exchangeOver true)))

/-- A frame end that brings no reply to the frame awaited ends the wait: the effects of that frame come
first, and the outcome no reply after them, in the same step (R118, R119). Such are a bad frame, a frame of no
known kind or of another kind, a REPLY from or to another station, a REPLY from the station addressed with a
status code that is none of the four, and one whose status does not answer the frame: GREETED to a MESSAGE,
NO_CREDIT or GREETED to a CREDIT, ACCEPT, STALE or NO_CREDIT to a GREET (R30, R61, R78, R136). -/
def Obligations.FrameEffectsComeBeforeTheOutcome : Prop :=
  ∀ (s t : State) (item : Item) (c : Instr), s.Awaiting item → s.rif.reception.isSome = true →
    (c = .badFrameEnd ∨ c = .unknownKindFrameEnd ∨
      ∃ (src : Byte) (dst : StationId) (b1 b2 b3 : Byte), src ≠ s.stc.sid.byte ∧
        (c = .messageFrameEnd src dst ∨ c = .creditFrameEnd src dst b1 b2 b3 ∨
          c = .greetFrameEnd src dst b1 b2 ∨ c = .announceFrameEnd src ∨
          c = .leaveFrameEnd src ∨
          (c = .replyFrameEnd src dst b1 b2 b3 ∧
            (dst ≠ s.stc.sid ∨ item.dest?.map StationId.byte ≠ some src ∨ b1 = 0 ∨ 4 < b1.toNat ∨
              (b1 = 4 ∧ ∃ h p k, item = .message h p k) ∨
              ((b1 = 3 ∨ b1 = 4) ∧ ∃ p k, item = .credit p k) ∨
              ((b1 = 1 ∨ b1 = 2 ∨ b1 = 3) ∧ ∃ p, item = .greet p))))) →
      exec c { s with txa := { exchange := .idle, train := 0, gap := false, item := none } } = .next t →
        exec c s = .next (({ t with txa := s.txa } : State).finishExchange none)

/-! ### Frames received -/

/-- A MESSAGE header with version 1 addressed to this station is judged by the checks in order: IGNORED,
OUTSIDE, DUPLICATE, SEQUENCE, OVERRUN or ADMITTED (R88 to R91). Any class but ADMITTED changes nothing but
the verdict; a header for another station or of another version is not examined. -/
def Obligations.HeadersAreJudgedInOrder : Prop :=
  ∀ (s : State) (h : MessageHeader) (payload : List Byte), s.resetLow = false →
    s.rif.reception = some { headerSeen := false } →
      let seen : State :=
        { s with rif := { s.rif with reception := some { headerSeen := true } } }
      let judged (cls : VerdictClass) : Prop :=
        exec (.messageHeader h payload) s =
          .next
            { seen with
              rxu :=
                { s.rxu with
                  verdict :=
                    some
                      { source := h.src, srcSess := h.srcSess, dstSess := h.dstSess, seq := h.seq,
                        total := h.creditTotal, tag := h.tag, length := h.lengthByte.toNat + 1,
                        cls := cls } } }
      (h.version ≠ 1 ∨ h.dst ≠ s.stc.sid.byte → exec (.messageHeader h payload) s = .next seen) ∧
      (h.version = 1 → h.dst = s.stc.sid.byte →
        (s.stc.state ≠ .online ∨ s.stc.leaveMark = true ∨ h.src = s.stc.sid.byte ∨ 32 ≤ h.src.toNat →
          judged .ignored) ∧
        (s.stc.state = .online → s.stc.leaveMark = false → ∀ p : StationId, h.src = p.byte →
          p ≠ s.stc.sid →
            let q := s.peer p
            let room := q.r - q.inUse - distance q.ackedTotal q.releasedTotal
            let belongs : Prop :=
              q.state = .isOpen ∧ q.theirSess = some h.srcSess ∧ q.mySess = h.dstSess
            (¬ belongs → judged .outside) ∧
            (belongs → q.lastRxSeq = some h.seq → judged .duplicate) ∧
            (belongs → ∀ v : Byte, q.lastRxSeq = some v → h.seq ≠ v → h.seq ≠ v + 1 → judged .sequence) ∧
            (belongs → q.lastRxSeq = none → h.seq ≠ 0 → judged .sequence) ∧
            (belongs → (q.lastRxSeq = none ∧ h.seq = 0 ∨ q.lastRxSeq = some (h.seq - 1)) → room = 0 →
              judged .overrun)))

/-- An ADMITTED header starts a fill: the oldest handle of the RX Free List becomes FILLING for the source,
in_use of the source rises by one, demand mode is evaluated, and the payload bytes that arrive are written
from byte 0 of that buffer upward and nowhere else (R11, R17, R91, R92). -/
def Obligations.AdmittedHeaderStartsAFill : Prop :=
  ∀ (s : State) (h : MessageHeader) (payload : List Byte) (p : StationId) (f : Handle)
      (rest : List Handle),
    s.resetLow = false → s.MemoryCanonical → s.rif.reception = some { headerSeen := false } →
    h.version = 1 → h.dst = s.stc.sid.byte → s.stc.state = .online → s.stc.leaveMark = false →
    h.src = p.byte → p ≠ s.stc.sid → (s.peer p).state = .isOpen →
    (s.peer p).theirSess = some h.srcSess → (s.peer p).mySess = h.dstSess →
    ((s.peer p).lastRxSeq = none ∧ h.seq = 0 ∨ (s.peer p).lastRxSeq = some (h.seq - 1)) →
    1 ≤ (s.peer p).r - (s.peer p).inUse -
        distance (s.peer p).ackedTotal (s.peer p).releasedTotal →
    s.bfm.rxFree = f :: rest → s.rxu.fill = none → payload.length ≤ h.lengthByte.toNat + 1 →
      let peers := s.ssu.peers.set p { s.peer p with inUse := (s.peer p).inUse + 1 }
      ∃ m : List Host.Cell,
        exec (.messageHeader h payload) s =
          .next
            { s with
              rif := { s.rif with reception := some { headerSeen := true } }
              ssu := { s.ssu with peers := peers }
              cru := s.cru.evaluated s.cru.list peers
              bfm := { s.bfm with table := s.bfm.table.set f (.filling p), rxFree := rest, mem := m }
              rxu :=
                { s.rxu with
                  verdict :=
                    some
                      { source := h.src, srcSess := h.srcSess, dstSess := h.dstSess, seq := h.seq,
                        total := h.creditTotal, tag := h.tag, length := h.lengthByte.toNat + 1,
                        cls := .admitted }
                  fill :=
                    some
                      { handle := f, source := p, seq := h.seq, tag := h.tag,
                        length := h.lengthByte.toNat + 1, sess := h.srcSess } } } ∧
        (∀ i : Nat, (hi : i < payload.length) → Memory.read m (256 * f.val + i) = payload[i]) ∧
        ∀ a : Nat, a < 256 * f.val ∨ 256 * f.val + payload.length ≤ a →
          Memory.read m a = Memory.read s.bfm.mem a

/-- A MESSAGE that ends good with a verdict OUTSIDE, SEQUENCE or OVERRUN, or with none: the reply, the fault
and the session change of R100, with LW set to its source; a source that is ABSENT or LOST is heard
(R38, R97 to R101, R127). With a verdict DUPLICATE or ADMITTED: an ADMITTED message is posted and sets
last_rx_seq; the credit total is then applied and the frame answered ACCEPT, or found out of range with a
CREDIT_RANGE fault, a session restart and STALE (R12, R50, R51, R95, R96, R100). -/
def Obligations.MessageFrameEnds : Prop :=
  (∀ (s : State) (p dst : StationId), s.AtFrameEnd → s.rxu.fill = none → p ≠ s.stc.sid →
     let u := s.received.wonBy p
     let dead : Prop := (s.peer p).state = .absent ∨ (s.peer p).state = .lost
     (s.rxu.verdict = none →
       (dead → exec (.messageFrameEnd p.byte dst) s = .next (u.greetNow p .heard)) ∧
       (¬ dead → exec (.messageFrameEnd p.byte dst) s = .next u)) ∧
     ∀ v : Verdict, s.rxu.verdict = some v → v.source = p.byte →
       (v.cls = .outside →
         (dead → exec (.messageFrameEnd p.byte dst) s = .next ((u.replying p .stale).greetNow p .heard)) ∧
         (¬ dead → exec (.messageFrameEnd p.byte dst) s = .next (u.replying p .stale))) ∧
       ((s.peer p).state = .isOpen →
         (v.cls = .sequence →
           exec (.messageFrameEnd p.byte dst) s =
             .next
               (((u.faulted .sequence p .message v.seq).sessionRestarts p .protocolFault).replying p
                 .stale)) ∧
         (v.cls = .overrun →
           exec (.messageFrameEnd p.byte dst) s =
             .next
               (((u.faulted .creditOverrun p .message v.seq).sessionRestarts p .protocolFault).replying p
                 .noCredit)))) ∧
  ∀ (s : State) (p dst : StationId) (v : Verdict), s.AtFrameEnd → p ≠ s.stc.sid →
    s.rxu.verdict = some v → v.source = p.byte → (s.peer p).state = .isOpen →
      let d := distance (s.peer p).creditSeen v.total
      let inRange : Prop := d = 0 ∨ (s.peer p).creditsHeld + d ≤ 15
      let answered (u : State) : Prop :=
        (inRange →
          exec (.messageFrameEnd p.byte dst) s =
            .next
              (({ u with
                  ssu :=
                    { u.ssu with
                      peers := u.ssu.peers.set p
                        { u.peer p with
                          creditsHeld := (s.peer p).creditsHeld + d, creditSeen := v.total } } } :
                State).replying p .accept)) ∧
        (¬ inRange →
          exec (.messageFrameEnd p.byte dst) s =
            .next
              (((u.faulted .creditRange p .message v.total).sessionRestarts p .protocolFault).replying p
                .stale))
      (v.cls = .duplicate → s.rxu.fill = none → answered (s.received.wonBy p)) ∧
      ∀ f : Fill, v.cls = .admitted → s.rxu.fill = some f → f.source = p →
        answered
          { s.received.wonBy p with
            bfm := { s.bfm with table := s.bfm.table.set f.handle (.posted p) }
            ssu :=
              { s.ssu with
                peers := s.ssu.peers.set p { s.peer p with lastRxSeq := some v.seq } }
            rxu :=
              { verdict := none, fill := none,
                inbound := s.rxu.inbound ++
                  [{ handle := f.handle, source := p, length := f.length, tag := f.tag,
                     sess := f.sess }] } }

/-- A good CREDIT for this station: in the current session its total is applied and answered ACCEPT, or out
of range it is answered STALE with a CREDIT_RANGE fault; outside the session it is answered STALE; a CREDIT
for another station is not answered (R33, R35, R50, R52). A good GREET for this station is to be answered
GREETED with its sess and grant kept for the reply start, and changes no record before that (R31, R32). A good
REPLY for no exchange of this station's leaves LW (R119, R127). Where one of them does not concern a session
of its source, an ABSENT or LOST source is heard (R38). -/
def Obligations.CreditGreetAndReplyFrames : Prop :=
  (∀ (s : State) (p dst : StationId) (srcSess dstSess total : Byte), s.AtFrameEnd →
     s.rxu.fill = none → p ≠ s.stc.sid →
       let u := s.received.wonBy p
       let run := exec (.creditFrameEnd p.byte dst srcSess dstSess total) s
       let q := s.peer p
       let d := distance q.creditSeen total
       let dead : Prop := q.state = .absent ∨ q.state = .lost
       let belongs : Prop := q.state = .isOpen ∧ q.theirSess = some srcSess ∧ q.mySess = dstSess
       (dst ≠ s.stc.sid → (dead → run = .next (u.greetNow p .heard)) ∧ (¬ dead → run = .next u)) ∧
       (dst = s.stc.sid →
         (dead → run = .next ((u.replying p .stale).greetNow p .heard)) ∧
         (¬ dead → ¬ belongs → run = .next (u.replying p .stale)) ∧
         (belongs → (d = 0 ∨ q.creditsHeld + d ≤ 15) →
           run =
             .next
               (({ u with
                   ssu :=
                     { s.ssu with
                       peers := s.ssu.peers.set p
                         { q with creditsHeld := q.creditsHeld + d, creditSeen := total } } } :
                 State).replying p .accept)) ∧
         (belongs → d ≠ 0 → 15 < q.creditsHeld + d →
           run =
             .next
               (((u.faulted .creditRange p .credit total).sessionRestarts p .protocolFault).replying p
                 .stale)))) ∧
  ∀ (s : State) (p dst : StationId) (a b c : Byte), s.AtFrameEnd → s.rxu.fill = none →
    p ≠ s.stc.sid →
      let dead : Prop := (s.peer p).state = .absent ∨ (s.peer p).state = .lost
      (dst = s.stc.sid →
        exec (.greetFrameEnd p.byte dst a b) s =
          .next ((s.received.wonBy p).replying p (.greeted a b))) ∧
      (dst ≠ s.stc.sid →
        (dead →
          exec (.greetFrameEnd p.byte dst a b) s = .next ((s.received.wonBy p).greetNow p .heard)) ∧
        (¬ dead → exec (.greetFrameEnd p.byte dst a b) s = .next (s.received.wonBy p))) ∧
      (dead → exec (.replyFrameEnd p.byte dst a b c) s = .next (s.received.greetNow p .heard)) ∧
      (¬ dead → exec (.replyFrameEnd p.byte dst a b c) s = .next s.received)

/-- A good ANNOUNCE: from a peer that is ABSENT or LOST a GREET becomes owed; from an OPEN peer its session
ends and a GREET becomes owed; in GREETING only ctl_attempts is set to 0 (R27, R127). A good LEAVE from a peer
that is not ABSENT makes it ABSENT with its session zeroed, completes every entry to it PEER_LEFT and removes
its list entries, reason LEFT; from an ABSENT peer it changes no record (R40 to R43, R81, R127). -/
def Obligations.AnnounceAndLeaveFrames : Prop :=
  (∀ (s : State) (p : StationId), s.AtFrameEnd → s.rxu.fill = none → p ≠ s.stc.sid →
     let u := s.received.wonBy p
     ((s.peer p).state = .absent ∨ (s.peer p).state = .lost →
       exec (.announceFrameEnd p.byte) s = .next (u.greetNow p .announced)) ∧
     ((s.peer p).state = .isOpen →
       exec (.announceFrameEnd p.byte) s = .next (u.sessionRestarts p .announced)) ∧
     ((s.peer p).state = .greeting →
       exec (.announceFrameEnd p.byte) s =
         .next
           { u with
             ssu := { s.ssu with peers := s.ssu.peers.set p { s.peer p with ctlAttempts := 0 } } })) ∧
  ∀ (s : State) (p : StationId), s.AtFrameEnd → s.rxu.fill = none → p ≠ s.stc.sid →
    let u := s.received.wonBy p
    let gone : Peer := (s.peer p).ended .absent (s.peer p).mySess 0
    let after : State :=
      u.sessionEnds p gone false .left fun e =>
        if e.dest = p then some (.peerLeft, noticeCount e) else none
    ((s.peer p).state = .absent → exec (.leaveFrameEnd p.byte) s = .next u) ∧
    ((s.peer p).state = .isOpen → exec (.leaveFrameEnd p.byte) s = .next after) ∧
    ((s.peer p).state = .greeting ∨ (s.peer p).state = .lost →
      exec (.leaveFrameEnd p.byte) s = .next { after with cru := s.cru })

/-- A good frame of no known kind, and one of a known kind whose source is over 31, ends the reception and
changes nothing else, in every station state: it sets no LW, is not heard, draws no reply and ends no listening
(R112, R116, R127, R145, R182); a bad frame makes the
next window ORDERED, drops the verdict and aborts a fill: the handle to the tail of the RX Free List, in_use
of its source down by one (R13, R94, R111, R127). -/
def Obligations.UnknownAndBadFrameEnds : Prop :=
  (∀ (s : State) (src : Byte) (dst : StationId) (a b c : Byte) (i : Instr), s.resetLow = false →
    s.rif.reception.isSome = true → s.txa.exchange ≠ .awaitReply → s.stc.leaveMark = false →
    s.rxu.fill = none → 32 ≤ src.toNat → (∀ v : Verdict, s.rxu.verdict = some v → v.source = src) →
      (i = .unknownKindFrameEnd ∨ i = .announceFrameEnd src ∨ i = .leaveFrameEnd src ∨
          i = .greetFrameEnd src dst a b ∨ i = .messageFrameEnd src dst ∨
          i = .creditFrameEnd src dst a b c ∨ i = .replyFrameEnd src dst a b c) →
        exec i s = .next s.received) ∧
  ∀ s : State, s.AtFrameEnd →
    (s.rxu.fill = none →
      exec .unknownKindFrameEnd s = .next s.received ∧
        exec .badFrameEnd s =
          .next { s.received with ctu := { s.ctu with kind := .ordered } }) ∧
    ∀ f : Fill, s.rxu.fill = some f →
      let peers :=
        s.ssu.peers.set f.source { s.peer f.source with inUse := (s.peer f.source).inUse - 1 }
      exec .badFrameEnd s =
        .next
          { s.received with
            ctu := { s.ctu with kind := .ordered }
            ssu := { s.ssu with peers := peers }
            cru := s.cru.evaluated s.cru.list peers
            bfm :=
              { s.bfm with
                table := s.bfm.table.set f.handle .rxFree, rxFree := s.bfm.rxFree ++ [f.handle] }
            rxu := { s.rxu with verdict := none, fill := none } }

/-- Outside ONLINE no good frame changes a record, a list or a buffer: it sets LW, and in LISTENING its end
ends listening in ANNOUNCING; so does the listen timeout (R45, R127, R129, R145), which moves the idle count on to
its moment (log 3). In OFFLINE and HALTED that holds of a frame from the station's own identity too (R127,
R153). -/
def Obligations.FramesOutsideOnline : Prop :=
  ∀ (s : State) (p dst : StationId) (a b c : Byte), s.resetLow = false →
    s.stc.state ≠ .online → s.txa.exchange ≠ .awaitReply →
    (p ≠ s.stc.sid ∨ s.stc.state = .offline ∨ s.stc.state = .halted) →
      let listening : Stc :=
        if s.stc.state = .listening then { s.stc with state := .announcing, pendingAnnounce := true }
        else s.stc
      (s.rif.reception.isSome = true → s.rxu.fill = none →
        (∀ i : Instr,
          i = .announceFrameEnd p.byte ∨ i = .leaveFrameEnd p.byte ∨ i = .greetFrameEnd p.byte dst a b ∨
              i = .messageFrameEnd p.byte dst ∨ i = .creditFrameEnd p.byte dst a b c →
            exec i s = .next { s.received.wonBy p with stc := listening }) ∧
        exec (.replyFrameEnd p.byte dst a b c) s = .next s.received) ∧
      (s.rif.line = .idle → s.rif.idleCount < 1024 →
        exec .listenTimeout s = .next { s.idleAt 1024 with stc := listening })

/-- With the leave mark set in ONLINE the station enters LEAVING when its part in the line is settled
(R148, R149): at the outcome of its exchange, at a collision, at the end of its REPLY, and at a frame end with no
exchange; where the frame end leaves a reply due, only after that reply. A MESSAGE completes DELIVERED on ACCEPT
and WITHDRAWN on any other outcome (R85) and at a collision (log 13); the outcome of a GREET or CREDIT, and every
frame end, has the effects that it has with the mark clear, a MESSAGE judged before the command carried to its end
among them (R93, R148), and the train is decided after them (R136). A collision of a GREET, a CREDIT or a REPLY
leaves its item as it is (R135). A timeout that comes before its moment moves the idle count on to it (log 3). -/
def Obligations.TheLeaveMarkWaitsForTheLine : Prop :=
  (∀ s : State, s.resetLow = false → s.stc.state = .online → s.stc.leaveMark = true →
    s.rif.replyDue = none → s.rxu.fill = none →
      (∀ (h : Handle) (p : StationId) (c : Carried), s.txa.item = some (.message h p c) →
        (s.txa.exchange = .awaitReply → s.rif.line = .idle → s.rif.idleCount ≤ 24 →
          s.rif.reception = none → s.rif.transmit = none →
            exec .replyTimeout s =
              .next
                ((((s.idleAt 24).completed (exchangeEnds h .withdrawn)).leavingNow).exchangeOver
                  false)) ∧
        (s.txa.exchange = .awaitReply → s.rif.reception.isSome = true → s.rif.transmit = none →
          p ≠ s.stc.sid →
            let u := s.received.heardFrom p
            let same : Prop :=
              (s.peer p).state = .isOpen ∧ (s.peer p).mySess = c.srcSess ∧
                (s.peer p).theirSess = some c.dstSess
            let ends (t : State) : Host.Outcome State Fault Refusal :=
              .next (t.leavingNow.exchangeOver true)
            (same →
              exec (.replyFrameEnd p.byte s.stc.sid 1 0 0) s =
                ends ((u.completed (exchangeEnds h .delivered)).acknowledged p c)) ∧
            (¬ same →
              exec (.replyFrameEnd p.byte s.stc.sid 1 0 0) s =
                ends ((u.completed (exchangeEnds h .delivered)).ctlCleared p)) ∧
            ((s.peer p).state = .isOpen →
              exec (.replyFrameEnd p.byte s.stc.sid 2 0 0) s =
                  ends ((u.completed (exchangeEnds h .withdrawn)).sessionRestarts p .staleReply) ∧
                exec (.replyFrameEnd p.byte s.stc.sid 3 0 0) s =
                  ends
                    ((u.completed (exchangeEnds h .withdrawn)).sessionEnds p (s.peer p).owed true
                      .noCreditReply fun _ => none)) ∧
            ((s.peer p).state ≠ .isOpen →
              exec (.replyFrameEnd p.byte s.stc.sid 2 0 0) s =
                  ends (u.completed (exchangeEnds h .withdrawn)) ∧
                exec (.replyFrameEnd p.byte s.stc.sid 3 0 0) s =
                  ends (u.completed (exchangeEnds h .withdrawn)))) ∧
        ∀ f : Frame, s.rif.transmit = some f → f.kind ≠ .reply → s.rif.reception = none →
          exec .collision s =
            .next
              ({ s.completed fun e =>
                  if e.handle = h ∧ e.phase = .sending then some (.withdrawn, e.attempts) else none
                with
                rif := { s.rif with transmit := none }
                ctu := { s.ctu with kind := .ordered }
                txa := { exchange := .idle, train := 0, gap := false, item := none } } :
                State).leavingNow) ∧
      (s.txa.exchange = .idle →
        (∀ (me p : StationId) (st : ReplyStatus), s.rif.transmit = some (.reply me p st) →
          exec .ownReplyEnd s =
            .next
              ({ s with
                rif :=
                  { s.rif with
                    line := .idle, idleCount := 1, reception := none, transmit := none,
                    broken := none } } :
                State).leavingNow) ∧
        (s.rif.reception.isSome = true → s.rif.transmit = none →
          exec .unknownKindFrameEnd s = .next s.received.leavingNow)) ∧
      ∀ f : Frame, s.rif.transmit = some f → s.rif.reception = none →
        let cut : State :=
          { s with
            rif := { s.rif with transmit := none }
            ctu := { s.ctu with kind := .ordered } }
        (f.kind = .reply → s.txa.exchange = .idle → exec .collision s = .next cut.leavingNow) ∧
        (f.kind ≠ .reply →
          (∃ p, s.txa.item = some (.greet p)) ∨ (∃ p k, s.txa.item = some (.credit p k)) →
            exec .collision s =
              .next
                ({ cut with txa := { exchange := .idle, train := 0, gap := false, item := none } } :
                  State).leavingNow)) ∧
  ∀ (s : State) (c : Instr), s.resetLow = false → s.stc.state = .online → s.stc.leaveMark = true →
    s.rif.transmit = none →
      let unmarked : State := { s with stc := { s.stc with leaveMark := false } }
      let marked (t : State) : State := { t with stc := { t.stc with leaveMark := true } }
      let atEnd : Prop := s.rif.reception.isSome = true ∧ c.EndsFrameOfOther s.stc.sid
      let timesOut : Prop :=
        c = .replyTimeout ∧ s.rif.line = .idle ∧ s.rif.reception = none ∧ s.rif.replyDue = none
      (s.txa.exchange = .idle → atEnd → ∀ t : State, exec c unmarked = .next t →
        exec c s = .next (marked t).leavesUnlessReplying) ∧
      (s.txa.exchange = .awaitReply →
        (∀ item : Item,
          s.txa.item = some item → (∃ p, item = .greet p) ∨ (∃ p k, item = .credit p k) →
            atEnd ∨ timesOut → ∀ t : State, exec c unmarked = .next t →
              let ends (answered : Bool) : Host.Outcome State Fault Refusal :=
                .next
                  (((marked { t with txa := s.txa }).leavesUnlessReplying).exchangeOver answered)
              let answer : Prop :=
                ∃ (p : StationId) (b2 b3 : Byte),
                  (item = .greet p ∧ c = .replyFrameEnd p.byte s.stc.sid 4 b2 b3) ∨
                    ∃ k, item = .credit p k ∧
                      (c = .replyFrameEnd p.byte s.stc.sid 1 b2 b3 ∨
                        c = .replyFrameEnd p.byte s.stc.sid 2 b2 b3)
              (answer → exec c s = ends true) ∧ (¬ answer → exec c s = ends false)) ∧
        ∀ (h : Handle) (p : StationId) (k : Carried), s.txa.item = some (.message h p k) → atEnd →
          (∀ b1 b2 b3 : Byte, b1 = 1 ∨ b1 = 2 ∨ b1 = 3 →
            c ≠ .replyFrameEnd p.byte s.stc.sid b1 b2 b3) →
          ∀ t : State,
            exec c
                { unmarked with txa := { exchange := .idle, train := 0, gap := false, item := none } } =
              .next t →
              exec c s =
                .next
                  (((marked { t with txa := s.txa }).completed
                    (exchangeEnds h .withdrawn)).leavesUnlessReplying.exchangeOver false))

/-- A good frame of any known kind whose source is the station's own identity puts it into HALTED with a
DUPLICATE_ID fault: every entry WITHDRAWN with its attempts, the exchange and a reply due dropped, pending
work and the leave mark cleared, the latch set; records, lists of the session and the pool stay (R153, R154). -/
def Obligations.DuplicateIdentityHalts : Prop :=
  ∀ (s : State) (dst : StationId) (a b c : Byte), s.resetLow = false → s.rif.reception.isSome = true →
    s.rif.transmit = none → s.rxu.fill = none →
    (s.stc.state = .listening ∨ s.stc.state = .announcing ∨ s.stc.state = .online ∨
        s.stc.state = .leaving) →
      let me := s.stc.sid
      let halted (u : State) (kind : FrameKind) : State :=
        let t :=
          (u.faulted .duplicateId me kind 0).completed fun e => some (.withdrawn, e.attempts)
        { t with
          rif := { t.rif with replyDue := none }
          txa := { exchange := .idle, train := 0, gap := false, item := none }
          stc :=
            { t.stc with
              state := .halted, leaveMark := false, pendingAnnounce := false, pendingLeave := false,
              latch := true } }
      exec (.announceFrameEnd me.byte) s = .next (halted (s.received.wonBy me) .announce) ∧
        exec (.leaveFrameEnd me.byte) s = .next (halted (s.received.wonBy me) .leave) ∧
        exec (.greetFrameEnd me.byte dst a b) s = .next (halted (s.received.wonBy me) .greet) ∧
        exec (.messageFrameEnd me.byte dst) s = .next (halted (s.received.wonBy me) .message) ∧
        exec (.creditFrameEnd me.byte dst a b c) s = .next (halted (s.received.wonBy me) .credit) ∧
        exec (.replyFrameEnd me.byte dst a b c) s = .next (halted s.received .reply)

/-- RDE is asserted, with RTX low, exactly in the dominant halves of a frame that the station transmits; the rail
is dominant when some station drives it, and RRX is low then and high otherwise (R105, R106). Every frame that a
station sends is received whole from its line halves: the header event of a MESSAGE and the frame end of its
kind, with every field as sent (R106, R108 to R113, R181, R182). -/
def Obligations.SentFramesAreReceivedWhole : Prop :=
  ((∀ (s : State) (n : Nat), s.rif.transmit = none → s.railPins n = { rde := false, rtx := none }) ∧
    (∀ (s : State) (f : Frame) (i : Nat) (first second : Level), s.rif.transmit = some f →
      f.lineHalves[i]? = some (first, second) →
        ((s.railPins (2 * i)).rde = true ↔ first = .dominant) ∧
          ((s.railPins (2 * i + 1)).rde = true ↔ second = .dominant)) ∧
    (∀ (s : State) (f : Frame) (n : Nat), s.rif.transmit = some f → 2 * f.lineHalves.length ≤ n →
      (s.railPins n).rde = false) ∧
    (∀ (s : State) (n : Nat), (s.railPins n).rde = true → (s.railPins n).rtx = some .low) ∧
    (∀ drives : List RailDrive,
      railLevel drives = .dominant ↔ ∃ d ∈ drives, d.rde = true) ∧
    ∀ level : Level, (rrxPin level = .low ↔ level = .dominant) ∧ senseRrx (rrxPin level) = level) ∧
  ∀ f : Frame, f.Sendable →
    receptionCommands (f.lineHalves.map classifyHalves) =
      .lineBusy :: (f.headerEvent ++ [f.endEvent])
end

