-- ==== Sys2Proof/Laws/Frame.lean ====
section
/-! SUPPORT. What each shared operation leaves unchanged, block by block: no later proof unfolds a record
update to see that a block is untouched. -/

namespace Sys2Proof.Machine

/-! ### Updates of one block -/

@[simp] theorem State.drive_frame (s : State) (w : Word) :
    (s.drive w).pending = s.pending ∧ (s.drive w).resetLow = s.resetLow ∧ (s.drive w).rif = s.rif ∧
      (s.drive w).ctu = s.ctu ∧ (s.drive w).txa = s.txa ∧ (s.drive w).ssu = s.ssu ∧
      (s.drive w).cru = s.cru ∧ (s.drive w).bfm = s.bfm ∧ (s.drive w).snu = s.snu ∧
      (s.drive w).rxu = s.rxu ∧ (s.drive w).stc = s.stc ∧ (s.drive w).atu = s.atu := by
  and_intros <;> rfl

@[simp] theorem State.commandResult_frame (s : State) (r : CommandResult) :
    (s.commandResult r).pending = s.pending ∧ (s.commandResult r).resetLow = s.resetLow ∧
      (s.commandResult r).rif = s.rif ∧ (s.commandResult r).ctu = s.ctu ∧
      (s.commandResult r).txa = s.txa ∧ (s.commandResult r).ssu = s.ssu ∧
      (s.commandResult r).cru = s.cru ∧ (s.commandResult r).bfm = s.bfm ∧
      (s.commandResult r).snu = s.snu ∧ (s.commandResult r).rxu = s.rxu ∧
      (s.commandResult r).stc = s.stc ∧ (s.commandResult r).atu = s.atu := by
  and_intros <;> rfl

@[simp] theorem State.setHandle_frame (s : State) (h : Handle) (x : HandleState) :
    (s.setHandle h x).pending = s.pending ∧ (s.setHandle h x).resetLow = s.resetLow ∧
      (s.setHandle h x).rif = s.rif ∧ (s.setHandle h x).ctu = s.ctu ∧
      (s.setHandle h x).txa = s.txa ∧ (s.setHandle h x).ssu = s.ssu ∧
      (s.setHandle h x).cru = s.cru ∧ (s.setHandle h x).snu = s.snu ∧
      (s.setHandle h x).rxu = s.rxu ∧ (s.setHandle h x).stc = s.stc ∧
      (s.setHandle h x).atu = s.atu ∧ (s.setHandle h x).hpu = s.hpu := by
  and_intros <;> rfl

@[simp] theorem State.returnTx_frame (s : State) (h : Handle) :
    (s.returnTx h).pending = s.pending ∧ (s.returnTx h).resetLow = s.resetLow ∧
      (s.returnTx h).rif = s.rif ∧ (s.returnTx h).ctu = s.ctu ∧ (s.returnTx h).txa = s.txa ∧
      (s.returnTx h).ssu = s.ssu ∧ (s.returnTx h).cru = s.cru ∧ (s.returnTx h).snu = s.snu ∧
      (s.returnTx h).rxu = s.rxu ∧ (s.returnTx h).stc = s.stc ∧ (s.returnTx h).atu = s.atu ∧
      (s.returnTx h).hpu = s.hpu := by
  and_intros <;> rfl

@[simp] theorem State.returnRx_frame (s : State) (h : Handle) :
    (s.returnRx h).pending = s.pending ∧ (s.returnRx h).resetLow = s.resetLow ∧
      (s.returnRx h).rif = s.rif ∧ (s.returnRx h).ctu = s.ctu ∧ (s.returnRx h).txa = s.txa ∧
      (s.returnRx h).ssu = s.ssu ∧ (s.returnRx h).cru = s.cru ∧ (s.returnRx h).snu = s.snu ∧
      (s.returnRx h).rxu = s.rxu ∧ (s.returnRx h).stc = s.stc ∧ (s.returnRx h).atu = s.atu ∧
      (s.returnRx h).hpu = s.hpu := by
  and_intros <;> rfl

@[simp] theorem State.writePayload_frame (s : State) (h : Handle) (bytes : List Byte) :
    (s.writePayload h bytes).pending = s.pending ∧ (s.writePayload h bytes).resetLow = s.resetLow ∧
      (s.writePayload h bytes).rif = s.rif ∧ (s.writePayload h bytes).ctu = s.ctu ∧
      (s.writePayload h bytes).txa = s.txa ∧ (s.writePayload h bytes).ssu = s.ssu ∧
      (s.writePayload h bytes).cru = s.cru ∧ (s.writePayload h bytes).snu = s.snu ∧
      (s.writePayload h bytes).rxu = s.rxu ∧ (s.writePayload h bytes).stc = s.stc ∧
      (s.writePayload h bytes).atu = s.atu ∧ (s.writePayload h bytes).hpu = s.hpu := by
  and_intros <;> rfl

@[simp] theorem State.setPeer_frame (s : State) (p : StationId) (q : Peer) :
    (s.setPeer p q).pending = s.pending ∧ (s.setPeer p q).resetLow = s.resetLow ∧
      (s.setPeer p q).rif = s.rif ∧ (s.setPeer p q).ctu = s.ctu ∧ (s.setPeer p q).txa = s.txa ∧
      (s.setPeer p q).cru = s.cru ∧ (s.setPeer p q).bfm = s.bfm ∧ (s.setPeer p q).snu = s.snu ∧
      (s.setPeer p q).rxu = s.rxu ∧ (s.setPeer p q).stc = s.stc ∧ (s.setPeer p q).atu = s.atu ∧
      (s.setPeer p q).hpu = s.hpu := by
  and_intros <;> rfl

@[simp] theorem State.appendGreet_frame (s : State) (p : StationId) :
    (s.appendGreet p).pending = s.pending ∧ (s.appendGreet p).resetLow = s.resetLow ∧
      (s.appendGreet p).rif = s.rif ∧ (s.appendGreet p).ctu = s.ctu ∧
      (s.appendGreet p).txa = s.txa ∧ (s.appendGreet p).cru = s.cru ∧
      (s.appendGreet p).bfm = s.bfm ∧ (s.appendGreet p).snu = s.snu ∧
      (s.appendGreet p).rxu = s.rxu ∧ (s.appendGreet p).stc = s.stc ∧
      (s.appendGreet p).atu = s.atu ∧ (s.appendGreet p).hpu = s.hpu := by
  and_intros <;> (simp only [State.appendGreet]; repeat' split) <;> simp

@[simp] theorem State.removeGreet_frame (s : State) (p : StationId) :
    (s.removeGreet p).pending = s.pending ∧ (s.removeGreet p).resetLow = s.resetLow ∧
      (s.removeGreet p).rif = s.rif ∧ (s.removeGreet p).ctu = s.ctu ∧
      (s.removeGreet p).txa = s.txa ∧ (s.removeGreet p).cru = s.cru ∧
      (s.removeGreet p).bfm = s.bfm ∧ (s.removeGreet p).snu = s.snu ∧
      (s.removeGreet p).rxu = s.rxu ∧ (s.removeGreet p).stc = s.stc ∧
      (s.removeGreet p).atu = s.atu ∧ (s.removeGreet p).hpu = s.hpu := by
  and_intros <;> rfl

@[simp] theorem State.greetToTail_frame (s : State) (p : StationId) :
    (s.greetToTail p).pending = s.pending ∧ (s.greetToTail p).resetLow = s.resetLow ∧
      (s.greetToTail p).rif = s.rif ∧ (s.greetToTail p).ctu = s.ctu ∧
      (s.greetToTail p).txa = s.txa ∧ (s.greetToTail p).cru = s.cru ∧
      (s.greetToTail p).bfm = s.bfm ∧ (s.greetToTail p).snu = s.snu ∧
      (s.greetToTail p).rxu = s.rxu ∧ (s.greetToTail p).stc = s.stc ∧
      (s.greetToTail p).atu = s.atu ∧ (s.greetToTail p).hpu = s.hpu := by
  and_intros <;> (simp only [State.greetToTail]; repeat' split) <;> simp

@[simp] theorem State.evalDemand_frame (s : State) :
    (s.evalDemand).pending = s.pending ∧ (s.evalDemand).resetLow = s.resetLow ∧
      (s.evalDemand).rif = s.rif ∧ (s.evalDemand).ctu = s.ctu ∧ (s.evalDemand).txa = s.txa ∧
      (s.evalDemand).ssu = s.ssu ∧ (s.evalDemand).bfm = s.bfm ∧ (s.evalDemand).snu = s.snu ∧
      (s.evalDemand).rxu = s.rxu ∧ (s.evalDemand).stc = s.stc ∧ (s.evalDemand).atu = s.atu ∧
      (s.evalDemand).hpu = s.hpu := by
  and_intros <;> rfl

@[simp] theorem State.addCredit_frame (s : State) (p : StationId) :
    (s.addCredit p).pending = s.pending ∧ (s.addCredit p).resetLow = s.resetLow ∧
      (s.addCredit p).rif = s.rif ∧ (s.addCredit p).ctu = s.ctu ∧ (s.addCredit p).txa = s.txa ∧
      (s.addCredit p).ssu = s.ssu ∧ (s.addCredit p).bfm = s.bfm ∧ (s.addCredit p).snu = s.snu ∧
      (s.addCredit p).rxu = s.rxu ∧ (s.addCredit p).stc = s.stc ∧ (s.addCredit p).atu = s.atu ∧
      (s.addCredit p).hpu = s.hpu := by
  and_intros <;> (simp only [State.addCredit]; repeat' split) <;> simp

@[simp] theorem State.dropCredit_frame (s : State) (p : StationId) :
    (s.dropCredit p).pending = s.pending ∧ (s.dropCredit p).resetLow = s.resetLow ∧
      (s.dropCredit p).rif = s.rif ∧ (s.dropCredit p).ctu = s.ctu ∧ (s.dropCredit p).txa = s.txa ∧
      (s.dropCredit p).ssu = s.ssu ∧ (s.dropCredit p).bfm = s.bfm ∧ (s.dropCredit p).snu = s.snu ∧
      (s.dropCredit p).rxu = s.rxu ∧ (s.dropCredit p).stc = s.stc ∧ (s.dropCredit p).atu = s.atu ∧
      (s.dropCredit p).hpu = s.hpu := by
  and_intros <;> rfl

@[simp] theorem State.creditToTail_frame (s : State) (p : StationId) :
    (s.creditToTail p).pending = s.pending ∧ (s.creditToTail p).resetLow = s.resetLow ∧
      (s.creditToTail p).rif = s.rif ∧ (s.creditToTail p).ctu = s.ctu ∧
      (s.creditToTail p).txa = s.txa ∧ (s.creditToTail p).ssu = s.ssu ∧
      (s.creditToTail p).bfm = s.bfm ∧ (s.creditToTail p).snu = s.snu ∧
      (s.creditToTail p).rxu = s.rxu ∧ (s.creditToTail p).stc = s.stc ∧
      (s.creditToTail p).atu = s.atu ∧ (s.creditToTail p).hpu = s.hpu := by
  and_intros <;> (simp only [State.creditToTail]; repeat' split) <;> simp

@[simp] theorem State.peerEvent_frame (s : State) (p : StationId) (st : PeerState) (why : Reason) :
    (s.peerEvent p st why).pending = s.pending ∧ (s.peerEvent p st why).resetLow = s.resetLow ∧
      (s.peerEvent p st why).rif = s.rif ∧ (s.peerEvent p st why).ctu = s.ctu ∧
      (s.peerEvent p st why).txa = s.txa ∧ (s.peerEvent p st why).ssu = s.ssu ∧
      (s.peerEvent p st why).cru = s.cru ∧ (s.peerEvent p st why).bfm = s.bfm ∧
      (s.peerEvent p st why).snu = s.snu ∧ (s.peerEvent p st why).rxu = s.rxu ∧
      (s.peerEvent p st why).stc = s.stc ∧ (s.peerEvent p st why).hpu = s.hpu := by
  and_intros <;> rfl

@[simp] theorem State.handFault_frame (s : State) (kind : FaultKind) (p : StationId) (frame : FrameKind) (value : Byte) :
    (s.handFault kind p frame value).pending = s.pending ∧
      (s.handFault kind p frame value).resetLow = s.resetLow ∧
      (s.handFault kind p frame value).rif = s.rif ∧ (s.handFault kind p frame value).ctu = s.ctu ∧
      (s.handFault kind p frame value).txa = s.txa ∧ (s.handFault kind p frame value).ssu = s.ssu ∧
      (s.handFault kind p frame value).cru = s.cru ∧ (s.handFault kind p frame value).bfm = s.bfm ∧
      (s.handFault kind p frame value).snu = s.snu ∧ (s.handFault kind p frame value).rxu = s.rxu ∧
      (s.handFault kind p frame value).stc = s.stc ∧ (s.handFault kind p frame value).hpu = s.hpu := by
  and_intros <;> rfl

@[simp] theorem State.addCompletion_frame (s : State) (e : SendEntry) (st : Status) (n : Nat) :
    (s.addCompletion e st n).pending = s.pending ∧ (s.addCompletion e st n).resetLow = s.resetLow ∧
      (s.addCompletion e st n).rif = s.rif ∧ (s.addCompletion e st n).ctu = s.ctu ∧
      (s.addCompletion e st n).txa = s.txa ∧ (s.addCompletion e st n).ssu = s.ssu ∧
      (s.addCompletion e st n).cru = s.cru ∧ (s.addCompletion e st n).bfm = s.bfm ∧
      (s.addCompletion e st n).rxu = s.rxu ∧ (s.addCompletion e st n).stc = s.stc ∧
      (s.addCompletion e st n).atu = s.atu ∧ (s.addCompletion e st n).hpu = s.hpu := by
  and_intros <;> rfl

@[simp] theorem State.completeEntry_frame (s : State) (e : SendEntry) (st : Status) (n : Nat) :
    (s.completeEntry e st n).pending = s.pending ∧ (s.completeEntry e st n).resetLow = s.resetLow ∧
      (s.completeEntry e st n).rif = s.rif ∧ (s.completeEntry e st n).ctu = s.ctu ∧
      (s.completeEntry e st n).txa = s.txa ∧ (s.completeEntry e st n).ssu = s.ssu ∧
      (s.completeEntry e st n).cru = s.cru ∧ (s.completeEntry e st n).rxu = s.rxu ∧
      (s.completeEntry e st n).stc = s.stc ∧ (s.completeEntry e st n).atu = s.atu ∧
      (s.completeEntry e st n).hpu = s.hpu := by
  and_intros <;> (simp only [State.completeEntry]; repeat' split) <;> simp

@[simp] theorem State.handReply_frame (s : State) (p : StationId) (status : ReplyStatus) :
    (s.handReply p status).pending = s.pending ∧ (s.handReply p status).resetLow = s.resetLow ∧
      (s.handReply p status).ctu = s.ctu ∧ (s.handReply p status).txa = s.txa ∧
      (s.handReply p status).ssu = s.ssu ∧ (s.handReply p status).cru = s.cru ∧
      (s.handReply p status).bfm = s.bfm ∧ (s.handReply p status).snu = s.snu ∧
      (s.handReply p status).rxu = s.rxu ∧ (s.handReply p status).stc = s.stc ∧
      (s.handReply p status).atu = s.atu ∧ (s.handReply p status).hpu = s.hpu := by
  and_intros <;> rfl

@[simp] theorem State.takeWinner_frame (s : State) (src : Byte) :
    (s.takeWinner src).pending = s.pending ∧ (s.takeWinner src).resetLow = s.resetLow ∧
      (s.takeWinner src).rif = s.rif ∧ (s.takeWinner src).txa = s.txa ∧
      (s.takeWinner src).ssu = s.ssu ∧ (s.takeWinner src).cru = s.cru ∧
      (s.takeWinner src).bfm = s.bfm ∧ (s.takeWinner src).snu = s.snu ∧
      (s.takeWinner src).rxu = s.rxu ∧ (s.takeWinner src).stc = s.stc ∧
      (s.takeWinner src).atu = s.atu ∧ (s.takeWinner src).hpu = s.hpu := by
  and_intros <;> (simp only [State.takeWinner]; repeat' split) <;> simp

@[simp] theorem State.takeOrdered_frame (s : State) :
    (s.takeOrdered).pending = s.pending ∧ (s.takeOrdered).resetLow = s.resetLow ∧
      (s.takeOrdered).rif = s.rif ∧ (s.takeOrdered).txa = s.txa ∧ (s.takeOrdered).ssu = s.ssu ∧
      (s.takeOrdered).cru = s.cru ∧ (s.takeOrdered).bfm = s.bfm ∧ (s.takeOrdered).snu = s.snu ∧
      (s.takeOrdered).rxu = s.rxu ∧ (s.takeOrdered).stc = s.stc ∧ (s.takeOrdered).atu = s.atu ∧
      (s.takeOrdered).hpu = s.hpu := by
  and_intros <;> rfl

@[simp] theorem State.elapse_frame (s : State) (n : Nat) :
    (s.elapse n).pending = s.pending ∧ (s.elapse n).resetLow = s.resetLow ∧
      (s.elapse n).txa = s.txa ∧ (s.elapse n).ssu = s.ssu ∧ (s.elapse n).cru = s.cru ∧
      (s.elapse n).bfm = s.bfm ∧ (s.elapse n).snu = s.snu ∧ (s.elapse n).rxu = s.rxu ∧
      (s.elapse n).stc = s.stc ∧ (s.elapse n).atu = s.atu ∧ (s.elapse n).hpu = s.hpu := by
  and_intros <;> rfl

@[simp] theorem State.elapseTo_frame (s : State) (n : Nat) :
    (s.elapseTo n).pending = s.pending ∧ (s.elapseTo n).resetLow = s.resetLow ∧
      (s.elapseTo n).txa = s.txa ∧ (s.elapseTo n).ssu = s.ssu ∧ (s.elapseTo n).cru = s.cru ∧
      (s.elapseTo n).bfm = s.bfm ∧ (s.elapseTo n).snu = s.snu ∧ (s.elapseTo n).rxu = s.rxu ∧
      (s.elapseTo n).stc = s.stc ∧ (s.elapseTo n).atu = s.atu ∧ (s.elapseTo n).hpu = s.hpu := by
  and_intros <;> rfl

@[simp] theorem State.beginWindow_frame (s : State) :
    (s.beginWindow).pending = s.pending ∧ (s.beginWindow).resetLow = s.resetLow ∧
      (s.beginWindow).rif = s.rif ∧ (s.beginWindow).txa = s.txa ∧ (s.beginWindow).ssu = s.ssu ∧
      (s.beginWindow).cru = s.cru ∧ (s.beginWindow).bfm = s.bfm ∧ (s.beginWindow).snu = s.snu ∧
      (s.beginWindow).rxu = s.rxu ∧ (s.beginWindow).stc = s.stc ∧ (s.beginWindow).atu = s.atu ∧
      (s.beginWindow).hpu = s.hpu := by
  and_intros <;> rfl

@[simp] theorem State.transmit_frame (s : State) (f : Frame) :
    (s.transmit f).pending = s.pending ∧ (s.transmit f).resetLow = s.resetLow ∧
      (s.transmit f).txa = s.txa ∧ (s.transmit f).ssu = s.ssu ∧ (s.transmit f).cru = s.cru ∧
      (s.transmit f).bfm = s.bfm ∧ (s.transmit f).snu = s.snu ∧ (s.transmit f).rxu = s.rxu ∧
      (s.transmit f).stc = s.stc ∧ (s.transmit f).atu = s.atu ∧ (s.transmit f).hpu = s.hpu := by
  and_intros <;> rfl

@[simp] theorem State.arbiterStarts_frame (s : State) (item : Item) (train : Nat) :
    (s.arbiterStarts item train).pending = s.pending ∧
      (s.arbiterStarts item train).resetLow = s.resetLow ∧
      (s.arbiterStarts item train).rif = s.rif ∧ (s.arbiterStarts item train).ctu = s.ctu ∧
      (s.arbiterStarts item train).ssu = s.ssu ∧ (s.arbiterStarts item train).cru = s.cru ∧
      (s.arbiterStarts item train).bfm = s.bfm ∧ (s.arbiterStarts item train).snu = s.snu ∧
      (s.arbiterStarts item train).rxu = s.rxu ∧ (s.arbiterStarts item train).stc = s.stc ∧
      (s.arbiterStarts item train).atu = s.atu ∧ (s.arbiterStarts item train).hpu = s.hpu := by
  and_intros <;> rfl

@[simp] theorem State.arbiterIdle_frame (s : State) :
    (s.arbiterIdle).pending = s.pending ∧ (s.arbiterIdle).resetLow = s.resetLow ∧
      (s.arbiterIdle).rif = s.rif ∧ (s.arbiterIdle).ctu = s.ctu ∧ (s.arbiterIdle).ssu = s.ssu ∧
      (s.arbiterIdle).cru = s.cru ∧ (s.arbiterIdle).bfm = s.bfm ∧ (s.arbiterIdle).snu = s.snu ∧
      (s.arbiterIdle).rxu = s.rxu ∧ (s.arbiterIdle).stc = s.stc ∧ (s.arbiterIdle).atu = s.atu ∧
      (s.arbiterIdle).hpu = s.hpu := by
  and_intros <;> rfl

@[simp] theorem State.entrySending_frame (s : State) (h : Handle) (seq : Byte) :
    (s.entrySending h seq).pending = s.pending ∧ (s.entrySending h seq).resetLow = s.resetLow ∧
      (s.entrySending h seq).rif = s.rif ∧ (s.entrySending h seq).ctu = s.ctu ∧
      (s.entrySending h seq).txa = s.txa ∧ (s.entrySending h seq).ssu = s.ssu ∧
      (s.entrySending h seq).cru = s.cru ∧ (s.entrySending h seq).bfm = s.bfm ∧
      (s.entrySending h seq).rxu = s.rxu ∧ (s.entrySending h seq).stc = s.stc ∧
      (s.entrySending h seq).atu = s.atu ∧ (s.entrySending h seq).hpu = s.hpu := by
  and_intros <;> rfl

@[simp] theorem State.entryRetry_frame (s : State) (h : Handle) (counted : Bool) :
    (s.entryRetry h counted).pending = s.pending ∧ (s.entryRetry h counted).resetLow = s.resetLow ∧
      (s.entryRetry h counted).rif = s.rif ∧ (s.entryRetry h counted).ctu = s.ctu ∧
      (s.entryRetry h counted).txa = s.txa ∧ (s.entryRetry h counted).ssu = s.ssu ∧
      (s.entryRetry h counted).cru = s.cru ∧ (s.entryRetry h counted).bfm = s.bfm ∧
      (s.entryRetry h counted).rxu = s.rxu ∧ (s.entryRetry h counted).stc = s.stc ∧
      (s.entryRetry h counted).atu = s.atu ∧ (s.entryRetry h counted).hpu = s.hpu := by
  and_intros <;> rfl

@[simp] theorem State.decideTrain_frame (s : State) (answered : Bool) :
    (s.decideTrain answered).pending = s.pending ∧ (s.decideTrain answered).resetLow = s.resetLow ∧
      (s.decideTrain answered).rif = s.rif ∧ (s.decideTrain answered).ctu = s.ctu ∧
      (s.decideTrain answered).ssu = s.ssu ∧ (s.decideTrain answered).cru = s.cru ∧
      (s.decideTrain answered).bfm = s.bfm ∧ (s.decideTrain answered).snu = s.snu ∧
      (s.decideTrain answered).rxu = s.rxu ∧ (s.decideTrain answered).stc = s.stc ∧
      (s.decideTrain answered).atu = s.atu ∧ (s.decideTrain answered).hpu = s.hpu := by
  and_intros <;> (simp only [State.decideTrain]; repeat' split) <;> simp

@[simp] theorem State.enterLeaving_frame (s : State) :
    (s.enterLeaving).pending = s.pending ∧ (s.enterLeaving).resetLow = s.resetLow ∧
      (s.enterLeaving).rif = s.rif ∧ (s.enterLeaving).ctu = s.ctu ∧ (s.enterLeaving).txa = s.txa ∧
      (s.enterLeaving).bfm = s.bfm ∧ (s.enterLeaving).snu = s.snu ∧ (s.enterLeaving).rxu = s.rxu ∧
      (s.enterLeaving).atu = s.atu ∧ (s.enterLeaving).hpu = s.hpu := by
  simp [State.enterLeaving]

@[simp] theorem State.settleLeave_frame (s : State) :
    (s.settleLeave).pending = s.pending ∧ (s.settleLeave).resetLow = s.resetLow ∧
      (s.settleLeave).rif = s.rif ∧ (s.settleLeave).ctu = s.ctu ∧ (s.settleLeave).txa = s.txa ∧
      (s.settleLeave).bfm = s.bfm ∧ (s.settleLeave).snu = s.snu ∧ (s.settleLeave).rxu = s.rxu ∧
      (s.settleLeave).atu = s.atu ∧ (s.settleLeave).hpu = s.hpu := by
  and_intros <;> (simp only [State.settleLeave]; repeat' split) <;> simp

@[simp] theorem State.endListening_frame (s : State) :
    (s.endListening).pending = s.pending ∧ (s.endListening).resetLow = s.resetLow ∧
      (s.endListening).rif = s.rif ∧ (s.endListening).ctu = s.ctu ∧ (s.endListening).txa = s.txa ∧
      (s.endListening).ssu = s.ssu ∧ (s.endListening).cru = s.cru ∧ (s.endListening).bfm = s.bfm ∧
      (s.endListening).snu = s.snu ∧ (s.endListening).rxu = s.rxu ∧ (s.endListening).atu = s.atu ∧
      (s.endListening).hpu = s.hpu := by
  and_intros <;> (simp only [State.endListening]; repeat' split) <;> simp

@[simp] theorem State.lineFree_frame (s : State) :
    (s.lineFree).pending = s.pending ∧ (s.lineFree).resetLow = s.resetLow ∧
      (s.lineFree).ctu = s.ctu ∧ (s.lineFree).txa = s.txa ∧ (s.lineFree).ssu = s.ssu ∧
      (s.lineFree).cru = s.cru ∧ (s.lineFree).bfm = s.bfm ∧ (s.lineFree).snu = s.snu ∧
      (s.lineFree).rxu = s.rxu ∧ (s.lineFree).stc = s.stc ∧ (s.lineFree).atu = s.atu ∧
      (s.lineFree).hpu = s.hpu := by
  and_intros <;> rfl

@[simp] theorem State.setMisuse_frame (s : State) :
    (s.setMisuse).pending = s.pending ∧ (s.setMisuse).resetLow = s.resetLow ∧
      (s.setMisuse).rif = s.rif ∧ (s.setMisuse).ctu = s.ctu ∧ (s.setMisuse).txa = s.txa ∧
      (s.setMisuse).ssu = s.ssu ∧ (s.setMisuse).cru = s.cru ∧ (s.setMisuse).bfm = s.bfm ∧
      (s.setMisuse).snu = s.snu ∧ (s.setMisuse).rxu = s.rxu ∧ (s.setMisuse).stc = s.stc ∧
      (s.setMisuse).atu = s.atu := by
  and_intros <;> rfl

@[simp] theorem State.setLocked_frame (s : State) :
    (s.setLocked).pending = s.pending ∧ (s.setLocked).resetLow = s.resetLow ∧
      (s.setLocked).rif = s.rif ∧ (s.setLocked).ctu = s.ctu ∧ (s.setLocked).txa = s.txa ∧
      (s.setLocked).ssu = s.ssu ∧ (s.setLocked).cru = s.cru ∧ (s.setLocked).bfm = s.bfm ∧
      (s.setLocked).snu = s.snu ∧ (s.setLocked).rxu = s.rxu ∧ (s.setLocked).atu = s.atu ∧
      (s.setLocked).hpu = s.hpu := by
  and_intros <;> rfl

@[simp] theorem State.setInService_frame (s : State) (n : Fin 5) :
    (s.setInService n).pending = s.pending ∧ (s.setInService n).resetLow = s.resetLow ∧
      (s.setInService n).rif = s.rif ∧ (s.setInService n).ctu = s.ctu ∧
      (s.setInService n).txa = s.txa ∧ (s.setInService n).ssu = s.ssu ∧
      (s.setInService n).cru = s.cru ∧ (s.setInService n).bfm = s.bfm ∧
      (s.setInService n).snu = s.snu ∧ (s.setInService n).rxu = s.rxu ∧
      (s.setInService n).stc = s.stc ∧ (s.setInService n).hpu = s.hpu := by
  and_intros <;> rfl

@[simp] theorem State.clearInService_frame (s : State) (n : Fin 5) :
    (s.clearInService n).pending = s.pending ∧ (s.clearInService n).resetLow = s.resetLow ∧
      (s.clearInService n).rif = s.rif ∧ (s.clearInService n).ctu = s.ctu ∧
      (s.clearInService n).txa = s.txa ∧ (s.clearInService n).ssu = s.ssu ∧
      (s.clearInService n).cru = s.cru ∧ (s.clearInService n).bfm = s.bfm ∧
      (s.clearInService n).snu = s.snu ∧ (s.clearInService n).rxu = s.rxu ∧
      (s.clearInService n).stc = s.stc ∧ (s.clearInService n).hpu = s.hpu := by
  and_intros <;> rfl

@[simp] theorem State.clearSticky_frame (s : State) :
    (s.clearSticky).pending = s.pending ∧ (s.clearSticky).resetLow = s.resetLow ∧
      (s.clearSticky).rif = s.rif ∧ (s.clearSticky).ctu = s.ctu ∧ (s.clearSticky).txa = s.txa ∧
      (s.clearSticky).ssu = s.ssu ∧ (s.clearSticky).cru = s.cru ∧ (s.clearSticky).bfm = s.bfm ∧
      (s.clearSticky).snu = s.snu ∧ (s.clearSticky).rxu = s.rxu ∧ (s.clearSticky).atu = s.atu := by
  and_intros <;> rfl

/-! ### Completions -/

/-- The step that one Send List entry makes in a completion. -/
def completeStep (cause : SendEntry → Option (Status × Nat)) (t : State) (e : SendEntry) : State :=
  match cause e with
  | some (st, n) => t.completeEntry e st n
  | none => t

theorem State.completeWhere_eq (s : State) (cause : SendEntry → Option (Status × Nat)) :
    s.completeWhere cause =
      s.snu.sendList.foldl (completeStep cause)
        { s with snu := { s.snu with sendList := s.snu.sendList.filter fun e => (cause e).isNone } } :=
  rfl

@[simp] theorem completeStep_frame (cause : SendEntry → Option (Status × Nat)) (s : State) (e : SendEntry) :
    (completeStep cause s e).pending = s.pending ∧ (completeStep cause s e).resetLow = s.resetLow ∧
      (completeStep cause s e).rif = s.rif ∧ (completeStep cause s e).ctu = s.ctu ∧
      (completeStep cause s e).txa = s.txa ∧ (completeStep cause s e).ssu = s.ssu ∧
      (completeStep cause s e).cru = s.cru ∧ (completeStep cause s e).rxu = s.rxu ∧
      (completeStep cause s e).stc = s.stc ∧ (completeStep cause s e).atu = s.atu ∧
      (completeStep cause s e).hpu = s.hpu := by
  and_intros <;> (simp only [completeStep]; repeat' split) <;> simp

@[simp] theorem completeFold_frame (cause : SendEntry → Option (Status × Nat)) (l : List SendEntry) (s : State) :
    (l.foldl (completeStep cause) s).pending = s.pending ∧
      (l.foldl (completeStep cause) s).resetLow = s.resetLow ∧
      (l.foldl (completeStep cause) s).rif = s.rif ∧ (l.foldl (completeStep cause) s).ctu = s.ctu ∧
      (l.foldl (completeStep cause) s).txa = s.txa ∧ (l.foldl (completeStep cause) s).ssu = s.ssu ∧
      (l.foldl (completeStep cause) s).cru = s.cru ∧ (l.foldl (completeStep cause) s).rxu = s.rxu ∧
      (l.foldl (completeStep cause) s).stc = s.stc ∧ (l.foldl (completeStep cause) s).atu = s.atu ∧
      (l.foldl (completeStep cause) s).hpu = s.hpu := by
  induction l generalizing s with
  | nil => simp
  | cons e l ih => simp [ih]

@[simp] theorem State.completeWhere_frame (s : State) (cause : SendEntry → Option (Status × Nat)) :
    (s.completeWhere cause).pending = s.pending ∧ (s.completeWhere cause).resetLow = s.resetLow ∧
      (s.completeWhere cause).rif = s.rif ∧ (s.completeWhere cause).ctu = s.ctu ∧
      (s.completeWhere cause).txa = s.txa ∧ (s.completeWhere cause).ssu = s.ssu ∧
      (s.completeWhere cause).cru = s.cru ∧ (s.completeWhere cause).rxu = s.rxu ∧
      (s.completeWhere cause).stc = s.stc ∧ (s.completeWhere cause).atu = s.atu ∧
      (s.completeWhere cause).hpu = s.hpu := by
  simp [State.completeWhere_eq]

/-! ### Session changes, fills, exchanges -/

@[simp] theorem State.greetOwed_frame (s : State) (p : StationId) (why : Reason) (notice : Bool) :
    (s.greetOwed p why notice).pending = s.pending ∧
      (s.greetOwed p why notice).resetLow = s.resetLow ∧ (s.greetOwed p why notice).rif = s.rif ∧
      (s.greetOwed p why notice).ctu = s.ctu ∧ (s.greetOwed p why notice).txa = s.txa ∧
      (s.greetOwed p why notice).rxu = s.rxu ∧ (s.greetOwed p why notice).stc = s.stc ∧
      (s.greetOwed p why notice).hpu = s.hpu := by
  and_intros <;> (simp only [State.greetOwed]; repeat' split) <;> simp

@[simp] theorem State.becomeLost_frame (s : State) (p : StationId) (why : Reason) (named : Option Handle) :
    (s.becomeLost p why named).pending = s.pending ∧
      (s.becomeLost p why named).resetLow = s.resetLow ∧ (s.becomeLost p why named).rif = s.rif ∧
      (s.becomeLost p why named).ctu = s.ctu ∧ (s.becomeLost p why named).txa = s.txa ∧
      (s.becomeLost p why named).rxu = s.rxu ∧ (s.becomeLost p why named).stc = s.stc ∧
      (s.becomeLost p why named).hpu = s.hpu := by
  and_intros <;> (simp only [State.becomeLost]; repeat' split) <;> simp

@[simp] theorem State.peerLeft_frame (s : State) (p : StationId) :
    (s.peerLeft p).pending = s.pending ∧ (s.peerLeft p).resetLow = s.resetLow ∧
      (s.peerLeft p).rif = s.rif ∧ (s.peerLeft p).ctu = s.ctu ∧ (s.peerLeft p).txa = s.txa ∧
      (s.peerLeft p).rxu = s.rxu ∧ (s.peerLeft p).stc = s.stc ∧ (s.peerLeft p).hpu = s.hpu := by
  and_intros <;> (simp only [State.peerLeft]; repeat' split) <;> simp

@[simp] theorem State.hear_frame (s : State) (p : StationId) :
    (s.hear p).pending = s.pending ∧ (s.hear p).resetLow = s.resetLow ∧ (s.hear p).rif = s.rif ∧
      (s.hear p).ctu = s.ctu ∧ (s.hear p).txa = s.txa ∧ (s.hear p).rxu = s.rxu ∧
      (s.hear p).stc = s.stc ∧ (s.hear p).hpu = s.hpu := by
  and_intros <;> (simp only [State.hear]; repeat' split) <;> simp

@[simp] theorem State.hearSource_frame (s : State) (src : Byte) :
    (s.hearSource src).pending = s.pending ∧ (s.hearSource src).resetLow = s.resetLow ∧
      (s.hearSource src).rif = s.rif ∧ (s.hearSource src).ctu = s.ctu ∧
      (s.hearSource src).txa = s.txa ∧ (s.hearSource src).rxu = s.rxu ∧
      (s.hearSource src).stc = s.stc ∧ (s.hearSource src).hpu = s.hpu := by
  and_intros <;> (simp only [State.hearSource]; repeat' split) <;> simp

@[simp] theorem State.announced_frame (s : State) (p : StationId) :
    (s.announced p).pending = s.pending ∧ (s.announced p).resetLow = s.resetLow ∧
      (s.announced p).rif = s.rif ∧ (s.announced p).ctu = s.ctu ∧ (s.announced p).txa = s.txa ∧
      (s.announced p).rxu = s.rxu ∧ (s.announced p).stc = s.stc ∧ (s.announced p).hpu = s.hpu := by
  and_intros <;> (simp only [State.announced]; repeat' split) <;> simp

@[simp] theorem State.protocolFault_frame (s : State) (p : StationId) :
    (s.protocolFault p).pending = s.pending ∧ (s.protocolFault p).resetLow = s.resetLow ∧
      (s.protocolFault p).rif = s.rif ∧ (s.protocolFault p).ctu = s.ctu ∧
      (s.protocolFault p).txa = s.txa ∧ (s.protocolFault p).rxu = s.rxu ∧
      (s.protocolFault p).stc = s.stc ∧ (s.protocolFault p).hpu = s.hpu := by
  and_intros <;> (simp only [State.protocolFault]; repeat' split) <;> simp

@[simp] theorem State.refusedReply_frame (s : State) (p : StationId) (why : Reason) (notice : Bool) :
    (s.refusedReply p why notice).pending = s.pending ∧
      (s.refusedReply p why notice).resetLow = s.resetLow ∧
      (s.refusedReply p why notice).rif = s.rif ∧ (s.refusedReply p why notice).ctu = s.ctu ∧
      (s.refusedReply p why notice).txa = s.txa ∧ (s.refusedReply p why notice).rxu = s.rxu ∧
      (s.refusedReply p why notice).stc = s.stc ∧ (s.refusedReply p why notice).hpu = s.hpu := by
  and_intros <;> (simp only [State.refusedReply]; repeat' split) <;> simp

@[simp] theorem State.openSession_frame (s : State) (p : StationId) (sess grant : Byte) :
    (s.openSession p sess grant).pending = s.pending ∧
      (s.openSession p sess grant).resetLow = s.resetLow ∧
      (s.openSession p sess grant).rif = s.rif ∧ (s.openSession p sess grant).ctu = s.ctu ∧
      (s.openSession p sess grant).txa = s.txa ∧ (s.openSession p sess grant).bfm = s.bfm ∧
      (s.openSession p sess grant).snu = s.snu ∧ (s.openSession p sess grant).rxu = s.rxu ∧
      (s.openSession p sess grant).stc = s.stc ∧ (s.openSession p sess grant).hpu = s.hpu := by
  and_intros <;> (simp only [State.openSession]; repeat' split) <;> simp

@[simp] theorem State.answerGreet_frame (s : State) (p : StationId) (sess grant : Byte) :
    (s.answerGreet p sess grant).pending = s.pending ∧
      (s.answerGreet p sess grant).resetLow = s.resetLow ∧
      (s.answerGreet p sess grant).rif = s.rif ∧ (s.answerGreet p sess grant).ctu = s.ctu ∧
      (s.answerGreet p sess grant).txa = s.txa ∧ (s.answerGreet p sess grant).rxu = s.rxu ∧
      (s.answerGreet p sess grant).stc = s.stc ∧ (s.answerGreet p sess grant).hpu = s.hpu := by
  and_intros <;> (simp only [State.answerGreet]; repeat' split) <;> simp

@[simp] theorem State.evaluateTotal_frame (s : State) (p : StationId) (frame : FrameKind) (total : Byte) :
    (s.evaluateTotal p frame total).pending = s.pending ∧
      (s.evaluateTotal p frame total).resetLow = s.resetLow ∧
      (s.evaluateTotal p frame total).ctu = s.ctu ∧ (s.evaluateTotal p frame total).txa = s.txa ∧
      (s.evaluateTotal p frame total).rxu = s.rxu ∧ (s.evaluateTotal p frame total).stc = s.stc ∧
      (s.evaluateTotal p frame total).hpu = s.hpu := by
  and_intros <;> (simp only [State.evaluateTotal]; repeat' split) <;> simp

@[simp] theorem State.startFill_frame (s : State) (p : StationId) (h : Handle) (rest : List Handle) (v : Verdict)
    (payload : List Byte) :
    (s.startFill p h rest v payload).pending = s.pending ∧
      (s.startFill p h rest v payload).resetLow = s.resetLow ∧
      (s.startFill p h rest v payload).rif = s.rif ∧ (s.startFill p h rest v payload).ctu = s.ctu ∧
      (s.startFill p h rest v payload).txa = s.txa ∧ (s.startFill p h rest v payload).snu = s.snu ∧
      (s.startFill p h rest v payload).stc = s.stc ∧ (s.startFill p h rest v payload).atu = s.atu ∧
      (s.startFill p h rest v payload).hpu = s.hpu := by
  and_intros <;> rfl

@[simp] theorem State.abortFill_frame (s : State) :
    (s.abortFill).pending = s.pending ∧ (s.abortFill).resetLow = s.resetLow ∧
      (s.abortFill).rif = s.rif ∧ (s.abortFill).ctu = s.ctu ∧ (s.abortFill).txa = s.txa ∧
      (s.abortFill).snu = s.snu ∧ (s.abortFill).stc = s.stc ∧ (s.abortFill).atu = s.atu ∧
      (s.abortFill).hpu = s.hpu := by
  and_intros <;> (simp only [State.abortFill]; repeat' split) <;> simp

@[simp] theorem State.forgetVerdict_frame (s : State) :
    (s.forgetVerdict).pending = s.pending ∧ (s.forgetVerdict).resetLow = s.resetLow ∧
      (s.forgetVerdict).rif = s.rif ∧ (s.forgetVerdict).ctu = s.ctu ∧
      (s.forgetVerdict).txa = s.txa ∧ (s.forgetVerdict).ssu = s.ssu ∧
      (s.forgetVerdict).cru = s.cru ∧ (s.forgetVerdict).bfm = s.bfm ∧
      (s.forgetVerdict).snu = s.snu ∧ (s.forgetVerdict).stc = s.stc ∧
      (s.forgetVerdict).atu = s.atu ∧ (s.forgetVerdict).hpu = s.hpu := by
  and_intros <;> rfl

@[simp] theorem State.dropVerdict_frame (s : State) :
    (s.dropVerdict).pending = s.pending ∧ (s.dropVerdict).resetLow = s.resetLow ∧
      (s.dropVerdict).rif = s.rif ∧ (s.dropVerdict).ctu = s.ctu ∧ (s.dropVerdict).txa = s.txa ∧
      (s.dropVerdict).snu = s.snu ∧ (s.dropVerdict).stc = s.stc ∧ (s.dropVerdict).atu = s.atu ∧
      (s.dropVerdict).hpu = s.hpu := by
  simp [State.dropVerdict]

@[simp] theorem State.postFill_frame (s : State) (p : StationId) (seq : Byte) :
    (s.postFill p seq).pending = s.pending ∧ (s.postFill p seq).resetLow = s.resetLow ∧
      (s.postFill p seq).rif = s.rif ∧ (s.postFill p seq).ctu = s.ctu ∧
      (s.postFill p seq).txa = s.txa ∧ (s.postFill p seq).cru = s.cru ∧
      (s.postFill p seq).snu = s.snu ∧ (s.postFill p seq).stc = s.stc ∧
      (s.postFill p seq).atu = s.atu ∧ (s.postFill p seq).hpu = s.hpu := by
  and_intros <;> (simp only [State.postFill]; repeat' split) <;> simp

@[simp] theorem State.startWork_frame (s : State) (w : Work) (train : Nat) :
    (s.startWork w train).pending = s.pending ∧ (s.startWork w train).resetLow = s.resetLow ∧
      (s.startWork w train).cru = s.cru ∧ (s.startWork w train).bfm = s.bfm ∧
      (s.startWork w train).rxu = s.rxu ∧ (s.startWork w train).stc = s.stc ∧
      (s.startWork w train).atu = s.atu ∧ (s.startWork w train).hpu = s.hpu := by
  and_intros <;> (simp only [State.startWork]; repeat' split) <;> simp

@[simp] theorem State.enterHalted_frame (s : State) :
    (s.enterHalted).pending = s.pending ∧ (s.enterHalted).resetLow = s.resetLow ∧
      (s.enterHalted).ctu = s.ctu ∧ (s.enterHalted).atu = s.atu ∧ (s.enterHalted).hpu = s.hpu := by
  simp [State.enterHalted]

@[simp] theorem State.acceptTotal_frame (s : State) (p : StationId) (c : Carried) :
    (s.acceptTotal p c).pending = s.pending ∧ (s.acceptTotal p c).resetLow = s.resetLow ∧
      (s.acceptTotal p c).rif = s.rif ∧ (s.acceptTotal p c).ctu = s.ctu ∧
      (s.acceptTotal p c).txa = s.txa ∧ (s.acceptTotal p c).bfm = s.bfm ∧
      (s.acceptTotal p c).snu = s.snu ∧ (s.acceptTotal p c).rxu = s.rxu ∧
      (s.acceptTotal p c).stc = s.stc ∧ (s.acceptTotal p c).atu = s.atu ∧
      (s.acceptTotal p c).hpu = s.hpu := by
  and_intros <;> (simp only [State.acceptTotal]; repeat' split) <;> simp

@[simp] theorem State.greetOutcome_frame (s : State) (p : StationId) (r : Option ReplyStatus) :
    (s.greetOutcome p r).pending = s.pending ∧ (s.greetOutcome p r).resetLow = s.resetLow ∧
      (s.greetOutcome p r).rif = s.rif ∧ (s.greetOutcome p r).ctu = s.ctu ∧
      (s.greetOutcome p r).txa = s.txa ∧ (s.greetOutcome p r).rxu = s.rxu ∧
      (s.greetOutcome p r).stc = s.stc ∧ (s.greetOutcome p r).hpu = s.hpu := by
  and_intros <;> (simp only [State.greetOutcome]; repeat' split) <;> simp

@[simp] theorem State.creditOutcome_frame (s : State) (p : StationId) (c : Carried) (r : Option ReplyStatus) :
    (s.creditOutcome p c r).pending = s.pending ∧ (s.creditOutcome p c r).resetLow = s.resetLow ∧
      (s.creditOutcome p c r).rif = s.rif ∧ (s.creditOutcome p c r).ctu = s.ctu ∧
      (s.creditOutcome p c r).txa = s.txa ∧ (s.creditOutcome p c r).rxu = s.rxu ∧
      (s.creditOutcome p c r).stc = s.stc ∧ (s.creditOutcome p c r).hpu = s.hpu := by
  and_intros <;> (simp only [State.creditOutcome]; repeat' split) <;> simp

@[simp] theorem State.messageUnanswered_frame (s : State) (e : SendEntry) :
    (s.messageUnanswered e).pending = s.pending ∧ (s.messageUnanswered e).resetLow = s.resetLow ∧
      (s.messageUnanswered e).rif = s.rif ∧ (s.messageUnanswered e).ctu = s.ctu ∧
      (s.messageUnanswered e).txa = s.txa ∧ (s.messageUnanswered e).rxu = s.rxu ∧
      (s.messageUnanswered e).stc = s.stc ∧ (s.messageUnanswered e).hpu = s.hpu := by
  and_intros <;> (simp only [State.messageUnanswered]; repeat' split) <;> simp

@[simp] theorem State.messageOutcome_frame (s : State) (h : Handle) (p : StationId) (c : Carried) (r : Option ReplyStatus) :
    (s.messageOutcome h p c r).pending = s.pending ∧
      (s.messageOutcome h p c r).resetLow = s.resetLow ∧ (s.messageOutcome h p c r).rif = s.rif ∧
      (s.messageOutcome h p c r).ctu = s.ctu ∧ (s.messageOutcome h p c r).txa = s.txa ∧
      (s.messageOutcome h p c r).rxu = s.rxu ∧ (s.messageOutcome h p c r).stc = s.stc ∧
      (s.messageOutcome h p c r).hpu = s.hpu := by
  and_intros <;> (simp only [State.messageOutcome]; repeat' split) <;> simp

@[simp] theorem State.applyOutcome_frame (s : State) (item : Item) (r : Option ReplyStatus) :
    (s.applyOutcome item r).pending = s.pending ∧ (s.applyOutcome item r).resetLow = s.resetLow ∧
      (s.applyOutcome item r).rif = s.rif ∧ (s.applyOutcome item r).ctu = s.ctu ∧
      (s.applyOutcome item r).txa = s.txa ∧ (s.applyOutcome item r).rxu = s.rxu ∧
      (s.applyOutcome item r).stc = s.stc ∧ (s.applyOutcome item r).hpu = s.hpu := by
  and_intros <;> (simp only [State.applyOutcome]; repeat' split) <;> simp

@[simp] theorem State.finishExchange_frame (s : State) (r : Option ReplyStatus) :
    (s.finishExchange r).pending = s.pending ∧ (s.finishExchange r).resetLow = s.resetLow ∧
      (s.finishExchange r).rif = s.rif ∧ (s.finishExchange r).ctu = s.ctu ∧
      (s.finishExchange r).rxu = s.rxu ∧ (s.finishExchange r).hpu = s.hpu := by
  and_intros <;> (simp only [State.finishExchange]; repeat' split) <;> simp

@[simp] theorem State.endAwait_frame (s : State) (r : Option ReplyStatus) :
    (s.endAwait r).pending = s.pending ∧ (s.endAwait r).resetLow = s.resetLow ∧
      (s.endAwait r).rif = s.rif ∧ (s.endAwait r).ctu = s.ctu ∧ (s.endAwait r).rxu = s.rxu ∧
      (s.endAwait r).hpu = s.hpu := by
  and_intros <;> (simp only [State.endAwait]; repeat' split) <;> simp

@[simp] theorem State.actOnVerdict_frame (s : State) :
    (s.actOnVerdict).pending = s.pending ∧ (s.actOnVerdict).resetLow = s.resetLow ∧
      (s.actOnVerdict).ctu = s.ctu ∧ (s.actOnVerdict).txa = s.txa ∧ (s.actOnVerdict).stc = s.stc ∧
      (s.actOnVerdict).hpu = s.hpu := by
  and_intros <;> (simp only [State.actOnVerdict]; repeat' split) <;> simp

/-! ### Events that came with a RESTART (R151) -/

@[simp] theorem State.collideBroken_frame (s : State) :
    (s.collideBroken).pending = s.pending ∧
      (s.collideBroken).resetLow = s.resetLow ∧
      (s.collideBroken).txa = s.txa ∧
      (s.collideBroken).ssu = s.ssu ∧
      (s.collideBroken).cru = s.cru ∧
      (s.collideBroken).bfm = s.bfm ∧
      (s.collideBroken).snu = s.snu ∧
      (s.collideBroken).rxu = s.rxu ∧
      (s.collideBroken).stc = s.stc ∧
      (s.collideBroken).atu = s.atu ∧
      (s.collideBroken).hpu = s.hpu := by
  and_intros <;> (simp only [State.collideBroken]; repeat' split) <;> simp

@[simp] theorem State.endBroken_frame (s : State) (kinds : List FrameKind) :
    (s.endBroken kinds).pending = s.pending ∧
      (s.endBroken kinds).resetLow = s.resetLow ∧
      (s.endBroken kinds).txa = s.txa ∧
      (s.endBroken kinds).ssu = s.ssu ∧
      (s.endBroken kinds).cru = s.cru ∧
      (s.endBroken kinds).bfm = s.bfm ∧
      (s.endBroken kinds).snu = s.snu ∧
      (s.endBroken kinds).rxu = s.rxu ∧
      (s.endBroken kinds).stc = s.stc ∧
      (s.endBroken kinds).atu = s.atu ∧
      (s.endBroken kinds).hpu = s.hpu := by
  and_intros <;> (simp only [State.endBroken]; repeat' split) <;> simp

@[simp] theorem State.takeBrokenHeader_frame (s : State) (h : MessageHeader) :
    (s.takeBrokenHeader h).pending = s.pending ∧
      (s.takeBrokenHeader h).resetLow = s.resetLow ∧
      (s.takeBrokenHeader h).ctu = s.ctu ∧
      (s.takeBrokenHeader h).txa = s.txa ∧
      (s.takeBrokenHeader h).ssu = s.ssu ∧
      (s.takeBrokenHeader h).cru = s.cru ∧
      (s.takeBrokenHeader h).bfm = s.bfm ∧
      (s.takeBrokenHeader h).snu = s.snu ∧
      (s.takeBrokenHeader h).stc = s.stc ∧
      (s.takeBrokenHeader h).atu = s.atu ∧
      (s.takeBrokenHeader h).hpu = s.hpu := by
  and_intros <;> (simp only [State.takeBrokenHeader]; repeat' split) <;> simp

end Sys2Proof.Machine
end

