-- ==== Sys2Proof/Laws/State.lean ====
section
/-! SUPPORT. What each update of one block writes, field by field. -/

namespace Sys2Proof.Machine

/-! ### Host Port -/

@[simp] theorem State.drive_hpu (s : State) (w : Word) :
    (s.drive w).hpu = { s.hpu with readData := w } := rfl

@[simp] theorem State.commandResult_hpu (s : State) (r : CommandResult) :
    (s.commandResult r).hpu = { s.hpu with commandResult := r.code } := rfl

@[simp] theorem State.setMisuse_hpu (s : State) :
    s.setMisuse.hpu = { s.hpu with windowMisuse := true } := rfl

@[simp] theorem State.onWrite_open {s : State} (h : s.resetLow = false) (f : State → State) :
    s.onWrite f = f s := by simp [State.onWrite, h]

@[simp] theorem State.onWrite_low {s : State} (h : s.resetLow = true) (f : State → State) :
    s.onWrite f = s := by simp [State.onWrite, h]

@[simp] theorem State.onRead_open {s : State} (h : s.resetLow = false) (f : State → State) :
    s.onRead f = f s := by simp [State.onRead, h]

@[simp] theorem State.onRead_low {s : State} (h : s.resetLow = true) (f : State → State) :
    s.onRead f = s.drive 0 := by simp [State.onRead, h]

@[simp] theorem State.onRail_open {s : State} (h : s.resetLow = false) (f : State → State) :
    s.onRail f = f s := by simp [State.onRail, h]

@[simp] theorem State.onRail_low {s : State} (h : s.resetLow = true) (f : State → State) :
    s.onRail f = s := by simp [State.onRail, h]

@[simp] theorem State.onReception_open {s : State} (h : s.resetLow = false)
    (hr : s.rif.reception.isSome = true) (f : State → State) : s.onReception f = f s := by
  simp [State.onReception, State.onRail, Rif.endsReception, h, hr]

theorem State.onReception_ends {s : State} (h : s.resetLow = false)
    (hr : s.rif.endsReception = true) (f : State → State) : s.onReception f = f s := by
  simp [State.onReception, State.onRail, h, hr]

/-- A frame end is taken exactly of a reception in assembly or of one that RESTART has broken off. -/
theorem Rif.endsReception_iff (r : Rif) :
    r.endsReception = true ↔ r.reception ≠ none ∨ ∃ b, r.broken = some (.reception b) := by
  cases r with
  | mk l i rec t d b =>
    rcases rec with _ | _ <;> rcases b with _ | _ | _ <;> simp [Rif.endsReception]

/-! ### Buffer Manager -/

@[simp] theorem State.setHandle_bfm (s : State) (h : Handle) (x : HandleState) :
    (s.setHandle h x).bfm = { s.bfm with table := s.bfm.table.set h x } := rfl

@[simp] theorem State.returnTx_bfm (s : State) (h : Handle) :
    (s.returnTx h).bfm =
      { s.bfm with table := s.bfm.table.set h .txFree, txFree := s.bfm.txFree ++ [h] } := rfl

@[simp] theorem State.returnRx_bfm (s : State) (h : Handle) :
    (s.returnRx h).bfm =
      { s.bfm with table := s.bfm.table.set h .rxFree, rxFree := s.bfm.rxFree ++ [h] } := rfl

@[simp] theorem State.writePayload_bfm (s : State) (h : Handle) (bytes : List Byte) :
    (s.writePayload h bytes).bfm =
      { s.bfm with mem := Memory.writeBytes s.bfm.mem (bufferAddress h 0) bytes } := rfl

/-- The table after one handle takes a state. -/
theorem table_set (t : Vector HandleState 128) (h k : Handle) (x : HandleState) :
    (t.set h x)[k] = if k = h then x else t[k] := by
  by_cases e : k = h
  · subst e; simp
  · have : (h : Nat) ≠ k := fun e' => e (Fin.ext e'.symm)
    simp [e, this]

theorem State.handle_setHandle (s : State) (h k : Handle) (x : HandleState) :
    (s.setHandle h x).handle k = if k = h then x else s.handle k := table_set _ _ _ _

theorem State.handle_returnTx (s : State) (h k : Handle) :
    (s.returnTx h).handle k = if k = h then .txFree else s.handle k := table_set _ _ _ _

theorem State.handle_returnRx (s : State) (h k : Handle) :
    (s.returnRx h).handle k = if k = h then .rxFree else s.handle k := table_set _ _ _ _

/-! ### Peer Table and Greet List -/

@[simp] theorem State.setPeer_peers (s : State) (p : StationId) (q : Peer) :
    (s.setPeer p q).ssu.peers = s.ssu.peers.set p q := rfl

@[simp] theorem State.setPeer_greetList (s : State) (p : StationId) (q : Peer) :
    (s.setPeer p q).ssu.greetList = s.ssu.greetList := rfl

/-- The records after one is written. -/
theorem peers_set (t : Vector Peer 32) (p k : StationId) (q : Peer) :
    (t.set p q)[k] = if k = p then q else t[k] := by
  by_cases e : k = p
  · subst e; simp
  · have : (p : Nat) ≠ k := fun e' => e (Fin.ext e'.symm)
    simp [e, this]

theorem State.peer_setPeer (s : State) (p k : StationId) (q : Peer) :
    (s.setPeer p q).peer k = if k = p then q else s.peer k := peers_set _ _ _ _

@[simp] theorem State.peer_setPeer_self (s : State) (p : StationId) (q : Peer) :
    (s.setPeer p q).peer p = q := by simp [State.peer_setPeer]

@[simp] theorem State.appendGreet_peers (s : State) (p : StationId) :
    (s.appendGreet p).ssu.peers = s.ssu.peers := by
  simp only [State.appendGreet]; split <;> rfl

@[simp] theorem State.appendGreet_greetList (s : State) (p : StationId) :
    (s.appendGreet p).ssu.greetList =
      if p ∈ s.ssu.greetList then s.ssu.greetList else s.ssu.greetList ++ [p] := by
  simp only [State.appendGreet]; split <;> rfl

@[simp] theorem State.removeGreet_peers (s : State) (p : StationId) :
    (s.removeGreet p).ssu.peers = s.ssu.peers := rfl

@[simp] theorem State.removeGreet_greetList (s : State) (p : StationId) :
    (s.removeGreet p).ssu.greetList = s.ssu.greetList.filter (· ≠ p) := rfl

@[simp] theorem State.greetToTail_peers (s : State) (p : StationId) :
    (s.greetToTail p).ssu.peers = s.ssu.peers := by
  simp only [State.greetToTail]; split <;> rfl

@[simp] theorem State.greetToTail_greetList (s : State) (p : StationId) :
    (s.greetToTail p).ssu.greetList =
      if p ∈ s.ssu.greetList then s.ssu.greetList.filter (· ≠ p) ++ [p] else s.ssu.greetList := by
  simp only [State.greetToTail]; split <;> rfl

/-! ### Credit Unit -/

@[simp] theorem State.evalDemand_list (s : State) : s.evalDemand.cru.list = s.cru.list := rfl

@[simp] theorem State.evalDemand_demand (s : State) :
    s.evalDemand.cru.demand = demandAfter s.cru.demand s.cru.list.length s.anyStarved := rfl

@[simp] theorem State.addCredit_list (s : State) (p : StationId) :
    (s.addCredit p).cru.list = if p ∈ s.cru.list then s.cru.list else s.cru.list ++ [p] := by
  simp only [State.addCredit]; split <;> rfl

@[simp] theorem State.dropCredit_list (s : State) (p : StationId) :
    (s.dropCredit p).cru.list = s.cru.list.filter (· ≠ p) := rfl

@[simp] theorem State.creditToTail_list (s : State) (p : StationId) :
    (s.creditToTail p).cru.list =
      if p ∈ s.cru.list then s.cru.list.filter (· ≠ p) ++ [p] else s.cru.list := by
  simp only [State.creditToTail]; split <;> rfl

/-! ### Send Unit -/

@[simp] theorem State.addCompletion_sendList (s : State) (e : SendEntry) (st : Status) (n : Nat) :
    (s.addCompletion e st n).snu.sendList = s.snu.sendList := rfl

@[simp] theorem State.addCompletion_completions (s : State) (e : SendEntry) (st : Status) (n : Nat) :
    (s.addCompletion e st n).snu.completions = s.snu.completions ++
      [{ tag := e.tag, dest := e.dest, handle := e.handle, status := st, attempts := n }] := rfl

@[simp] theorem State.entrySending_completions (s : State) (h : Handle) (seq : Byte) :
    (s.entrySending h seq).snu.completions = s.snu.completions := rfl

@[simp] theorem State.entryRetry_completions (s : State) (h : Handle) (counted : Bool) :
    (s.entryRetry h counted).snu.completions = s.snu.completions := rfl

@[simp] theorem State.entrySending_handles (s : State) (h : Handle) (seq : Byte) :
    (s.entrySending h seq).snu.sendList.map SendEntry.handle = s.snu.sendList.map SendEntry.handle := by
  simp only [State.entrySending, List.map_map]
  apply List.map_congr_left
  intro e _
  simp only [Function.comp]
  split <;> rfl

@[simp] theorem State.entryRetry_handles (s : State) (h : Handle) (counted : Bool) :
    (s.entryRetry h counted).snu.sendList.map SendEntry.handle =
      s.snu.sendList.map SendEntry.handle := by
  simp only [State.entryRetry, List.map_map]
  apply List.map_congr_left
  intro e _
  simp only [Function.comp]
  split <;> rfl

/-! ### Attention Unit -/

@[simp] theorem State.peerEvent_atu (s : State) (p : StationId) (st : PeerState) (why : Reason) :
    (s.peerEvent p st why).atu = { s.atu with peerEvents := foldEvent p st why s.atu.peerEvents } := rfl

@[simp] theorem State.handFault_peerEvents (s : State) (kind : FaultKind) (p : StationId)
    (frame : FrameKind) (value : Byte) :
    (s.handFault kind p frame value).atu.peerEvents = s.atu.peerEvents := rfl

@[simp] theorem State.handFault_enables (s : State) (kind : FaultKind) (p : StationId)
    (frame : FrameKind) (value : Byte) :
    (s.handFault kind p frame value).atu.enables = s.atu.enables := rfl

@[simp] theorem State.handFault_inService (s : State) (kind : FaultKind) (p : StationId)
    (frame : FrameKind) (value : Byte) :
    (s.handFault kind p frame value).atu.inService = s.atu.inService := rfl

/-- An empty Fault Record captures the fault (R166). -/
theorem State.handFault_captures (s : State) (kind : FaultKind) (p : StationId) (frame : FrameKind)
    (value : Byte) (h : s.atu.fault = none) :
    (s.handFault kind p frame value).atu.fault =
      some { kind := kind, peer := p, frame := frame, value := value, more := false } := by
  simp [State.handFault, h]

/-- A full Fault Record keeps its fields and sets MORE (R167). -/
theorem State.handFault_more (s : State) (kind : FaultKind) (p : StationId) (frame : FrameKind)
    (value : Byte) (f : FaultRecord) (h : s.atu.fault = some f) :
    (s.handFault kind p frame value).atu.fault = some { f with more := true } := by
  simp [State.handFault, h]

@[simp] theorem State.setInService_atu (s : State) (n : Fin 5) :
    (s.setInService n).atu = { s.atu with inService := s.atu.inService ||| sourceBit n } := rfl

@[simp] theorem State.clearInService_atu (s : State) (n : Fin 5) :
    (s.clearInService n).atu = { s.atu with inService := s.atu.inService &&& ~~~ sourceBit n } := rfl

/-! ### Rail Interface, Contention Unit, Transmit Arbiter, Station Controller -/

@[simp] theorem State.handReply_rif (s : State) (p : StationId) (status : ReplyStatus) :
    (s.handReply p status).rif = { s.rif with replyDue := some { peer := p, status := status } } := rfl

@[simp] theorem State.forgetVerdict_rxu (s : State) :
    s.forgetVerdict.rxu = { s.rxu with verdict := none } := rfl

/-- No verdict stands after a frame end that is no good MESSAGE's (R87). -/
@[simp] theorem State.dropVerdict_verdict (s : State) : s.dropVerdict.rxu.verdict = none := rfl

@[simp] theorem State.lineFree_rif (s : State) :
    s.lineFree.rif = { s.rif with line := .idle, idleCount := 1, reception := none, broken := none } := rfl

@[simp] theorem State.elapse_rif (s : State) (n : Nat) :
    (s.elapse n).rif =
      { s.rif with idleCount := min Config.listenTimeout (s.rif.idleCount + n) } := rfl

@[simp] theorem State.elapse_ctu (s : State) (n : Nat) :
    (s.elapse n).ctu =
      { s.ctu with slotClock := s.ctu.slotClock.map fun c => (c + n) % Config.windowBits } := rfl

@[simp] theorem State.elapseTo_rif (s : State) (n : Nat) :
    (s.elapseTo n).rif =
      { s.rif with
        idleCount := min Config.listenTimeout (s.rif.idleCount + (n - s.rif.idleCount)) } := rfl

@[simp] theorem State.elapseTo_ctu (s : State) (n : Nat) :
    (s.elapseTo n).ctu =
      { s.ctu with
        slotClock := s.ctu.slotClock.map fun c => (c + (n - s.rif.idleCount)) % Config.windowBits } :=
  rfl

@[simp] theorem State.beginWindow_ctu (s : State) :
    s.beginWindow.ctu =
      { s.ctu with
        slotClock := some 0
        slot := s.tier.map fun urgent =>
          (if urgent then 0 else 32) + slotIndex s.ctu.kind s.stc.sid s.ctu.lw } := rfl

@[simp] theorem State.transmit_rif (s : State) (f : Frame) :
    (s.transmit f).rif =
      { line := .busy, idleCount := 0, reception := none, transmit := some f, replyDue := none,
        broken := none } := rfl

@[simp] theorem State.transmit_ctu (s : State) (f : Frame) :
    (s.transmit f).ctu = { s.ctu with slotClock := none, slot := none } := rfl

@[simp] theorem State.takeOrdered_ctu (s : State) :
    s.takeOrdered.ctu = { s.ctu with kind := .ordered } := rfl

/-- A source that names a station becomes the last winner (R127). -/
theorem State.takeWinner_ctu (s : State) (src : Byte) (p : StationId) (h : stationOf src = some p) :
    (s.takeWinner src).ctu = { s.ctu with lw := p, lwKnown := true, kind := .rotation } := by
  simp [State.takeWinner, h]

/-- A source over 31 changes nothing in the Contention Unit (R127). -/
theorem State.takeWinner_none (s : State) (src : Byte) (h : stationOf src = none) :
    s.takeWinner src = s := by
  simp [State.takeWinner, h]

@[simp] theorem State.arbiterStarts_txa (s : State) (item : Item) (train : Nat) :
    (s.arbiterStarts item train).txa =
      { exchange := .transmitting, train := train, gap := false, item := some item } := rfl

@[simp] theorem State.arbiterIdle_txa (s : State) : s.arbiterIdle.txa = Txa.clear := rfl

@[simp] theorem State.setLocked_stc (s : State) :
    s.setLocked.stc = { s.stc with profileLocked := true } := rfl

@[simp] theorem State.endListening_stc (s : State) :
    s.endListening.stc =
      if s.stc.state = .listening then { s.stc with state := .announcing, pendingAnnounce := true }
      else s.stc := by
  simp only [State.endListening]; split <;> rfl

@[simp] theorem State.enterLeaving_stc (s : State) :
    s.enterLeaving.stc = { s.stc with state := .leaving, leaveMark := false, pendingLeave := true } := by
  simp [State.enterLeaving]

@[simp] theorem State.enterLeaving_cru (s : State) : s.enterLeaving.cru = Cru.clear := by
  simp [State.enterLeaving]

@[simp] theorem State.enterLeaving_greetList (s : State) : s.enterLeaving.ssu.greetList = [] := by
  simp [State.enterLeaving]

/-- The identity of a station's own source byte (R181). -/
@[simp] theorem stationOf_byte (p : StationId) : stationOf p.byte = some p := by
  have h : p.val < 32 := p.isLt
  simp [stationOf, StationId.byte, Nat.mod_eq_of_lt (show p.val < 256 by omega), h]

end Sys2Proof.Machine
end

