-- ==== Sys2Proof/Laws/Completion.lean ====
section
/-! SUPPORT. Everything that completing entries does (R82): which entries leave, which records join, which
handles return. -/

namespace Sys2Proof.Machine

variable (cause : SendEntry → Option (Status × Nat))

@[simp] theorem completeEntry_sendList (s : State) (e : SendEntry) (st : Status) (n : Nat) :
    (s.completeEntry e st n).snu.sendList = s.snu.sendList := by
  simp only [State.completeEntry]; split <;> simp

@[simp] theorem completeEntry_bfm (s : State) (e : SendEntry) (st : Status) (n : Nat) :
    (s.completeEntry e st n).bfm = (s.returnTx e.handle).bfm := by
  simp only [State.completeEntry]; split <;> simp

@[simp] theorem completeStep_sendList (s : State) (e : SendEntry) :
    (completeStep cause s e).snu.sendList = s.snu.sendList := by
  simp only [completeStep]; split <;> simp

theorem completeStep_completions (s : State) (e : SendEntry) :
    (completeStep cause s e).snu.completions = s.snu.completions ++ recordsOf cause e := by
  simp only [completeStep, recordsOf]
  cases h : cause e with
  | none => simp
  | some c =>
    obtain ⟨st, n⟩ := c
    simp only [State.completeEntry]
    by_cases q : e.quiet = true ∧ st = .delivered
    · simp [q]
    · simp only [if_neg q, State.addCompletion_completions, State.returnTx_frame]

theorem completeStep_bfm (s : State) (e : SendEntry) :
    (completeStep cause s e).bfm =
      if (cause e).isSome = true then (s.returnTx e.handle).bfm else s.bfm := by
  simp only [completeStep]
  split <;> simp [*]

@[simp] theorem completeFold_sendList (l : List SendEntry) (s : State) :
    (l.foldl (completeStep cause) s).snu.sendList = s.snu.sendList := by
  induction l generalizing s with
  | nil => rfl
  | cons e l ih => simp [ih]

theorem completeFold_completions (l : List SendEntry) (s : State) :
    (l.foldl (completeStep cause) s).snu.completions = s.snu.completions ++ l.flatMap (recordsOf cause) := by
  induction l generalizing s with
  | nil => simp
  | cons e l ih => simp [ih, completeStep_completions]

theorem completeFold_free (l : List SendEntry) (s : State) :
    (l.foldl (completeStep cause) s).bfm.txFree = s.bfm.txFree ++ handlesOf cause l ∧
      (l.foldl (completeStep cause) s).bfm.rxFree = s.bfm.rxFree ∧
      (l.foldl (completeStep cause) s).bfm.winsel = s.bfm.winsel ∧
      (l.foldl (completeStep cause) s).bfm.mem = s.bfm.mem := by
  induction l generalizing s with
  | nil => simp [handlesOf]
  | cons e l ih =>
    simp only [List.foldl_cons]
    obtain ⟨h1, h2, h3, h4⟩ := ih (completeStep cause s e)
    rw [h1, h2, h3, h4, completeStep_bfm]
    by_cases hc : (cause e).isSome = true
    · simp [hc, handlesOf]
    · simp [hc, handlesOf]

theorem completeFold_handle (l : List SendEntry) (s : State) (k : Handle) :
    (l.foldl (completeStep cause) s).handle k = if k ∈ handlesOf cause l then .txFree else s.handle k := by
  induction l generalizing s with
  | nil => simp [handlesOf]
  | cons e l ih =>
    have hs : (completeStep cause s e).handle k =
        if (cause e).isSome = true ∧ k = e.handle then .txFree else s.handle k := by
      show (completeStep cause s e).bfm.table[k] = _
      rw [completeStep_bfm]
      by_cases hc : (cause e).isSome = true
      · simp only [hc, if_true, true_and]
        exact State.handle_returnTx s e.handle k
      · simp only [hc, if_false, false_and, Bool.false_eq_true]; rfl
    simp only [List.foldl_cons]
    rw [ih, hs]
    by_cases hc : (cause e).isSome = true
    · have : handlesOf cause (e :: l) = e.handle :: handlesOf cause l := by simp [handlesOf, hc]
      rw [this]
      by_cases h1 : k ∈ handlesOf cause l <;> by_cases h2 : k = e.handle <;> simp [hc, h1, h2]
    · have : handlesOf cause (e :: l) = handlesOf cause l := by simp [handlesOf, hc]
      rw [this]
      simp [hc]

/-- The entries that a cause does not complete stay, in their order (R82). -/
@[simp] theorem State.completeWhere_sendList (s : State) :
    (s.completeWhere cause).snu.sendList = s.snu.sendList.filter fun e => (cause e).isNone := by
  rw [State.completeWhere_eq, completeFold_sendList]

/-- The records of the completed entries join the tail in list order (R82). -/
theorem State.completeWhere_completions (s : State) :
    (s.completeWhere cause).snu.completions =
      s.snu.completions ++ s.snu.sendList.flatMap (recordsOf cause) := by
  rw [State.completeWhere_eq, completeFold_completions]

/-- The handles of the completed entries join the TX Free List in list order (R9). -/
theorem State.completeWhere_txFree (s : State) :
    (s.completeWhere cause).bfm.txFree = s.bfm.txFree ++ handlesOf cause s.snu.sendList := by
  rw [State.completeWhere_eq, (completeFold_free cause _ _).1]

@[simp] theorem State.completeWhere_bfmRest (s : State) :
    (s.completeWhere cause).bfm.rxFree = s.bfm.rxFree ∧
      (s.completeWhere cause).bfm.winsel = s.bfm.winsel ∧
      (s.completeWhere cause).bfm.mem = s.bfm.mem := by
  rw [State.completeWhere_eq]
  exact (completeFold_free cause _ _).2

/-- A completed entry's handle is TX_FREE and every other handle keeps its state (R9). -/
theorem State.completeWhere_handle (s : State) (k : Handle) :
    (s.completeWhere cause).handle k =
      if k ∈ handlesOf cause s.snu.sendList then .txFree else s.handle k := by
  rw [State.completeWhere_eq, completeFold_handle]
  rfl

theorem recordsOf_length (e : SendEntry) :
    (recordsOf cause e).length ≤ if (cause e).isSome = true then 1 else 0 := by
  simp only [recordsOf]
  split
  · split <;> simp [*]
  · simp

/-- A completion moves an entry that is counted already: the budget never rises (R66). -/
theorem State.completeWhere_budget (s : State) :
    (s.completeWhere cause).snu.sendList.length + (s.completeWhere cause).snu.completions.length ≤
      s.snu.sendList.length + s.snu.completions.length := by
  rw [State.completeWhere_sendList, State.completeWhere_completions]
  generalize s.snu.sendList = l
  generalize s.snu.completions = c
  induction l with
  | nil => simp
  | cons e l ih =>
    have := recordsOf_length cause e
    by_cases hc : (cause e).isSome = true
    · have hn : (cause e).isNone = false := by cases h : cause e <;> simp_all
      simp only [hc, if_true] at this
      simp only [List.filter_cons, hn, List.flatMap_cons, List.length_append, List.length_cons] at ih ⊢
      simp only [Bool.false_eq_true, if_false]
      omega
    · have hn : (cause e).isNone = true := by cases h : cause e <;> simp_all
      simp only [hc, if_false, Bool.false_eq_true] at this
      simp only [List.filter_cons, hn, List.flatMap_cons, List.length_append, List.length_cons, if_true] at ih ⊢
      omega

end Sys2Proof.Machine
end

