-- ==== Sys2Proof/Laws/Sessions.lean ====
section
/-! SUPPORT. Each shared operation equals the effect that Effects.lean writes out field by field: no later
proof unfolds an operation to see what it does. -/

namespace Sys2Proof.Machine

/-! ### Completions -/

/-- The table once handles have been returned. -/
theorem Bfm.freed_table (b : Bfm) (l : List Handle) (k : Handle) :
    (b.freed l).table[k] = if k ∈ l then .txFree else b.table[k] := by
  simp only [Bfm.freed, Fin.getElem_fin, Vector.getElem_ofFn]

@[simp] theorem Bfm.freed_rest (b : Bfm) (l : List Handle) :
    (b.freed l).txFree = b.txFree ++ l ∧ (b.freed l).rxFree = b.rxFree ∧
      (b.freed l).winsel = b.winsel ∧ (b.freed l).mem = b.mem := by
  simp only [Bfm.freed, and_self]

/-- Two Buffer Managers agree when their fields do. -/
theorem Bfm.eq_of {a b : Bfm} (ht : ∀ k : Handle, a.table[k] = b.table[k]) (h1 : a.txFree = b.txFree)
    (h2 : a.rxFree = b.rxFree) (h3 : a.winsel = b.winsel) (h4 : a.mem = b.mem) : a = b := by
  have : a.table = b.table := Vector.ext fun i hi => ht ⟨i, hi⟩
  cases a; cases b
  simp_all

/-- Two states agree when their blocks do. -/
theorem State.eq_of {s t : State} (h1 : s.pending = t.pending) (h2 : s.resetLow = t.resetLow)
    (h3 : s.rif = t.rif) (h4 : s.ctu = t.ctu) (h5 : s.txa = t.txa) (h6 : s.ssu = t.ssu)
    (h7 : s.cru = t.cru) (h8 : s.bfm = t.bfm) (h9 : s.snu = t.snu) (h10 : s.rxu = t.rxu)
    (h11 : s.stc = t.stc) (h12 : s.atu = t.atu) (h13 : s.hpu = t.hpu) : s = t := by
  cases s; cases t
  simp_all

/-- Completing by a cause is the effect that R82 gives. -/
theorem State.completeWhere_completed (s : State) (cause : SendEntry → Option (Status × Nat)) :
    s.completeWhere cause = s.completed cause := by
  apply State.eq_of
  case h8 =>
    refine Bfm.eq_of (fun k => ?_) ?_ ?_ ?_ ?_
    · exact (State.completeWhere_handle cause s k).trans (Bfm.freed_table _ _ _).symm
    · simp only [State.completed, Bfm.freed_rest, State.completeWhere_txFree]
    all_goals simp only [State.completed, Bfm.freed_rest, State.completeWhere_bfmRest]
  case h9 =>
    have h1 := State.completeWhere_sendList cause s
    have h2 := State.completeWhere_completions cause s
    show (s.completeWhere cause).snu = s.snu.completed cause
    generalize (s.completeWhere cause).snu = u at *
    cases u
    simp_all [Snu.completed]
  all_goals simp [State.completed]

/-- Causes that agree on the Send List complete the same entries. -/
theorem State.completed_congr (s : State) {f g : SendEntry → Option (Status × Nat)}
    (h : ∀ e ∈ s.snu.sendList, f e = g e) : s.completed f = s.completed g := by
  have h1 : (s.snu.sendList.filter fun e => (f e).isNone) = s.snu.sendList.filter fun e => (g e).isNone :=
    List.filter_congr fun e he => by rw [h e he]
  have h2 : s.snu.sendList.flatMap (recordsOf f) = s.snu.sendList.flatMap (recordsOf g) := by
    have : ∀ e ∈ s.snu.sendList, recordsOf f e = recordsOf g e := fun e he => by
      simp only [recordsOf, h e he]
    rw [List.flatMap_def, List.flatMap_def, List.map_congr_left this]
  have h3 : handlesOf f s.snu.sendList = handlesOf g s.snu.sendList := by
    unfold handlesOf
    rw [List.filter_congr fun e he => by rw [h e he]]
  simp only [State.completed, Snu.completed, h1, h2, h3]

/-- A cause of no entry changes nothing. -/
theorem State.completed_none (s : State) : s.completed (fun _ => none) = s := by
  have h : handlesOf (fun _ => none) s.snu.sendList = [] := by simp [handlesOf]
  have hb : s.bfm.freed [] = s.bfm :=
    Bfm.eq_of (fun k => by rw [Bfm.freed_table]; simp) (by simp) (by simp) (by simp) (by simp)
  have hu : s.snu.completed (fun _ => none) = s.snu := by
    have h1 : (s.snu.sendList.filter fun _ => (none : Option (Status × Nat)).isNone) = s.snu.sendList := by
      simp
    have h2 : s.snu.sendList.flatMap (recordsOf fun _ => none) = [] := by
      rw [List.flatMap_eq_nil_iff]
      intro e _
      rfl
    unfold Snu.completed
    rw [h1, h2, List.append_nil]
  unfold State.completed
  rw [h, hb, hu]

theorem SendEntry.noticeAttempts_count (e : SendEntry) : e.noticeAttempts = noticeCount e := rfl

theorem restartCause_sentReset (p : StationId) : restartCause p = sentReset p := by
  funext e
  unfold restartCause sentReset
  cases h : e.phase <;> simp [SendEntry.noticeAttempts_count]

/-! ### Session changes -/

/-- Demand mode evaluated is the Credit Unit's mode over the records (R57, R59). -/
theorem State.evalDemand_evaluated (s : State) :
    s.evalDemand = { s with cru := s.cru.evaluated s.cru.list s.ssu.peers } := rfl

theorem State.appendGreet_eq (s : State) (p : StationId) :
    s.appendGreet p =
      { s with
        ssu :=
          { s.ssu with
            greetList := if p ∈ s.ssu.greetList then s.ssu.greetList else s.ssu.greetList ++ [p] } } := by
  unfold State.appendGreet
  split <;> rfl

theorem State.addCredit_eq (s : State) (p : StationId) :
    s.addCredit p =
      { s with
        cru := s.cru.evaluated (if p ∈ s.cru.list then s.cru.list else s.cru.list ++ [p]) s.ssu.peers } := by
  unfold State.addCredit
  split <;> rfl

theorem State.creditToTail_eq (s : State) (p : StationId) (h : p ∈ s.cru.list) :
    s.creditToTail p =
      { s with cru := s.cru.evaluated (s.cru.list.filter (· ≠ p) ++ [p]) s.ssu.peers } := by
  unfold State.creditToTail
  rw [if_pos h]
  rfl

theorem State.dropCredit_eq (s : State) (p : StationId) :
    s.dropCredit p = { s with cru := s.cru.evaluated (s.cru.list.filter (· ≠ p)) s.ssu.peers } := rfl

/-- A GREET owed to a peer that was not OPEN (R26). -/
theorem State.greetOwed_notOpen (s : State) (p : StationId) (why : Reason) (notice : Bool)
    (h : (s.peer p).state ≠ .isOpen) : s.greetOwed p why notice = s.greetNow p why := by
  unfold State.greetOwed State.greetNow
  simp only [if_neg h, State.appendGreet_eq]
  rfl

/-- A GREET owed to an OPEN peer with the RESTART notice (R26, R41). -/
theorem State.greetOwed_restart (s : State) (p : StationId) (why : Reason)
    (h : (s.peer p).state = .isOpen) : s.greetOwed p why true = s.sessionRestarts p why := by
  unfold State.greetOwed State.sessionRestarts State.sessionEnds
  simp only [if_pos h, State.appendGreet_eq, State.completeWhere_completed, restartCause_sentReset]
  rfl

/-- A GREET owed to an OPEN peer with no notice (R34). -/
theorem State.greetOwed_quiet (s : State) (p : StationId) (why : Reason)
    (h : (s.peer p).state = .isOpen) :
    s.greetOwed p why false = s.sessionEnds p (s.peer p).owed true why fun _ => none := by
  unfold State.greetOwed State.sessionEnds
  simp only [if_pos h, State.appendGreet_eq, State.completed_none]
  rfl

/-- An OPEN peer becomes LOST (R37, R42, R79, R81). -/
theorem State.becomeLost_open (s : State) (p : StationId) (why : Reason) (named : Option Handle)
    (h : (s.peer p).state = .isOpen) :
    s.becomeLost p why named =
      s.sessionEnds p ((s.peer p).ended .lost (s.peer p).mySess (s.peer p).ctlAttempts) false why
        (lostCause p named) := by
  unfold State.becomeLost State.sessionEnds
  simp only [if_pos h, State.completeWhere_completed]
  rfl

/-- A peer that is not OPEN becomes LOST (R37, R81). -/
theorem State.becomeLost_notOpen (s : State) (p : StationId) (why : Reason) (named : Option Handle)
    (h : (s.peer p).state ≠ .isOpen) :
    s.becomeLost p why named =
      ({ s with
          ssu :=
            s.ssu.updated p ((s.peer p).ended .lost (s.peer p).mySess (s.peer p).ctlAttempts) false
          atu := s.atu.told p .lost why } : State).completed (lostCause p named) := by
  unfold State.becomeLost
  simp only [if_neg h, State.completeWhere_completed]
  rfl

/-- A LEAVE from an OPEN peer (R40). -/
theorem State.peerLeft_open (s : State) (p : StationId) (h : (s.peer p).state = .isOpen) :
    s.peerLeft p =
      s.sessionEnds p ((s.peer p).ended .absent (s.peer p).mySess 0) false .left (leftCause p) := by
  unfold State.peerLeft State.sessionEnds
  simp only [State.completeWhere_completed, h]
  rfl

/-- A LEAVE from a peer that is GREETING or LOST (R40). -/
theorem State.peerLeft_notOpen (s : State) (p : StationId) (h : (s.peer p).state ≠ .isOpen)
    (ha : (s.peer p).state ≠ .absent) :
    s.peerLeft p =
      { s.sessionEnds p ((s.peer p).ended .absent (s.peer p).mySess 0) false .left (leftCause p) with
        cru := s.cru } := by
  unfold State.peerLeft State.sessionEnds
  simp only [if_neg h, if_neg ha, State.completeWhere_completed]
  rfl

/-- Being heard (R38). -/
theorem State.hear_dead (s : State) (p : StationId)
    (h : (s.peer p).state = .absent ∨ (s.peer p).state = .lost) : s.hear p = s.greetNow p .heard := by
  unfold State.hear
  rw [if_pos h, State.greetOwed_notOpen]
  rcases h with h | h <;> rw [h] <;> decide

theorem State.hear_alive (s : State) (p : StationId)
    (h : ¬ ((s.peer p).state = .absent ∨ (s.peer p).state = .lost)) : s.hear p = s := by
  unfold State.hear
  rw [if_neg h]

/-- A station that is heard (R38). -/
theorem State.hear_heardFrom (s : State) (p : StationId) : s.hear p = s.heardFrom p := by
  unfold State.heardFrom
  split
  · exact State.hear_dead s p ‹_›
  · exact State.hear_alive s p ‹_›

/-- A protocol fault in a frame from an OPEN peer (R35). -/
theorem State.protocolFault_open (s : State) (p : StationId) (h : (s.peer p).state = .isOpen) :
    s.protocolFault p = s.sessionRestarts p .protocolFault := by
  unfold State.protocolFault
  rw [if_pos h, State.greetOwed_restart s p _ h]

/-- A fault handed over (R166, R167). -/
theorem State.handFault_faulted (s : State) (kind : FaultKind) (p : StationId) (frame : FrameKind)
    (value : Byte) : s.handFault kind p frame value = s.faulted kind p frame value := by
  unfold State.handFault State.faulted
  cases s.atu.fault <;> rfl

theorem State.peerEvent_told (s : State) (p : StationId) (st : PeerState) (why : Reason) :
    s.peerEvent p st why = { s with atu := s.atu.told p st why } := rfl

/-- The answer to a GREET at the start of its reply (R31). -/
theorem State.answerGreet_eq (s : State) (p : StationId) (sess grant : Byte) :
    s.answerGreet p sess grant =
      let opened : Peer :=
        { (s.peer p).ended .isOpen ((s.peer p).mySess + 1) 0 with
          theirSess := some sess, creditsHeld := min 15 grant.toNat }
      let u := s.sessionEnds p opened false .greeted (sentReset p)
      { u with cru := if (s.peer p).state = .isOpen then u.cru else s.cru } := by
  unfold State.answerGreet State.sessionEnds
  by_cases h : (s.peer p).state = .isOpen
  · simp only [if_pos h, State.completeWhere_completed, restartCause_sentReset]
    rfl
  · simp only [if_neg h, State.completeWhere_completed, restartCause_sentReset]
    rfl

/-- The session opens at the greeter (R29). -/
theorem State.openSession_eq (s : State) (p : StationId) (sess grant : Byte) :
    s.openSession p sess grant =
      let opened : Peer :=
        { s.peer p with
          state := .isOpen, theirSess := some sess, creditsHeld := min 15 grant.toNat, ctlAttempts := 0 }
      { s with
        ssu := s.ssu.updated p opened false
        cru :=
          if opened.releasedTotal = opened.ackedTotal then s.cru
          else
            s.cru.evaluated (if p ∈ s.cru.list then s.cru.list else s.cru.list ++ [p])
              (s.ssu.peers.set p opened)
        atu := s.atu.told p .isOpen .answered } := by
  unfold State.openSession
  by_cases h : (s.peer p).releasedTotal = (s.peer p).ackedTotal
  · simp only [if_pos h]
    rfl
  · simp only [if_neg h, State.addCredit_eq]
    rfl

/-- An ACCEPT in the session of its frame (R53). -/
theorem State.acceptTotal_acknowledged (s : State) (p : StationId) (c : Carried)
    (h1 : (s.peer p).state = .isOpen) (h2 : (s.peer p).mySess = c.srcSess)
    (h3 : (s.peer p).theirSess = some c.dstSess) : s.acceptTotal p c = s.acknowledged p c := by
  have hc : (s.peer p).carries c = true := by simp [Peer.carries, h1, h2, h3]
  unfold State.acceptTotal State.acknowledged
  by_cases h : c.total = (s.peer p).releasedTotal
  · simp only [hc, h, if_true]
    rfl
  · simp only [hc, h, if_true, if_false]
    rfl

/-! ### Exchanges, trains and the station -/

/-- An ACCEPT for a frame of another session (R53, log 14). -/
theorem State.acceptTotal_cleared (s : State) (p : StationId) (c : Carried)
    (h : ¬ ((s.peer p).state = .isOpen ∧ (s.peer p).mySess = c.srcSess ∧
      (s.peer p).theirSess = some c.dstSess)) : s.acceptTotal p c = s.ctlCleared p := by
  have hc : (s.peer p).carries c = false := by
    simpa [Peer.carries, and_assoc] using h
  unfold State.acceptTotal State.ctlCleared
  simp only [hc, Bool.false_eq_true, if_false]
  rfl

/-- STALE and NO_CREDIT leave a record that is not OPEN as it is (R34). -/
theorem State.refusedReply_notOpen (s : State) (p : StationId) (why : Reason) (notice : Bool)
    (h : (s.peer p).state ≠ .isOpen) : s.refusedReply p why notice = s := by
  unfold State.refusedReply
  rw [if_neg h]

/-- The work that a frame start does (R28, R47, R60, R73, R132). -/
theorem State.startWork_starts (s : State) (w : Work) (n : Nat) : s.startWork w n = s.starts w n := by
  unfold State.startWork State.starts
  cases w with
  | announce => rfl
  | leave => rfl
  | greet p => rfl
  | credit p => rfl
  | message e =>
    by_cases h : e.phase = .waiting
    · have hb : (e.phase == Phase.waiting) = true := by simp [h]
      simp only [h, if_true]
      rfl
    · have hb : (e.phase == Phase.waiting) = false := by simp [h]
      simp only [h, hb, if_false]
      rfl

/-- The decision on the train (R136, R138). -/
theorem State.decideTrain_over (s : State) (answered : Bool) :
    s.decideTrain answered = s.exchangeOver answered := by
  unfold State.decideTrain State.exchangeOver
  have : (s.choose.isSome = true) ↔ s.choose ≠ none := by
    cases s.choose <;> simp
  simp only [this]
  split <;> rfl

/-- The entry into LEAVING (R149). -/
theorem State.enterLeaving_now (s : State) : s.enterLeaving = s.leavingNow := rfl

/-- An idle period that goes on to its n-th bit time (R107, R123). -/
theorem State.elapseTo_idleAt (s : State) (n : Nat) (h : s.rif.idleCount ≤ n) (hn : n ≤ 1024) :
    s.elapseTo n = s.idleAt n := by
  unfold State.elapseTo State.elapse State.idleAt
  have : min Config.listenTimeout (s.rif.idleCount + (n - s.rif.idleCount)) = n := by
    simp only [Config.listenTimeout]
    omega
  rw [this]

/-- The cause of a LOST notice that names its entry (R79). -/
theorem lostCause_eq (p : StationId) (h : Handle) :
    lostCause p (some h) = fun e =>
      if e.dest = p then
        some (if e.handle = h then .retryExhausted else .unreachable, noticeCount e)
      else none := by
  funext e
  unfold lostCause
  by_cases he : e.handle = h
  · simp [he, SendEntry.noticeAttempts_count]
  · have : ¬ some h = some e.handle := fun x => he (Option.some.inj x).symm
    simp [he, Ne.symm he, SendEntry.noticeAttempts_count]

theorem lostCause_none (p : StationId) :
    lostCause p none = fun e => if e.dest = p then some (.unreachable, noticeCount e) else none := by
  funext e
  simp [lostCause, SendEntry.noticeAttempts_count]

theorem leftCause_eq (p : StationId) :
    leftCause p = fun e => if e.dest = p then some (.peerLeft, noticeCount e) else none := rfl

theorem entryCause_counted (h : Handle) (st : Status) : entryCause h st true = exchangeEnds h st := rfl

end Sys2Proof.Machine
end

