-- ==== Sys2Proof/Laws/Ends.lean ====
section
/-! SUPPORT. What the end of a reception and the end of an exchange do, in the words of Effects.lean: the
equations that the statements about frame ends, replies and timeouts are read from. -/

namespace Sys2Proof.Machine

/-! ### Frames of the effects -/

/-- Completing entries changes the Send Unit and the Buffer Manager alone. -/
theorem State.completed_frame (s : State) (cause : SendEntry → Option (Status × Nat)) :
    (s.completed cause).pending = s.pending ∧ (s.completed cause).resetLow = s.resetLow ∧
      (s.completed cause).rif = s.rif ∧ (s.completed cause).ctu = s.ctu ∧
      (s.completed cause).txa = s.txa ∧ (s.completed cause).ssu = s.ssu ∧
      (s.completed cause).cru = s.cru ∧ (s.completed cause).rxu = s.rxu ∧
      (s.completed cause).stc = s.stc ∧ (s.completed cause).atu = s.atu ∧
      (s.completed cause).hpu = s.hpu := by
  simp only [State.completed, and_self]

theorem State.completed_peer (s : State) (cause : SendEntry → Option (Status × Nat)) (p : StationId) :
    (s.completed cause).peer p = s.peer p := by
  unfold State.peer
  rw [(s.completed_frame cause).2.2.2.2.2.1]

/-- The end of a session leaves the line, the arbiter, the receiver and the station state. -/
theorem State.sessionEnds_frame (s : State) (p : StationId) (q : Peer) (listed : Bool) (why : Reason)
    (cause : SendEntry → Option (Status × Nat)) :
    (s.sessionEnds p q listed why cause).rif = s.rif ∧ (s.sessionEnds p q listed why cause).ctu = s.ctu ∧
      (s.sessionEnds p q listed why cause).txa = s.txa ∧
      (s.sessionEnds p q listed why cause).rxu = s.rxu ∧
      (s.sessionEnds p q listed why cause).stc = s.stc ∧
      (s.sessionEnds p q listed why cause).hpu = s.hpu := by
  simp only [State.sessionEnds, State.completed, and_self]

/-- The end of a session replaces the record of its peer and no other. -/
theorem State.sessionEnds_peer (s : State) (p : StationId) (q : Peer) (listed : Bool) (why : Reason)
    (cause : SendEntry → Option (Status × Nat)) (k : StationId) :
    (s.sessionEnds p q listed why cause).peer k = if k = p then q else s.peer k := by
  unfold State.sessionEnds
  rw [State.completed_peer]
  exact peers_set _ _ _ _

theorem State.sessionRestarts_stc (s : State) (p : StationId) (why : Reason) :
    (s.sessionRestarts p why).stc = s.stc := (s.sessionEnds_frame p _ true why _).2.2.2.2.1

theorem State.sessionRestarts_rxu (s : State) (p : StationId) (why : Reason) :
    (s.sessionRestarts p why).rxu = s.rxu := (s.sessionEnds_frame p _ true why _).2.2.2.1

theorem State.sessionRestarts_peer (s : State) (p : StationId) (why : Reason) :
    (s.sessionRestarts p why).peer p = (s.peer p).owed := by
  unfold State.sessionRestarts
  rw [State.sessionEnds_peer, if_pos rfl]

/-! ### Waiting to leave -/

theorem State.settled_iff (s : State) :
    s.settled = true ↔
      s.txa.exchange = .idle ∧ s.rif.reception = none ∧ s.rif.replyDue = none ∧ s.rif.transmit = none := by
  unfold State.settled
  simp [and_assoc]

/-- With the leave mark set in ONLINE and nothing of its own on the line, the station enters LEAVING (R148). -/
theorem State.settleLeave_now (s : State) (h1 : s.stc.state = .online) (h2 : s.stc.leaveMark = true)
    (h3 : s.txa.exchange = .idle) (h4 : s.rif.reception = none) (h5 : s.rif.replyDue = none)
    (h6 : s.rif.transmit = none) : s.settleLeave = s.leavingNow := by
  unfold State.settleLeave
  rw [if_pos ⟨h1, h2, s.settled_iff.2 ⟨h3, h4, h5, h6⟩⟩, State.enterLeaving_now]

/-- With something of its own on the line it goes on waiting (R148). -/
theorem State.settleLeave_waits (s : State)
    (h : ¬ (s.txa.exchange = .idle ∧ s.rif.reception = none ∧ s.rif.replyDue = none ∧
      s.rif.transmit = none)) : s.settleLeave = s := by
  unfold State.settleLeave
  rw [if_neg]
  rintro ⟨_, _, h'⟩
  exact h (s.settled_iff.1 h')

theorem State.settleLeave_unmarked (s : State) (h : s.stc.leaveMark = false) : s.settleLeave = s := by
  unfold State.settleLeave
  rw [if_neg]
  rintro ⟨_, h', _⟩
  rw [h] at h'
  cases h'

/-! ### Ends of exchanges -/

/-- An exchange ends with its outcome and the decision on the train (R133, R136). -/
theorem State.finishExchange_over (s : State) (item : Item) (r : Option ReplyStatus)
    (hi : s.txa.item = some item) (hm : (s.applyOutcome item r).stc.leaveMark = false) :
    s.finishExchange r = (s.applyOutcome item r).exchangeOver (answers item r) := by
  unfold State.finishExchange
  rw [hi]
  dsimp only
  rw [State.settleLeave_unmarked _ (by exact hm), State.decideTrain_over]
  rfl

/-- With the leave mark set and the station's part settled, LEAVING is entered first (R148). -/
theorem State.finishExchange_leaves (s t : State) (item : Item) (r : Option ReplyStatus)
    (hi : s.txa.item = some item) (e : s.applyOutcome item r = t) (h1 : t.stc.state = .online)
    (h2 : t.stc.leaveMark = true) (h4 : t.rif.reception = none) (h5 : t.rif.replyDue = none)
    (h6 : t.rif.transmit = none) :
    s.finishExchange r = t.leavingNow.exchangeOver (answers item r) := by
  unfold State.finishExchange
  rw [hi]
  dsimp only
  rw [e, State.settleLeave_now ({ t with txa := { t.txa with exchange := .idle, item := none } } : State)
    h1 h2 rfl h4 h5 h6, State.decideTrain_over]
  rfl

theorem State.endAwait_awaiting (s : State) (r : Option ReplyStatus)
    (h : s.txa.exchange = .awaitReply) : s.endAwait r = s.finishExchange r := by
  unfold State.endAwait
  rw [if_pos h]

theorem State.endAwait_none (s : State) (r : Option ReplyStatus) (h : s.txa.exchange ≠ .awaitReply)
    (hm : s.stc.leaveMark = false) : s.endAwait r = s := by
  unfold State.endAwait
  rw [if_neg h, State.settleLeave_unmarked _ hm]

theorem reachesLimit_below (limit : Option Nat) (n : Nat)
    (h : limit = none ∨ ∃ l, limit = some l ∧ n < l) : reachesLimit limit n = false := by
  rcases h with rfl | ⟨l, rfl, h⟩
  · rfl
  · simp [reachesLimit]
    exact h

theorem reachesLimit_reached (l n : Nat) (h : l ≤ n) : reachesLimit (some l) n = true := by
  simp [reachesLimit, h]

/-- The one entry that holds a handle and is SENDING is the one found. -/
theorem State.sendingEntry_of_mem (s : State) (h : Handle) (e : SendEntry) (he : e ∈ s.snu.sendList)
    (hh : e.handle = h) (hp : e.phase = .sending) (hu : ∀ f ∈ s.snu.sendList, f.handle = h → f = e) :
    s.sendingEntry h = some e := by
  unfold State.sendingEntry
  cases hf : s.snu.sendList.find? fun e => decide (e.handle = h ∧ e.phase = .sending) with
  | none =>
    have := List.find?_eq_none.1 hf e he
    simp [hh, hp] at this
  | some f =>
    have h1 := List.find?_some hf
    have h2 := List.mem_of_find?_eq_some hf
    simp only [decide_eq_true_eq] at h1
    rw [hu f h2 h1.1]

/-! ### Ends of receptions -/

theorem stationOf_iff (b : Byte) (p : StationId) : stationOf b = some p ↔ b = p.byte := by
  constructor
  · intro h
    unfold stationOf at h
    split at h
    · cases h
      apply BitVec.eq_of_toNat_eq
      simp [StationId.byte]
    · cases h
  · rintro rfl
    exact stationOf_byte p

theorem State.takeWinner_wonBy (s : State) (p : StationId) : s.takeWinner p.byte = s.wonBy p := by
  unfold State.takeWinner
  rw [stationOf_byte]
  rfl

theorem State.isDuplicate_other (s : State) (p : StationId) (h : p ≠ s.stc.sid) :
    s.isDuplicate p.byte = false := by
  unfold State.isDuplicate
  rw [stationOf_byte]
  have : (some p == some s.stc.sid) = false := by simpa using h
  rw [this]
  rfl

/-- A good REPLY in ONLINE from another station. -/
theorem State.goodFrame_reply (s : State) (p : StationId) (effect : State → State)
    (r : Option ReplyStatus) (hp : p ≠ s.stc.sid) (ho : s.stc.state = .online) :
    s.goodFrame p.byte .reply effect r = (effect s.lineFree).endAwait r := by
  unfold State.goodFrame
  simp only [if_true, ne_eq, not_true_eq_false, false_and, if_false]
  have h1 : s.lineFree.isDuplicate p.byte = false := State.isDuplicate_other s.lineFree p hp
  have h2 : s.lineFree.stc.state = .online := ho
  rw [h1, h2]
  rfl

/-- A good frame in ONLINE from another station that is no REPLY. -/
theorem State.goodFrame_other (s : State) (p : StationId) (kind : FrameKind) (effect : State → State)
    (r : Option ReplyStatus) (hk : kind ≠ .reply) (hp : p ≠ s.stc.sid) (ho : s.stc.state = .online) :
    s.goodFrame p.byte kind effect r = (effect (s.lineFree.wonBy p)).endAwait r := by
  unfold State.goodFrame
  simp only [if_neg hk, State.takeWinner_wonBy]
  have h1 : (s.lineFree.wonBy p).isDuplicate p.byte = false := State.isDuplicate_other _ p hp
  have h3 : (s.lineFree.wonBy p).endListening = s.lineFree.wonBy p := by
    unfold State.endListening
    rw [if_neg]
    show s.stc.state ≠ _
    rw [ho]
    decide
  have h2 : (s.lineFree.wonBy p).stc.state = .online := ho
  rw [h1, h3]
  simp only [ite_self, h2]
  rfl

theorem State.dropVerdict_noFill (s : State) (h : s.rxu.fill = none) :
    s.dropVerdict = { s with rxu := { s.rxu with verdict := none } } := by
  unfold State.dropVerdict State.forgetVerdict State.abortFill
  rw [h]

theorem State.dropVerdict_received (s : State) (h : s.rxu.fill = none) :
    s.lineFree.dropVerdict = s.received := by
  rw [State.dropVerdict_noFill _ (by exact h)]
  rfl

theorem State.dropVerdict_won (s : State) (p : StationId) (h : s.rxu.fill = none) :
    (s.lineFree.wonBy p).dropVerdict = s.received.wonBy p := by
  rw [State.dropVerdict_noFill _ (by exact h)]
  rfl

/-- A credit total in range is applied and answered ACCEPT (R50, R51). -/
theorem State.evaluateTotal_inRange (s : State) (p : StationId) (kind : FrameKind) (total : Byte)
    (h : distance (s.peer p).creditSeen total = 0 ∨
      (s.peer p).creditsHeld + distance (s.peer p).creditSeen total ≤ 15) :
    s.evaluateTotal p kind total =
      ({ s with
          ssu :=
            { s.ssu with
              peers := s.ssu.peers.set p
                { s.peer p with
                  creditsHeld := (s.peer p).creditsHeld + distance (s.peer p).creditSeen total
                  creditSeen := total } } } : State).replying p .accept := by
  unfold State.evaluateTotal
  rw [if_neg]
  · rfl
  · unfold Peer.totalOutOfRange
    simp [Config.creditMax]
    intro h0
    rcases h with h | h
    · exact absurd h h0
    · exact h

/-- A credit total out of range from an OPEN peer is a fault that ends the session (R50, R51). -/
theorem State.evaluateTotal_outOfRange (s : State) (p : StationId) (kind : FrameKind) (total : Byte)
    (ho : (s.peer p).state = .isOpen)
    (h : ¬ (distance (s.peer p).creditSeen total = 0 ∨
      (s.peer p).creditsHeld + distance (s.peer p).creditSeen total ≤ 15)) :
    s.evaluateTotal p kind total =
      ((s.faulted .creditRange p kind total).sessionRestarts p .protocolFault).replying p .stale := by
  unfold State.evaluateTotal
  rw [if_pos, State.handFault_faulted, State.protocolFault_open _ _ (by exact ho)]
  · rfl
  · unfold Peer.totalOutOfRange
    simp only [not_or, not_le] at h
    simp [Config.creditMax, h.1, h.2]

end Sys2Proof.Machine
end

