-- ==== Sys2Proof/Laws/Memory.lean ====
section
/-! SUPPORT. Buffer memory: every write keeps the canonical form, a byte written reads back, every other
byte reads as before, and equal reads are equal memories. -/

namespace Sys2Proof.Machine

theorem Memory.wf_nil : Memory.wf [] := ⟨List.Pairwise.nil, by simp⟩

theorem Memory.wf_tail {c : Host.Cell} {m : List Host.Cell} (h : Memory.wf (c :: m)) : Memory.wf m :=
  ⟨h.1.of_cons, fun d hd => h.2 d (List.mem_cons_of_mem _ hd)⟩

/-- Every address of a written memory is the one written or an old one. -/
theorem Memory.mem_write {m : List Host.Cell} {a : Nat} {v : Byte} {c : Host.Cell}
    (h : c ∈ Memory.write m a v) : c = (a, v) ∧ v ≠ Config.clearByte ∨ c ∈ m := by
  induction m with
  | nil =>
    simp only [Memory.write, Memory.cons] at h
    split at h <;> simp_all
  | cons d rest ih =>
    obtain ⟨b, w⟩ := d
    simp only [Memory.write, Memory.cons] at h
    split at h
    · split at h
      · exact .inr h
      · rcases List.mem_cons.1 h with h | h
        · exact .inl ⟨h, ‹_›⟩
        · exact .inr h
    · split at h
      · split at h
        · exact .inr (List.mem_cons_of_mem _ h)
        · rcases List.mem_cons.1 h with h | h
          · exact .inl ⟨h, ‹_›⟩
          · exact .inr (List.mem_cons_of_mem _ h)
      · simp only [List.mem_cons] at h ⊢
        rcases h with h | h
        · exact .inr (.inl h)
        · rcases ih h with h | h
          · exact .inl h
          · exact .inr (.inr h)

/-- One write keeps the canonical form. -/
theorem Memory.wf_write {m : List Host.Cell} {a : Nat} (v : Byte) (h : Memory.wf m)
    (ha : a < memoryBytes) : Memory.wf (Memory.write m a v) := by
  refine ⟨?_, fun c hc => ?_⟩
  · induction m with
    | nil => simp only [Memory.write, Memory.cons]; split <;> simp
    | cons d rest ih =>
      obtain ⟨b, w⟩ := d
      have hp := List.pairwise_cons.1 h.1
      simp only [Memory.write]
      split
      · rename_i hab
        simp only [Memory.cons]
        split
        · exact h.1
        · refine List.pairwise_cons.2 ⟨fun c hc => ?_, h.1⟩
          rcases List.mem_cons.1 hc with e | hc
          · subst e; exact hab
          · exact Nat.lt_trans hab (hp.1 c hc)
      · split
        · rename_i e
          subst e
          simp only [Memory.cons]
          split
          · exact hp.2
          · exact List.pairwise_cons.2 ⟨hp.1, hp.2⟩
        · rename_i h1 h2
          refine List.pairwise_cons.2 ⟨fun c hc => ?_, ih (Memory.wf_tail h)⟩
          rcases Memory.mem_write hc with ⟨e, _⟩ | hc
          · subst e; show b < a; omega
          · exact hp.1 c hc
  · rcases Memory.mem_write hc with ⟨e, hv⟩ | hc
    · subst e; exact ⟨hv, ha⟩
    · exact h.2 c hc

/-- An address below every listed one is unlisted. -/
theorem Memory.read_below {m : List Host.Cell} {a : Nat} (h : ∀ c ∈ m, a < c.1) :
    Memory.read m a = Config.clearByte := by
  induction m with
  | nil => rfl
  | cons d rest ih =>
    obtain ⟨b, w⟩ := d
    have hb : a < b := h (b, w) List.mem_cons_self
    have hne : b ≠ a := by omega
    simp only [Memory.read, hne, if_false]
    exact ih fun c hc => h c (List.mem_cons_of_mem _ hc)

/-- What an address reads as after a byte is written. -/
theorem Memory.read_write {m : List Host.Cell} (h : Memory.wf m) (a k : Nat) (v : Byte) :
    Memory.read (Memory.write m a v) k = if k = a then v else Memory.read m k := by
  induction m with
  | nil =>
    simp only [Memory.write, Memory.cons, Memory.read]
    split <;> split <;> simp_all [Memory.read]
    intro e; exact absurd e.symm ‹_›
  | cons d rest ih =>
    obtain ⟨b, w⟩ := d
    have hp := List.pairwise_cons.1 h.1
    have ih := ih (Memory.wf_tail h)
    simp only [Memory.write, Memory.cons]
    by_cases hab : a < b
    · simp only [hab, if_true]
      by_cases hv : v = Config.clearByte
      · simp only [hv, if_true]
        by_cases hk : k = a
        · subst hk
          simp only [if_true]
          refine Memory.read_below fun c hc => ?_
          rcases List.mem_cons.1 hc with e | hc
          · subst e; exact hab
          · exact Nat.lt_trans hab (hp.1 c hc)
        · simp [hk]
      · by_cases hk : k = a
        · simp only [if_neg hv]; simp [Memory.read, hk]
        · have : a ≠ k := fun e => hk e.symm
          simp only [if_neg hv]; simp [Memory.read, hk, this]
    · simp only [hab, if_false]
      by_cases e : a = b
      · subst e
        simp only [if_true]
        by_cases hv : v = Config.clearByte
        · simp only [hv, if_true]
          by_cases hk : k = a
          · subst hk
            simp only [if_true]
            exact Memory.read_below fun c hc => hp.1 c hc
          · have : a ≠ k := fun e => hk e.symm
            simp [hk, Memory.read, this]
        · by_cases hk : k = a
          · simp only [if_neg hv]; simp [Memory.read, hk]
          · have : a ≠ k := fun e => hk e.symm
            simp only [if_neg hv]; simp [Memory.read, hk, this]
      · simp only [e, if_false, Memory.read]
        by_cases hb : b = k
        · have : k ≠ a := by omega
          simp [hb, this]
        · simp [hb, ih]

/-- Writing bytes keeps the canonical form. -/
theorem Memory.wf_writeBytes (vs : List Byte) : ∀ {m : List Host.Cell} {a : Nat}, Memory.wf m →
    a + vs.length ≤ memoryBytes → Memory.wf (Memory.writeBytes m a vs) := by
  induction vs with
  | nil => intro m a h _; exact h
  | cons v vs ih =>
    intro m a h ha
    simp only [List.length_cons] at ha
    exact ih (Memory.wf_write v h (by omega)) (by omega)

/-- What an address reads as after bytes are written. -/
theorem Memory.read_writeBytes (vs : List Byte) : ∀ {m : List Host.Cell} {a : Nat}, Memory.wf m →
    a + vs.length ≤ memoryBytes → ∀ k,
      Memory.read (Memory.writeBytes m a vs) k =
        if h : a ≤ k ∧ k - a < vs.length then vs[k - a]'h.2 else Memory.read m k := by
  induction vs with
  | nil => intro m a h _ k; simp [Memory.writeBytes]
  | cons v vs ih =>
    intro m a h ha k
    simp only [List.length_cons] at ha
    have hw := Memory.wf_write v h (show a < memoryBytes by omega)
    simp only [Memory.writeBytes]
    rw [ih hw (by omega) k, Memory.read_write h]
    by_cases e : k = a
    · subst e
      have : ¬ (k + 1 ≤ k ∧ k - (k + 1) < vs.length) := by omega
      simp
    · by_cases h1 : a + 1 ≤ k ∧ k - (a + 1) < vs.length
      · have h2 : a ≤ k ∧ k - a < (v :: vs).length := by
          simp only [List.length_cons]; omega
        have e2 : k - a = (k - (a + 1)) + 1 := by omega
        rw [dif_pos h1, dif_pos h2]
        simp [e2]
      · have h2 : ¬ (a ≤ k ∧ k - a < (v :: vs).length) := by
          simp only [List.length_cons]; omega
        rw [dif_neg h1, dif_neg h2]
        simp [e]

/-- A byte that lies outside the bytes written reads as before. -/
theorem Memory.read_writeBytes_other {m : List Host.Cell} (h : Memory.wf m) {a : Nat} (vs : List Byte)
    (ha : a + vs.length ≤ memoryBytes) {k : Nat} (hk : k < a ∨ a + vs.length ≤ k) :
    Memory.read (Memory.writeBytes m a vs) k = Memory.read m k := by
  rw [Memory.read_writeBytes vs h ha, dif_neg (by omega)]

/-- The byte at place i of the bytes written reads back. -/
theorem Memory.read_writeBytes_at {m : List Host.Cell} (h : Memory.wf m) {a : Nat} (vs : List Byte)
    (ha : a + vs.length ≤ memoryBytes) {i : Nat} (hi : i < vs.length) :
    Memory.read (Memory.writeBytes m a vs) (a + i) = vs[i] := by
  rw [Memory.read_writeBytes vs h ha, dif_pos (by omega)]
  congr 1
  omega

/-- Two canonical memories that read alike are equal. -/
theorem Memory.ext {m n : List Host.Cell} (hm : Memory.wf m) (hn : Memory.wf n)
    (h : ∀ a, Memory.read m a = Memory.read n a) : m = n := by
  induction m generalizing n with
  | nil =>
    cases n with
    | nil => rfl
    | cons d rest =>
      obtain ⟨b, w⟩ := d
      have := h b
      simp only [Memory.read, if_true] at this
      exact absurd this.symm (hn.2 (b, w) List.mem_cons_self).1
  | cons c rest ih =>
    obtain ⟨a, v⟩ := c
    have hv := (hm.2 (a, v) List.mem_cons_self).1
    have hpm := (List.pairwise_cons.1 hm.1).1
    cases n with
    | nil =>
      have := h a
      simp only [Memory.read, if_true] at this
      exact absurd this hv
    | cons d rest' =>
      obtain ⟨b, w⟩ := d
      have hw := (hn.2 (b, w) List.mem_cons_self).1
      have hpn := (List.pairwise_cons.1 hn.1).1
      have hab : a = b := by
        rcases Nat.lt_trichotomy a b with hlt | e | hlt
        · have e := h a
          rw [Memory.read_below (m := (b, w) :: rest') (a := a) (fun c hc => by
            rcases List.mem_cons.1 hc with e | hc
            · subst e; exact hlt
            · exact Nat.lt_trans hlt (hpn c hc))] at e
          simp only [Memory.read, if_true] at e
          exact absurd e hv
        · exact e
        · have e := h b
          rw [Memory.read_below (m := (a, v) :: rest) (a := b) (fun c hc => by
            rcases List.mem_cons.1 hc with e | hc
            · subst e; exact hlt
            · exact Nat.lt_trans hlt (hpm c hc))] at e
          simp only [Memory.read, if_true] at e
          exact absurd e.symm hw
      subst hab
      have hvw : v = w := by simpa [Memory.read] using h a
      subst hvw
      congr 1
      refine ih (Memory.wf_tail hm) (Memory.wf_tail hn) fun k => ?_
      by_cases e : a = k
      · subst e
        rw [Memory.read_below fun c hc => hpm c hc, Memory.read_below fun c hc => hpn c hc]
      · simpa [Memory.read, e] using h k

/-- The bytes of a buffer lie in the memory. -/
theorem bufferAddress_lt (h : Handle) (i : Nat) (hi : i < 256) : bufferAddress h i < memoryBytes := by
  have := h.isLt
  simp only [bufferAddress, Config.bufferBytes, memoryBytes]
  omega

/-- Bytes of different buffers, or at different places of one, have different addresses. -/
theorem bufferAddress_inj {h k : Handle} {i j : Nat} (hi : i < 256) (hj : j < 256)
    (e : bufferAddress h i = bufferAddress k j) : h = k ∧ i = j := by
  simp only [bufferAddress, Config.bufferBytes] at e
  have : h.val = k.val ∧ i = j := by omega
  exact ⟨Fin.ext this.1, this.2⟩

end Sys2Proof.Machine
end

