-- ==== Sys2Proof/Laws/Pins.lean ====
section
/-! SUPPORT. What the pins show: the level that a half drives, the compare of a transmission, and the value
of a read cycle. -/

namespace Sys2Proof.Machine

/-! ### The rail -/

@[simp] theorem driveHalf_rde (l : Level) : (driveHalf l).rde = true ↔ l = .dominant := by
  cases l <;> simp [driveHalf]

theorem driveHalf_rtx (l : Level) (h : (driveHalf l).rde = true) : (driveHalf l).rtx = some .low := by
  cases l <;> simp_all [driveHalf]

theorem State.railPins_silent {s : State} (h : s.rif.transmit = none) (n : Nat) :
    s.railPins n = { rde := false, rtx := none } := by
  simp [State.railPins, State.drivenHalf, h, driveHalf]

/-- The pins follow the halves of the frame that the station transmits. -/
theorem State.railPins_sending {s : State} {f : Frame} (h : s.rif.transmit = some f) (n : Nat) :
    s.railPins n = driveHalf (f.half n) := by
  simp [State.railPins, State.drivenHalf, h]

theorem Frame.half_first {f : Frame} {i : Nat} {a b : Level} (h : f.lineHalves[i]? = some (a, b)) :
    f.half (2 * i) = a := by
  simp [Frame.half, h]

theorem Frame.half_second {f : Frame} {i : Nat} {a b : Level} (h : f.lineHalves[i]? = some (a, b)) :
    f.half (2 * i + 1) = b := by
  have e : (2 * i + 1) / 2 = i := by omega
  simp [Frame.half, e, h]

theorem Frame.half_past {f : Frame} {n : Nat} (h : 2 * f.lineHalves.length ≤ n) :
    f.half n = .recessive := by
  have e : f.lineHalves.length ≤ n / 2 := by omega
  simp only [Frame.half, List.getElem?_eq_none e]

/-! ### The compare -/

theorem mismatch_iff (d x : Level) : mismatch d x = true ↔ d = .recessive ∧ x = .dominant := by
  simp [mismatch]

theorem bitMismatch_iff (d x : Level × Level) :
    bitMismatch d x = true ↔ mismatch d.1 x.1 = true ∨ mismatch d.2 x.2 = true := by
  simp [bitMismatch]

/-- The first mismatch ends what is driven, its own bit time included. -/
theorem drivenUntilCut_append (before heard : List (Level × Level)) (d x : Level × Level)
    (after later : List (Level × Level)) (hl : before.length = heard.length)
    (h : ∀ q ∈ before.zip heard, bitMismatch q.1 q.2 = false) (hm : bitMismatch d x = true) :
    drivenUntilCut (before ++ d :: after) (heard ++ x :: later) = before ++ [d] := by
  induction before generalizing heard with
  | nil =>
    cases heard with
    | nil => simp [drivenUntilCut, hm]
    | cons _ _ => simp at hl
  | cons b bs ih =>
    cases heard with
    | nil => simp at hl
    | cons y ys =>
      simp only [List.length_cons, Nat.add_right_cancel_iff] at hl
      simp only [List.zip_cons_cons, List.mem_cons, forall_eq_or_imp] at h
      simp [drivenUntilCut, h.1, ih ys hl h.2]

/-- Without a mismatch everything is driven. -/
theorem drivenUntilCut_whole (driven sensed : List (Level × Level)) (hl : driven.length = sensed.length)
    (h : ∀ q ∈ driven.zip sensed, bitMismatch q.1 q.2 = false) : drivenUntilCut driven sensed = driven := by
  induction driven generalizing sensed with
  | nil => cases sensed <;> rfl
  | cons b bs ih =>
    cases sensed with
    | nil => simp at hl
    | cons y ys =>
      simp only [List.length_cons, Nat.add_right_cancel_iff] at hl
      simp only [List.zip_cons_cons, List.mem_cons, forall_eq_or_imp] at h
      simp [drivenUntilCut, h.1, ih ys hl h.2]

theorem isCut_iff (driven sensed : List (Level × Level)) :
    isCut driven sensed = true ↔ ∃ q ∈ driven.zip sensed, bitMismatch q.1 q.2 = true := by
  simp [isCut]

/-! ### The host port -/

theorem State.readValue_of_command {s t : State} {addr : BitVec 9} {c : Instr}
    (h : hostReadCommand addr = some c) (e : exec c s = .next t) : s.readValue addr = t.hpu.readData := by
  simp only [State.readValue, h, e]

theorem State.readValue_of_none {s : State} {addr : BitVec 9} (h : hostReadCommand addr = none) :
    s.readValue addr = hostRead s addr := by
  simp only [State.readValue, h]

end Sys2Proof.Machine
end

