-- ==== Sys2Proof/Laws/Stable.lean ====
section
/-! SUPPORT. What a step can do, said once: a property that every primitive update keeps is kept by every
shared operation, every command and every step. -/

namespace Sys2Proof.Machine

/-- A command that neither rebuilds the lists nor moves a buffer at the host's word. -/
def Calm (c : Instr) : Prop :=
  match c with
  | .pinResetAssert | .pinResetRelease _ _ _ | .releaseWrite _ | .sendGoWrite _ | .join | .restart => False
  | _ => True

/-- What a session change may do to a record: in_use and r stay, credits_held is within 15 and
ctl_attempts within 64 if they were. -/
def PeerStep (old new : Peer) : Prop :=
  new.inUse = old.inUse ∧ new.r = old.r ∧ (old.creditsHeld ≤ 15 → new.creditsHeld ≤ 15) ∧
    (old.ctlAttempts ≤ 64 → new.ctlAttempts ≤ 64)

/-- A property of the session lists, the records, the buffers and the send lists that every primitive
update of them keeps but those of a RELEASE, an accepted SEND_GO, JOIN, RESTART and pin reset, and that the
rail blocks and the host port do not touch. -/
structure Kept (P : State → Prop) : Prop where
  queue : ∀ s x, P s → P { s with pending := x }
  low : ∀ s x, P s → P { s with resetLow := x }
  rif : ∀ s x, P s → P { s with rif := x }
  ctu : ∀ s x, P s → P { s with ctu := x }
  txa : ∀ s x, P s → P { s with txa := x }
  hpu : ∀ s x, P s → P { s with hpu := x }
  stc : ∀ s x, x.reserveTotal = s.stc.reserveTotal → P s → P { s with stc := x }
  verdict : ∀ s v, P s → P { s with rxu := { s.rxu with verdict := v } }
  fault : ∀ s f e i, P s → P { s with atu := { s.atu with fault := f, enables := e, inService := i } }
  demand : ∀ s d, P s → P { s with cru := { s.cru with demand := d } }
  winsel : ∀ s h, P s → P { s with bfm := { s.bfm with winsel := h } }
  peer : ∀ s p q, PeerStep (s.peer p) q → P s → P (s.setPeer p q)
  appendGreet : ∀ s p, P s → P (s.appendGreet p)
  removeGreet : ∀ s p, P s → P (s.removeGreet p)
  greetToTail : ∀ s p, P s → P (s.greetToTail p)
  addCredit : ∀ s p, P s → P (s.addCredit p)
  dropCredit : ∀ s p, P s → P (s.dropCredit p)
  creditToTail : ∀ s p, P s → P (s.creditToTail p)
  event : ∀ s p st why, P s → P (s.peerEvent p st why)
  complete : ∀ s cause, P s → P (s.completeWhere cause)
  sending : ∀ s h q, P s → P (s.entrySending h q)
  retry : ∀ s h c, P s → P (s.entryRetry h c)
  startFill : ∀ s p h rest v payload, s.bfm.rxFree = h :: rest → 1 ≤ (s.peer p).room →
    s.rxu.fill = none → v.length ≤ 256 → P s → P (s.startFill p h rest v payload)
  abortFill : ∀ s, P s → P s.abortFill
  postFill : ∀ s p q, P s → P (s.postFill p q)
  leaving : ∀ s, P s → P s.enterLeaving
  takeTx : ∀ (s : State) (h : Handle) rest, s.bfm.txFree = h :: rest → P s →
    P { s with bfm := { s.bfm with table := s.bfm.table.set h .composing, txFree := rest } }
  writeMem : ∀ s (k : BitVec 7) b1 b2, P s →
    P { s with
        bfm := { s.bfm with
          mem := Memory.writeBytes s.bfm.mem (bufferAddress s.bfm.winsel (2 * k.toNat)) [b1, b2] } }
  popInbound : ∀ s r rest, s.rxu.inbound = r :: rest → P s →
    P { s.setHandle r.handle (.held r.source) with rxu := { s.rxu with inbound := rest } }
  popCompletion : ∀ s r rest, s.snu.completions = r :: rest → P s →
    P { s with snu := { s.snu with completions := rest } }
  popEvent : ∀ s r rest, s.atu.peerEvents = r :: rest → P s →
    P { s with atu := { s.atu with peerEvents := rest } }

/-- A property that those keep too. -/
structure Stable (P : State → Prop) : Prop extends Kept P where
  releaseTx : ∀ (s : State) (h : Handle), s.handle h = .composing → P s → P (s.returnTx h)
  releaseRx : ∀ (s : State) (h : Handle) (p : StationId), s.handle h = .held p → P s →
    P ((s.returnRx h).setPeer p
      { s.peer p with inUse := (s.peer p).inUse - 1, releasedTotal := (s.peer p).releasedTotal + 1 })
  accept : ∀ (s : State) (h : Handle) (e : SendEntry), s.handle h = .composing → e.handle = h →
    s.snu.sendList.length + s.snu.completions.length < 32 → P s →
    P { s.setHandle h .queued with snu := { s.snu with sendList := s.snu.sendList ++ [e] } }
  pinReset : ∀ (s : State) sid rate act, P (s.afterPinReset sid rate act)
  restart : ∀ s, P s → P s.afterRestart
  joined : ∀ s, reserveSum s.stc.sid s.stc.reserveRegs ≤ 112 → P s → P s.joined

/-! ### Records -/

theorem PeerStep.refl (q : Peer) : PeerStep q q := ⟨rfl, rfl, id, id⟩

theorem PeerStep.owed (q : Peer) (m : Byte) (st : PeerState) :
    PeerStep q { q.zeroed with mySess := m, state := st } :=
  ⟨rfl, rfl, fun _ => Nat.zero_le _, fun _ => Nat.zero_le _⟩

theorem PeerStep.keepCtl (q : Peer) (st : PeerState) : PeerStep q { q.zeroedKeepCtl with state := st } :=
  ⟨rfl, rfl, fun _ => Nat.zero_le _, id⟩

theorem grantTaken_le (g : Byte) : grantTaken g ≤ 15 := Nat.min_le_left _ _

theorem raisedCtl_le (q : Peer) : q.raisedCtl ≤ 64 := Nat.min_le_left _ _

/-- A total that is in range keeps credits_held within 15 (R50). -/
theorem applyTotal_le (q : Peer) (total : Byte) (h : q.totalOutOfRange total = false)
    (hq : q.creditsHeld ≤ 15) : (q.applyTotal total).creditsHeld ≤ 15 := by
  simp only [Peer.totalOutOfRange, Bool.and_eq_false_iff, decide_eq_false_iff_not, not_not,
    Config.creditMax] at h
  simp only [Peer.applyTotal]
  rcases h with h | h
  · omega
  · omega

namespace Kept

variable {P : State → Prop} (S : Kept P)
include S

/-! ### Session changes -/

theorem greetOwed (s : State) (p : StationId) (why : Reason) (notice : Bool) (h : P s) :
    P (s.greetOwed p why notice) := by
  have h1 := S.appendGreet _ p (S.peer s p _ (PeerStep.owed (s.peer p) ((s.peer p).mySess + 1) .greeting) h)
  unfold State.greetOwed
  apply S.event
  dsimp only
  split
  · split
    · exact S.complete _ _ (S.dropCredit _ _ h1)
    · exact S.dropCredit _ _ h1
  · exact h1

theorem becomeLost (s : State) (p : StationId) (why : Reason) (named : Option Handle) (h : P s) :
    P (s.becomeLost p why named) := by
  have h1 := S.removeGreet _ p (S.peer s p _ (PeerStep.keepCtl (s.peer p) .lost) h)
  unfold State.becomeLost
  apply S.event
  apply S.complete
  dsimp only
  split
  · exact S.dropCredit _ _ h1
  · exact h1

theorem peerLeft (s : State) (p : StationId) (h : P s) : P (s.peerLeft p) := by
  unfold State.peerLeft
  dsimp only
  split
  · exact h
  · have h1 := S.removeGreet _ p
      (S.peer s p _ (PeerStep.owed (s.peer p) (s.peer p).mySess .absent) h)
    apply S.event
    apply S.complete
    split
    · exact S.dropCredit _ _ h1
    · exact h1

theorem hear (s : State) (p : StationId) (h : P s) : P (s.hear p) := by
  unfold State.hear
  split
  · exact S.greetOwed _ _ _ _ h
  · exact h

theorem hearSource (s : State) (src : Byte) (h : P s) : P (s.hearSource src) := by
  unfold State.hearSource
  split
  · exact S.hear _ _ h
  · exact h

theorem announced (s : State) (p : StationId) (h : P s) : P (s.announced p) := by
  unfold State.announced
  split
  · exact S.peer _ _ _ ⟨rfl, rfl, id, fun _ => Nat.zero_le _⟩ h
  · exact S.greetOwed _ _ _ _ h
  · exact S.greetOwed _ _ _ _ h
  · exact S.greetOwed _ _ _ _ h
  · exact h

theorem protocolFault (s : State) (p : StationId) (h : P s) : P (s.protocolFault p) := by
  unfold State.protocolFault
  split
  · exact S.greetOwed _ _ _ _ h
  · exact h

theorem refusedReply (s : State) (p : StationId) (why : Reason) (notice : Bool) (h : P s) :
    P (s.refusedReply p why notice) := by
  unfold State.refusedReply
  split
  · exact S.greetOwed _ _ _ _ h
  · exact h

theorem openSession (s : State) (p : StationId) (sess grant : Byte) (h : P s) :
    P (s.openSession p sess grant) := by
  unfold State.openSession
  apply S.event
  dsimp only
  have h1 : P ((s.setPeer p { s.peer p with
      state := .isOpen, theirSess := some sess, creditsHeld := grantTaken grant,
      ctlAttempts := 0 }).removeGreet p) :=
    S.removeGreet _ _ (S.peer _ _ _ ⟨rfl, rfl, fun _ => grantTaken_le _, fun _ => Nat.zero_le _⟩ h)
  split
  · exact h1
  · exact S.addCredit _ _ h1

theorem answerGreet (s : State) (p : StationId) (sess grant : Byte) (h : P s) :
    P (s.answerGreet p sess grant) := by
  unfold State.answerGreet
  apply S.event
  apply S.complete
  dsimp only
  have h1 : P ((s.setPeer p { (s.peer p).zeroed with
      mySess := (s.peer p).mySess + 1, theirSess := some sess, creditsHeld := grantTaken grant,
      state := .isOpen }).removeGreet p) :=
    S.removeGreet _ _ (S.peer _ _ _ ⟨rfl, rfl, fun _ => grantTaken_le _, fun _ => Nat.zero_le _⟩ h)
  split
  · exact S.dropCredit _ _ h1
  · exact h1

theorem handFault (s : State) (kind : FaultKind) (p : StationId) (frame : FrameKind) (value : Byte)
    (h : P s) : P (s.handFault kind p frame value) :=
  S.fault s _ s.atu.enables s.atu.inService h

theorem handReply (s : State) (p : StationId) (st : ReplyStatus) (h : P s) : P (s.handReply p st) :=
  S.rif s _ h

theorem evaluateTotal (s : State) (p : StationId) (frame : FrameKind) (total : Byte) (h : P s) :
    P (s.evaluateTotal p frame total) := by
  unfold State.evaluateTotal
  split
  · exact S.handReply _ _ _ (S.protocolFault _ _ (S.handFault _ _ _ _ _ h))
  · rename_i hr
    refine S.handReply _ _ _ (S.peer _ _ _ ⟨rfl, rfl, fun hq => ?_, id⟩ h)
    exact applyTotal_le _ _ (by simpa using hr) hq

/-! ### Fills, stations, exchanges -/

theorem dropVerdict (s : State) (h : P s) : P s.dropVerdict := S.verdict _ _ (S.abortFill s h)

theorem lineFree (s : State) (h : P s) : P s.lineFree := S.rif s _ h

theorem takeWinner (s : State) (src : Byte) (h : P s) : P (s.takeWinner src) := by
  unfold State.takeWinner
  split
  · exact S.ctu s _ h
  · exact h

theorem arbiterIdle (s : State) (h : P s) : P s.arbiterIdle := S.txa s _ h

theorem decideTrain (s : State) (a : Bool) (h : P s) : P (s.decideTrain a) := by
  unfold State.decideTrain
  split
  · exact S.txa s _ h
  · exact S.txa s _ h

theorem settleLeave (s : State) (h : P s) : P s.settleLeave := by
  unfold State.settleLeave
  split
  · exact S.leaving s h
  · exact h

theorem endListening (s : State) (h : P s) : P s.endListening := by
  unfold State.endListening
  split
  · exact S.stc s _ rfl h
  · exact h

theorem enterHalted (s : State) (h : P s) : P s.enterHalted := by
  have h1 := S.dropVerdict _ (S.complete _ haltedCause (S.arbiterIdle s h))
  unfold State.enterHalted
  dsimp only
  generalize (s.arbiterIdle.completeWhere haltedCause).dropVerdict = t at h1
  exact S.stc { t with rif := { t.rif with transmit := none, replyDue := none } } _ rfl
    (S.rif t _ h1)

theorem acceptTotal (s : State) (p : StationId) (c : Carried) (h : P s) : P (s.acceptTotal p c) := by
  have h1 : P (s.setPeer p { s.peer p with ackedTotal := c.total, ctlAttempts := 0 }) :=
    S.peer _ _ _ ⟨rfl, rfl, id, fun _ => Nat.zero_le _⟩ h
  unfold State.acceptTotal
  dsimp only
  split
  · split
    · exact S.dropCredit _ _ h1
    · exact S.demand _ _ h1
  · exact S.peer _ _ _ ⟨rfl, rfl, id, fun _ => Nat.zero_le _⟩ h

theorem raiseCtl (s : State) (p : StationId) (h : P s) :
    P (s.setPeer p { s.peer p with ctlAttempts := (s.peer p).raisedCtl }) :=
  S.peer _ _ _ ⟨rfl, rfl, id, fun _ => raisedCtl_le _⟩ h

theorem greetOutcome (s : State) (p : StationId) (r : Option ReplyStatus) (h : P s) :
    P (s.greetOutcome p r) := by
  unfold State.greetOutcome
  dsimp only
  split
  · split
    · exact S.openSession _ _ _ _ h
    · exact h
  all_goals
    split
    · split
      · exact S.becomeLost _ _ _ _ (S.greetToTail _ _ (S.raiseCtl _ _ h))
      · exact S.greetToTail _ _ (S.raiseCtl _ _ h)
    · exact h

theorem creditOutcome (s : State) (p : StationId) (c : Carried) (r : Option ReplyStatus) (h : P s) :
    P (s.creditOutcome p c r) := by
  unfold State.creditOutcome
  dsimp only
  split
  · exact S.acceptTotal _ _ _ h
  · exact S.refusedReply _ _ _ _ h
  all_goals
    split
    · split
      · exact S.becomeLost _ _ _ _ (S.creditToTail _ _ (S.raiseCtl _ _ h))
      · exact S.creditToTail _ _ (S.raiseCtl _ _ h)
    · exact h

theorem messageOutcome (s : State) (hd : Handle) (p : StationId) (c : Carried) (r : Option ReplyStatus)
    (h : P s) : P (s.messageOutcome hd p c r) := by
  unfold State.messageOutcome State.messageUnanswered
  split
  · exact S.acceptTotal _ _ _ (S.complete _ _ h)
  · exact S.refusedReply _ _ _ _ (S.complete _ _ h)
  · exact S.refusedReply _ _ _ _ (S.complete _ _ h)
  all_goals
    split
    · exact S.complete _ _ h
    · split
      · split
        · exact S.becomeLost _ _ _ _ h
        · exact S.retry _ _ _ h
      · exact h

theorem applyOutcome (s : State) (item : Item) (r : Option ReplyStatus) (h : P s) :
    P (s.applyOutcome item r) := by
  unfold State.applyOutcome
  split
  · exact S.greetOutcome _ _ _ h
  · exact S.creditOutcome _ _ _ _ h
  · exact S.messageOutcome _ _ _ _ _ h
  · exact h
  · exact h

theorem finishExchange (s : State) (r : Option ReplyStatus) (h : P s) : P (s.finishExchange r) := by
  unfold State.finishExchange
  split
  · exact h
  · exact S.decideTrain _ _ (S.settleLeave _ (S.txa _ _ (S.applyOutcome _ _ _ h)))

theorem endAwait (s : State) (r : Option ReplyStatus) (h : P s) : P (s.endAwait r) := by
  unfold State.endAwait
  split
  · exact S.finishExchange _ _ h
  · exact S.settleLeave _ h

/-- A good frame keeps the property if its effect in ONLINE does. -/
theorem goodFrame (s : State) (src : Byte) (kind : FrameKind) (effect : State → State)
    (outcome : Option ReplyStatus) (he : ∀ t, P t → P (effect t)) (h : P s) :
    P (s.goodFrame src kind effect outcome) := by
  have h2 : P (if kind = .reply then s.lineFree else s.lineFree.takeWinner src) := by
    split
    · exact S.lineFree _ h
    · exact S.takeWinner _ _ (S.lineFree _ h)
  unfold State.goodFrame
  dsimp only
  generalize (if kind = .reply then s.lineFree else s.lineFree.takeWinner src) = s2 at h2 ⊢
  split
  · exact S.enterHalted _ (S.handFault _ _ _ _ _ h2)
  · have h3 : P (if kind ≠ .reply ∧ (stationOf src).isSome = true then s2.endListening else s2) := by
      split
      · exact S.endListening _ h2
      · exact h2
    generalize (if kind ≠ .reply ∧ (stationOf src).isSome = true then s2.endListening else s2) = s3
      at h3 ⊢
    apply S.endAwait
    split
    · exact he _ h3
    · exact S.dropVerdict _ h3

theorem actOnVerdict (s : State) (h : P s) : P s.actOnVerdict := by
  have h0 : P { s with rxu := { s.rxu with verdict := none } } := S.verdict _ _ h
  unfold State.actOnVerdict
  split
  · exact h
  · dsimp only
    split
    · exact h0
    · split
      · exact h0
      · exact S.handReply _ _ _ h0
      · exact S.handReply _ _ _ (S.protocolFault _ _ (S.handFault _ _ _ _ _ h0))
      · exact S.handReply _ _ _ (S.protocolFault _ _ (S.handFault _ _ _ _ _ h0))
      · exact S.evaluateTotal _ _ _ _ h0
      · exact S.evaluateTotal _ _ _ _ (S.postFill _ _ _ h0)

theorem messageEffect (src : Byte) (s : State) (h : P s) : P (s.messageEffect src) :=
  S.hearSource _ _ (S.dropVerdict _ (S.actOnVerdict _ h))

theorem creditEffect (src : Byte) (dst : StationId) (a b c : Byte) (s : State) (h : P s) :
    P (s.creditEffect src dst a b c) := by
  have h0 := S.dropVerdict _ h
  unfold State.creditEffect
  dsimp only
  split
  · exact h0
  · split
    · split
      · exact S.evaluateTotal _ _ _ _ h0
      · exact S.hear _ _ (S.handReply _ _ _ h0)
    · exact S.hear _ _ h0

theorem greetEffect (src : Byte) (dst : StationId) (a b : Byte) (s : State) (h : P s) :
    P (s.greetEffect src dst a b) := by
  have h0 := S.dropVerdict _ h
  unfold State.greetEffect
  dsimp only
  split
  · exact h0
  · split
    · exact S.handReply _ _ _ h0
    · exact S.hear _ _ h0

theorem announceEffect (src : Byte) (s : State) (h : P s) : P (s.announceEffect src) := by
  have h0 := S.dropVerdict _ h
  unfold State.announceEffect
  split
  · exact h0
  · exact S.announced _ _ h0

theorem leaveEffect (src : Byte) (s : State) (h : P s) : P (s.leaveEffect src) := by
  have h0 := S.dropVerdict _ h
  unfold State.leaveEffect
  split
  · exact h0
  · exact S.peerLeft _ _ h0

theorem replyEffect (src : Byte) (s : State) (h : P s) : P (s.replyEffect src) :=
  S.hearSource _ _ (S.dropVerdict _ h)

theorem elapse (s : State) (n : Nat) (h : P s) : P (s.elapse n) :=
  S.ctu { s with rif := { s.rif with idleCount := min Config.listenTimeout (s.rif.idleCount + n) } } _
    (S.rif s _ h)

theorem beginWindow (s : State) (h : P s) : P s.beginWindow := S.ctu _ _ h

theorem transmit (s : State) (f : Frame) (h : P s) : P (s.transmit f) :=
  S.ctu { s with
          rif := { line := .busy, idleCount := 0, reception := none, transmit := some f, replyDue := none,
                   broken := none } }
    _ (S.rif s _ h)

theorem startWork (s : State) (w : Work) (n : Nat) (h : P s) : P (s.startWork w n) := by
  unfold State.startWork
  dsimp only
  split
  · exact S.transmit _ _ (S.txa _ _ h)
  · exact S.transmit _ _ (S.txa _ _ h)
  · exact S.transmit _ _ (S.txa _ _ (S.peer _ _ _ ⟨rfl, rfl, fun _ => Nat.zero_le _, id⟩ h))
  · exact S.transmit _ _ (S.txa _ _ h)
  · rename_i e
    have h1 : P (if (e.phase == Phase.waiting) = true then
        s.setPeer e.dest (s.peer e.dest).firstAttempt else s) := by
      split
      · exact S.peer _ _ _ ⟨rfl, rfl, fun hq => Nat.le_trans (Nat.sub_le _ _) hq, id⟩ h
      · exact h
    exact S.transmit _ _ (S.txa _ _ (S.sending _ _ _ h1))

/-! ### Host commands -/

theorem drive (s : State) (w : Word) (h : P s) : P (s.drive w) := S.hpu _ _ h

theorem commandResult (s : State) (r : CommandResult) (h : P s) : P (s.commandResult r) := S.hpu _ _ h

omit S in
theorem onWrite (s : State) (f : State → State) (hf : ∀ t, P t → P (f t)) (h : P s) :
    P (s.onWrite f) := by
  unfold State.onWrite
  split
  · exact h
  · exact hf _ h

theorem onRead (s : State) (f : State → State) (hf : ∀ t, P t → P (f t)) (h : P s) :
    P (s.onRead f) := by
  unfold State.onRead
  split
  · exact S.drive _ _ h
  · exact hf _ h

omit S in
theorem onRail (s : State) (f : State → State) (hf : ∀ t, P t → P (f t)) (h : P s) :
    P (s.onRail f) := by
  unfold State.onRail
  split
  · exact h
  · exact hf _ h

omit S in
theorem onReception (s : State) (f : State → State) (hf : ∀ t, P t → P (f t)) (h : P s) :
    P (s.onReception f) := by
  apply onRail _ _ _ h
  intro t ht
  split
  · exact hf _ ht
  · exact ht

theorem takeTxRead (s : State) (h : P s) : P s.takeTx := by
  unfold State.takeTx
  split
  · exact S.drive _ _ h
  · rename_i hd rest e
    exact S.drive _ _ (S.takeTx s hd rest e h)

theorem readWindow (s : State) (k : BitVec 7) (h : P s) : P (s.readWindow k) := by
  unfold State.readWindow
  split
  · exact S.drive _ _ h
  · exact S.drive _ _ (S.hpu _ _ h)

theorem writeWindow (s : State) (k : BitVec 7) (w : Word) (h : P s) : P (s.writeWindow k w) := by
  unfold State.writeWindow
  split
  · exact S.writeMem _ _ _ _ h
  · exact S.hpu _ _ h

theorem inboundPop (s : State) (h : P s) : P s.inboundPop := by
  unfold State.inboundPop
  split
  · exact S.drive _ _ (S.hpu _ _ h)
  · exact S.drive _ _ (S.hpu _ _ (S.popInbound _ _ _ ‹_› h))

theorem completionPop (s : State) (h : P s) : P s.completionPop := by
  unfold State.completionPop
  split
  · exact S.drive _ _ (S.hpu _ _ h)
  · exact S.drive _ _ (S.hpu _ _ (S.popCompletion _ _ _ ‹_› h))

theorem peerEventPop (s : State) (h : P s) : P s.peerEventPop := by
  unfold State.peerEventPop
  split
  · exact S.drive _ _ (S.hpu _ _ h)
  · exact S.drive _ _ (S.hpu _ _ (S.popEvent _ _ _ ‹_› h))

theorem takeSource (s : State) (h : P s) : P s.takeSource := by
  unfold State.takeSource
  split
  · exact S.drive _ _ h
  · exact S.drive _ _ (S.fault s s.atu.fault s.atu.enables _ h)

theorem finishSource (s : State) (h : P s) : P s.finishSource := by
  unfold State.finishSource
  split
  · exact h
  · exact S.fault s s.atu.fault s.atu.enables _ h

theorem takeStateChange (s : State) (h : P s) : P s.takeStateChange :=
  S.drive _ _ (S.stc s { s.stc with latch := false } rfl h)

theorem writeProfile (s : State) (reg : ProfileReg) (w : Word) (h : P s) : P (s.writeProfile reg w) := by
  unfold State.writeProfile
  split
  · refine S.stc s _ ?_ h
    cases reg <;> rfl
  · exact S.stc s _ rfl h

theorem writeRegister (s : State) (addr : BitVec 9) (w : Word) (h : P s) :
    P (s.writeRegister addr w) := by
  unfold State.writeRegister
  split
  · exact S.winsel _ _ h
  repeat' split
  all_goals exact S.hpu _ _ h

theorem leaveUnseen (s : State) (h : P s) : P s.leaveUnseen := S.stc s _ rfl h

theorem markLeave (s : State) (h : P s) : P s.markLeave := S.stc s _ rfl h

theorem leave (s : State) (h : P s) : P s.leave := by
  unfold State.leave
  split
  · exact S.commandResult _ _ h
  · split
    · exact S.commandResult _ _ (S.leaveUnseen _ h)
    · apply S.commandResult
      split
      · exact S.markLeave _ h
      · exact S.leaveUnseen _ h
    · exact S.commandResult _ _ (S.settleLeave _ (S.markLeave _ (S.complete _ _ h)))
    all_goals exact S.commandResult _ _ h

theorem regreet (s : State) (peer : BitVec 6) (h : P s) : P (s.regreet peer) := by
  unfold State.regreet
  split
  · exact S.commandResult _ _ h
  · split
    · exact S.commandResult _ _ h
    · split
      · exact S.commandResult _ _ (S.greetOwed _ _ _ _ h)
      · exact S.commandResult _ _ h

theorem clearSticky (s : State) (h : P s) : P s.clearSticky :=
  S.stc { s with hpu := { s.hpu with windowMisuse := false } } { s.stc with profileLocked := false } rfl
    (S.hpu s _ h)

/-! ### The line, the window and the timers -/

theorem senseBusy (s : State) (h : P s) : P s.senseBusy := by
  unfold State.senseBusy
  split
  · have h1 := S.ctu _ { s.ctu with slotClock := none, slot := none }
      (S.rif s { s.rif with line := .busy, idleCount := 0, reception := some { headerSeen := false },
                            replyDue := none } h)
    dsimp only
    split
    · exact S.arbiterIdle _ h1
    · exact h1
  · exact h

theorem senseIdle (s : State) (h : P s) : P s.senseIdle := by
  unfold State.senseIdle
  split
  · exact S.verdict _ _ (S.lineFree _ h)
  · exact h

theorem settleGap (s : State) (h : P s) : P s.settleGap := by
  unfold State.settleGap
  split
  · exact S.beginWindow _ (S.elapse _ _ h)
  · exact h

theorem windowTurn (s : State) (h : P s) : P s.windowTurn := by
  unfold State.windowTurn
  split
  · exact h
  · split
    · exact S.beginWindow _ (S.elapse _ _ h)
    · exact h

theorem slotBegins (s : State) (h : P s) : P s.slotBegins := by
  unfold State.slotBegins
  split
  · split
    · dsimp only
      split
      · exact S.startWork _ _ _ (S.ctu _ _ (S.elapse _ _ h))
      · exact S.ctu _ _ (S.elapse _ _ h)
    · exact S.ctu _ _ h
  · exact h

theorem gapEnds (s : State) (h : P s) : P s.gapEnds := by
  unfold State.gapEnds
  split
  · split
    · dsimp only
      split
      · exact S.startWork _ _ _ (S.elapse _ _ h)
      · exact S.arbiterIdle _ (S.elapse _ _ h)
    · exact S.arbiterIdle _ h
  · exact h

theorem replyMoment (s : State) (h : P s) : P s.replyMoment := by
  unfold State.replyMoment
  split
  · exact h
  · split
    · unfold State.startReply
      split
      · exact S.transmit _ _ (S.answerGreet _ _ _ _ h)
      all_goals exact S.transmit _ _ h
    · exact h

theorem replyTimeout (s : State) (h : P s) : P s.replyTimeout := by
  unfold State.replyTimeout
  split
  · exact S.finishExchange _ _ (S.elapse _ _ h)
  · exact h

theorem listenTimeout (s : State) (h : P s) : P s.listenTimeout := by
  unfold State.listenTimeout
  split
  · exact S.endListening _ (S.elapse _ _ h)
  · exact h

/-! ### Own frames -/

theorem stopSending (s : State) (h : P s) : P s.stopSending := S.rif _ _ h

theorem ownEnd (s : State) (h : P s) : P s.ownEnd :=
  S.takeWinner _ _ (S.stopSending _ (S.lineFree _ h))

theorem cutExchange (s : State) (h : P s) : P s.cutExchange := by
  have h1 := S.arbiterIdle _ h
  unfold State.cutExchange
  dsimp only
  split
  · split
    · exact S.complete _ _ h1
    · exact S.retry _ _ _ h1
  · split
    · exact S.stc s.arbiterIdle _ rfl h1
    · exact h1
  all_goals exact h1

theorem collideBroken (s : State) (h : P s) : P s.collideBroken := by
  unfold State.collideBroken
  split
  · exact S.rif _ _ (S.ctu _ _ h)
  all_goals exact h

theorem endBroken (s : State) (kinds : List FrameKind) (h : P s) : P (s.endBroken kinds) := by
  unfold State.endBroken
  split
  · split
    · split
      · exact S.lineFree _ h
      · exact S.takeWinner _ _ (S.lineFree _ h)
    · exact h
  all_goals exact h

theorem collide (s : State) (h : P s) : P s.collide := by
  unfold State.collide
  split
  · exact S.collideBroken _ h
  · have h1 : P s.stopSending.takeOrdered := S.ctu _ _ (S.stopSending _ h)
    apply S.settleLeave
    split
    · exact h1
    · exact S.cutExchange _ h1

theorem awaitReply (s : State) (h : P s) : P s.awaitReply := S.txa _ _ (S.ownEnd _ h)

theorem frameEnds (s : State) (h : P s) : P s.frameEnds := by
  unfold State.frameEnds
  split
  all_goals first | exact S.awaitReply _ h | exact S.endBroken _ _ h | exact h

theorem announceEnds (s : State) (h : P s) : P s.announceEnds := by
  unfold State.announceEnds
  split
  · apply S.decideTrain
    dsimp only
    split
    · exact S.stc _ _ rfl (S.ownEnd _ h)
    · exact S.stc _ _ rfl (S.ownEnd _ h)
  all_goals first | exact S.endBroken _ _ h | exact h

theorem leaveEnds (s : State) (h : P s) : P s.leaveEnds := by
  unfold State.leaveEnds
  split
  · exact S.stc _ _ rfl (S.arbiterIdle _ (S.ownEnd _ h))
  all_goals first | exact S.endBroken _ _ h | exact h

theorem replyEnds (s : State) (h : P s) : P s.replyEnds := by
  unfold State.replyEnds
  split
  · exact S.settleLeave _ (S.stopSending _ (S.lineFree _ h))
  all_goals first | exact S.endBroken _ _ h | exact h

/-! ### Headers -/

theorem headerArrives (s : State) (hd : MessageHeader) (payload : List Byte) (h : P s) :
    P (s.headerArrives hd payload) := by
  unfold State.headerArrives
  split
  · have h0 : P { s with rif := { s.rif with reception := some { headerSeen := true } } } := S.rif s _ h
    unfold State.takeHeader
    dsimp only
    split
    · have h1 : P { s with
          rif := { s.rif with reception := some { headerSeen := true } }
          rxu := { s.rxu with verdict := some (verdictOf hd (s.headerClass hd)) } } :=
        S.verdict _ _ h0
      split
      · rename_i p f rest hc hp hrx hf
        refine S.startFill _ p f rest _ payload hrx ?_ hf ?_ h1
        · simp only [verdictOf, State.headerClass, hp] at hc
          split at hc
          · cases hc
          · simp only [State.judge] at hc
            split at hc
            · split at hc
              · rename_i hq
                subst hc
                simp only [sequenceCheck] at hq
                split at hq <;> (repeat' split at hq) <;> simp_all
              · split at hc
                · rename_i hroom
                  exact hroom.1
                · cases hc
            · cases hc
        · have := hd.lengthByte.isLt
          simp only [verdictOf, MessageHeader.length]
          omega
      · exact h1
    · exact h0
  · split
    · have h0 : P { s with rif := { s.rif with broken := none } } := S.rif s _ h
      unfold State.takeBrokenHeader
      dsimp only
      split
      · exact S.verdict _ _ h0
      · exact h0
    · exact h

/-! ### Every command and every step -/

/-- Every command that does not rebuild the lists keeps the property. -/
theorem exec (c : Instr) (s t : State) (hc : Calm c) (h : P s)
    (e : Machine.exec c s = .next t) : P t := by
  cases c
  all_goals
    simp only [Machine.exec, Host.Outcome.next.injEq, execPinResetAssert, execPinResetRelease,
      execTxtakeRead, execReleaseWrite, execWindowRead, execWindowWrite, execSendGoWrite,
      execInboundPopRead, execCompletionPopRead, execPeerEventPopRead, execAttentionRead,
      execFinishWrite, execStateChangeRead, execAttnEnableWrite, execProfileWrite, execRegisterWrite,
      execJoin, execLeave, execRestart, execRegreet, execClearFault, execClearFlags,
      execUnusedCommandCode, execLineBusy, execSettleGap, execWindowLastSlotEnd, execSlotStart,
      execTrainGapEnd, execCollision, execOwnFrameEnd, execOwnAnnounceEnd, execOwnLeaveEnd,
      execOwnReplyEnd, execReplyMoment, execReplyTimeout, execListenTimeout, execMessageHeader,
      execMessageFrameEnd, execCreditFrameEnd, execGreetFrameEnd, execAnnounceFrameEnd,
      execLeaveFrameEnd, execReplyFrameEnd, execUnknownKindFrameEnd, execBadFrameEnd,
      execLineIdle] at e
    subst e
  case pinResetAssert => exact hc.elim
  case pinResetRelease sid rate act => exact hc.elim
  case releaseWrite w => exact hc.elim
  case sendGoWrite w => exact hc.elim
  case join => exact hc.elim
  case restart => exact hc.elim
  case txtakeRead => exact S.onRead _ _ S.takeTxRead h
  case windowRead k => exact S.onRead _ _ (fun t ht => S.readWindow t k ht) h
  case windowWrite k w => exact onWrite _ _ (fun t ht => S.writeWindow t k w ht) h
  case inboundPopRead => exact S.onRead _ _ S.inboundPop h
  case completionPopRead => exact S.onRead _ _ S.completionPop h
  case peerEventPopRead => exact S.onRead _ _ S.peerEventPop h
  case attentionRead => exact S.onRead _ _ S.takeSource h
  case finishWrite w => exact onWrite _ _ S.finishSource h
  case stateChangeRead => exact S.onRead _ _ S.takeStateChange h
  case attnEnableWrite w =>
    exact onWrite _ _ (fun t ht => S.fault t t.atu.fault _ t.atu.inService ht) h
  case profileWrite reg w => exact onWrite _ _ (fun t ht => S.writeProfile t reg w ht) h
  case registerWrite addr w => exact onWrite _ _ (fun t ht => S.writeRegister t addr w ht) h
  case leave => exact onWrite _ _ S.leave h
  case regreet p => exact onWrite _ _ (fun t ht => S.regreet t p ht) h
  case clearFault =>
    exact onWrite _ _ (fun t ht => S.commandResult _ _
      (S.fault t none t.atu.enables t.atu.inService ht)) h
  case clearFlags => exact onWrite _ _ (fun t ht => S.commandResult _ _ (S.clearSticky t ht)) h
  case unusedCommandCode c => exact onWrite _ _ (fun t ht => S.commandResult t _ ht) h
  case lineBusy => exact onRail _ _ S.senseBusy h
  case settleGap => exact onRail _ _ S.settleGap h
  case windowLastSlotEnd => exact onRail _ _ S.windowTurn h
  case slotStart => exact onRail _ _ S.slotBegins h
  case trainGapEnd => exact onRail _ _ S.gapEnds h
  case collision => exact onRail _ _ S.collide h
  case ownFrameEnd => exact onRail _ _ S.frameEnds h
  case ownAnnounceEnd => exact onRail _ _ S.announceEnds h
  case ownLeaveEnd => exact onRail _ _ S.leaveEnds h
  case ownReplyEnd => exact onRail _ _ S.replyEnds h
  case replyMoment => exact onRail _ _ S.replyMoment h
  case replyTimeout => exact onRail _ _ S.replyTimeout h
  case listenTimeout => exact onRail _ _ S.listenTimeout h
  case messageHeader hd payload =>
    exact onRail _ _ (fun t ht => S.headerArrives t hd payload ht) h
  case messageFrameEnd src dst =>
    exact onReception _ _ (fun t ht => S.goodFrame t _ _ _ _ (S.messageEffect src) ht) h
  case creditFrameEnd src dst a b c =>
    exact onReception _ _ (fun t ht => S.goodFrame t _ _ _ _ (S.creditEffect src dst a b c) ht) h
  case greetFrameEnd src dst a b =>
    exact onReception _ _ (fun t ht => S.goodFrame t _ _ _ _ (S.greetEffect src dst a b) ht) h
  case announceFrameEnd src =>
    exact onReception _ _ (fun t ht => S.goodFrame t _ _ _ _ (S.announceEffect src) ht) h
  case leaveFrameEnd src =>
    exact onReception _ _ (fun t ht => S.goodFrame t _ _ _ _ (S.leaveEffect src) ht) h
  case replyFrameEnd src dst a b c =>
    exact onReception _ _ (fun t ht => S.goodFrame t _ _ _ _ (S.replyEffect src) ht) h
  case unknownKindFrameEnd =>
    exact onReception _ _ (fun t ht => S.endAwait _ _ (S.dropVerdict _ (S.lineFree _ ht))) h
  case badFrameEnd =>
    exact onReception _ _
      (fun t ht => S.endAwait _ _ (S.dropVerdict _ (S.ctu _ _ (S.lineFree _ ht)))) h
  case lineIdle => exact onRail _ _ S.senseIdle h

end Kept

namespace Stable

variable {P : State → Prop} (S : Stable P)
include S

theorem releaseHeld (s : State) (hd : Handle) (p : StationId) (e : s.handle hd = .held p) (h : P s) :
    P (s.releaseHeld hd p) := by
  have h1 := S.releaseRx s hd p e h
  unfold State.releaseHeld
  dsimp only
  split
  · exact S.addCredit _ _ h1
  · exact h1

theorem release (s : State) (w : Word) (h : P s) : P (s.release w) := by
  unfold State.release
  split
  · exact S.hpu _ _ h
  · split
    · exact S.hpu _ _ (S.releaseHeld _ _ _ ‹_› h)
    · exact S.hpu _ _ (S.releaseTx _ _ ‹_› h)
    all_goals exact S.hpu _ _ h

theorem sendClaim (s : State) (d : StationId) (h : P s) : P (s.sendClaim d) := by
  unfold State.sendClaim
  split
  · exact S.hpu _ _ h
  · rename_i hb
    split
    · exact S.hpu _ _ h
    · split
      · refine S.hpu _ _ (S.accept _ _ _ ‹_› rfl ?_ h)
        simp only [Config.sendBudget] at hb
        omega
      · exact S.hpu _ _ h

theorem sendGo (s : State) (h : P s) : P s.sendGo := by
  unfold State.sendGo
  split
  · exact S.hpu _ _ h
  · split
    · exact S.hpu _ _ h
    · split
      · exact S.hpu _ _ h
      · split
        · exact S.hpu _ _ h
        · split
          · exact S.hpu _ _ h
          · exact S.hpu _ _ h
          all_goals exact S.sendClaim _ _ h

theorem join (s : State) (h : P s) : P s.join := by
  unfold State.join
  split
  · exact S.toKept.commandResult _ _ h
  · split
    · exact S.toKept.commandResult _ _ h
    · rename_i hr
      have h1 : P s.joined := S.joined s (by simpa [Config.reserveMax] using hr) h
      split
      · exact S.toKept.endListening _ h1
      · exact h1

/-- Every command keeps the property. -/
theorem exec (c : Instr) (s t : State) (h : P s) (e : Machine.exec c s = .next t) : P t := by
  cases c
  case pinResetAssert =>
    cases e
    have h1 := S.rif _ (Rif.clear (s.rif.line == .busy)) (S.low _ true (S.restart s h))
    exact S.fault _ none 0 0 h1
  case pinResetRelease sid rate act => cases e; exact S.pinReset s sid rate act
  case releaseWrite w => cases e; exact Kept.onWrite _ _ (fun t ht => S.release t w ht) h
  case sendGoWrite w => cases e; exact Kept.onWrite _ _ S.sendGo h
  case join => cases e; exact Kept.onWrite _ _ S.join h
  case restart => cases e; exact Kept.onWrite _ _ S.restart h
  all_goals exact S.toKept.exec _ s t (by trivial) h e

/-- Every step keeps the property. -/
theorem step (s t : State) (h : P s) (e : Machine.step s = .next t) : P t := by
  unfold Machine.step at e
  split at e
  · rename_i c rest _
    exact S.exec c (s.withPending rest) t (S.queue s rest h) e
  · unfold State.bitTime at e
    split at e
    · split at e
      · exact S.exec _ _ t h e
      · cases e
        exact S.toKept.elapse _ _ h
    · cases e
      exact h

end Stable

end Sys2Proof.Machine
end

