-- ==== Sys2Proof/Laws/Pool.lean ====
section
/-! SUPPORT. What completions and fills do to the pool (R1, R9, R11 to R13), and how the count of a peer's
buffers follows one handle that changes its state. -/

namespace Sys2Proof.Machine

theorem nodup_append_singleton {α : Type} [DecidableEq α] {l : List α} {a : α} (h : l.Nodup)
    (ha : a ∉ l) : (l ++ [a]).Nodup := by
  rw [List.nodup_append]
  simp [h]
  intro b hb e
  subst e
  exact ha hb

/-- The pool is consistent again when the lists, the table and the fill are the same. -/
theorem State.poolConsistent_of_eq {s t : State} (h1 : t.bfm.txFree = s.bfm.txFree)
    (h2 : t.bfm.rxFree = s.bfm.rxFree)
    (h3 : t.bfm.table = s.bfm.table)
    (h4 : t.snu.sendList.map SendEntry.handle = s.snu.sendList.map SendEntry.handle)
    (h5 : t.rxu.inbound = s.rxu.inbound) (h6 : t.rxu.fill = s.rxu.fill) (h : s.PoolConsistent) :
    t.PoolConsistent := by
  unfold State.PoolConsistent State.handle at *
  rw [h1,h2,h3,h4,h5,h6]
  exact h

theorem mem_handlesOf (cause : SendEntry → Option (Status × Nat)) (l : List SendEntry) (h : Handle) :
   h ∈ handlesOf cause l ↔ ∃ e ∈ l, (cause e).isSome = true ∧ e.handle = h := by
  simp [handlesOf]; constructor
  · rintro ⟨e, ⟨a,b⟩, c⟩; exact ⟨e,a,b,c⟩
  · rintro ⟨e,a,b,c⟩; exact ⟨e,⟨a,b⟩,c⟩

/-- Completing entries keeps the pool consistent: their handles return to the TX Free List (R9). -/
theorem State.completeWhere_pool (s : State) (cause : SendEntry → Option (Status × Nat))
    (h : s.PoolConsistent) : (s.completeWhere cause).PoolConsistent := by
  obtain ⟨⟨t1,t2⟩,⟨r1,r2⟩,⟨q1,q2⟩,⟨i1,i2⟩,f⟩ := h
  have hsub : ∀ k, k ∈ handlesOf cause s.snu.sendList → s.handle k = .queued := fun k hk => by
    rw [mem_handlesOf] at hk
    obtain ⟨e, he, _, rfl⟩ := hk
    exact (q2 _).1 (List.mem_map_of_mem he)
  have hh := State.completeWhere_handle cause s
  refine ⟨⟨?_, ?_⟩, ⟨?_, ?_⟩, ⟨?_, ?_⟩, ⟨?_, ?_⟩, ?_⟩
  · rw [State.completeWhere_txFree, List.nodup_append]
    refine ⟨t1, ?_, ?_⟩
    · exact List.Nodup.sublist (List.Sublist.map _ (List.filter_sublist)) q1
    · intro a ha b hb e
      subst e
      have := (t2 a).1 ha
      rw [hsub a hb] at this
      cases this
  · intro k
    rw [State.completeWhere_txFree, hh, List.mem_append, t2]
    by_cases hk : k ∈ handlesOf cause s.snu.sendList <;> simp [hk]
  · rw [(State.completeWhere_bfmRest cause s).1]; exact r1
  · intro k
    rw [(State.completeWhere_bfmRest cause s).1, hh, r2]
    by_cases hk : k ∈ handlesOf cause s.snu.sendList
    · simp [hk, hsub k hk]
    · simp [hk]
  · rw [State.completeWhere_sendList]
    exact List.Nodup.sublist (List.Sublist.map _ (List.filter_sublist)) q1
  · intro k
    rw [State.completeWhere_sendList, hh]
    by_cases hk : k ∈ handlesOf cause s.snu.sendList
    · simp only [hk, if_true, reduceCtorEq, iff_false]
      intro hm
      rw [mem_handlesOf] at hk
      obtain ⟨e, he, hc, rfl⟩ := hk
      obtain ⟨e', he', heq⟩ := List.mem_map.1 hm
      rw [List.mem_filter] at he'
      have : e' = e := by
        exact List.inj_on_of_nodup_map q1 he'.1 he heq
      subst this
      cases hx : cause e' <;> simp_all
    · simp only [hk, if_false]
      rw [← q2 k]
      constructor
      · intro hm
        obtain ⟨e', he', heq⟩ := List.mem_map.1 hm
        exact List.mem_map.2 ⟨e', (List.mem_filter.1 he').1, heq⟩
      · intro hm
        obtain ⟨e', he', heq⟩ := List.mem_map.1 hm
        refine List.mem_map.2 ⟨e', List.mem_filter.2 ⟨he', ?_⟩, heq⟩
        cases hx : cause e' with
        | none => rfl
        | some v =>
          exfalso; apply hk; rw [mem_handlesOf]; exact ⟨e', he', by simp [hx], heq⟩
  · simpa using i1
  · intro k p
    rw [hh]
    have : (s.completeWhere cause).rxu.inbound = s.rxu.inbound := by simp
    rw [this, i2]
    by_cases hk : k ∈ handlesOf cause s.snu.sendList
    · simp [hk, hsub k hk]
    · simp [hk]
  · intro k p
    rw [hh]
    have : (s.completeWhere cause).rxu.fill = s.rxu.fill := by simp
    rw [this, f]
    by_cases hk : k ∈ handlesOf cause s.snu.sendList
    · simp [hk, hsub k hk]
    · simp [hk]

/-- A fill that starts with the head of the RX Free List keeps the pool consistent (R11). -/
theorem State.startFill_pool (s : State) (p : StationId) (h : Handle) (rest : List Handle) (v : Verdict)
    (payload : List Byte) (e : s.bfm.rxFree = h :: rest) (hf : s.rxu.fill = none)
    (hp : s.PoolConsistent) : (s.startFill p h rest v payload).PoolConsistent := by
  obtain ⟨⟨t1,t2⟩,⟨r1,r2⟩,⟨q1,q2⟩,⟨i1,i2⟩,f⟩ := hp
  have hh : ∀ k, (s.startFill p h rest v payload).handle k =
      if k = h then .filling p else s.handle k := fun k => table_set _ _ _ _
  rw [e] at r1 r2
  have hfree : s.handle h = .rxFree := (r2 h).1 List.mem_cons_self
  rw [List.nodup_cons] at r1
  refine ⟨⟨t1, ?_⟩, ⟨r1.2, ?_⟩, ⟨q1, ?_⟩, ⟨i1, ?_⟩, ?_⟩
  · intro k; rw [hh]; show k ∈ s.bfm.txFree ↔ _; rw [t2]
    by_cases hk : k = h
    · subst hk; simp [hfree]
    · simp [hk]
  · intro k; rw [hh]; show k ∈ rest ↔ _
    by_cases hk : k = h
    · subst hk; simp [r1.1]
    · simp [hk, ← r2]
  · intro k; rw [hh]; show k ∈ s.snu.sendList.map _ ↔ _; rw [q2]
    by_cases hk : k = h
    · subst hk; simp [hfree]
    · simp [hk]
  · intro k q; rw [hh]; show (k, q) ∈ s.rxu.inbound.map _ ↔ _; rw [i2]
    by_cases hk : k = h
    · subst hk; simp [hfree]
    · simp [hk]
  · intro k q; rw [hh]; show some (h, p) = some (k, q) ↔ _
    by_cases hk : k = h
    · subst hk; simp
    · have := f k q
      rw [hf] at this
      simp only [Option.map_none, reduceCtorEq, false_iff] at this
      simp [hk, this, Ne.symm hk]

/-- A fill aborted keeps the pool consistent (R13). -/
theorem State.abortFill_pool (s : State) (hp : s.PoolConsistent) : s.abortFill.PoolConsistent := by
  unfold State.abortFill
  split
  · exact hp
  · rename_i fl hfl
    obtain ⟨⟨t1,t2⟩,⟨r1,r2⟩,⟨q1,q2⟩,⟨i1,i2⟩,f⟩ := hp
    have hfil : s.handle fl.handle = .filling fl.source := (f _ _).1 (by rw [hfl]; rfl)
    dsimp only
    generalize hq : ({ s.peer fl.source with inUse := (s.peer fl.source).inUse - 1 } : Peer) = q
    have hh : ∀ k, (({ (s.returnRx fl.handle).setPeer fl.source q with
          rxu := { ((s.returnRx fl.handle).setPeer fl.source q).rxu with fill := none } } :
          State).evalDemand).handle k = if k = fl.handle then .rxFree else s.handle k :=
      fun k => table_set _ _ _ _
    refine ⟨⟨t1, ?_⟩, ⟨?_, ?_⟩, ⟨q1, ?_⟩, ⟨i1, ?_⟩, ?_⟩
    · intro k; rw [hh]; show k ∈ s.bfm.txFree ↔ _; rw [t2]
      by_cases hk : k = fl.handle
      · subst hk; simp [hfil]
      · simp [hk]
    · show (s.bfm.rxFree ++ [fl.handle]).Nodup
      refine nodup_append_singleton r1 ?_
      rw [r2, hfil]; simp
    · intro k; rw [hh]; show k ∈ s.bfm.rxFree ++ [fl.handle] ↔ _; rw [List.mem_append, r2]
      by_cases hk : k = fl.handle
      · subst hk; simp
      · simp [hk]
    · intro k; rw [hh]; show k ∈ s.snu.sendList.map _ ↔ _; rw [q2]
      by_cases hk : k = fl.handle
      · subst hk; simp [hfil]
      · simp [hk]
    · intro k q; rw [hh]; show (k, q) ∈ s.rxu.inbound.map _ ↔ _; rw [i2]
      by_cases hk : k = fl.handle
      · subst hk; simp [hfil]
      · simp [hk]
    · intro k q; rw [hh]; show none = some (k, q) ↔ _
      by_cases hk : k = fl.handle
      · subst hk; simp
      · have := f k q
        rw [hfl] at this
        simp only [hk, if_false]
        rw [← this]; simp [Ne.symm hk]

/-- A fill posted keeps the pool consistent (R12). -/
theorem State.postFill_pool (s : State) (p : StationId) (seq : Byte) (hp : s.PoolConsistent) :
    (s.postFill p seq).PoolConsistent := by
  unfold State.postFill
  split
  · exact hp
  · rename_i fl hfl
    obtain ⟨⟨t1,t2⟩,⟨r1,r2⟩,⟨q1,q2⟩,⟨i1,i2⟩,f⟩ := hp
    have hfil : s.handle fl.handle = .filling fl.source := (f _ _).1 (by rw [hfl]; rfl)
    dsimp only
    generalize hs : ({ s with
        bfm := { s.bfm with table := s.bfm.table.set fl.handle (.posted fl.source) }
        rxu :=
          { s.rxu with
            fill := none
            inbound := s.rxu.inbound ++
              [{ handle := fl.handle, source := fl.source, length := fl.length, tag := fl.tag,
                 sess := fl.sess }] } } : State) = u
    refine State.poolConsistent_of_eq (s := u) rfl rfl rfl rfl rfl rfl ?_
    subst hs
    have hh : ∀ k, ({ s with
        bfm := { s.bfm with table := s.bfm.table.set fl.handle (.posted fl.source) }
        rxu :=
          { s.rxu with
            fill := none
            inbound := s.rxu.inbound ++
              [{ handle := fl.handle, source := fl.source, length := fl.length, tag := fl.tag,
                 sess := fl.sess }] } } : State).handle k =
        if k = fl.handle then .posted fl.source else s.handle k := fun k => table_set _ _ _ _
    refine ⟨⟨t1, ?_⟩, ⟨r1, ?_⟩, ⟨q1, ?_⟩, ⟨?_, ?_⟩, ?_⟩
    · intro k; rw [hh]; show k ∈ s.bfm.txFree ↔ _; rw [t2]
      by_cases hk : k = fl.handle
      · subst hk; simp [hfil]
      · simp [hk]
    · intro k; rw [hh]; show k ∈ s.bfm.rxFree ↔ _; rw [r2]
      by_cases hk : k = fl.handle
      · subst hk; simp [hfil]
      · simp [hk]
    · intro k; rw [hh]; show k ∈ s.snu.sendList.map _ ↔ _; rw [q2]
      by_cases hk : k = fl.handle
      · subst hk; simp [hfil]
      · simp [hk]
    · show (List.map Inbound.handle (s.rxu.inbound ++ [_])).Nodup
      rw [List.map_append]
      refine nodup_append_singleton i1 ?_
      intro hm
      obtain ⟨r, hr, he⟩ := List.mem_map.1 hm
      have := (i2 r.handle r.source).1 (List.mem_map.2 ⟨r, hr, rfl⟩)
      rw [he] at this
      simp only at this
      rw [hfil] at this
      cases this
    · intro k q; rw [hh]
      show (k, q) ∈ List.map (fun r : Inbound => (r.handle, r.source)) (s.rxu.inbound ++ [_]) ↔ _
      rw [List.map_append, List.mem_append, i2]
      by_cases hk : k = fl.handle
      · subst hk; simp [hfil]; exact eq_comm
      · simp [hk]
    · intro k q; rw [hh]; show none = some (k, q) ↔ _
      by_cases hk : k = fl.handle
      · subst hk; simp
      · have := f k q
        rw [hfl] at this
        simp only [hk, if_false]
        rw [← this]; simp [Ne.symm hk]

/-- A count over a list without repeats follows the one element whose answer changes. -/
theorem countP_update {α : Type} [DecidableEq α] (f g : α → Bool) (h : α)
    (hfg : ∀ k, k ≠ h → g k = f k) :
    ∀ (l : List α), l.Nodup → h ∈ l → l.countP g + (f h).toNat = l.countP f + (g h).toNat
  | [], _, hm => by simp at hm
  | a :: l, hn, hm => by
    rw [List.nodup_cons] at hn
    rw [List.countP_cons, List.countP_cons]
    by_cases e : a = h
    · subst e
      have : l.countP g = l.countP f := List.countP_congr fun x hx => by
        rw [hfg x (fun e => hn.1 (e ▸ hx))]
      rw [this]
      cases f a <;> cases g a <;> simp
    · have hm' : h ∈ l := by simpa [Ne.symm e] using hm
      have := countP_update f g h hfg l hn.2 hm'
      rw [hfg a e]
      omega

theorem State.buffersOf_congr {s t : State}
    (h : ∀ k, (t.handle k).holder? = (s.handle k).holder?) (p : StationId) :
    t.buffersOf p = s.buffersOf p := by
  unfold State.buffersOf
  exact List.countP_congr fun k _ => by rw [h]

/-- The number of a peer's buffers when one handle changes its state (R18). -/
theorem State.buffersOf_update {s t : State} (h : Handle) (x : HandleState)
    (ht : ∀ k, t.handle k = if k = h then x else s.handle k) (p : StationId) :
    t.buffersOf p + (decide ((s.handle h).holder? = some p)).toNat =
      s.buffersOf p + (decide (x.holder? = some p)).toNat := by
  unfold State.buffersOf
  have := countP_update (fun k => decide ((s.handle k).holder? = some p))
    (fun k => decide ((t.handle k).holder? = some p)) h (fun k hk => by simp [ht, hk])
    (List.finRange 128) (List.nodup_finRange 128) (List.mem_finRange h)
  rw [ht h] at this
  simpa using this

end Sys2Proof.Machine
end

