-- ==== Sys2Proof/Tests/Slice0.lean ====
section
/-! SUPPORT. The author's tests: ill-formed commands that WellFormed refuses, the worked values of the
spec, and for every statement with hypotheses the states and operands that meet them, clause by clause. -/

namespace Sys2Proof.Tests

open Sys2Proof.Machine

/-! ### Ill-formed commands -/

theorem test_wf_registerWrite : (Instr.registerWrite 0x109 5).wf = false ∧
    (Instr.registerWrite 0x07F 5).wf = false ∧ (Instr.registerWrite 0x17F 5).wf = false ∧
    (Instr.registerWrite 0x104 5).wf = true := by decide

theorem test_wf_unusedCommandCode : (Instr.unusedCommandCode 1).wf = false ∧
    (Instr.unusedCommandCode 6).wf = false ∧ (Instr.unusedCommandCode 0).wf = true ∧
    (Instr.unusedCommandCode 7).wf = true := by decide

/-- A header from station 1 to station 0 that states one payload byte. -/
def header : MessageHeader :=
  { version := 1, src := 1, dst := 0, srcSess := 7, dstSess := 3, seq := 0, creditTotal := 0, tag := 9,
    lengthByte := 0 }

theorem test_wf_messageHeader : (Instr.messageHeader header [1, 2]).wf = false ∧
    (Instr.messageHeader header [1]).wf = true := by decide

/-! ### States -/

/-- ONLINE with identity 0, the line IDLE, every peer ABSENT. -/
def online : State := { State.reset with stc := { State.reset.stc with state := .online } }

/-- A peer whose session is open: my_sess 3, their_sess 7, two credits, four buffers reserved. -/
def openPeer : Peer :=
  { Peer.fresh 4 with state := .isOpen, mySess := 3, theirSess := some 7, creditsHeld := 2 }

/-- ONLINE with one peer. -/
def withPeer (q : Peer) : State := online.setPeer 1 q

/-- ONLINE with peer 1 OPEN. -/
def session : State := withPeer openPeer

/-- The state while a reception is assembled. -/
def receiving (s : State) : State :=
  { s with rif := { s.rif with line := .busy, idleCount := 0, reception := some { headerSeen := true } } }

/-- The state while a frame of the station's own is on the line. -/
def transmitting (s : State) (f : Frame) : State :=
  { s with rif := { s.rif with line := .busy, idleCount := 0, transmit := some f } }

/-- The state while the reply to an item is awaited. -/
def awaiting (item : Item) (s : State) : State :=
  { s with txa := { exchange := .awaitReply, train := 1, gap := false, item := some item } }

/-- The idle period at its n-th bit time. -/
def idleFor (n : Nat) (s : State) : State := { s with rif := { s.rif with idleCount := n } }

/-- The values a frame to the open peer carries. -/
def carried : Carried := { srcSess := 3, dstSess := 7, total := 0 }

/-- A Send List entry to peer 1. -/
def entry (phase : Phase) : SendEntry :=
  { handle := 1, dest := 1, length := 4, tag := 9, quiet := false, seq := some 0, attempts := 0,
    phase := phase }

/-- The state with one Send List entry. -/
def sendingOne (phase : Phase) (s : State) : State :=
  { (s.setHandle 1 .queued) with snu := { sendList := [entry phase], completions := [] } }

/-- The item of that entry. -/
def messageItem : Item := .message 1 1 carried

/-- The verdict on a header of that session. -/
def verdict (cls : VerdictClass) (total : Byte) : Verdict :=
  { source := 1, srcSess := 7, dstSess := 3, seq := 0, total := total, tag := 9, length := 1, cls := cls }

/-- The end of a MESSAGE with a verdict. -/
def judged (cls : VerdictClass) (total : Byte) : State :=
  { receiving session with rxu := { verdict := some (verdict cls total), fill := none, inbound := [] } }

/-- A fill of buffer 127 from peer 1. -/
def fill : Fill := { handle := 127, source := 1, seq := 0, tag := 9, length := 1, sess := 7 }

/-- The state while that fill is in progress. -/
def filling (s : State) : State :=
  { (s.setHandle 127 (.filling 1)).setPeer 1 { openPeer with inUse := 1 } with
    rxu := { s.rxu with fill := some fill } }

/-- A state that meets every invariant with something in each list: buffer 0 in the host's hands, buffer 1
queued to peer 1, and of the eight receive buffers one filling, one posted and one held for peer 1; peer 2
is being greeted, and peer 3 has one release to be acknowledged. -/
def sample : State :=
  { State.reset with
    rif := { State.reset.rif with line := .busy, idleCount := 0, reception := some { headerSeen := true } }
    ctu := { State.reset.ctu with lw := 5, lwKnown := true, kind := .rotation }
    ssu :=
      { peers := ((State.reset.ssu.peers.set 1 { openPeer with inUse := 3 }).set 2
            { Peer.fresh 0 with state := .greeting, mySess := 1 }).set 3
            { openPeer with releasedTotal := 2, ackedTotal := 1 }
        greetList := [2] }
    cru := { list := [3], demand := false }
    bfm :=
      { table := Vector.ofFn fun h =>
          if h.val = 0 then .composing else if h.val = 1 then .queued
          else if h.val < 120 then .txFree else if h.val = 120 then .filling 1
          else if h.val = 121 then .posted 1 else if h.val = 122 then .held 1 else .rxFree
        txFree := (List.finRange 128).filter fun h => 2 ≤ h.val && decide (h.val < 120)
        rxFree := [123, 124, 125, 126, 127], winsel := 122, mem := [(0, 1), (31232, 9)] }
    snu :=
      { sendList := [entry .waiting]
        completions := [{ tag := 8, dest := 1, handle := 2, status := .delivered, attempts := 1 }] }
    rxu :=
      { verdict := some (verdict .admitted 0)
        fill := some { fill with handle := 120 }
        inbound := [{ handle := 121, source := 1, length := 256, tag := 4, sess := 7 }] }
    stc := { State.reset.stc with state := .online, reserveTotal := 8 }
    atu :=
      { enables := 31, inService := 8
        peerEvents := [{ peer := 2, state := .greeting, reason := .heard, changes := 255 }]
        fault := none } }

theorem test_sample_lists : sample.MemoryCanonical ∧ sample.WithinBudget ∧ sample.OneEntryPerPeer ∧
    sample.OrderedUntilKnown ∧ sample.FillInReception := by
  refine ⟨?_, ?_, ?_, ?_, ?_⟩
  · unfold State.MemoryCanonical; decide +kernel
  · unfold State.WithinBudget; decide +kernel
  · unfold State.OneEntryPerPeer; decide +kernel
  · unfold State.OrderedUntilKnown; decide +kernel
  · intro _; rfl

theorem test_sample_pool : sample.PoolConsistent := by
  unfold State.PoolConsistent; decide +kernel

theorem test_sample_counts : sample.BuffersCounted ∧ sample.SidesCounted ∧ sample.PeersInBounds := by
  refine ⟨?_, .inr ?_, ?_⟩
  · unfold State.BuffersCounted State.buffersOf; decide +kernel
  · decide +kernel
  · unfold State.PeersInBounds Peer.InBounds; decide +kernel

theorem test_sample_line : sample.LineConsistent ∧ sample.ArbiterConsistent ∧ sample.PendingMatchesState ∧
    sample.RecordsMatchLists ∧ sample.RoomKept ∧ sample.OthersAlone := by
  refine ⟨⟨?_, ?_, ?_, ?_, ?_⟩, ⟨?_, ?_, ?_, ?_⟩, ⟨?_, ?_, ?_, ?_, ?_, ?_, ?_, ?_⟩, ?_, ⟨?_, ?_⟩,
    ⟨?_, ?_⟩⟩
  · intro _; decide
  · intro h; cases h
  · intro _; rfl
  · intro h; exact absurd rfl h
  · intro c h; cases h
  · decide
  · intro h; cases h
  · intro h; exact absurd rfl h
  · exact ⟨fun h => (by cases h), fun ⟨f, h, _⟩ => (by cases h)⟩
  · intro h; cases h
  · decide
  · decide
  · intro p h; cases h
  · intro p h; cases h
  · intro f h; cases h
  · intro h; exact absurd rfl h
  · intro h; exact absurd rfl h
  · unfold State.RecordsMatchLists; decide +kernel
  · decide +kernel
  · rintro p c (h | ⟨k, h⟩) <;> cases h
  · decide
  · intro p a b h; cases h

/-- The verdict of the sample stands in its reception; one that a RESTART leaves standing, in OFFLINE. -/
theorem test_sample_verdict : sample.VerdictInFrame ∧ sample.rxu.verdict ≠ none ∧
    (({ sample.afterRestart with
        rif := { sample.afterRestart.rif with broken := some (.reception false) } } :
          State).takeBrokenHeader header).VerdictInFrame := by
  refine ⟨fun _ => ⟨rfl, rfl, rfl, .inl rfl⟩, ?_, fun _ => ⟨rfl, rfl, rfl, .inr ⟨rfl, rfl⟩⟩⟩
  decide +kernel

/-- The sample after a RESTART: its reception is broken off, and the station is OFFLINE with no frame. -/
theorem test_sample_restarted :
    sample.afterRestart.rif =
        { line := .busy, idleCount := 0, reception := none, transmit := none, replyDue := none,
          broken := some (.reception true) } ∧
      sample.afterRestart.stc.state = .offline := by decide

/-- Every StepKeeps statement has this state and its next one. -/
theorem test_sample_steps : ∃ t, step sample = .next t := ⟨_, rfl⟩

/-- RoomMeansAFreeBuffer: handles are assigned, and peer 3 has room. -/
theorem test_sample_room : sample.handle 0 ≠ .unassigned ∧
    1 ≤ (sample.peer 3).r - (sample.peer 3).inUse
          - distance (sample.peer 3).ackedTotal (sample.peer 3).releasedTotal := by decide +kernel

/-! ### Worked values of the spec -/

/-- STATUS of an ONLINE station with LW 9 known, ROTATION and the latch set reads 0x2714. -/
theorem test_status_word :
    registerWord
      { online with
        stc := { online.stc with latch := true }
        ctu := { online.ctu with lw := 9, lwKnown := true, kind := .rotation } } 0x100 = 0x2714 := by
  decide +kernel

/-- The check of the nine bytes of the digits 1 to 9 (R110). -/
theorem test_frame_check :
    frameCheck [0x31, 0x32, 0x33, 0x34, 0x35, 0x36, 0x37, 0x38, 0x39] = 0xFC891918 := by decide +kernel

/-- The slot indexes in a ROTATION window after station 9: 10 is first and 9 is last (R125). -/
theorem test_slot_index : slotIndex .rotation 10 9 = 0 ∧ slotIndex .rotation 31 9 = 21 ∧
    slotIndex .rotation 0 9 = 22 ∧ slotIndex .rotation 9 9 = 31 ∧ slotIndex .ordered 9 9 = 9 := by decide

/-- The default reservations give R 93, and one JOIN later handles 0 to 34 are on the transmit side. -/
theorem test_default_pool : reserveSum 0 State.reset.stc.reserveRegs = 93 ∧
    State.reset.joined.handle 34 = .txFree ∧ State.reset.joined.handle 35 = .rxFree := by decide +kernel

/-! ### Witnesses: reset, the queue and the host port -/

/-- A window with its slot clock at c, the idle count at n, and a slot. -/
def window (c n : Nat) (slot : Option Nat) (s : State) : State :=
  { idleFor n s with ctu := { s.ctu with slotClock := some c, slot := slot } }

/-- Each event of EmptyQueuePassesOneBitTime at its moment, none earlier in the order due, and bit times that
bring none: with no window, with a reply or a train gap before its moment, in a window before the slot, while a
reply is awaited. -/
theorem test_EmptyQueuePassesOneBitTime :
    ((State.heldInReset online).resetLow = true ∧ (receiving online).rif.line = .busy) ∧
      ((idleFor 5 online).replying 1 .accept).dueCommand = some .replyMoment ∧
      { idleFor 8 online with txa := { Txa.clear with gap := true } }.dueCommand = some .trainGapEnd ∧
      (idleFor 15 online).dueCommand = some .settleGap ∧
      (window 3 19 (some 1) online).dueCommand = some .slotStart ∧
      (window 251 267 (some 63) online).dueCommand = some .slotStart ∧
      (awaiting messageItem (window 6 23 none session)).dueCommand = some .replyTimeout ∧
      (window 255 271 none online).dueCommand = some .windowLastSlotEnd ∧
      (window 254 1023 none online).dueCommand = some .listenTimeout ∧
      ((idleFor 14 online).dueCommand = none ∧ ((idleFor 4 online).replying 1 .accept).dueCommand = none ∧
        { idleFor 7 online with txa := { Txa.clear with gap := true } }.dueCommand = none ∧
        (window 2 18 (some 1) online).dueCommand = none ∧
        (awaiting messageItem (window 5 22 none session)).dueCommand = none ∧
        (window 254 1024 none online).dueCommand = none) := by decide +kernel

theorem test_PinResetBringsTheResetState : (State.heldInReset online).resetLow = true ∧
    hostReadCommand 0x101 = some .stateChangeRead := by decide +kernel

/-- The host port's pins at address 0x101. -/
def pins (cs rd wr : PinLevel) : BusPins := { cs := cs, rd := rd, wr := wr, addr := 0x101, data := 5 }

theorem test_BusCyclesStandForCommands :
    (ownWriteRow 0x080 = false ∧ ownWriteRow 0x104 = false ∧ ownWriteRow 0x180 = false ∧
        ownWriteRow 0x1FF = false) ∧
      ((pins .low .low .high).reads = true ∧ (pins .low .high .low).writes = true ∧
        (pins .low .low .low).rd = (pins .low .low .low).wr ∧ (pins .high .low .high).cs = .high ∧
        (pins .low .high .high).rd = (pins .low .high .high).wr) ∧
      hostReadCommand 0x100 = none ∧ (hostReadCommand 0x101).isSome = true := by decide +kernel

/-- A read of STATE_CHANGE holds its value until RD# is released; a write is taken at its release; RD# that
joins a write takes it away; a cycle that RESET# abandons takes nothing and lasts as long as its levels do. -/
theorem test_bus_cycle :
    BusCycle.idle.onPins online (pins .low .low .high) = (.reading 4, some (.read 0x101)) ∧
      (BusCycle.reading 4).onPins online (pins .low .high .high) = (.idle, none) ∧
      BusCycle.writing.onPins online (pins .high .high .low) = (.idle, some (.write 0x101 5)) ∧
      BusCycle.writing.onPins online (pins .low .low .low) = (.idle, none) ∧
      BusCycle.writing.onResetFall.onPins online (pins .low .high .low) = (.abandonedWrite, none) ∧
      BusCycle.abandonedWrite.onPins online (pins .low .high .high) = (.idle, none) := by decide +kernel

/-- A read is abandoned; WR# joins, which is no access; RD# is released, which begins a write; its release takes
it. The same with the strobes exchanged ends in a read of its own. -/
theorem test_bus_cycle_after_abandoned :
    (BusCycle.reading 4).onResetFall = .abandonedRead ∧
      BusCycle.abandonedRead.onPins online (pins .low .low .low) = (.idle, none) ∧
      BusCycle.idle.onPins online (pins .low .low .low) = (.idle, none) ∧
      BusCycle.idle.onPins online (pins .low .high .low) = (.writing, none) ∧
      BusCycle.writing.onPins online (pins .low .high .high) = (.idle, some (.write 0x101 5)) ∧
      BusCycle.abandonedWrite.onPins online (pins .low .low .low) = (.idle, none) ∧
      (BusCycle.idle.onPins online (pins .low .low .high)).1.dataLines = some 4 := by decide +kernel

theorem test_TakesAndReleasesOfBuffers :
    (online.resetLow = false ∧ online.bfm.txFree = []) ∧
      (sample.bfm.txFree = (sample.bfm.txFree.head (by decide +kernel)) :: sample.bfm.txFree.tail) ∧
      (sample.handle 122 = .held 1 ∧ (sample.peer 1).state = .isOpen) ∧
      ((sample.setPeer 1 (Peer.fresh 4)).handle 122 = .held 1 ∧
        ((sample.setPeer 1 (Peer.fresh 4)).peer 1).state ≠ .isOpen) ∧
      sample.handle 0 = .composing ∧ 128 ≤ (0x80 : Word).toNat ∧
      ∃ h : Handle, sample.handle h ≠ .composing ∧ ∀ p, sample.handle h ≠ .held p := by
  refine ⟨⟨rfl, rfl⟩, ?_, ?_, ?_, ?_, ?_, ⟨1, ?_⟩⟩ <;> decide +kernel

theorem test_WindowAccessesAreChecked :
    ({ sample with bfm := { sample.bfm with winsel := 0 } } : State).handle 0 = .composing ∧
      sample.handle sample.bfm.winsel = .held 1 ∧ sample.handle 121 = .posted 1 ∧
      online.handle online.bfm.winsel = .unassigned ∧ Memory.wf sample.bfm.mem := by decide +kernel

/-- Buffer 0 stays in the host's hands while buffer 122 is released and buffer 2 is named in a send. -/
theorem test_HostKeepsTheBuffersItTook : sample.handle 0 = .composing ∧ sample.handle 122 = .held 1 ∧
    (122 : Word).toNat ≠ (0 : Handle).val ∧ ∃ t, exec (.releaseWrite 122) sample = .next t :=
  ⟨by decide +kernel, by decide +kernel, by decide, ⟨_, rfl⟩⟩

/-- A staged request. -/
def request (dest length handle : Word) (s : State) : State :=
  { s with hpu := { s.hpu with sendDest := dest, sendLength := length, sendHandle := handle } }

theorem test_SendGoChecksInOrder :
    State.reset.stc.state ≠ .online ∧ online.markLeave.stc.leaveMark = true ∧
      (32 ≤ (request 32 1 0 sample).hpu.sendDest.toNat ∧
        (request 0 1 0 sample).hpu.sendDest.toNat = sample.stc.sid.val) ∧
      ((request 1 0 0 sample).hpu.sendLength.toNat = 0 ∧
        256 < (request 1 257 0 sample).hpu.sendLength.toNat) ∧
      ((sample.peer 4).state = .absent ∧ (withPeer { openPeer with state := .lost }).resetLow = false ∧
        ((withPeer { openPeer with state := .lost }).peer 1).state = .lost) ∧
      32 ≤ (List.replicate 32 (entry .waiting)).length + 0 ∧
      (128 ≤ (request 1 1 128 sample).hpu.sendHandle.toNat ∧ sample.handle 1 ≠ .composing) := by
  decide +kernel

/-- A request that passes every check, at both ends of the length. -/
theorem test_SendGoChecksInOrder_accepted : ∀ n : Word, n = 1 ∨ n = 256 →
    let s := request 1 n 0 sample
    s.resetLow = false ∧ s.stc.state = .online ∧ s.stc.leaveMark = false ∧
      s.hpu.sendDest.toNat = (1 : StationId).val ∧ 1 ≠ s.stc.sid ∧ 1 ≤ s.hpu.sendLength.toNat ∧
      s.hpu.sendLength.toNat ≤ 256 ∧ (s.peer 1).state = .isOpen ∧
      s.snu.sendList.length + s.snu.completions.length < 32 ∧
      s.hpu.sendHandle.toNat = (0 : Handle).val ∧ s.handle 0 = .composing := by
  rintro n (rfl | rfl)
  all_goals decide +kernel

theorem test_PopsTakeTheOldestRecord :
    (online.rxu.inbound = [] ∧ online.snu.completions = [] ∧ online.atu.peerEvents = []) ∧
      sample.rxu.inbound.length = 1 ∧ sample.snu.completions.length = 1 ∧
      sample.atu.peerEvents.length = 1 := by decide

/-- Source 3 is in service and source 1 is pending. -/
theorem test_AttentionReadTakesTheLowestPending :
    (∀ n : Fin 5, online.sourcePending n = false) ∧ sample.sourcePending 1 = true ∧
      (∀ m : Fin 5, m < 1 → sample.sourcePending m = false) ∧ sample.atnAsserted = true := by decide

theorem test_FinishClearsTheLowestInService : online.atu.inService = 0 ∧
    sample.atu.inService.getLsbD 3 = true ∧
    (∀ m : Fin 5, m < 3 → sample.atu.inService.getLsbD m.val = false) ∧
    sample.atu.enables.getLsbD 2 = true ∧ sample.condition 2 = true := by decide

theorem test_ReadWordsPackTheRegisters :
    sample.WithinBudget ∧ sample.bfm.txFree.length < 256 ∧ sample.bfm.rxFree.length < 256 ∧
      sample.atu.fault = none ∧
      (sample.faulted .sequence 1 .message 4).atu.fault =
        some { kind := .sequence, peer := 1, frame := .message, value := 4, more := false } ∧
      sample.hpu.peerSelect = sample.stc.sid ∧
      (3 : StationId) ≠ sample.stc.sid ∧ (sample.peer 3).InBounds ∧
      (hostReadCommand 0x13F = none ∧ registerWord sample 0x13F = 0 ∧ registerWord sample 0x15F = 0 ∧
        registerWord sample 0x109 = 0 ∧ registerWord sample 0x184 = 0) := by
  refine ⟨?_, ?_, ?_, rfl, rfl, rfl, ?_, ?_, ?_⟩
  · unfold State.WithinBudget; decide
  · decide +kernel
  · decide
  · decide
  · unfold Peer.InBounds; decide +kernel
  · decide +kernel

/-- RegisterWritesStoreTheirFields: an address with a row of its own, a read-only one and an unmapped one. -/
theorem test_RegisterWritesStoreTheirFields : ∀ a : BitVec 9, a = 0x102 ∨ a = 0x180 ∨ a = 0x117 →
    a ≠ 0x104 ∧ a ≠ 0x110 ∧ a ≠ 0x114 ∧ a ≠ 0x130 ∧ exec (.registerWrite a 7) online = .next online := by
  rintro a (rfl | rfl | rfl)
  all_goals exact ⟨by decide, by decide, by decide, by decide, rfl⟩

/-- The reservations at the limit of 112, and one over it. -/
def reserved (last : BitVec 4) : Vector (BitVec 4) 32 :=
  Vector.ofFn fun p => if p.val = 0 then 15 else if p.val ≤ 7 then 15 else if p.val = 8 then last else 0

theorem test_JoinRebuildsTheStation : State.reset.stc.state = .offline ∧ online.stc.state ≠ .offline ∧
    reserveSum 0 (reserved 7) = 112 ∧ reserveSum 0 (reserved 8) = 113 ∧
    (idleFor 1024 State.reset).rif.line = .idle ∧ State.reset.rif.idleCount ≠ 1024 := by decide +kernel

/-- A station in a state of its own, its ANNOUNCE or LEAVE pending as the state asks. -/
def station (st : StationState) : State :=
  { State.reset with
    stc :=
      { State.reset.stc with
        state := st
        pendingAnnounce := decide (st = .announcing)
        pendingLeave := decide (st = .leaving) } }

theorem test_LeaveInEveryState :
    (station .listening).stc.leaveMark = false ∧
      (∀ p, (station .announcing).rif.transmit ≠ some (.announce p)) ∧
      (∃ p, (transmitting (station .announcing) (.announce 0)).rif.transmit = some (.announce p)) ∧
      (¬ ((receiving online).txa.exchange = .idle ∧ (receiving online).rif.reception = none ∧
          (receiving online).rif.replyDue = none ∧ (receiving online).rif.transmit = none)) ∧
      (online.txa.exchange = .idle ∧ online.rif.reception = none ∧ online.rif.replyDue = none ∧
        online.rif.transmit = none) ∧
      online.markLeave.stc.leaveMark = true ∧ (station .halted).stc.state = .halted :=
  ⟨rfl, nofun, ⟨0, rfl⟩, by decide, by decide, rfl, rfl⟩

/-- What a RESTART breaks off: a reception with its header handed and without, each kind of own frame; after it
nothing is received or sent. -/
theorem test_RestartClearsTheStation :
    (transmitting online (.greet 0 1 1 0)).rif.brokenOff = some (.own .greet) ∧
      (receiving online).rif.brokenOff = some (.reception true) ∧ online.rif.brokenOff = none ∧
      (let s : State := (receiving online).afterRestart
       s.resetLow = false ∧ s.stc.state = .offline ∧ s.txa.exchange ≠ .awaitReply ∧ s.rxu.fill = none ∧
         s.rif.reception = none ∧ s.rif.transmit = none ∧ s.rif.line = .busy) ∧
      (∀ x : Bool, ∃ s : State, s.stc.state = .offline ∧ s.rif.broken = some (.reception x)) ∧
      ∀ k : FrameKind, ∃ s : State, s.stc.state = .offline ∧ s.rif.broken = some (.own k) :=
  ⟨rfl, rfl, rfl, by decide,
    fun x => ⟨{ State.reset with rif := { State.reset.rif with broken := some (.reception x) } }, rfl, rfl⟩,
    fun k => ⟨{ State.reset with rif := { State.reset.rif with broken := some (.own k) } }, rfl, rfl⟩⟩

theorem test_RegreetRecoversALostPeer :
    State.reset.stc.state ≠ .online ∧ 32 ≤ (32 : BitVec 6).toNat ∧ 32 ≤ (63 : BitVec 6).toNat ∧
      (online.peer 31).state ≠ .lost ∧ (online.peer 0).state = .self ∧
      ((withPeer { openPeer with state := .lost }).peer 1).state = .lost := by decide +kernel

theorem test_ClearFaultAndClearFlags :
    ({ sample with bfm := { sample.bfm with winsel := 2 } } : State).handle 2 = .txFree ∧
      sample.stc.state ≠ .offline ∧ sample.resetLow = false ∧ sample.atu.enables.getLsbD 0 = true ∧
      sample.atu.inService.getLsbD 3 = true ∧
      ∀ m : Fin 5, sample.atu.inService.getLsbD m.val = true → 0 < m := by decide +kernel

/-! ### Witnesses: the line, the windows and the frames of this station -/

/-- ONLINE in demand mode, with the credit return of peer 3 owed. -/
def demanding : State :=
  { sample with ssu := { sample.ssu with greetList := [] }, cru := { list := [3], demand := true } }

theorem test_TheFrameChosenByOrder :
    ((station .announcing).stc.pendingAnnounce = true ∧ (station .leaving).stc.pendingLeave = true) ∧
      (online.stc.state = .online ∧ online.markLeave.stc.leaveMark = true) ∧
      sample.ssu.greetList = 2 :: [] ∧
      (demanding.ssu.greetList = [] ∧ demanding.cru.demand = true ∧ demanding.cru.list = 3 :: []) ∧
      ((sendingOne .waiting session).ssu.greetList = [] ∧
        (sendingOne .waiting session).eligible = some (entry .waiting)) ∧
      ((sendingOne .retry session).eligible = some (entry .retry)) ∧
      (session.eligible = none ∧ session.cru.demand = false ∧ session.cru.list = []) := by decide +kernel

theorem test_PeerEventsFoldInPlace :
    (∀ e ∈ sample.atu.peerEvents, e.peer ≠ 1) ∧
      ∃ a b e, sample.atu.peerEvents = a ++ e :: b ∧ e.peer = 2 ∧ e.changes = 255 ∧ ∀ f ∈ a, f.peer ≠ 2 :=
  ⟨by decide, [], [], _, rfl, rfl, rfl, nofun⟩

theorem test_LineTurnsBusyAndIdle :
    ((receiving online).rif.line = .busy ∧ (receiving online).rif.reception ≠ none) ∧
      online.rif.line = .idle ∧
      (let s : State := { receiving online with rif := { (receiving online).rif with reception := none } }
       s.rif.line = .busy ∧ s.rif.reception = none ∧ s.rif.transmit = none) := by decide

theorem test_WindowsBeginWithASlot :
    ((idleFor 15 online).rif.line = .idle ∧ (idleFor 15 online).ctu.slotClock = none) ∧
      (idleFor 16 online).rif.idleCount ≤ 16 ∧
      ((window 255 271 none online).ctu.slotClock = some 255 ∧ (255 : Nat) < 256) := by decide

/-- A slot start with work and without, and the end of a train gap with work and without. -/
theorem test_StartsOfTheChosenFrame :
    ((window 0 16 (some 0) (station .announcing)).choose = some .announce ∧
        (window 0 16 (some 0) (station .announcing)).ctu.slot = some 0) ∧
      ((window 252 268 (some 63) online).choose = none ∧ (252 : Nat) ≤ 4 * 63 ∧ 4 * 63 < 256) ∧
      (let s : State := { idleFor 9 (sendingOne .retry session) with
          txa := { exchange := .idle, train := 1, gap := true, item := none } }
       s.txa.gap = true ∧ s.rif.line = .idle ∧ s.choose = some (.message (entry .retry))) ∧
      ({ idleFor 9 online with
          txa := { exchange := .idle, train := 1, gap := true, item := none } } : State).choose = none ∧
      (receiving online).rif.line = .busy := by decide +kernel

/-- Bit times sensed against an ANNOUNCE of station 0: its own, and its own but for a dominant level in the
first half that it drives recessive. -/
def sensed (cut : Bool) : List (Level × Level) :=
  match (Frame.announce 0).lineHalves with
  | (first, second) :: rest =>
    if cut then (.dominant, .dominant) :: rest else (first, second) :: rest
  | [] => []

theorem test_compare :
    mismatch .recessive .dominant = true ∧ mismatch .dominant .recessive = false ∧
      (Frame.announce 0).endCommand (sensed true) = .collision ∧
      (Frame.announce 0).endCommand (sensed false) = .ownAnnounceEnd ∧
      (drivenUntilCut (Frame.announce 0).lineHalves (sensed true)).length = 1 := by decide +kernel

/-- A REPLY, a GREET, a MESSAGE and an ANNOUNCE on the line, with the leave mark clear and set; bit times with a
mismatch in the first half, in the second and in none. -/
theorem test_CollisionCutsTheTransmission :
    ((transmitting online (.reply 0 1 .accept)).rif.transmit = some (.reply 0 1 .accept) ∧
        (Frame.reply 0 1 .accept).kind = .reply) ∧
      ((Frame.greet 0 1 1 0).kind ≠ .reply ∧
        ∀ h p c, (awaiting (.greet 1) online).txa.item ≠ some (.message h p c)) ∧
      (awaiting messageItem (sendingOne .sending session)).txa.item = some (.message 1 1 carried) ∧
      ((station .announcing).markLeave.stc.leaveMark = true ∧
        (awaiting .announce (station .announcing).markLeave).txa.item = some .announce) ∧
      (bitMismatch (.recessive, .dominant) (.dominant, .dominant) = true ∧
        bitMismatch (.dominant, .recessive) (.dominant, .dominant) = true ∧
        bitMismatch (.dominant, .recessive) (.dominant, .recessive) = false) :=
  ⟨⟨rfl, rfl⟩, ⟨by decide, nofun⟩, rfl, ⟨rfl, rfl⟩, by decide⟩

theorem test_OwnTransmissionsEnd :
    ((Frame.greet 0 1 1 0).kind = .greet ∧ (Frame.credit 0 1 carried).kind = .credit ∧
        (Frame.message 0 1 carried 0 9 [1]).kind = .message ∧ (Frame.reply 0 1 .stale).kind = .reply) ∧
      (transmitting (station .announcing) (.announce 0)).rif.transmit = some (.announce 0) ∧
      (station .announcing).stc.leaveMark = false ∧ (station .announcing).markLeave.stc.leaveMark = true ∧
      (transmitting (station .leaving) (.leave 0)).rif.transmit = some (.leave 0) := by decide

theorem test_ReplyMomentSendsTheReply :
    (receiving online).rif.line = .busy ∧
      (∀ st, (session.replying 1 st).rif.replyDue = some { peer := 1, status := st } ∧
        (session.replying 1 st).rif.line = .idle) ∧
      (online.replying 1 (.greeted 255 255)).resetLow = false :=
  ⟨rfl, fun _ => ⟨rfl, rfl⟩, rfl⟩

/-- The limit of four attempts: two attempts before make the third, three before make the fourth. -/
def limited (s : State) : State := { s with stc := { s.stc with retryLimit := some 4 } }

theorem test_ReplyTimeoutOfAMessage : ∀ n : Nat, n = 2 ∨ n = 3 → ∃ (s : State) (e : SendEntry),
    s.Awaiting messageItem ∧ s.rif.line = .idle ∧ s.rif.idleCount ≤ 24 ∧ e ∈ s.snu.sendList ∧
      e.handle = 1 ∧ e.dest = 1 ∧ e.phase = .sending ∧
      (∀ f ∈ s.snu.sendList, f.handle = 1 → f = e) ∧ (s.peer 1).state = .isOpen ∧
      s.stc.retryLimit = some 4 ∧ (n = 2 → min 255 (e.attempts + 1) < 4) ∧
      (n = 3 → 4 ≤ min 255 (e.attempts + 1)) := by
  intro n hn
  refine ⟨{ limited (awaiting messageItem (idleFor 24 session)) with
      snu := { sendList := [{ entry .sending with attempts := n }], completions := [] } },
    { entry .sending with attempts := n }, ⟨rfl, rfl, rfl, rfl, rfl⟩, rfl, Nat.le_refl 24,
    List.mem_singleton.2 rfl, rfl, rfl, rfl, ?_, ?_, rfl, ?_, ?_⟩
  · intro f hf _
    exact List.mem_singleton.1 hf
  · show (session.peer 1).state = .isOpen
    decide +kernel
  · rintro rfl; decide
  · rintro rfl; decide

/-- A peer that is being greeted. -/
def greetingPeer : Peer := { Peer.fresh 4 with state := .greeting, mySess := 1, ctlAttempts := 3 }

/-- One attempt before the limit of four and at it, for a GREET and for a CREDIT. -/
theorem test_ReplyTimeoutOfAGreetOrCredit :
    (∀ n : Nat, n = 2 ∨ n = 3 →
      let s := limited (awaiting (.greet 1)
        ((withPeer { greetingPeer with ctlAttempts := n }).appendGreet 1))
      s.Awaiting (.greet 1) ∧ s.rif.line = .idle ∧ s.rif.idleCount ≤ 24 ∧
        (s.peer 1).state = .greeting ∧ 1 ∈ s.ssu.greetList ∧ s.stc.retryLimit = some 4 ∧
        (s.peer 1).ctlAttempts = n) ∧
      ∀ n : Nat, n = 2 ∨ n = 3 →
        let s := limited (awaiting (.credit 1 carried)
          { withPeer { openPeer with ctlAttempts := n } with cru := { list := [1], demand := false } })
        s.Awaiting (.credit 1 carried) ∧ s.rif.line = .idle ∧ s.rif.idleCount ≤ 24 ∧
          (s.peer 1).state = .isOpen ∧ (s.peer 1).mySess = carried.srcSess ∧
          (s.peer 1).theirSess = some carried.dstSess ∧ 1 ∈ s.cru.list ∧
          s.stc.retryLimit = some 4 ∧ (s.peer 1).ctlAttempts = n := by
  refine ⟨?_, ?_⟩ <;> rintro n (rfl | rfl)
  all_goals refine ⟨⟨rfl, rfl, rfl, rfl, rfl⟩, ?_⟩
  all_goals decide +kernel

/-! ### Witnesses: frames received -/

/-- The reply of the peer to each item: with the record in the session of the frame, in another, not OPEN, and
ABSENT. -/
theorem test_RepliesAreTaken :
    (∀ q : Peer, (receiving (awaiting messageItem (withPeer q))).Awaiting (.message 1 1 carried) ∧
        (receiving (awaiting (.credit 1 carried) (withPeer q))).Awaiting (.credit 1 carried) ∧
        (receiving (awaiting (.greet 1) (withPeer q))).Awaiting (.greet 1) ∧
        (receiving (withPeer q)).rif.reception.isSome = true ∧ (withPeer q).rxu.fill = none ∧
        (1 : StationId) ≠ (withPeer q).stc.sid) ∧
      ((session.peer 1).state = .isOpen ∧ (session.peer 1).mySess = carried.srcSess ∧
        (session.peer 1).theirSess = some carried.dstSess) ∧
      ((withPeer { openPeer with mySess := 4 }).peer 1).mySess ≠ carried.srcSess ∧
      ((withPeer greetingPeer).peer 1).state = .greeting ∧
      ((withPeer { openPeer with state := .lost }).peer 1).state = .lost ∧
      ((withPeer (Peer.fresh 4)).heardFrom 1).peer 1 =
        { Peer.fresh 4 with state := .greeting, mySess := 1 } := by
  have other : (1 : StationId) ≠ 0 := by decide
  refine ⟨fun q => ⟨⟨rfl, rfl, rfl, rfl, rfl⟩, ⟨rfl, rfl, rfl, rfl, rfl⟩, ⟨rfl, rfl, rfl, rfl, rfl⟩, rfl, rfl,
    other⟩, ?_, ?_, ?_, ?_, ?_⟩ <;> decide +kernel

/-- Frames that bring no reply to the exchange with peer 1: one from another station, one to another station,
one whose source is over 31, the status codes 0 and 5, and statuses that do not answer the frame. -/
theorem test_FrameEffectsComeBeforeTheOutcome :
    (∀ item : Item, (receiving (awaiting item session)).Awaiting item) ∧
      ((2 : Byte) ≠ session.stc.sid.byte ∧ (32 : Byte) ≠ session.stc.sid.byte ∧
        (1 : Byte) ≠ session.stc.sid.byte) ∧
      (messageItem.dest?.map StationId.byte ≠ some 2 ∧ messageItem.dest?.map StationId.byte = some 1 ∧
        (5 : StationId) ≠ session.stc.sid ∧ 4 < (5 : Byte).toNat) ∧
      (∃ h p k, messageItem = .message h p k) ∧ (∃ p k, Item.credit 1 carried = .credit p k) ∧
      ∃ p, Item.greet 1 = .greet p :=
  ⟨fun _ => ⟨rfl, rfl, rfl, rfl, rfl⟩, by decide, by decide, ⟨_, _, _, rfl⟩, ⟨_, _, rfl⟩, ⟨_, rfl⟩⟩

/-- The last sequence number taken from peer 1. -/
def after (v : Byte) : Peer := { openPeer with lastRxSeq := some v }

theorem test_HeadersAreJudgedInOrder :
    (({ header with version := 2 } : MessageHeader).version ≠ 1 ∧
        ({ header with dst := 63 } : MessageHeader).dst ≠ online.stc.sid.byte) ∧
      ((station .listening).stc.state ≠ .online ∧ online.markLeave.stc.leaveMark = true ∧
        ({ header with src := 0 } : MessageHeader).src = online.stc.sid.byte ∧
        32 ≤ ({ header with src := 32 } : MessageHeader).src.toNat) ∧
      (header.version = 1 ∧ header.dst = session.stc.sid.byte ∧ header.src = (1 : StationId).byte ∧
        (1 : StationId) ≠ session.stc.sid) ∧
      ({ header with srcSess := 8 } : MessageHeader).srcSess ≠ 7 ∧
      ((session.peer 1).state = .isOpen ∧ (session.peer 1).theirSess = some header.srcSess ∧
        (session.peer 1).mySess = header.dstSess) ∧
      (((withPeer (after 0)).peer 1).lastRxSeq = some header.seq ∧
        ((withPeer (after 254)).peer 1).lastRxSeq = some 254 ∧ header.seq ≠ 254 ∧
        header.seq ≠ (254 : Byte) + 1) ∧
      ((session.peer 1).lastRxSeq = none ∧ ({ header with seq := 1 } : MessageHeader).seq ≠ 0) ∧
      (((withPeer { after 255 with inUse := 4 }).peer 1).lastRxSeq = some (header.seq - 1) ∧
        ((withPeer { after 255 with inUse := 4 }).peer 1).room = 0) := by decide +kernel

/-- A header that is admitted with room for one message, the first of a session. -/
theorem test_AdmittedHeaderStartsAFill : ∃ s : State,
    s.resetLow = false ∧ s.rif.reception = some { headerSeen := false } ∧ header.version = 1 ∧
      header.dst = s.stc.sid.byte ∧ s.stc.state = .online ∧ s.stc.leaveMark = false ∧
      header.src = (1 : StationId).byte ∧ 1 ≠ s.stc.sid ∧ (s.peer 1).state = .isOpen ∧
      (s.peer 1).theirSess = some header.srcSess ∧ (s.peer 1).mySess = header.dstSess ∧
      (s.peer 1).lastRxSeq = none ∧ header.seq = 0 ∧
      1 = (s.peer 1).r - (s.peer 1).inUse - distance (s.peer 1).ackedTotal (s.peer 1).releasedTotal ∧
      s.bfm.rxFree = 123 :: [124, 125, 126, 127] ∧ s.rxu.fill = none ∧
      [(5 : Byte)].length ≤ header.lengthByte.toNat + 1 ∧ Memory.wf s.bfm.mem :=
  ⟨{ withPeer { openPeer with inUse := 3 } with
      bfm := sample.bfm
      rif := { (receiving online).rif with reception := some { headerSeen := false } } },
    by decide +kernel⟩

theorem test_MessageFrameEnds :
    ((receiving session).AtFrameEnd ∧ session.rxu.fill = none ∧ (receiving session).rxu.verdict = none) ∧
      ((online.peer 1).state = .absent ∧ ¬ ((session.peer 1).state = .absent ∨
        (session.peer 1).state = .lost)) ∧
      (∀ cls total, (judged cls total).AtFrameEnd ∧ (judged cls total).rxu.fill = none ∧
        (judged cls total).rxu.verdict = some (verdict cls total) ∧
        (verdict cls total).source = (1 : StationId).byte ∧ (verdict cls total).cls = cls) ∧
      (distance openPeer.creditSeen 0 = 0 ∧ openPeer.creditsHeld + distance openPeer.creditSeen 13 = 15 ∧
        openPeer.creditsHeld + distance openPeer.creditSeen 14 = 16) ∧
      let s := filling (judged .admitted 13)
      s.AtFrameEnd ∧ s.rxu.verdict = some (verdict .admitted 13) ∧ (s.peer 1).state = .isOpen ∧
        s.rxu.fill = some fill ∧ fill.source = 1 := by
  refine ⟨⟨⟨rfl, rfl, rfl, rfl, nofun⟩, rfl, rfl⟩, ?_,
    fun cls total => ⟨⟨rfl, rfl, rfl, rfl, nofun⟩, rfl, rfl, rfl, rfl⟩, ?_,
    ⟨rfl, rfl, rfl, rfl, nofun⟩, rfl, ?_, rfl, rfl⟩
  all_goals decide +kernel

theorem test_CreditGreetAndReplyFrames :
    ((receiving session).AtFrameEnd ∧ (1 : StationId) ≠ session.stc.sid) ∧
      ((2 : StationId) ≠ session.stc.sid ∧ (0 : StationId) = session.stc.sid) ∧
      ((session.peer 1).theirSess = some 7 ∧ (session.peer 1).mySess = 3) ∧
      (session.peer 1).theirSess ≠ some 8 ∧
      ((withPeer { openPeer with state := .lost }).peer 1).state = .lost ∧
      (distance openPeer.creditSeen 14 ≠ 0 ∧
        15 < openPeer.creditsHeld + distance openPeer.creditSeen 14) := by
  refine ⟨⟨⟨rfl, rfl, rfl, rfl, nofun⟩, ?_⟩, ?_, ?_, ?_, ?_, ?_⟩
  all_goals decide +kernel

theorem test_AnnounceAndLeaveFrames :
    (receiving online).AtFrameEnd ∧ (online.peer 31).state = .absent ∧ (session.peer 1).state = .isOpen ∧
      ((withPeer greetingPeer).peer 1).state = .greeting ∧
      ((withPeer { openPeer with state := .lost }).peer 1).state = .lost := by
  refine ⟨⟨rfl, rfl, rfl, rfl, nofun⟩, ?_, ?_, ?_, ?_⟩
  all_goals decide +kernel

theorem test_UnknownAndBadFrameEnds :
    (∀ st : StationState, (receiving (station st)).resetLow = false ∧
        (receiving (station st)).rif.reception.isSome = true ∧
        (receiving (station st)).txa.exchange ≠ .awaitReply ∧
        (receiving (station st)).stc.leaveMark = false ∧ (receiving (station st)).rxu.fill = none ∧
        (receiving (station st)).rxu.verdict = none) ∧
      (32 ≤ (32 : Byte).toNat ∧ 32 ≤ (255 : Byte).toNat) ∧
      ({ verdict .ignored 0 with source := 32 } : Verdict).source = 32 ∧
      (receiving session).AtFrameEnd ∧ (receiving session).rxu.fill = none ∧
      (filling (receiving session)).AtFrameEnd ∧ (filling (receiving session)).rxu.fill = some fill :=
  ⟨fun _ => ⟨rfl, rfl, nofun, rfl, rfl, rfl⟩, by decide, rfl, ⟨rfl, rfl, rfl, rfl, nofun⟩, rfl,
    ⟨rfl, rfl, rfl, rfl, nofun⟩, rfl⟩

theorem test_FramesOutsideOnline :
    ((station .listening).stc.state ≠ .online ∧ (station .offline).stc.state ≠ .online ∧
        (station .halted).txa.exchange ≠ .awaitReply ∧ (1 : StationId) ≠ (station .listening).stc.sid) ∧
      ((station .offline).stc.state = .offline ∧ (station .halted).stc.state = .halted ∧
        (0 : StationId) = (station .halted).stc.sid) ∧
      ((receiving (station .listening)).rif.reception.isSome = true ∧
        (receiving (station .listening)).rxu.fill = none) ∧
      ((idleFor 1023 (station .listening)).rif.line = .idle ∧
        (idleFor 1023 (station .listening)).rif.idleCount < 1024) := by decide

/-- A station that waits to leave, in each of the places where its part is settled: outcomes of the three kinds
of exchange, collisions of the four kinds of frame, the end of its REPLY, and frame ends with an exchange and
without. -/
theorem test_TheLeaveMarkWaitsForTheLine :
    (∀ item : Item,
      let s := awaiting item (idleFor 24 session.markLeave)
      s.resetLow = false ∧ s.stc.state = .online ∧ s.stc.leaveMark = true ∧ s.rif.replyDue = none ∧
        s.rxu.fill = none ∧ s.txa.item = some item ∧ s.txa.exchange = .awaitReply ∧ s.rif.line = .idle ∧
        s.rif.idleCount ≤ 24 ∧ s.rif.reception = none ∧ s.rif.transmit = none) ∧
      (∀ item : Item,
        let s := receiving (awaiting item session.markLeave)
        s.stc.leaveMark = true ∧ s.txa.item = some item ∧ s.txa.exchange = .awaitReply ∧
          s.rif.reception.isSome = true ∧ s.rif.transmit = none) ∧
      (∀ (item : Item) (f : Frame),
        let s := transmitting (awaiting item session.markLeave) f
        s.rif.transmit = some f ∧ s.txa.item = some item ∧ s.rif.reception = none) ∧
      ((Frame.greet 0 1 1 0).kind ≠ .reply ∧ (Frame.credit 0 1 carried).kind ≠ .reply ∧
        (Frame.reply 0 1 .accept).kind = .reply) ∧
      (let s := transmitting session.markLeave (.reply 0 1 .accept)
       s.txa.exchange = .idle ∧ s.rif.transmit = some (.reply 0 1 .accept)) ∧
      (let s := receiving session.markLeave
       s.txa.exchange = .idle ∧ s.rif.reception.isSome = true ∧ s.rif.transmit = none) ∧
      ((session.peer 1).state = .isOpen ∧ (session.peer 1).mySess = carried.srcSess ∧
        (session.peer 1).theirSess = some carried.dstSess ∧ (online.peer 1).state ≠ .isOpen) ∧
      (Instr.badFrameEnd.EndsFrameOfOther 0 ∧ (Instr.messageFrameEnd 1 0).EndsFrameOfOther 0 ∧
        (Instr.replyFrameEnd 1 0 4 7 2).EndsFrameOfOther 0) := by
  refine ⟨fun _ => ⟨rfl, rfl, rfl, rfl, rfl, rfl, rfl, rfl, Nat.le_refl 24, rfl, rfl⟩,
    fun _ => ⟨rfl, rfl, rfl, rfl, rfl⟩, fun _ _ => ⟨rfl, rfl, rfl⟩, ?_, ?_, ?_, ?_, .inl rfl,
    .inr (.inr ⟨1, 0, 0, 0, 0, by decide, .inl rfl⟩),
    .inr (.inr ⟨1, 0, 4, 7, 2, by decide, .inr (.inr (.inr (.inr (.inr rfl))))⟩)⟩
  all_goals decide +kernel

theorem test_DuplicateIdentityHalts :
    ∀ st : StationState, (receiving (station st)).resetLow = false ∧
      (receiving (station st)).rif.reception.isSome = true ∧
      (receiving (station st)).rif.transmit = none ∧ (receiving (station st)).rxu.fill = none ∧
      (receiving (station st)).stc.state = st := fun _ => ⟨rfl, rfl, rfl, rfl, rfl⟩

/-- The first bit that a frame sends is a 1: its second half is dominant, and RDE follows it. -/
theorem test_rail_pins :
    (Frame.announce 0).lineHalves[0]? = some (.recessive, .dominant) ∧
      ((transmitting online (.announce 0)).railPins 0, (transmitting online (.announce 0)).railPins 1) =
        ({ rde := false, rtx := none }, { rde := true, rtx := some .low }) ∧
      online.rif.transmit = none ∧ railLevel [driveHalf .recessive, driveHalf .dominant] = .dominant ∧
      railLevel [driveHalf .recessive, driveHalf .recessive] = .recessive := by decide +kernel

theorem test_SentFramesAreReceivedWhole : (Frame.announce 0).Sendable ∧
    (Frame.message 0 1 carried 0 9 [1]).Sendable ∧
    (Frame.message 0 1 carried 0 9 (List.replicate 256 1)).Sendable := by
  have h : (List.replicate 256 (1 : Byte)).length = 256 := List.length_replicate
  exact ⟨trivial, ⟨by decide, by decide⟩, by rw [h]; decide, by rw [h]⟩

/-! ### One step -/

/-- JOIN from reset listens, and builds the pool of the default reservations. -/
theorem test_step_join : ∃ t, step { State.reset with pending := [.join] } = .next t ∧
    t.stc.state = .listening ∧ t.hpu.commandResult = 1 ∧ t.bfm.txFree.length = 35 ∧
    t.bfm.rxFree.length = 93 := by
  refine ⟨_, rfl, ?_⟩
  decide +kernel

/-- A window write and the read back of the word. -/
theorem test_step_window : ∃ t u,
    step { sample with
      pending := [.windowWrite 0 0xABCD, .windowRead 0]
      bfm := { sample.bfm with winsel := 0 } } = .next t ∧
    step t = .next u ∧ u.hpu.readData = 0xABCD ∧ u.pending = [] := by
  refine ⟨_, _, rfl, rfl, ?_⟩
  decide +kernel

/-- The admitted message of the sample is posted and answered ACCEPT. -/
theorem test_step_message : ∃ t, step { sample with pending := [.messageFrameEnd 1 0] } = .next t ∧
    t.handle 120 = .posted 1 ∧ t.rxu.inbound.length = 2 ∧
    t.rif.replyDue = some { peer := 1, status := .accept } ∧ t.ctu.lw = 1 := by
  refine ⟨_, rfl, ?_⟩
  decide +kernel

/-- A bad frame aborts the fill. -/
theorem test_step_badFrame : ∃ t, step { sample with pending := [.badFrameEnd] } = .next t ∧
    t.handle 120 = .rxFree ∧ (t.peer 1).inUse = 2 ∧ t.rxu.fill = none ∧ t.ctu.kind = .ordered := by
  refine ⟨_, rfl, ?_⟩
  decide +kernel

/-- A bad frame that ends together with a RESTART: taken after it, it makes the next window ORDERED and frees
the line; a later one changes nothing (log 30). -/
theorem test_step_restart : ∃ t u v,
    step { sample with pending := [.restart, .messageFrameEnd 1 0, .badFrameEnd] } = .next t ∧
    step t = .next u ∧ step u = .next v ∧ t.stc.state = .offline ∧ u.ctu.lw = 1 ∧ u.ctu.lwKnown = true ∧
    u.rif.line = .idle ∧ v = { u with pending := [] } := by
  refine ⟨_, _, _, rfl, rfl, rfl, ?_⟩
  decide +kernel

/-- A header taken after a RESTART is IGNORED, and its verdict is gone when the line turns IDLE (R87). -/
theorem test_step_restart_header : ∃ t u v,
    step { sample with
      rif := { sample.rif with reception := some { headerSeen := false } }
      pending := [.restart, .messageHeader header [1], .lineIdle] } = .next t ∧
    step t = .next u ∧ step u = .next v ∧
    u.rxu.verdict = some { verdict .ignored 0 with seq := header.seq } ∧ u.rif.line = .busy ∧
    v.rxu.verdict = none ∧ v.rif.line = .idle := by
  refine ⟨_, _, _, rfl, rfl, rfl, ?_⟩
  decide +kernel

/-- A REGREET of a peer that is not LOST is refused. -/
theorem test_step_regreet : ∃ t, step { session with pending := [.regreet 1] } = .next t ∧
    t.hpu.commandResult = 4 := by
  refine ⟨_, rfl, ?_⟩
  decide +kernel

end Sys2Proof.Tests
end

