-- ==== Sys2Proof/Proofs/WindowSelect.lean ====
section
/-! PROOF. WINSEL: what its write and its read do, and what the resets and JOIN leave in it (R15). -/

namespace Sys2Proof.Machine

/-! ### The register -/

/-- With RESET# released the low seven bits of the word are taken and no other field changes (R15). -/
theorem exec_registerWrite_winsel {s : State} (hopen : s.resetLow = false) (w : Word) :
    exec (.registerWrite 0x104 w) s =
      .next { s with bfm := { s.bfm with winsel := lowHandle w } } := by
  have hexec : exec (.registerWrite 0x104 w) s = .next (s.onWrite fun t => t.writeRegister 0x104 w) :=
    rfl
  rw [hexec, State.onWrite_open hopen]
  rfl

theorem registerWord_winsel (s : State) : registerWord s 0x104 = handleWord s.bfm.winsel := rfl

/-- A handle is below 128, so the word that shows it has its upper nine bits 0 (R183). -/
theorem handleWord_toNat (h : Handle) : (handleWord h).toNat = h.val := by
  have hsmall : h.val < 2 ^ 16 := h.isLt.trans (by decide)
  rw [handleWord, BitVec.toNat_ofNat, Nat.mod_eq_of_lt hsmall]

/-! ### Resets and JOIN -/

theorem exec_pinResetRelease_winsel {s t : State} {sid : StationId} {rate : BitVec 2} {act : Bool}
    (hrun : exec (.pinResetRelease sid rate act) s = .next t) : t.bfm.winsel = 0 := by
  cases hrun
  rfl

theorem exec_restart_winsel {s t : State} (hopen : s.resetLow = false)
    (hrun : exec .restart s = .next t) : t.bfm.winsel = 0 := by
  have hnext : exec .restart s = .next s.afterRestart :=
    congrArg _ (State.onWrite_open hopen State.afterRestart)
  cases hnext.symm.trans hrun
  rfl

/-- The pool is built anew around the selection, which stays (R4). -/
@[simp] theorem State.joined_winsel (s : State) : s.joined.bfm.winsel = s.bfm.winsel := by
  simp only [State.joined, Bfm.build]

/-- Accepted or refused, with listening ended at once or not, a JOIN keeps the selection (R15). -/
theorem State.join_winsel (s : State) : s.join.bfm.winsel = s.bfm.winsel := by
  unfold State.join
  split
  case isTrue hstate => simp
  case isFalse hstate =>
    split
    case isTrue hprofile => simp
    case isFalse hprofile =>
      split
      case isTrue hsilent => simp
      case isFalse hsilent => exact s.joined_winsel

theorem exec_join_winsel {s t : State} (hopen : s.resetLow = false)
    (hrun : exec .join s = .next t) : t.bfm.winsel = s.bfm.winsel := by
  have hnext : exec .join s = .next s.join := congrArg _ (State.onWrite_open hopen State.join)
  cases hnext.symm.trans hrun
  exact s.join_winsel

/-- Settles O27, clause by clause: the write, the read, and what the resets and JOIN leave selected. -/
theorem winselSelectsTheWindow : Obligations.WinselSelectsTheWindow := by
  intro s w hopen
  refine ⟨?write, ?read, ?pinReset, ?restart, ?join⟩
  case write => exact ⟨lowHandle w, rfl, exec_registerWrite_winsel hopen w⟩
  case read => rw [registerWord_winsel, handleWord_toNat]
  case pinReset => exact fun sid rate act t hrun => exec_pinResetRelease_winsel hrun
  case restart => exact fun t hrun => exec_restart_winsel hopen hrun
  case join => exact fun t hrun => exec_join_winsel hopen hrun

end Sys2Proof.Machine
end

