-- ==== Sys2Proof/Proofs/Regreet.lean ====
section
/-! PROOF. REGREET: the peer field names a station up to 31, and only a LOST one is greeted again (R39). -/

namespace Sys2Proof.Machine

/-! ### The peer field -/

/-- The six bits of the field are read whole, so they are not cut to an identity (R173). -/
theorem peerField_toNat (n : BitVec 6) : (n.setWidth 8).toNat = n.toNat :=
  BitVec.toNat_setWidth_of_le (by decide)

theorem stationOf_peerField_none {n : BitVec 6} (hover : 32 ≤ n.toNat) :
    stationOf (n.setWidth 8) = none := by
  rw [stationOf, dif_neg]
  rw [peerField_toNat]
  exact Nat.not_lt.mpr hover

theorem stationOf_peerField {n : BitVec 6} {p : StationId} (hname : n.toNat = p.val) :
    stationOf (n.setWidth 8) = some p := by
  have hbyte : n.setWidth 8 = p.byte := by
    apply BitVec.eq_of_toNat_eq
    rw [peerField_toNat, hname, BitVec.toNat_ofNat, Nat.mod_eq_of_lt (p.isLt.trans (by decide))]
  rw [hbyte, stationOf_byte]

/-! ### The command, branch by branch -/

theorem exec_regreet_open {s : State} (hopen : s.resetLow = false) (n : BitVec 6) :
    exec (.regreet n) s = .next (s.regreet n) :=
  congrArg _ (State.onWrite_open hopen fun t => t.regreet n)

theorem State.regreet_notOnline {s : State} (hstate : s.stc.state ≠ .online) (n : BitVec 6) :
    s.regreet n = s.commandResult .refusedState := if_pos hstate

theorem State.regreet_noStation {s : State} {n : BitVec 6} (honline : s.stc.state = .online)
    (hover : 32 ≤ n.toNat) : s.regreet n = s.commandResult .refusedPeer := by
  rw [State.regreet, if_neg (not_not.mpr honline), stationOf_peerField_none hover]

theorem State.regreet_station {s : State} {n : BitVec 6} {p : StationId}
    (honline : s.stc.state = .online) (hname : n.toNat = p.val) :
    s.regreet n =
      if (s.peer p).state = .lost then (s.greetOwed p .hostRegreet false).commandResult .done
      else s.commandResult .refusedPeer := by
  rw [State.regreet, if_neg (not_not.mpr honline), stationOf_peerField hname]

/-- A peer that is not LOST, the own identity (SELF) included, is refused (R39). -/
theorem State.regreet_notLost {s : State} {n : BitVec 6} {p : StationId}
    (honline : s.stc.state = .online) (hname : n.toNat = p.val) (hpeer : (s.peer p).state ≠ .lost) :
    s.regreet n = s.commandResult .refusedPeer := by
  rw [State.regreet_station honline hname, if_neg hpeer]

/-- A LOST peer has no open session, so the GREET owed to it ends none and gives no notice (R26, R39). -/
theorem State.regreet_lost {s : State} {n : BitVec 6} {p : StationId}
    (honline : s.stc.state = .online) (hname : n.toNat = p.val) (hlost : (s.peer p).state = .lost) :
    s.regreet n = (s.greetNow p .hostRegreet).commandResult .done := by
  have hnotOpen : (s.peer p).state ≠ .isOpen := by rw [hlost]; decide
  rw [State.regreet_station honline hname, if_pos hlost, State.greetOwed_notOpen s p _ _ hnotOpen]

/-- Settles O35: refused outside ONLINE, refused for a value over 31 and for a peer that is not LOST, and
otherwise the GREET owed to a LOST peer. -/
theorem regreetRecoversALostPeer : Obligations.RegreetRecoversALostPeer := by
  intro s n hopen
  rw [exec_regreet_open hopen]
  refine ⟨?notOnline, ?refusedPeer, ?lost⟩
  case notOnline =>
    intro hstate
    rw [State.regreet_notOnline hstate]
    rfl
  case refusedPeer =>
    rintro honline (hover | ⟨p, hname, hpeer⟩)
    · rw [State.regreet_noStation honline hover]
      rfl
    · rw [State.regreet_notLost honline hname hpeer]
      rfl
  case lost =>
    intro honline p hname hlost
    rw [State.regreet_lost honline hname hlost]
    rfl

end Sys2Proof.Machine
end

