-- ==== Sys2Proof/Proofs/WrapCounters.lean ====
section
/-! PROOF. The 8-bit counters: what one advance gives, and the distance between two values (R48). -/

namespace Sys2Proof.Machine

/-- The library puts 2^8 - a before b; R48 takes the difference from b. -/
theorem distance_eq_sub_mod (a b : Byte) : distance a b = (b.toNat + 256 - a.toNat) % 256 := by
  have ha : a.toNat < 256 := a.isLt
  have hsub : distance a b = (256 - a.toNat + b.toNat) % 256 := BitVec.toNat_sub b a
  rw [hsub]
  congr 1
  omega

theorem distance_le_255 (a b : Byte) : distance a b ≤ 255 :=
  Nat.le_of_lt_succ (b - a).isLt

@[simp] theorem distance_self (a : Byte) : distance a a = 0 :=
  congrArg BitVec.toNat (BitVec.sub_self a)

/-- Settles O37: the advance and its wrap, then the distance as a difference modulo 256, its bound and its
value for equal arguments. -/
theorem countersWrapModulo256 : Obligations.CountersWrapModulo256 := by
  intro a b
  refine ⟨?advance, ?wrap, ?difference, ?bound, ?equal⟩
  case advance => exact BitVec.toNat_add a 1
  case wrap => decide
  case difference => exact distance_eq_sub_mod a b
  case bound => exact distance_le_255 a b
  case equal =>
    rintro rfl
    exact distance_self a

end Sys2Proof.Machine
end

