-- ==== Sys2Proof/Proofs/ClearCommands.lean ====
section
/-! PROOF. CLEAR_FAULT and CLEAR_FLAGS: what each clears, and what the event or the access that comes next
sets again (R155, R168). -/

namespace Sys2Proof.Machine

/-! ### The Fault Record and its source -/

theorem exec_clearFault_open {s : State} (hopen : s.resetLow = false) :
    exec .clearFault s = .next (s.emptyFault.commandResult .done) :=
  congrArg _ (State.onWrite_open hopen fun t => t.emptyFault.commandResult .done)

theorem exec_clearFault_fault {s : State} (hopen : s.resetLow = false) :
    ∃ u : State, exec .clearFault s = .next u ∧ u.atu.fault = none :=
  ⟨_, exec_clearFault_open hopen, rfl⟩

/-- A fault handed leaves a record, whether it is captured or sets MORE (R166, R167). -/
theorem State.handFault_condition (s : State) (kind : FaultKind) (p : StationId) (frame : FrameKind)
    (value : Byte) : (s.handFault kind p frame value).condition 0 = true := rfl

theorem aboveService_iff {inService : BitVec 5} {n : Fin 5} :
    aboveService inService n = true ↔
      ∀ m : Fin 5, inService.getLsbD m.val = true → n < m := by
  simp only [aboveService, List.all_eq_true, List.mem_finRange, true_imp_iff, Bool.or_eq_true,
    Bool.not_eq_true', decide_eq_true_eq]
  refine forall_congr' fun m => ?_
  rw [← Bool.not_eq_true, imp_iff_not_or]

/-- Source n is pending exactly when it is enabled, its condition holds and every source in service has a
higher number (R159). -/
theorem State.sourcePending_iff {s : State} {n : Fin 5} :
    s.sourcePending n = true ↔
      s.atu.enables.getLsbD n.val = true ∧ s.condition n = true ∧
        ∀ m : Fin 5, s.atu.inService.getLsbD m.val = true → n < m := by
  rw [State.sourcePending, Bool.and_eq_true, Bool.and_eq_true, aboveService_iff, and_assoc]

theorem State.handFault_pending {s : State} (henabled : s.atu.enables.getLsbD 0 = true)
    (habove : ∀ m : Fin 5, s.atu.inService.getLsbD m.val = true → 0 < m)
    (kind : FaultKind) (p : StationId) (frame : FrameKind) (value : Byte) :
    (s.handFault kind p frame value).sourcePending 0 = true :=
  State.sourcePending_iff.mpr ⟨henabled, s.handFault_condition kind p frame value, habove⟩

/-! ### The sticky flags and the accesses that set them -/

theorem exec_clearFlags_open {s : State} (hopen : s.resetLow = false) :
    exec .clearFlags s = .next (s.clearSticky.commandResult .done) :=
  congrArg _ (State.onWrite_open hopen fun t => t.clearSticky.commandResult .done)

theorem HandleState.readable_iff {x : HandleState} :
    x.readable = true ↔ x = .composing ∨ ∃ p, x = .posted p ∨ x = .held p := by
  cases x <;> simp [HandleState.readable]

/-- A window read is refused unless the selected handle is COMPOSING, POSTED or HELD (R16). -/
theorem exec_windowRead_misuse {s u : State} {k : BitVec 7} (hopen : s.resetLow = false)
    (hcomposing : s.handle s.bfm.winsel ≠ .composing)
    (hinbound : ∀ p, s.handle s.bfm.winsel ≠ .posted p ∧ s.handle s.bfm.winsel ≠ .held p)
    (hrun : exec (.windowRead k) s = .next u) : u.hpu.windowMisuse = true := by
  have hnext : exec (.windowRead k) s = .next (s.readWindow k) :=
    congrArg _ (State.onRead_open hopen fun t => t.readWindow k)
  have hclosed : ¬ (s.handle s.bfm.winsel).readable = true := by
    intro hread
    obtain hcomp | ⟨p, hposted | hheld⟩ := HandleState.readable_iff.mp hread
    · exact hcomposing hcomp
    · exact (hinbound p).left hposted
    · exact (hinbound p).right hheld
  have hrefused : s.readWindow k = s.setMisuse.drive noneWord := if_neg hclosed
  cases hnext.symm.trans hrun
  rw [hrefused, State.drive_hpu, State.setMisuse_hpu]

/-- A window write is refused unless the selected handle is COMPOSING (R16). -/
theorem exec_windowWrite_misuse {s u : State} {k : BitVec 7} {w : Word} (hopen : s.resetLow = false)
    (hcomposing : s.handle s.bfm.winsel ≠ .composing)
    (hrun : exec (.windowWrite k w) s = .next u) : u.hpu.windowMisuse = true := by
  have hnext : exec (.windowWrite k w) s = .next (s.writeWindow k w) :=
    congrArg _ (State.onWrite_open hopen fun t => t.writeWindow k w)
  have hrefused : s.writeWindow k w = s.setMisuse := if_neg hcomposing
  cases hnext.symm.trans hrun
  rw [hrefused, State.setMisuse_hpu]

/-- A profile write outside OFFLINE is refused (R141). -/
theorem exec_profileWrite_locked {s u : State} {reg : ProfileReg} {w : Word} (hopen : s.resetLow = false)
    (hstate : s.stc.state ≠ .offline)
    (hrun : exec (.profileWrite reg w) s = .next u) : u.stc.profileLocked = true := by
  have hnext : exec (.profileWrite reg w) s = .next (s.writeProfile reg w) :=
    congrArg _ (State.onWrite_open hopen fun t => t.writeProfile reg w)
  have hrefused : s.writeProfile reg w = s.setLocked := if_neg hstate
  cases hnext.symm.trans hrun
  rw [hrefused, State.setLocked_stc]

/-- Settles O36: CLEAR_FAULT with a fault before and after it, then CLEAR_FLAGS with each refused access after
it, which finds RESET#, the selected handle and the station state as CLEAR_FLAGS found them. -/
theorem clearFaultAndClearFlags : Obligations.ClearFaultAndClearFlags := by
  refine ⟨?clearFault, ?clearFlags⟩
  case clearFault =>
    intro s hopen t
    refine ⟨exec_clearFault_open hopen, rfl, fun _ => rfl, fun kind p frame value => ?_⟩
    have hempty : t.atu.fault = none := rfl
    exact ⟨exec_clearFault_fault hopen, t.handFault_captures kind p frame value hempty,
      t.handFault_condition kind p frame value,
      fun henabled habove => State.handFault_pending (s := t) henabled habove kind p frame value⟩
  case clearFlags =>
    intro s hopen
    refine ⟨exec_clearFault_open hopen, exec_clearFlags_open hopen, fun t hcleared => ?_⟩
    cases (exec_clearFlags_open hopen).symm.trans hcleared
    have hopen' : (s.clearSticky.commandResult .done).resetLow = false := hopen
    refine ⟨?windowRead, ?windowWrite, ?profileWrite⟩
    case windowRead =>
      exact fun k u hcomposing hinbound => exec_windowRead_misuse hopen' hcomposing hinbound
    case windowWrite =>
      exact fun k w u hcomposing => exec_windowWrite_misuse hopen' hcomposing
    case profileWrite =>
      exact fun reg w u hstate => exec_profileWrite_locked hopen' hstate

end Sys2Proof.Machine
end

