-- ==== Sys2Proof/Proofs/Attention.lean ====
section
/-! PROOF. The attention sources: ATN# and the conditions, the source that an ATTENTION read takes into
service, and the one that FINISH takes out of it (R158 to R161). -/

namespace Sys2Proof.Machine

/-! ### The lowest-numbered source -/

/-- The search goes up from number 0, so what it finds is the lowest (R160, R161). -/
theorem find?_finRange_eq_some_iff {k : Nat} {p : Fin k → Bool} {n : Fin k} :
    (List.finRange k).find? p = some n ↔ p n = true ∧ ∀ m : Fin k, m < n → p m = false := by
  rw [← Fin.find?_eq_find?_finRange, Fin.find?_eq_some_iff]

theorem find?_finRange_eq_none_iff {k : Nat} {p : Fin k → Bool} :
    (List.finRange k).find? p = none ↔ ∀ n : Fin k, p n = false := by
  rw [← Fin.find?_eq_find?_finRange, Fin.find?_eq_none_iff]

/-! ### The in-service flags -/

theorem sourceBit_getLsbD (n m : Fin 5) : (sourceBit n).getLsbD m.val = decide (m = n) := by
  have hbit : (sourceBit n).getLsbD m.val = (decide (n.val < 5) && decide (n.val = m.val)) :=
    BitVec.getLsbD_twoPow n.val m.val
  rw [hbit, decide_eq_true n.isLt, Bool.true_and, decide_eq_decide, Fin.ext_iff]
  exact eq_comm

/-- A source taken joins those in service (R160). -/
theorem State.setInService_flag (s : State) (n m : Fin 5) :
    (s.setInService n).atu.inService.getLsbD m.val = true ↔
      m = n ∨ s.atu.inService.getLsbD m.val = true := by
  rw [State.setInService_atu, BitVec.getLsbD_or, sourceBit_getLsbD, Bool.or_eq_true, decide_eq_true_eq,
    or_comm]

/-- A source finished leaves those in service, and no other does (R161). -/
theorem State.clearInService_flag (s : State) (n m : Fin 5) :
    (s.clearInService n).atu.inService.getLsbD m.val = true ↔
      m ≠ n ∧ s.atu.inService.getLsbD m.val = true := by
  rw [State.clearInService_atu, BitVec.getLsbD_and, BitVec.getLsbD_not, sourceBit_getLsbD,
    decide_eq_true m.isLt, Bool.true_and, Bool.and_eq_true, Bool.not_eq_true', decide_eq_false_iff_not,
    and_comm]

/-! ### Pending sources and ATN# -/

/-- A pending source is numbered lower than every one in service (R159). -/
theorem State.sourcePending_above {s : State} {n m : Fin 5} (hpending : s.sourcePending n = true)
    (hservice : s.atu.inService.getLsbD m.val = true) : n < m := by
  obtain ⟨-, -, habove⟩ := State.sourcePending_iff.mp hpending
  exact habove m hservice

theorem State.sourcePending_of_not_condition {s : State} {n : Fin 5} (hfalse : s.condition n = false) :
    s.sourcePending n = false := by
  rw [State.sourcePending, hfalse, Bool.and_false, Bool.false_and]

/-- With RESET# released ATN# shows that some source is pending (R159). -/
theorem State.atnAsserted_iff {s : State} (hopen : s.resetLow = false) :
    s.atnAsserted = true ↔ ∃ n : Fin 5, s.sourcePending n = true := by
  rw [State.atnAsserted, hopen, Bool.not_false, Bool.true_and, List.any_eq_true]
  exact exists_congr fun n => and_iff_right (List.mem_finRange n)

/-! ### The ATTENTION read -/

theorem exec_attentionRead_open {s : State} (hopen : s.resetLow = false) :
    exec .attentionRead s = .next s.takeSource :=
  congrArg _ (State.onRead_open hopen State.takeSource)

theorem State.takeSource_none {s : State} (hnone : ∀ n : Fin 5, s.sourcePending n = false) :
    s.takeSource = s.drive 7 := by
  have hsearch : s.pendingSource = none := find?_finRange_eq_none_iff.mpr hnone
  rw [State.takeSource, hsearch]

theorem State.takeSource_lowest {s : State} {n : Fin 5} (hpending : s.sourcePending n = true)
    (hlowest : ∀ m : Fin 5, m < n → s.sourcePending m = false) :
    s.takeSource = (s.setInService n).drive (BitVec.ofNat 16 n.val) := by
  have hsearch : s.pendingSource = some n := find?_finRange_eq_some_iff.mpr ⟨hpending, hlowest⟩
  rw [State.takeSource, hsearch]

/-- The source taken was pending, so it is below all that were in service before it (R159, R160). -/
theorem State.setInService_lowest {s : State} {n m : Fin 5} (hpending : s.sourcePending n = true)
    (hservice : (s.setInService n).atu.inService.getLsbD m.val = true) : n ≤ m := by
  obtain rfl | hbefore := (s.setInService_flag n m).mp hservice
  · exact le_refl m
  · exact le_of_lt (State.sourcePending_above hpending hbefore)

/-- A source taken holds back itself and every higher one (R159). -/
theorem State.setInService_pending {s : State} {n k : Fin 5}
    (hpending : (s.setInService n).sourcePending k = true) : k < n :=
  State.sourcePending_above hpending ((s.setInService_flag n n).mpr (Or.inl rfl))

/-- Settles O24: the read with no source pending, then the flags that taking the lowest one leaves. -/
theorem attentionReadTakesTheLowestPending : Obligations.AttentionReadTakesTheLowestPending := by
  intro s hopen
  refine ⟨?none, ?lowest⟩
  case none =>
    intro hnone
    rw [exec_attentionRead_open hopen, State.takeSource_none hnone]
    rfl
  case lowest =>
    intro n hpending hlowest
    refine ⟨(s.setInService n).atu.inService, ?_, s.setInService_flag n,
      fun m => State.setInService_lowest hpending, fun k => State.setInService_pending⟩
    rw [exec_attentionRead_open hopen, State.takeSource_lowest hpending hlowest]
    rfl

/-! ### The FINISH write -/

theorem exec_finishWrite_open {s : State} (hopen : s.resetLow = false) (w : Word) :
    exec (.finishWrite w) s = .next s.finishSource :=
  congrArg _ (State.onWrite_open hopen State.finishSource)

theorem State.finishSource_none {s : State} (hnone : s.atu.inService = 0) : s.finishSource = s := by
  have hsearch : lowestInService s.atu.inService = none := by
    rw [hnone]
    exact find?_finRange_eq_none_iff.mpr fun _ => BitVec.getLsbD_zero
  rw [State.finishSource, hsearch]

theorem State.finishSource_lowest {s : State} {n : Fin 5}
    (hservice : s.atu.inService.getLsbD n.val = true)
    (hlowest : ∀ m : Fin 5, m < n → s.atu.inService.getLsbD m.val = false) :
    s.finishSource = s.clearInService n := by
  have hsearch : lowestInService s.atu.inService = some n :=
    find?_finRange_eq_some_iff.mpr ⟨hservice, hlowest⟩
  rw [State.finishSource, hsearch]

/-- The conditions are those of the owning blocks and do not follow the flags (R158, R162). -/
@[simp] theorem State.clearInService_condition (s : State) (n k : Fin 5) :
    (s.clearInService n).condition k = s.condition k := rfl

/-- A source below all that stay in service is pending again at once (R161, R162). -/
theorem State.clearInService_pending {s : State} {n k : Fin 5}
    (hbelow : ∀ m : Fin 5, (s.clearInService n).atu.inService.getLsbD m.val = true → k < m)
    (henabled : s.atu.enables.getLsbD k.val = true) (htrue : s.condition k = true) :
    (s.clearInService n).sourcePending k = true :=
  State.sourcePending_iff.mpr ⟨henabled, htrue, hbelow⟩

/-- Settles O25: the write with no source in service, then the flags that finishing the lowest one leaves and
what is pending under them. -/
theorem finishClearsTheLowestInService : Obligations.FinishClearsTheLowestInService := by
  intro s w hopen
  refine ⟨?none, ?lowest⟩
  case none =>
    intro hnone
    rw [exec_finishWrite_open hopen, State.finishSource_none hnone]
  case lowest =>
    intro n hservice hlowest
    refine ⟨s.clearInService n, ?exec, rfl, s.clearInService_flag n, ?pending, ?notPending⟩
    case exec => rw [exec_finishWrite_open hopen, State.finishSource_lowest hservice hlowest]
    case pending =>
      intro k hbelow henabled htrue
      have hpending := State.clearInService_pending hbelow henabled htrue
      have hopen' : (s.clearInService n).resetLow = false := hopen
      exact ⟨hpending, (State.atnAsserted_iff hopen').mpr ⟨k, hpending⟩⟩
    case notPending =>
      intro k hfalse
      exact State.sourcePending_of_not_condition ((s.clearInService_condition n k).trans hfalse)

/-! ### The five conditions -/

theorem State.condition_fault (s : State) : s.condition 0 = true ↔ s.atu.fault ≠ none :=
  Option.isSome_iff_ne_none

/-- Sources 1 to 3 each watch a list. -/
theorem not_isEmpty_iff_ne_nil {α : Type} (l : List α) : (!l.isEmpty) = true ↔ l ≠ [] := by
  rw [Bool.not_eq_true', List.isEmpty_eq_false_iff]

/-- Settles O23: ATN# through the pending sources, then each condition as its owner's record or list gives
it. -/
theorem atnFollowsThePendingSources : Obligations.AtnFollowsThePendingSources := by
  intro s hopen
  refine ⟨?atn, s.condition_fault, not_isEmpty_iff_ne_nil s.atu.peerEvents,
    not_isEmpty_iff_ne_nil s.snu.completions, not_isEmpty_iff_ne_nil s.rxu.inbound, Iff.rfl⟩
  case atn =>
    rw [State.atnAsserted_iff hopen]
    exact exists_congr fun n => State.sourcePending_iff

end Sys2Proof.Machine
end

