-- ==== Sys2Proof/Proofs/Codes.lean ====
section
/-! PROOF. The codes of names at the host port: each table read off, and where the codes are used, the COMMAND
word, the profile's limits and FLT_FRAME (R141, R173, R179, R184). -/

namespace Sys2Proof.Machine

/-- FLT_FRAME is the third register of the fault view (R179). -/
theorem faultViewWord_frame (f : FaultRecord) :
    faultViewWord (some f) 2 = fieldWord f.frame.code := rfl

/-- The train code counts from a limit of one (R141). -/
theorem trainLimitOf_eq (c : BitVec 3) : trainLimitOf c = c.toNat + 1 := rfl

/-- Settles O30, table by table: the names' codes, then the words and fields that carry a code. -/
theorem codesOfNames : Obligations.CodesOfNames := by
  refine ⟨?stations, ?peers, ?reasons, ?statuses, ?faults, ?commands, ?commandResults,
    ?releaseResults, ?sendResults, ?frames, ?retry, trainLimitOf_eq, faultViewWord_frame⟩
  case stations => rfl
  case peers => rfl
  case reasons => rfl
  case statuses => rfl
  case faults => rfl
  case commands => rfl
  case commandResults => rfl
  case releaseResults => rfl
  case sendResults => rfl
  case frames => rfl
  case retry => rfl

end Sys2Proof.Machine
end

