-- ==== Sys2Proof/Proofs/MemoryKept.lean ====
section
/-! PROOF. Buffer memory stays canonical: a payload and a window word lie inside one buffer, and nothing else
writes a byte (R17). -/

namespace Sys2Proof.Machine

/-! ### Writes inside one buffer -/

theorem State.MemoryCanonical.of_eq {s t : State} (hmem : t.bfm.mem = s.bfm.mem)
    (h : s.MemoryCanonical) : t.MemoryCanonical := by
  rw [State.MemoryCanonical, hmem]
  exact h

/-- Bytes that fit behind byte i of a buffer stay in the memory. -/
theorem bufferAddress_add_le {h : Handle} {i n : Nat} (hfit : i + n ≤ 256) :
    bufferAddress h i + n ≤ memoryBytes := by
  have hlt : h.val < 128 := h.isLt
  simp only [bufferAddress, Config.bufferBytes, memoryBytes]
  omega

theorem State.startFill_mem (s : State) (p : StationId) (h : Handle) (rest : List Handle) (v : Verdict)
    (payload : List Byte) :
    (s.startFill p h rest v payload).bfm.mem =
      Memory.writeBytes s.bfm.mem (bufferAddress h 0) (payload.take v.length) := rfl

@[simp] theorem State.abortFill_mem (s : State) : s.abortFill.bfm.mem = s.bfm.mem := by
  simp only [State.abortFill]; split <;> rfl

@[simp] theorem State.postFill_mem (s : State) (p : StationId) (seq : Byte) :
    (s.postFill p seq).bfm.mem = s.bfm.mem := by
  simp only [State.postFill]; split <;> rfl

/-- The two bytes of a window word lie in the buffer that WINSEL names. -/
theorem windowBytes_fit (k : BitVec 7) : 2 * k.toNat + 2 ≤ 256 := by
  have hlt : k.toNat < 128 := k.isLt
  omega

/-! ### Every primitive update -/

theorem memoryCanonical_kept : Kept State.MemoryCanonical where
  queue _ _ h := h.of_eq rfl
  low _ _ h := h.of_eq rfl
  rif _ _ h := h.of_eq rfl
  ctu _ _ h := h.of_eq rfl
  txa _ _ h := h.of_eq rfl
  hpu _ _ h := h.of_eq rfl
  stc _ _ _ h := h.of_eq rfl
  verdict _ _ h := h.of_eq rfl
  fault _ _ _ _ h := h.of_eq rfl
  demand _ _ h := h.of_eq rfl
  winsel _ _ h := h.of_eq rfl
  peer _ _ _ _ h := h.of_eq rfl
  appendGreet _ _ h := h.of_eq (by simp)
  removeGreet _ _ h := h.of_eq rfl
  greetToTail _ _ h := h.of_eq (by simp)
  addCredit _ _ h := h.of_eq (by simp)
  dropCredit _ _ h := h.of_eq rfl
  creditToTail _ _ h := h.of_eq (by simp)
  event _ _ _ _ h := h.of_eq rfl
  complete _ _ h := h.of_eq (by simp)
  sending _ _ _ h := h.of_eq rfl
  retry _ _ _ h := h.of_eq rfl
  startFill s p hd rest v payload _ _ _ hlength h := by
    rw [State.MemoryCanonical, State.startFill_mem]
    refine Memory.wf_writeBytes _ h (bufferAddress_add_le ?_)
    have htake : (payload.take v.length).length ≤ v.length := List.length_take_le _ _
    omega
  abortFill _ h := h.of_eq (by simp)
  postFill _ _ _ h := h.of_eq (by simp)
  leaving _ h := h.of_eq (by simp)
  takeTx _ _ _ _ h := h.of_eq rfl
  writeMem _ k _ _ h := Memory.wf_writeBytes _ h (bufferAddress_add_le (windowBytes_fit k))
  popInbound _ _ _ _ h := h.of_eq rfl
  popCompletion _ _ _ _ h := h.of_eq rfl
  popEvent _ _ _ _ h := h.of_eq rfl

/-- Pin reset zeroes the memory; no command of the host but a window write touches it. -/
theorem memoryCanonical_stable : Stable State.MemoryCanonical where
  toKept := memoryCanonical_kept
  releaseTx _ _ _ h := h.of_eq rfl
  releaseRx _ _ _ _ h := h.of_eq rfl
  accept _ _ _ _ _ _ h := h.of_eq rfl
  pinReset _ _ _ _ := Memory.wf_nil
  restart _ h := h.of_eq rfl
  joined _ _ h := h.of_eq (by simp only [State.joined, Bfm.build])

/-- Settles O7, from the primitive updates by way of `Stable.step`. -/
theorem stepKeepsMemoryCanonical : Obligations.StepKeepsMemoryCanonical :=
  fun s t h hstep => memoryCanonical_stable.step s t h hstep

end Sys2Proof.Machine
end

