-- ==== Sys2Proof/Proofs/RangesKept.lean ====
section
/-! PROOF. The send budget, the ranges of the records, and one entry per peer in the three lists: each is kept by
every step on its own (R18, R24, R25, R46, R56, R66, R163). -/

namespace Sys2Proof.Machine

/-! ### The send budget -/

/-- Only the sum of the two lengths counts. -/
theorem State.WithinBudget.of_le {s t : State}
    (hle : t.snu.sendList.length + t.snu.completions.length ≤
      s.snu.sendList.length + s.snu.completions.length)
    (h : s.WithinBudget) : t.WithinBudget := hle.trans h

theorem State.WithinBudget.of_eq {s t : State} (hsnu : t.snu = s.snu) (h : s.WithinBudget) :
    t.WithinBudget := by
  rw [State.WithinBudget, hsnu]
  exact h

theorem State.entrySending_length (s : State) (h : Handle) (seq : Byte) :
    (s.entrySending h seq).snu.sendList.length = s.snu.sendList.length := List.length_map _

theorem State.entryRetry_length (s : State) (h : Handle) (counted : Bool) :
    (s.entryRetry h counted).snu.sendList.length = s.snu.sendList.length := List.length_map _

theorem withinBudget_kept : Kept State.WithinBudget where
  queue _ _ h := h.of_eq rfl
  low _ _ h := h.of_eq rfl
  rif _ _ h := h.of_eq rfl
  ctu _ _ h := h.of_eq rfl
  txa _ _ h := h.of_eq rfl
  hpu _ _ h := h.of_eq rfl
  stc _ _ _ h := h.of_eq rfl
  verdict _ _ h := h.of_eq rfl
  fault _ _ _ _ h := h.of_eq rfl
  demand _ _ h := h.of_eq rfl
  winsel _ _ h := h.of_eq rfl
  peer _ _ _ _ h := h.of_eq rfl
  appendGreet _ _ h := h.of_eq (by simp)
  removeGreet _ _ h := h.of_eq (by simp)
  greetToTail _ _ h := h.of_eq (by simp)
  addCredit _ _ h := h.of_eq (by simp)
  dropCredit _ _ h := h.of_eq (by simp)
  creditToTail _ _ h := h.of_eq (by simp)
  event _ _ _ _ h := h.of_eq rfl
  complete s cause h := h.of_le (State.completeWhere_budget cause s)
  sending s hd seq h := h.of_le (by rw [State.entrySending_length]; exact le_rfl)
  retry s hd counted h := h.of_le (by rw [State.entryRetry_length]; exact le_rfl)
  startFill _ _ _ _ _ _ _ _ _ _ h := h.of_eq rfl
  abortFill _ h := h.of_eq (by simp)
  postFill _ _ _ h := h.of_eq (by simp)
  leaving _ h := h.of_eq (by simp)
  takeTx _ _ _ _ h := h.of_eq rfl
  writeMem _ _ _ _ h := h.of_eq rfl
  popInbound _ _ _ _ h := h.of_eq rfl
  popCompletion s r rest hlist h := h.of_le (by
    rw [hlist]
    exact Nat.add_le_add_left (Nat.le_succ rest.length) s.snu.sendList.length)
  popEvent _ _ _ _ h := h.of_eq rfl

/-- Empty lists, of a reset, of a RESTART and of a JOIN, are within the budget. -/
theorem State.WithinBudget.of_clear {s : State} (h : s.snu = Snu.clear) : s.WithinBudget := by
  rw [State.WithinBudget, h]
  exact Nat.zero_le _

theorem withinBudget_stable : Stable State.WithinBudget where
  toKept := withinBudget_kept
  releaseTx _ _ _ h := h.of_eq rfl
  releaseRx _ _ _ _ h := h.of_eq rfl
  accept s _ e _ _ hfree _ := by
    simp only [State.WithinBudget, List.length_append, List.length_singleton, Config.sendBudget]
    omega
  pinReset _ _ _ _ := State.WithinBudget.of_clear rfl
  restart _ _ := State.WithinBudget.of_clear rfl
  joined _ _ _ := State.WithinBudget.of_clear (by simp only [State.joined])

/-- Settles O10: a completion moves an entry from one list to the other, and SEND_GO adds one below 32. -/
theorem stepKeepsTheSendBudget : Obligations.StepKeepsTheSendBudget :=
  fun s t h hstep => withinBudget_stable.step s t h hstep

/-! ### The ranges of the records -/

theorem State.PeersInBounds.of_eq {s t : State} (hpeers : t.ssu.peers = s.ssu.peers)
    (h : s.PeersInBounds) : t.PeersInBounds := by
  intro p
  rw [State.peer, hpeers]
  exact h p

/-- A record written in range keeps every record in range. -/
theorem State.PeersInBounds.setPeer {s : State} (h : s.PeersInBounds) {p : StationId} {q : Peer}
    (hq : q.InBounds) : (s.setPeer p q).PeersInBounds := by
  intro k
  rw [State.peer_setPeer]
  split
  case isTrue => exact hq
  case isFalse => exact h k

theorem PeerStep.inBounds {old new : Peer} (hstep : PeerStep old new) (h : old.InBounds) :
    new.InBounds := by
  obtain ⟨huse, hr, hcredits, hctl⟩ := hstep
  obtain ⟨hcredits', hctl', hr', huse'⟩ := h
  exact ⟨hcredits hcredits', hctl hctl', hr ▸ hr', huse ▸ hr ▸ huse'⟩

theorem Peer.fresh_inBounds {r : Nat} (hr : r ≤ 15) : (Peer.fresh r).InBounds :=
  ⟨Nat.zero_le _, Nat.zero_le _, hr, Nat.zero_le _⟩

theorem Peer.selfRecord_inBounds : Peer.selfRecord.InBounds := Peer.fresh_inBounds (Nat.zero_le _)

theorem freshPeers_getElem (sid : StationId) (r : StationId → Nat) (p : StationId) :
    (freshPeers sid r)[p] = if p = sid then Peer.selfRecord else Peer.fresh (r p) := by
  simp only [freshPeers, Fin.getElem_fin, Vector.getElem_ofFn]

/-- The records after a reset, a RESTART and a JOIN. -/
theorem State.PeersInBounds.of_fresh {s : State} {sid : StationId} {r : StationId → Nat}
    (hpeers : s.ssu.peers = freshPeers sid r) (hr : ∀ p, r p ≤ 15) : s.PeersInBounds := by
  intro p
  rw [State.peer, hpeers, freshPeers_getElem]
  split
  case isTrue => exact Peer.selfRecord_inBounds
  case isFalse => exact Peer.fresh_inBounds (hr p)

theorem forgetPeers_getElem (sid : StationId) (peers : Vector Peer 32) (p : StationId) :
    (forgetPeers sid peers)[p] =
      if p = sid then peers[p] else { peers[p].zeroed with state := .absent } := by
  simp only [forgetPeers, Fin.getElem_fin, Vector.getElem_ofFn]

theorem State.enterLeaving_peer (s : State) (p : StationId) :
    s.enterLeaving.peer p =
      if p = s.stc.sid then s.peer p else { (s.peer p).zeroed with state := .absent } :=
  forgetPeers_getElem s.stc.sid s.ssu.peers p

theorem State.startFill_peers (s : State) (p : StationId) (h : Handle) (rest : List Handle) (v : Verdict)
    (payload : List Byte) :
    (s.startFill p h rest v payload).ssu.peers =
      s.ssu.peers.set p { s.peer p with inUse := (s.peer p).inUse + 1 } := rfl

/-! ### Fills, with one in progress and with none -/

theorem State.abortFill_none {s : State} (hfill : s.rxu.fill = none) : s.abortFill = s := by
  rw [State.abortFill, hfill]

/-- An aborted fill gives its buffer back to the source's record (R13). -/
theorem State.abortFill_some {s : State} {f : Fill} (hfill : s.rxu.fill = some f) :
    s.abortFill =
      ({ (s.returnRx f.handle).setPeer f.source
            { s.peer f.source with inUse := (s.peer f.source).inUse - 1 } with
          rxu := { s.rxu with fill := none } } : State).evalDemand := by
  rw [State.abortFill, hfill]
  rfl

theorem State.postFill_none {s : State} (p : StationId) (seq : Byte) (hfill : s.rxu.fill = none) :
    s.postFill p seq = s := by
  rw [State.postFill, hfill]

/-- A posted fill leaves the fill's handle POSTED for its source, and the record of p takes the seq (R12, R95). -/
theorem State.postFill_some {s : State} {f : Fill} (p : StationId) (seq : Byte)
    (hfill : s.rxu.fill = some f) :
    s.postFill p seq =
      ({ s with
          bfm := { s.bfm with table := s.bfm.table.set f.handle (.posted f.source) }
          rxu :=
            { s.rxu with
              fill := none
              inbound := s.rxu.inbound ++
                [{ handle := f.handle, source := f.source, length := f.length, tag := f.tag,
                   sess := f.sess }] } } : State).setPeer p { s.peer p with lastRxSeq := some seq } := by
  rw [State.postFill, hfill]
  rfl

/-- JOIN makes every record fresh with the reservation of its register (R19, R142). -/
theorem State.joined_peers (s : State) :
    s.joined.ssu.peers = freshPeers s.stc.sid fun p => (s.stc.reserveRegs[p]).toNat := by
  simp only [State.joined]

theorem peersInBounds_kept : Kept State.PeersInBounds where
  queue _ _ h := h.of_eq rfl
  low _ _ h := h.of_eq rfl
  rif _ _ h := h.of_eq rfl
  ctu _ _ h := h.of_eq rfl
  txa _ _ h := h.of_eq rfl
  hpu _ _ h := h.of_eq rfl
  stc _ _ _ h := h.of_eq rfl
  verdict _ _ h := h.of_eq rfl
  fault _ _ _ _ h := h.of_eq rfl
  demand _ _ h := h.of_eq rfl
  winsel _ _ h := h.of_eq rfl
  peer _ p _ hstep h := h.setPeer (hstep.inBounds (h p))
  appendGreet _ _ h := h.of_eq (by simp)
  removeGreet _ _ h := h.of_eq (by simp)
  greetToTail _ _ h := h.of_eq (by simp)
  addCredit _ _ h := h.of_eq (by simp)
  dropCredit _ _ h := h.of_eq (by simp)
  creditToTail _ _ h := h.of_eq (by simp)
  event _ _ _ _ h := h.of_eq rfl
  complete _ _ h := h.of_eq (by simp)
  sending _ _ _ h := h.of_eq rfl
  retry _ _ _ h := h.of_eq rfl
  startFill s p hd rest v payload _ hroom _ _ h := by
    refine State.PeersInBounds.of_eq (State.startFill_peers s p hd rest v payload) (h.setPeer ?_)
    obtain ⟨hcredits, hctl, hr, huse⟩ := h p
    refine ⟨hcredits, hctl, hr, ?_⟩
    simp only [Peer.room] at hroom ⊢
    omega
  abortFill s h := by
    cases hfill : s.rxu.fill with
    | none => rwa [State.abortFill_none hfill]
    | some f =>
      obtain ⟨hcredits, hctl, hr, huse⟩ := h f.source
      have hq := h.setPeer (p := f.source) (q := { s.peer f.source with inUse := (s.peer f.source).inUse - 1 })
        ⟨hcredits, hctl, hr, (Nat.sub_le _ _).trans huse⟩
      rw [State.abortFill_some hfill]
      exact hq.of_eq rfl
  postFill s p seq h := by
    cases hfill : s.rxu.fill with
    | none => rwa [State.postFill_none p seq hfill]
    | some f =>
      rw [State.postFill_some p seq hfill]
      exact (h.setPeer (q := { s.peer p with lastRxSeq := some seq }) (h p)).of_eq rfl
  leaving s h p := by
    rw [State.enterLeaving_peer]
    split
    case isTrue => exact h p
    case isFalse => exact (PeerStep.owed (s.peer p) (s.peer p).mySess .absent).inBounds (h p)
  takeTx _ _ _ _ h := h.of_eq rfl
  writeMem _ _ _ _ h := h.of_eq rfl
  popInbound _ _ _ _ h := h.of_eq rfl
  popCompletion _ _ _ _ h := h.of_eq rfl
  popEvent _ _ _ _ h := h.of_eq rfl

/-- A reservation register holds four bits (R141). -/
theorem State.reserveReg_le (s : State) (p : StationId) : (s.stc.reserveRegs[p]).toNat ≤ 15 :=
  Nat.le_of_lt_succ (BitVec.isLt _)

/-- What JOIN latches of a reservation is in range. -/
theorem peersInBounds_stable : Stable State.PeersInBounds where
  toKept := peersInBounds_kept
  releaseTx _ _ _ h := h.of_eq rfl
  releaseRx s hd p _ h := by
    obtain ⟨hcredits, hctl, hr, huse⟩ := h p
    have hreturned : (s.returnRx hd).PeersInBounds := h.of_eq rfl
    exact hreturned.setPeer ⟨hcredits, hctl, hr, (Nat.sub_le _ _).trans huse⟩
  accept _ _ _ _ _ _ h := h.of_eq rfl
  pinReset _ _ _ _ := State.PeersInBounds.of_fresh rfl fun _ => Nat.zero_le _
  restart _ _ := State.PeersInBounds.of_fresh rfl fun _ => Nat.zero_le _
  joined s _ _ := State.PeersInBounds.of_fresh s.joined_peers s.reserveReg_le

/-- Settles O11: a session change keeps r and in_use, and a fill starts only with room. -/
theorem stepKeepsRecordsInRange : Obligations.StepKeepsRecordsInRange :=
  fun s t h hstep => peersInBounds_stable.step s t h hstep

/-! ### One entry per peer -/

/-- The counts of a Peer Event List lie between 1 and 255 (R163). -/
def CountsInRange (l : List PeerEvent) : Prop := ∀ e ∈ l, 1 ≤ e.changes ∧ e.changes ≤ 255

theorem State.OneEntryPerPeer.of_lists {s t : State} (h : s.OneEntryPerPeer)
    (hgreet : s.ssu.greetList.Nodup → t.ssu.greetList.Nodup)
    (hcredit : s.cru.list.Nodup → t.cru.list.Nodup) (hevents : t.atu.peerEvents = s.atu.peerEvents) :
    t.OneEntryPerPeer := by
  obtain ⟨hg, hc, he, hcounts⟩ := h
  rw [State.OneEntryPerPeer, hevents]
  exact ⟨hgreet hg, hcredit hc, he, hcounts⟩

theorem State.OneEntryPerPeer.of_eq {s t : State} (hgreet : t.ssu.greetList = s.ssu.greetList)
    (hcredit : t.cru.list = s.cru.list) (hevents : t.atu.peerEvents = s.atu.peerEvents)
    (h : s.OneEntryPerPeer) : t.OneEntryPerPeer :=
  h.of_lists (fun hg => hgreet ▸ hg) (fun hc => hcredit ▸ hc) hevents

/-- Empty lists hold no entry twice. -/
theorem State.OneEntryPerPeer.of_nil {s : State} (hgreet : s.ssu.greetList = []) (hcredit : s.cru.list = [])
    (hevents : s.atu.peerEvents = []) : s.OneEntryPerPeer := by
  simp [State.OneEntryPerPeer, hgreet, hcredit, hevents]

/-- An entry that joins the tail unless the peer has one (R25, R56). -/
theorem nodup_appendNew {α : Type} [DecidableEq α] {l : List α} (a : α) (h : l.Nodup) :
    (if a ∈ l then l else l ++ [a]).Nodup := by
  split
  case isTrue => exact h
  case isFalse hnew => exact nodup_append_singleton h hnew

/-- An entry that moves to the tail (R30, R61). -/
theorem nodup_toTail {α : Type} [DecidableEq α] {l : List α} (a : α) (h : l.Nodup) :
    (if a ∈ l then l.filter (· ≠ a) ++ [a] else l).Nodup := by
  split
  case isTrue => exact nodup_append_singleton (h.filter _) (by simp)
  case isFalse => exact h

/-- A fold adds no peer but its own (R164). -/
theorem mem_foldEvent_peer {p k : StationId} {st : PeerState} {why : Reason} {l : List PeerEvent}
    (hmem : k ∈ (foldEvent p st why l).map PeerEvent.peer) :
    k = p ∨ k ∈ l.map PeerEvent.peer := by
  induction l with
  | nil => simpa [foldEvent] using hmem
  | cons e rest ih =>
    simp only [foldEvent] at hmem
    split at hmem
    case isTrue => exact .inr (by simpa using hmem)
    case isFalse =>
      rcases List.mem_cons.mp hmem with heq | htail
      · exact .inr (heq ▸ List.mem_cons_self)
      · exact (ih htail).imp_right (List.mem_cons_of_mem _)

theorem nodup_foldEvent (p : StationId) (st : PeerState) (why : Reason) {l : List PeerEvent}
    (h : (l.map PeerEvent.peer).Nodup) : ((foldEvent p st why l).map PeerEvent.peer).Nodup := by
  induction l with
  | nil => simp [foldEvent]
  | cons e rest ih =>
    obtain ⟨hnew, hrest⟩ := List.nodup_cons.mp h
    simp only [foldEvent]
    split
    case isTrue => exact h
    case isFalse hother =>
      refine List.nodup_cons.mpr ⟨fun hmem => ?_, ih hrest⟩
      exact (mem_foldEvent_peer hmem).elim hother hnew

theorem countsInRange_foldEvent (p : StationId) (st : PeerState) (why : Reason) {l : List PeerEvent}
    (h : CountsInRange l) : CountsInRange (foldEvent p st why l) := by
  induction l with
  | nil =>
    intro e hmem
    cases List.mem_singleton.mp hmem
    exact ⟨le_rfl, Nat.one_le_of_lt (by decide : 1 < 255)⟩
  | cons d rest ih =>
    have hd := h d List.mem_cons_self
    have hrest : CountsInRange rest := fun e hmem => h e (List.mem_cons_of_mem _ hmem)
    intro e hmem
    simp only [foldEvent] at hmem
    split at hmem
    case isTrue =>
      rcases List.mem_cons.mp hmem with rfl | htail
      · exact ⟨Nat.le_min.mpr ⟨by decide, Nat.le_add_left _ _⟩, Nat.min_le_left _ _⟩
      · exact hrest e htail
    case isFalse =>
      rcases List.mem_cons.mp hmem with rfl | htail
      · exact hd
      · exact ih hrest e htail

theorem oneEntryPerPeer_kept : Kept State.OneEntryPerPeer where
  queue _ _ h := h.of_eq rfl rfl rfl
  low _ _ h := h.of_eq rfl rfl rfl
  rif _ _ h := h.of_eq rfl rfl rfl
  ctu _ _ h := h.of_eq rfl rfl rfl
  txa _ _ h := h.of_eq rfl rfl rfl
  hpu _ _ h := h.of_eq rfl rfl rfl
  stc _ _ _ h := h.of_eq rfl rfl rfl
  verdict _ _ h := h.of_eq rfl rfl rfl
  fault _ _ _ _ h := h.of_eq rfl rfl rfl
  demand _ _ h := h.of_eq rfl rfl rfl
  winsel _ _ h := h.of_eq rfl rfl rfl
  peer _ _ _ _ h := h.of_eq rfl rfl rfl
  appendGreet s p h := h.of_lists (fun hg => by simpa using nodup_appendNew p hg) (by simp) (by simp)
  removeGreet s p h := h.of_lists (fun hg => hg.filter _) (by simp) rfl
  greetToTail s p h := h.of_lists (fun hg => by simpa using nodup_toTail p hg) (by simp) (by simp)
  addCredit s p h := h.of_lists (by simp) (fun hc => by simpa using nodup_appendNew p hc) (by simp)
  dropCredit s p h := h.of_lists (by simp) (fun hc => hc.filter _) rfl
  creditToTail s p h := h.of_lists (by simp) (fun hc => by simpa using nodup_toTail p hc) (by simp)
  event s p st why h := by
    obtain ⟨hg, hc, he, hcounts⟩ := h
    exact ⟨hg, hc, nodup_foldEvent p st why he, countsInRange_foldEvent p st why hcounts⟩
  complete _ _ h := h.of_eq (by simp) (by simp) (by simp)
  sending _ _ _ h := h.of_eq rfl rfl rfl
  retry _ _ _ h := h.of_eq rfl rfl rfl
  startFill _ _ _ _ _ _ _ _ _ _ h := h.of_eq rfl rfl rfl
  abortFill s h := by
    unfold State.abortFill
    split
    · exact h
    · exact h.of_eq rfl rfl rfl
  postFill s p seq h := by
    unfold State.postFill
    split
    · exact h
    · exact h.of_eq rfl rfl rfl
  leaving s h := h.of_lists (by simp) (by simp [Cru.clear]) (by simp)
  takeTx _ _ _ _ h := h.of_eq rfl rfl rfl
  writeMem _ _ _ _ h := h.of_eq rfl rfl rfl
  popInbound _ _ _ _ h := h.of_eq rfl rfl rfl
  popCompletion _ _ _ _ h := h.of_eq rfl rfl rfl
  popEvent s e rest hlist h := by
    obtain ⟨hg, hc, he, hcounts⟩ := h
    rw [hlist] at he hcounts
    exact ⟨hg, hc, he.of_cons, fun f hmem => hcounts f (List.mem_cons_of_mem _ hmem)⟩

theorem oneEntryPerPeer_stable : Stable State.OneEntryPerPeer where
  toKept := oneEntryPerPeer_kept
  releaseTx _ _ _ h := h.of_eq rfl rfl rfl
  releaseRx _ _ _ _ h := h.of_eq rfl rfl rfl
  accept _ _ _ _ _ _ h := h.of_eq rfl rfl rfl
  pinReset _ _ _ _ := State.OneEntryPerPeer.of_nil rfl rfl rfl
  restart _ _ := State.OneEntryPerPeer.of_nil rfl rfl rfl
  joined _ _ _ := State.OneEntryPerPeer.of_nil (by simp only [State.joined])
    (by simp only [State.joined, Cru.clear]) (by simp only [State.joined])

/-- Settles O12: an entry joins a list only where the peer has none, and an event folds into the peer's entry. -/
theorem stepKeepsOneEntryPerPeer : Obligations.StepKeepsOneEntryPerPeer :=
  fun s t h hstep => oneEntryPerPeer_stable.step s t h hstep

end Sys2Proof.Machine
end

