-- ==== Sys2Proof/Proofs/PoolKept.lean ====
section
/-! PROOF. The pool: every step keeps every handle in the one list or hand that its state names (R1, R2). -/

namespace Sys2Proof.Machine

/-! ### One handle that moves

A list that names the handles of one state goes on naming them when a handle moves between two other states,
when it joins the state of the list, and when it leaves it. -/

section Named

variable {inList inList' : Handle → Prop} {state : Handle → HandleState} {h : Handle} {c y : HandleState}

theorem named_of_passing (hnamed : ∀ k, inList k ↔ state k = c) (hold : state h ≠ c) (hnew : y ≠ c)
    (k : Handle) : inList k ↔ (if k = h then y else state k) = c := by
  rw [hnamed]
  by_cases hk : k = h
  · subst hk
    simp [hold, hnew]
  · simp [hk]

theorem named_of_joining (hnamed : ∀ k, inList k ↔ state k = c)
    (hjoins : ∀ k, inList' k ↔ inList k ∨ k = h) (k : Handle) :
    inList' k ↔ (if k = h then c else state k) = c := by
  rw [hjoins, hnamed]
  by_cases hk : k = h <;> simp [hk]

theorem named_of_leaving (hnamed : ∀ k, inList k ↔ state k = c)
    (hleaves : ∀ k, inList k ↔ k = h ∨ inList' k) (hgone : ¬ inList' h) (hnew : y ≠ c) (k : Handle) :
    inList' k ↔ (if k = h then y else state k) = c := by
  by_cases hk : k = h
  · subst hk
    simp [hgone, hnew]
  · rw [if_neg hk, ← hnamed, hleaves]
    simp [hk]

end Named

/-- The pool is consistent when the lists and the hands name the handles of these states. -/
theorem State.PoolConsistent.of_state {t : State} {state : Handle → HandleState}
    (hstate : ∀ k, t.handle k = state k)
    (htx : t.bfm.txFree.Nodup ∧ ∀ k, k ∈ t.bfm.txFree ↔ state k = .txFree)
    (hrx : t.bfm.rxFree.Nodup ∧ ∀ k, k ∈ t.bfm.rxFree ↔ state k = .rxFree)
    (hsend : (t.snu.sendList.map SendEntry.handle).Nodup ∧
      ∀ k, k ∈ t.snu.sendList.map SendEntry.handle ↔ state k = .queued)
    (hin : (t.rxu.inbound.map Inbound.handle).Nodup ∧ ∀ k (p : StationId),
      (k, p) ∈ t.rxu.inbound.map (fun r => (r.handle, r.source)) ↔ state k = .posted p)
    (hfill : ∀ k (p : StationId),
      t.rxu.fill.map (fun f => (f.handle, f.source)) = some (k, p) ↔ state k = .filling p) :
    t.PoolConsistent := by
  have heq : t.handle = state := funext hstate
  subst heq
  exact ⟨htx, hrx, hsend, hin, hfill⟩

theorem State.handle_of_table {s t : State} {h : Handle} {x : HandleState}
    (htable : t.bfm.table = s.bfm.table.set h x) (k : Handle) :
    t.handle k = if k = h then x else s.handle k := by
  rw [State.handle, htable]
  exact table_set _ _ _ _

/-! ### What the lists and the hands say of a handle -/

section Pool

variable {s : State} (hpool : s.PoolConsistent)
include hpool

theorem State.PoolConsistent.head_txFree {h : Handle} {rest : List Handle}
    (hfree : s.bfm.txFree = h :: rest) : s.handle h = .txFree := by
  obtain ⟨⟨-, htx⟩, -, -, -, -⟩ := hpool
  exact (htx h).mp (hfree ▸ List.mem_cons_self)

theorem State.PoolConsistent.head_rxFree {h : Handle} {rest : List Handle}
    (hfree : s.bfm.rxFree = h :: rest) : s.handle h = .rxFree := by
  obtain ⟨-, ⟨-, hrx⟩, -, -, -⟩ := hpool
  exact (hrx h).mp (hfree ▸ List.mem_cons_self)

theorem State.PoolConsistent.head_inbound {r : Inbound} {rest : List Inbound}
    (hlist : s.rxu.inbound = r :: rest) : s.handle r.handle = .posted r.source := by
  obtain ⟨-, -, -, ⟨-, hin⟩, -⟩ := hpool
  exact (hin _ _).mp (by rw [hlist]; exact List.mem_cons_self)

theorem State.PoolConsistent.fill_handle {f : Fill} (hfill : s.rxu.fill = some f) :
    s.handle f.handle = .filling f.source := by
  obtain ⟨-, -, -, -, hnamed⟩ := hpool
  exact (hnamed _ _).mp (by rw [hfill]; rfl)

/-- What a completion returns was QUEUED. -/
theorem State.PoolConsistent.handlesOf_queued {cause : SendEntry → Option (Status × Nat)} {k : Handle}
    (hmem : k ∈ handlesOf cause s.snu.sendList) : s.handle k = .queued := by
  obtain ⟨-, -, ⟨-, hnamed⟩, -, -⟩ := hpool
  obtain ⟨e, he, -, rfl⟩ := (mem_handlesOf cause _ k).mp hmem
  exact (hnamed e.handle).mp (List.mem_map_of_mem he)

end Pool

/-! ### The moves -/

/-- TXTAKE: the head of the TX Free List becomes COMPOSING (R7). -/
theorem State.PoolConsistent.takeTx {s : State} (hpool : s.PoolConsistent) {h : Handle}
    {rest : List Handle} (hfree : s.bfm.txFree = h :: rest) :
    ({ s with bfm := { s.bfm with table := s.bfm.table.set h .composing, txFree := rest } } :
      State).PoolConsistent := by
  have hold := hpool.head_txFree hfree
  obtain ⟨⟨htx, htx'⟩, ⟨hrx, hrx'⟩, ⟨hsend, hsend'⟩, ⟨hin, hin'⟩, hfill⟩ := hpool
  rw [hfree] at htx htx'
  obtain ⟨hnew, hrest⟩ := List.nodup_cons.mp htx
  refine State.PoolConsistent.of_state (State.handle_of_table rfl) ⟨hrest, ?tx⟩ ⟨hrx, ?rx⟩
    ⟨hsend, ?send⟩ ⟨hin, fun k p => ?inbound⟩ (fun k p => ?fill)
  case tx => exact named_of_leaving htx' (fun k => List.mem_cons) hnew (by decide)
  case rx => exact named_of_passing hrx' (by rw [hold]; decide) (by decide)
  case send => exact named_of_passing hsend' (by rw [hold]; decide) (by decide)
  case inbound => exact named_of_passing (fun k => hin' k p) (by rw [hold]; simp) (by simp) k
  case fill => exact named_of_passing (fun k => hfill k p) (by rw [hold]; simp) (by simp) k

/-- INBOUND_POP: the oldest POSTED handle becomes HELD (R14). -/
theorem State.PoolConsistent.popInbound {s : State} (hpool : s.PoolConsistent) {r : Inbound}
    {rest : List Inbound} (hlist : s.rxu.inbound = r :: rest) :
    ({ s.setHandle r.handle (.held r.source) with rxu := { s.rxu with inbound := rest } } :
      State).PoolConsistent := by
  have hold := hpool.head_inbound hlist
  obtain ⟨⟨htx, htx'⟩, ⟨hrx, hrx'⟩, ⟨hsend, hsend'⟩, ⟨hin, hin'⟩, hfill⟩ := hpool
  rw [hlist] at hin hin'
  obtain ⟨hnew, hrest⟩ := List.nodup_cons.mp hin
  refine State.PoolConsistent.of_state (State.handle_of_table rfl) ⟨htx, ?tx⟩ ⟨hrx, ?rx⟩
    ⟨hsend, ?send⟩ ⟨hrest, fun k p => ?inbound⟩ (fun k p => ?fill)
  case tx => exact named_of_passing htx' (by rw [hold]; simp) (by simp)
  case rx => exact named_of_passing hrx' (by rw [hold]; simp) (by simp)
  case send => exact named_of_passing hsend' (by rw [hold]; simp) (by simp)
  case inbound =>
    have hgone : ∀ q, (r.handle, q) ∉ rest.map (fun r => (r.handle, r.source)) := by
      intro q hmem
      obtain ⟨r', hr', heq⟩ := List.mem_map.mp hmem
      exact hnew (List.mem_map.mpr ⟨r', hr', congrArg Prod.fst heq⟩)
    by_cases hk : k = r.handle
    · subst hk
      simp [hgone]
    · rw [if_neg hk, ← hin', List.map_cons, List.mem_cons]
      simp [hk]
  case fill => exact named_of_passing (fun k => hfill k p) (by rw [hold]; simp) (by simp) k

/-- RELEASE of a COMPOSING handle: it joins the tail of the TX Free List (R10). -/
theorem State.PoolConsistent.returnTx {s : State} (hpool : s.PoolConsistent) {h : Handle}
    (hold : s.handle h = .composing) : (s.returnTx h).PoolConsistent := by
  obtain ⟨⟨htx, htx'⟩, ⟨hrx, hrx'⟩, ⟨hsend, hsend'⟩, ⟨hin, hin'⟩, hfill⟩ := hpool
  have hnew : h ∉ s.bfm.txFree := by rw [htx', hold]; decide
  refine State.PoolConsistent.of_state (State.handle_of_table rfl)
    ⟨nodup_append_singleton htx hnew, ?tx⟩ ⟨hrx, ?rx⟩ ⟨hsend, ?send⟩ ⟨hin, fun k p => ?inbound⟩
    (fun k p => ?fill)
  case tx => exact named_of_joining htx' (fun k => by simp)
  case rx => exact named_of_passing hrx' (by rw [hold]; decide) (by decide)
  case send => exact named_of_passing hsend' (by rw [hold]; decide) (by decide)
  case inbound => exact named_of_passing (fun k => hin' k p) (by rw [hold]; simp) (by simp) k
  case fill => exact named_of_passing (fun k => hfill k p) (by rw [hold]; simp) (by simp) k

/-- RELEASE of a HELD handle: it joins the tail of the RX Free List (R10). -/
theorem State.PoolConsistent.returnRx {s : State} (hpool : s.PoolConsistent) {h : Handle} {p : StationId}
    (hold : s.handle h = .held p) : (s.returnRx h).PoolConsistent := by
  obtain ⟨⟨htx, htx'⟩, ⟨hrx, hrx'⟩, ⟨hsend, hsend'⟩, ⟨hin, hin'⟩, hfill⟩ := hpool
  have hnew : h ∉ s.bfm.rxFree := by rw [hrx', hold]; simp
  refine State.PoolConsistent.of_state (State.handle_of_table rfl) ⟨htx, ?tx⟩
    ⟨nodup_append_singleton hrx hnew, ?rx⟩ ⟨hsend, ?send⟩ ⟨hin, fun k q => ?inbound⟩ (fun k q => ?fill)
  case tx => exact named_of_passing htx' (by rw [hold]; simp) (by simp)
  case rx => exact named_of_joining hrx' (fun k => by simp)
  case send => exact named_of_passing hsend' (by rw [hold]; simp) (by simp)
  case inbound => exact named_of_passing (fun k => hin' k q) (by rw [hold]; simp) (by simp) k
  case fill => exact named_of_passing (fun k => hfill k q) (by rw [hold]; simp) (by simp) k

/-- SEND_GO accepted: the COMPOSING handle becomes QUEUED with the entry that joins the Send List (R69). -/
theorem State.PoolConsistent.accept {s : State} (hpool : s.PoolConsistent) {h : Handle} {e : SendEntry}
    (hold : s.handle h = .composing) (hentry : e.handle = h) :
    ({ s.setHandle h .queued with snu := { s.snu with sendList := s.snu.sendList ++ [e] } } :
      State).PoolConsistent := by
  obtain ⟨⟨htx, htx'⟩, ⟨hrx, hrx'⟩, ⟨hsend, hsend'⟩, ⟨hin, hin'⟩, hfill⟩ := hpool
  have hnew : h ∉ s.snu.sendList.map SendEntry.handle := by rw [hsend', hold]; decide
  have hhandles : (s.snu.sendList ++ [e]).map SendEntry.handle =
      s.snu.sendList.map SendEntry.handle ++ [h] := by simp [hentry]
  refine State.PoolConsistent.of_state (State.handle_of_table rfl) ⟨htx, ?tx⟩ ⟨hrx, ?rx⟩
    ⟨?nodup, ?send⟩ ⟨hin, fun k p => ?inbound⟩ (fun k p => ?fill)
  case tx => exact named_of_passing htx' (by rw [hold]; decide) (by decide)
  case rx => exact named_of_passing hrx' (by rw [hold]; decide) (by decide)
  case nodup =>
    show ((s.snu.sendList ++ [e]).map SendEntry.handle).Nodup
    rw [hhandles]
    exact nodup_append_singleton hsend hnew
  case send =>
    show ∀ k, k ∈ (s.snu.sendList ++ [e]).map SendEntry.handle ↔ _
    rw [hhandles]
    exact named_of_joining hsend' (fun k => by simp)
  case inbound => exact named_of_passing (fun k => hin' k p) (by rw [hold]; simp) (by simp) k
  case fill => exact named_of_passing (fun k => hfill k p) (by rw [hold]; simp) (by simp) k

/-! ### A pool cleared and a pool built -/

theorem Bfm.clear_getElem (mem : List Host.Cell) (k : Handle) :
    (Bfm.clear mem).table[k] = .unassigned := by
  simp only [Bfm.clear, Fin.getElem_fin, Vector.getElem_replicate]

theorem State.handle_of_clear {s : State} {mem : List Host.Cell} (hbfm : s.bfm = Bfm.clear mem)
    (k : Handle) : s.handle k = .unassigned := by
  rw [State.handle, hbfm]
  exact Bfm.clear_getElem mem k

/-- After pin reset and RESTART no list and no hand holds a handle (R5). -/
theorem State.PoolConsistent.of_clear {s : State} {mem : List Host.Cell} (hbfm : s.bfm = Bfm.clear mem)
    (hsnu : s.snu = Snu.clear) (hrxu : s.rxu = Rxu.clear) : s.PoolConsistent := by
  have htx : s.bfm.txFree = [] := by rw [hbfm]; rfl
  have hrx : s.bfm.rxFree = [] := by rw [hbfm]; rfl
  refine State.PoolConsistent.of_state (State.handle_of_clear hbfm) ?_ ?_ ?_ ?_ ?_
  · simp [htx]
  · simp [hrx]
  · simp [hsnu, Snu.clear]
  · simp [hrxu, Rxu.clear]
  · simp [hrxu, Rxu.clear]

theorem Bfm.build_getElem (b : Bfm) (total : Nat) (k : Handle) :
    (b.build total).table[k] = if k.val < 128 - total then .txFree else .rxFree := by
  simp only [Bfm.build, Fin.getElem_fin, Vector.getElem_ofFn]

/-- Handles below 128 - R are on the transmit side and the others on the receive side (R4). -/
theorem State.joined_handle (s : State) (k : Handle) :
    s.joined.handle k =
      if k.val < 128 - reserveSum s.stc.sid s.stc.reserveRegs then .txFree else .rxFree :=
  Bfm.build_getElem s.bfm _ k

theorem State.joined_txFree (s : State) :
    s.joined.bfm.txFree =
      (List.finRange 128).filter fun h => h.val < 128 - reserveSum s.stc.sid s.stc.reserveRegs := by
  simp only [State.joined, Bfm.build]

theorem State.joined_rxFree (s : State) :
    s.joined.bfm.rxFree =
      (List.finRange 128).filter fun h =>
        !decide (h.val < 128 - reserveSum s.stc.sid s.stc.reserveRegs) := by
  simp only [State.joined, Bfm.build]

@[simp] theorem State.joined_snu (s : State) : s.joined.snu = Snu.clear := by simp only [State.joined]

@[simp] theorem State.joined_rxu (s : State) : s.joined.rxu = Rxu.clear := by simp only [State.joined]

/-- The pool as JOIN builds it (R4). -/
theorem State.joined_pool (s : State) : s.joined.PoolConsistent := by
  refine State.PoolConsistent.of_state s.joined_handle ?_ ?_ ?_ ?_ ?_
  · rw [State.joined_txFree]
    exact ⟨(List.nodup_finRange 128).filter _, fun k => by
      simp only [List.mem_filter, List.mem_finRange, true_and, decide_eq_true_eq]
      split <;> simp [*]⟩
  · rw [State.joined_rxFree]
    exact ⟨(List.nodup_finRange 128).filter _, fun k => by simp⟩
  · rw [State.joined_snu]
    refine ⟨List.nodup_nil, fun k => ?_⟩
    split <;> simp [Snu.clear]
  · rw [State.joined_rxu]
    refine ⟨List.nodup_nil, fun k p => ?_⟩
    split <;> simp [Rxu.clear]
  · intro k p
    rw [State.joined_rxu]
    split <;> simp [Rxu.clear]

/-! ### Every primitive update -/

theorem State.PoolConsistent.of_eq {s t : State} (hbfm : t.bfm = s.bfm) (hsnu : t.snu = s.snu)
    (hrxu : t.rxu = s.rxu) (hpool : s.PoolConsistent) : t.PoolConsistent :=
  State.poolConsistent_of_eq (by rw [hbfm]) (by rw [hbfm]) (by rw [hbfm]) (by rw [hsnu]) (by rw [hrxu])
    (by rw [hrxu]) hpool

theorem poolConsistent_kept : Kept State.PoolConsistent where
  queue _ _ h := h.of_eq rfl rfl rfl
  low _ _ h := h.of_eq rfl rfl rfl
  rif _ _ h := h.of_eq rfl rfl rfl
  ctu _ _ h := h.of_eq rfl rfl rfl
  txa _ _ h := h.of_eq rfl rfl rfl
  hpu _ _ h := h.of_eq rfl rfl rfl
  stc _ _ _ h := h.of_eq rfl rfl rfl
  verdict _ _ h := State.poolConsistent_of_eq rfl rfl rfl rfl rfl rfl h
  fault _ _ _ _ h := h.of_eq rfl rfl rfl
  demand _ _ h := h.of_eq rfl rfl rfl
  winsel _ _ h := State.poolConsistent_of_eq rfl rfl rfl rfl rfl rfl h
  peer _ _ _ _ h := h.of_eq rfl rfl rfl
  appendGreet _ _ h := h.of_eq (by simp) (by simp) (by simp)
  removeGreet _ _ h := h.of_eq rfl rfl rfl
  greetToTail _ _ h := h.of_eq (by simp) (by simp) (by simp)
  addCredit _ _ h := h.of_eq (by simp) (by simp) (by simp)
  dropCredit _ _ h := h.of_eq rfl rfl rfl
  creditToTail _ _ h := h.of_eq (by simp) (by simp) (by simp)
  event _ _ _ _ h := h.of_eq rfl rfl rfl
  complete s cause h := s.completeWhere_pool cause h
  sending s hd seq h :=
    State.poolConsistent_of_eq (s := s) rfl rfl rfl (s.entrySending_handles hd seq) rfl rfl h
  retry s hd counted h :=
    State.poolConsistent_of_eq (s := s) rfl rfl rfl (s.entryRetry_handles hd counted) rfl rfl h
  startFill s p hd rest v payload hfree _ hfill _ h := s.startFill_pool p hd rest v payload hfree hfill h
  abortFill s h := s.abortFill_pool h
  postFill s p seq h := s.postFill_pool p seq h
  leaving _ h := h.of_eq (by simp) (by simp) (by simp)
  takeTx _ _ _ hfree h := h.takeTx hfree
  writeMem _ _ _ _ h := State.poolConsistent_of_eq rfl rfl rfl rfl rfl rfl h
  popInbound _ _ _ hlist h := h.popInbound hlist
  popCompletion _ _ _ _ h := State.poolConsistent_of_eq rfl rfl rfl rfl rfl rfl h
  popEvent _ _ _ _ h := h.of_eq rfl rfl rfl

theorem poolConsistent_stable : Stable State.PoolConsistent where
  toKept := poolConsistent_kept
  releaseTx _ _ hold h := h.returnTx hold
  releaseRx _ _ _ hold h := (h.returnRx hold).of_eq rfl rfl rfl
  accept _ _ _ hold hentry _ h := h.accept hold hentry
  pinReset _ _ _ _ := State.PoolConsistent.of_clear rfl rfl rfl
  restart _ _ := State.PoolConsistent.of_clear rfl rfl rfl
  joined s _ _ := s.joined_pool

/-- Settles O8: one handle moves at a time, from one list or hand to another; completions, fills and JOIN
apart. -/
theorem stepKeepsThePoolConsistent : Obligations.StepKeepsThePoolConsistent :=
  fun s t h hstep => poolConsistent_stable.step s t h hstep

end Sys2Proof.Machine
end

