-- ==== Sys2Proof/Proofs/CountsKept.lean ====
section
/-! PROOF. The counts of buffers: in_use of a peer counts its buffers, and each side of the pool keeps its size
(R3, R4, R18, R54). -/

namespace Sys2Proof.Machine

/-! ### in_use counts the buffers of a peer -/

theorem State.BuffersCounted.of_holders {s t : State} (h : s.BuffersCounted)
    (hholders : ∀ k, (t.handle k).holder? = (s.handle k).holder?)
    (huse : ∀ p, (t.peer p).inUse = (s.peer p).inUse) : t.BuffersCounted := by
  intro p
  rw [huse, State.buffersOf_congr hholders]
  exact h p

theorem State.BuffersCounted.of_eq {s t : State} (htable : t.bfm.table = s.bfm.table)
    (hpeers : t.ssu.peers = s.ssu.peers) (h : s.BuffersCounted) : t.BuffersCounted :=
  h.of_holders (fun k => by rw [State.handle, htable]; rfl) (fun p => by rw [State.peer, hpeers]; rfl)

/-- One handle moves, and in_use moves with the peer whose buffer it was or becomes. -/
theorem State.BuffersCounted.of_move {s t : State} (h : s.BuffersCounted) {k : Handle} {x : HandleState}
    (hstate : ∀ j, t.handle j = if j = k then x else s.handle j)
    (huse : ∀ p, (t.peer p).inUse + (decide ((s.handle k).holder? = some p)).toNat =
      (s.peer p).inUse + (decide (x.holder? = some p)).toNat) : t.BuffersCounted := by
  intro p
  have hcount := State.buffersOf_update k x hstate p
  have hbefore := h p
  have hmoved := huse p
  omega

theorem State.buffersOf_of_none {s : State} (hnone : ∀ k, (s.handle k).holder? = none) (p : StationId) :
    s.buffersOf p = 0 := by
  rw [State.buffersOf, List.countP_eq_zero]
  simp [hnone]

/-- With no buffer in use both counts are 0. -/
theorem State.BuffersCounted.of_none {s : State} (hnone : ∀ k, (s.handle k).holder? = none)
    (huse : ∀ p, (s.peer p).inUse = 0) : s.BuffersCounted := by
  intro p
  rw [State.buffersOf_of_none hnone, huse]

theorem freshPeers_inUse (sid : StationId) (r : StationId → Nat) (p : StationId) :
    ((freshPeers sid r)[p]).inUse = 0 := by
  rw [freshPeers_getElem]
  split <;> rfl

theorem State.inUse_of_fresh {s : State} {sid : StationId} {r : StationId → Nat}
    (hpeers : s.ssu.peers = freshPeers sid r) (p : StationId) : (s.peer p).inUse = 0 := by
  rw [State.peer, hpeers]
  exact freshPeers_inUse sid r p

/-- A handle of the consistent pool whose state holds a message has a peer with a buffer in use. -/
theorem State.BuffersCounted.inUse_pos {s : State} (h : s.BuffersCounted) {k : Handle} {p : StationId}
    (hheld : (s.handle k).holder? = some p) : 1 ≤ (s.peer p).inUse := by
  rw [h p, State.buffersOf]
  exact List.one_le_countP_iff.mpr ⟨k, List.mem_finRange k, by simpa using hheld⟩

/-- A completed entry's handle was QUEUED and becomes TX_FREE: no buffer of a peer is touched. -/
theorem State.completeWhere_holder {s : State} (hpool : s.PoolConsistent)
    (cause : SendEntry → Option (Status × Nat)) (k : Handle) :
    ((s.completeWhere cause).handle k).holder? = (s.handle k).holder? := by
  rw [State.completeWhere_handle]
  split
  case isFalse => rfl
  case isTrue hmem =>
    rw [hpool.handlesOf_queued hmem]
    rfl

theorem State.completeWhere_ssu (s : State) (cause : SendEntry → Option (Status × Nat)) :
    (s.completeWhere cause).ssu = s.ssu := by simp

/-- The pool with its peers' buffers counted. -/
def State.PoolCounted (s : State) : Prop := s.PoolConsistent ∧ s.BuffersCounted

/-- Entering LEAVING touches no handle (R149). -/
theorem State.enterLeaving_handle (s : State) (k : Handle) : s.enterLeaving.handle k = s.handle k := by
  simp [State.handle]

theorem State.PoolCounted.of_eq {s t : State} (hpool : s.PoolConsistent → t.PoolConsistent)
    (htable : t.bfm.table = s.bfm.table) (hpeers : t.ssu.peers = s.ssu.peers) (h : s.PoolCounted) :
    t.PoolCounted := ⟨hpool h.1, h.2.of_eq htable hpeers⟩

theorem State.inUse_setPeer (s : State) (p : StationId) (q : Peer) (k : StationId) :
    ((s.setPeer p q).peer k).inUse = if k = p then q.inUse else (s.peer k).inUse := by
  rw [State.peer_setPeer]
  split <;> rfl

theorem poolCounted_kept : Kept State.PoolCounted where
  queue s x h := h.of_eq (poolConsistent_kept.queue s x) rfl rfl
  low s x h := h.of_eq (poolConsistent_kept.low s x) rfl rfl
  rif s x h := h.of_eq (poolConsistent_kept.rif s x) rfl rfl
  ctu s x h := h.of_eq (poolConsistent_kept.ctu s x) rfl rfl
  txa s x h := h.of_eq (poolConsistent_kept.txa s x) rfl rfl
  hpu s x h := h.of_eq (poolConsistent_kept.hpu s x) rfl rfl
  stc s x hx h := h.of_eq (poolConsistent_kept.stc s x hx) rfl rfl
  verdict s v h := h.of_eq (poolConsistent_kept.verdict s v) rfl rfl
  fault s f e i h := h.of_eq (poolConsistent_kept.fault s f e i) rfl rfl
  demand s d h := h.of_eq (poolConsistent_kept.demand s d) rfl rfl
  winsel s k h := h.of_eq (poolConsistent_kept.winsel s k) rfl rfl
  peer s p q hstep h := by
    obtain ⟨hpool, hcount⟩ := h
    refine ⟨poolConsistent_kept.peer s p q hstep hpool, hcount.of_holders (fun _ => rfl) fun k => ?_⟩
    obtain ⟨huse, -, -, -⟩ := hstep
    rw [State.inUse_setPeer]
    split
    case isTrue hk => rw [hk, huse]
    case isFalse => rfl
  appendGreet s p h := h.of_eq (poolConsistent_kept.appendGreet s p) (by simp) (by simp)
  removeGreet s p h := h.of_eq (poolConsistent_kept.removeGreet s p) rfl rfl
  greetToTail s p h := h.of_eq (poolConsistent_kept.greetToTail s p) (by simp) (by simp)
  addCredit s p h := h.of_eq (poolConsistent_kept.addCredit s p) (by simp) (by simp)
  dropCredit s p h := h.of_eq (poolConsistent_kept.dropCredit s p) rfl rfl
  creditToTail s p h := h.of_eq (poolConsistent_kept.creditToTail s p) (by simp) (by simp)
  event s p st why h := h.of_eq (poolConsistent_kept.event s p st why) rfl rfl
  complete s cause h := by
    obtain ⟨hpool, hcount⟩ := h
    refine ⟨poolConsistent_kept.complete s cause hpool,
      hcount.of_holders (State.completeWhere_holder hpool cause) fun p => ?_⟩
    rw [State.peer, State.completeWhere_ssu]
    rfl
  sending s k q h := h.of_eq (poolConsistent_kept.sending s k q) rfl rfl
  retry s k c h := h.of_eq (poolConsistent_kept.retry s k c) rfl rfl
  startFill s p k rest v payload hfree hroom hfill hlength h := by
    obtain ⟨hpool, hcount⟩ := h
    have hold := hpool.head_rxFree hfree
    refine ⟨s.startFill_pool p k rest v payload hfree hfill hpool,
      hcount.of_move (k := k) (x := .filling p) (State.handle_of_table rfl) fun j => ?_⟩
    have huse : ((s.startFill p k rest v payload).peer j).inUse =
        if j = p then (s.peer p).inUse + 1 else (s.peer j).inUse := s.inUse_setPeer p _ j
    rw [huse, hold]
    by_cases hj : j = p
    · simp [hj, HandleState.holder?]
    · simp [hj, HandleState.holder?, Ne.symm hj]
  abortFill s h := by
    cases hfill : s.rxu.fill with
    | none => rwa [State.abortFill_none hfill]
    | some f =>
      obtain ⟨hpool, hcount⟩ := h
      have hold := hpool.fill_handle hfill
      refine ⟨s.abortFill_pool hpool, ?_⟩
      rw [State.abortFill_some hfill]
      refine hcount.of_move (k := f.handle) (x := .rxFree) (State.handle_of_table rfl) fun j => ?_
      have huse := s.inUse_setPeer f.source { s.peer f.source with inUse := (s.peer f.source).inUse - 1 } j
      refine (congrArg (· + _) huse).trans ?_
      have hpos : 1 ≤ (s.peer f.source).inUse := hcount.inUse_pos (by rw [hold]; rfl)
      rw [hold]
      by_cases hj : j = f.source
      · simp [hj, HandleState.holder?]
        omega
      · simp [hj, HandleState.holder?, Ne.symm hj]
  postFill s p seq h := by
    cases hfill : s.rxu.fill with
    | none => rwa [State.postFill_none p seq hfill]
    | some f =>
      obtain ⟨hpool, hcount⟩ := h
      have hold := hpool.fill_handle hfill
      refine ⟨s.postFill_pool p seq hpool, ?_⟩
      rw [State.postFill_some p seq hfill]
      refine hcount.of_move (k := f.handle) (x := .posted f.source) (State.handle_of_table rfl)
        fun j => ?_
      have huse := s.inUse_setPeer p { s.peer p with lastRxSeq := some seq } j
      refine (congrArg (· + _) huse).trans ?_
      rw [hold]
      by_cases hj : j = p <;> simp [hj, HandleState.holder?]
  leaving s h := by
    obtain ⟨hpool, hcount⟩ := h
    refine ⟨poolConsistent_kept.leaving s hpool, hcount.of_holders (fun k => by rw [s.enterLeaving_handle]) fun p => ?_⟩
    rw [State.enterLeaving_peer]
    split <;> rfl
  takeTx s k rest hfree h := by
    obtain ⟨hpool, hcount⟩ := h
    have hold := hpool.head_txFree hfree
    refine ⟨hpool.takeTx hfree, hcount.of_move (k := k) (x := .composing) (State.handle_of_table rfl)
      fun p => ?_⟩
    rw [hold]
    rfl
  writeMem s k b1 b2 h := h.of_eq (poolConsistent_kept.writeMem s k b1 b2) rfl rfl
  popInbound s r rest hlist h := by
    obtain ⟨hpool, hcount⟩ := h
    have hold := hpool.head_inbound hlist
    refine ⟨hpool.popInbound hlist, hcount.of_move (k := r.handle) (x := .held r.source)
      (State.handle_of_table rfl) fun p => ?_⟩
    rw [hold]
    rfl
  popCompletion s r rest hlist h :=
    h.of_eq (poolConsistent_kept.popCompletion s r rest hlist) rfl rfl
  popEvent s e rest hlist h := h.of_eq (poolConsistent_kept.popEvent s e rest hlist) rfl rfl

theorem State.BuffersCounted.of_clear {s : State} {sid : StationId} {mem : List Host.Cell}
    (hbfm : s.bfm = Bfm.clear mem) (hssu : s.ssu = Ssu.clear sid) : s.BuffersCounted :=
  State.BuffersCounted.of_none (fun k => by rw [State.handle_of_clear hbfm]; rfl)
    (State.inUse_of_fresh (by rw [hssu]; rfl))

theorem poolCounted_stable : Stable State.PoolCounted where
  toKept := poolCounted_kept
  releaseTx s k hold h := by
    obtain ⟨hpool, hcount⟩ := h
    refine ⟨hpool.returnTx hold, hcount.of_move (k := k) (x := .txFree) (State.handle_of_table rfl)
      fun p => ?_⟩
    rw [hold]
    rfl
  releaseRx s k p hold h := by
    obtain ⟨hpool, hcount⟩ := h
    refine ⟨poolConsistent_stable.releaseRx s k p hold hpool, hcount.of_move (k := k) (x := .rxFree)
      (State.handle_of_table rfl) fun j => ?_⟩
    have huse := s.inUse_setPeer p { s.peer p with
      inUse := (s.peer p).inUse - 1, releasedTotal := (s.peer p).releasedTotal + 1 } j
    refine (congrArg (· + _) huse).trans ?_
    have hpos : 1 ≤ (s.peer p).inUse := hcount.inUse_pos (by rw [hold]; rfl)
    rw [hold]
    by_cases hj : j = p
    · simp [hj, HandleState.holder?]
      omega
    · simp [hj, HandleState.holder?, Ne.symm hj]
  accept s k e hold hentry _ h := by
    obtain ⟨hpool, hcount⟩ := h
    refine ⟨hpool.accept hold hentry, hcount.of_move (k := k) (x := .queued) (State.handle_of_table rfl)
      fun p => ?_⟩
    rw [hold]
    rfl
  pinReset s sid rate act :=
    ⟨poolConsistent_stable.pinReset s sid rate act, State.BuffersCounted.of_clear rfl rfl⟩
  restart s h := ⟨poolConsistent_stable.restart s h.1, State.BuffersCounted.of_clear rfl rfl⟩
  joined s _ _ :=
    ⟨s.joined_pool, State.BuffersCounted.of_none
      (fun k => by rw [State.joined_handle]; split <;> rfl) (State.inUse_of_fresh s.joined_peers)⟩

/-! ### The sides of the pool keep their sizes -/

/-- Every handle keeps its side, every record its reservation, and R stays. -/
theorem State.SidesCounted.of_sides {s t : State} (h : s.SidesCounted)
    (hsides : ∀ k, (t.handle k).transmitSide = (s.handle k).transmitSide)
    (hassigned : ∀ k, t.handle k = .unassigned ↔ s.handle k = .unassigned)
    (hr : ∀ p, (t.peer p).r = (s.peer p).r) (htotal : t.stc.reserveTotal = s.stc.reserveTotal) :
    t.SidesCounted := by
  unfold State.SidesCounted at *
  simpa only [hsides, hassigned, hr, htotal, ne_eq] using h

theorem State.SidesCounted.of_eq {s t : State} (htable : t.bfm.table = s.bfm.table)
    (hpeers : t.ssu.peers = s.ssu.peers) (htotal : t.stc.reserveTotal = s.stc.reserveTotal)
    (h : s.SidesCounted) : t.SidesCounted := by
  have hstate : t.handle = s.handle := by
    funext k
    rw [State.handle, htable]
    rfl
  refine h.of_sides (fun k => by rw [hstate]) (fun k => by rw [hstate]) (fun p => ?_) htotal
  rw [State.peer, hpeers]
  rfl

/-- One handle moves on its own side of the pool. -/
theorem State.SidesCounted.of_move {s t : State} (h : s.SidesCounted) {k : Handle} {x : HandleState}
    (hstate : ∀ j, t.handle j = if j = k then x else s.handle j)
    (hside : x.transmitSide = (s.handle k).transmitSide)
    (hassigned : x = .unassigned ↔ s.handle k = .unassigned)
    (hr : ∀ p, (t.peer p).r = (s.peer p).r) (htotal : t.stc.reserveTotal = s.stc.reserveTotal) :
    t.SidesCounted := by
  refine h.of_sides (fun j => ?_) (fun j => ?_) hr htotal
  · rw [hstate]
    split
    case isTrue hj => rw [hside, hj]
    case isFalse => rfl
  · rw [hstate]
    split
    case isTrue hj => rw [hassigned, hj]
    case isFalse => rfl

theorem State.r_setPeer {s : State} {p : StationId} {q : Peer} (hr : q.r = (s.peer p).r)
    (k : StationId) : ((s.setPeer p q).peer k).r = (s.peer k).r := by
  rw [State.peer_setPeer]
  split
  case isTrue hk => rw [hr, hk]
  case isFalse => rfl

/-- The pool with the sizes of its sides. -/
def State.PoolSided (s : State) : Prop := s.PoolConsistent ∧ s.SidesCounted

theorem State.PoolSided.of_eq {s t : State} (hpool : s.PoolConsistent → t.PoolConsistent)
    (htable : t.bfm.table = s.bfm.table) (hpeers : t.ssu.peers = s.ssu.peers)
    (htotal : t.stc.reserveTotal = s.stc.reserveTotal) (h : s.PoolSided) : t.PoolSided :=
  ⟨hpool h.1, h.2.of_eq htable hpeers htotal⟩

theorem poolSided_kept : Kept State.PoolSided where
  queue s x h := h.of_eq (poolConsistent_kept.queue s x) rfl rfl rfl
  low s x h := h.of_eq (poolConsistent_kept.low s x) rfl rfl rfl
  rif s x h := h.of_eq (poolConsistent_kept.rif s x) rfl rfl rfl
  ctu s x h := h.of_eq (poolConsistent_kept.ctu s x) rfl rfl rfl
  txa s x h := h.of_eq (poolConsistent_kept.txa s x) rfl rfl rfl
  hpu s x h := h.of_eq (poolConsistent_kept.hpu s x) rfl rfl rfl
  stc s x hx h := h.of_eq (poolConsistent_kept.stc s x hx) rfl rfl hx
  verdict s v h := h.of_eq (poolConsistent_kept.verdict s v) rfl rfl rfl
  fault s f e i h := h.of_eq (poolConsistent_kept.fault s f e i) rfl rfl rfl
  demand s d h := h.of_eq (poolConsistent_kept.demand s d) rfl rfl rfl
  winsel s k h := h.of_eq (poolConsistent_kept.winsel s k) rfl rfl rfl
  peer s p q hstep h := by
    obtain ⟨hpool, hsides⟩ := h
    refine ⟨poolConsistent_kept.peer s p q hstep hpool,
      hsides.of_sides (fun _ => rfl) (fun _ => Iff.rfl) (State.r_setPeer ?_) rfl⟩
    obtain ⟨-, hr, -, -⟩ := hstep
    exact hr
  appendGreet s p h := h.of_eq (poolConsistent_kept.appendGreet s p) (by simp) (by simp) (by simp)
  removeGreet s p h := h.of_eq (poolConsistent_kept.removeGreet s p) rfl rfl rfl
  greetToTail s p h := h.of_eq (poolConsistent_kept.greetToTail s p) (by simp) (by simp) (by simp)
  addCredit s p h := h.of_eq (poolConsistent_kept.addCredit s p) (by simp) (by simp) (by simp)
  dropCredit s p h := h.of_eq (poolConsistent_kept.dropCredit s p) rfl rfl rfl
  creditToTail s p h := h.of_eq (poolConsistent_kept.creditToTail s p) (by simp) (by simp) (by simp)
  event s p st why h := h.of_eq (poolConsistent_kept.event s p st why) rfl rfl rfl
  complete s cause h := by
    obtain ⟨hpool, hsides⟩ := h
    refine ⟨poolConsistent_kept.complete s cause hpool,
      hsides.of_sides (fun k => ?_) (fun k => ?_) (fun p => ?_) (by simp)⟩
    · rw [State.completeWhere_handle]
      split
      case isTrue hmem => rw [hpool.handlesOf_queued hmem]; rfl
      case isFalse => rfl
    · rw [State.completeWhere_handle]
      split
      case isTrue hmem => rw [hpool.handlesOf_queued hmem]; simp
      case isFalse => rfl
    · rw [State.peer, State.completeWhere_ssu]
      rfl
  sending s k q h := h.of_eq (poolConsistent_kept.sending s k q) rfl rfl rfl
  retry s k c h := h.of_eq (poolConsistent_kept.retry s k c) rfl rfl rfl
  startFill s p k rest v payload hfree hroom hfill hlength h := by
    obtain ⟨hpool, hsides⟩ := h
    have hold := hpool.head_rxFree hfree
    refine ⟨s.startFill_pool p k rest v payload hfree hfill hpool,
      hsides.of_move (k := k) (x := .filling p) (State.handle_of_table rfl) (by rw [hold]; rfl)
        (by rw [hold]; simp) (fun j => ?_) rfl⟩
    exact State.r_setPeer (q := { s.peer p with inUse := (s.peer p).inUse + 1 }) rfl j
  abortFill s h := by
    cases hfill : s.rxu.fill with
    | none => rwa [State.abortFill_none hfill]
    | some f =>
      obtain ⟨hpool, hsides⟩ := h
      have hold := hpool.fill_handle hfill
      refine ⟨s.abortFill_pool hpool, ?_⟩
      rw [State.abortFill_some hfill]
      exact hsides.of_move (k := f.handle) (x := .rxFree) (State.handle_of_table rfl)
        (by rw [hold]; rfl) (by rw [hold]; simp)
        (State.r_setPeer (q := { s.peer f.source with inUse := (s.peer f.source).inUse - 1 }) rfl) rfl
  postFill s p seq h := by
    cases hfill : s.rxu.fill with
    | none => rwa [State.postFill_none p seq hfill]
    | some f =>
      obtain ⟨hpool, hsides⟩ := h
      have hold := hpool.fill_handle hfill
      refine ⟨s.postFill_pool p seq hpool, ?_⟩
      rw [State.postFill_some p seq hfill]
      exact hsides.of_move (k := f.handle) (x := .posted f.source) (State.handle_of_table rfl)
        (by rw [hold]; rfl) (by rw [hold]; simp)
        (State.r_setPeer (q := { s.peer p with lastRxSeq := some seq }) rfl) rfl
  leaving s h := by
    obtain ⟨hpool, hsides⟩ := h
    refine ⟨poolConsistent_kept.leaving s hpool,
      hsides.of_sides (fun k => by rw [s.enterLeaving_handle])
        (fun k => by rw [s.enterLeaving_handle]) (fun p => ?_) (by simp)⟩
    rw [State.enterLeaving_peer]
    split <;> rfl
  takeTx s k rest hfree h := by
    obtain ⟨hpool, hsides⟩ := h
    have hold := hpool.head_txFree hfree
    exact ⟨hpool.takeTx hfree, hsides.of_move (k := k) (x := .composing) (State.handle_of_table rfl)
      (by rw [hold]; rfl) (by rw [hold]; simp) (fun _ => rfl) rfl⟩
  writeMem s k b1 b2 h := h.of_eq (poolConsistent_kept.writeMem s k b1 b2) rfl rfl rfl
  popInbound s r rest hlist h := by
    obtain ⟨hpool, hsides⟩ := h
    have hold := hpool.head_inbound hlist
    exact ⟨hpool.popInbound hlist, hsides.of_move (k := r.handle) (x := .held r.source)
      (State.handle_of_table rfl) (by rw [hold]; rfl) (by rw [hold]; simp) (fun _ => rfl) rfl⟩
  popCompletion s r rest hlist h :=
    h.of_eq (poolConsistent_kept.popCompletion s r rest hlist) rfl rfl rfl
  popEvent s e rest hlist h := h.of_eq (poolConsistent_kept.popEvent s e rest hlist) rfl rfl rfl

/-! ### The sizes that JOIN gives -/

theorem filter_lt_range {m n : Nat} (hle : n ≤ m) :
    ((List.range m).filter fun k => decide (k < n)) = List.range n := by
  obtain ⟨d, rfl⟩ := Nat.exists_eq_add_of_le hle
  have hfirst : ((List.range n).filter fun k => decide (k < n)) = List.range n :=
    List.filter_eq_self.mpr fun k hk => decide_eq_true (List.mem_range.mp hk)
  have hrest : (((List.range d).map (n + ·)).filter fun k => decide (k < n)) = [] :=
    List.filter_eq_nil_iff.mpr fun k hk => by
      obtain ⟨j, -, rfl⟩ := List.mem_map.mp hk
      simp
  rw [List.range_add, List.filter_append, hfirst, hrest, List.append_nil]

/-- The handles below n, as numbers. -/
theorem finRange_filter_lt_map {m n : Nat} (hle : n ≤ m) :
    ((List.finRange m).filter fun k => decide (k.val < n)).map Fin.val = List.range n := by
  rw [← filter_lt_range hle, ← List.map_coe_finRange_eq_range, List.filter_map]
  rfl

/-- The first n of the handles are n. -/
theorem countP_finRange_lt {m n : Nat} (hle : n ≤ m) :
    (List.finRange m).countP (fun k => decide (k.val < n)) = n := by
  rw [List.countP_eq_length_filter, ← List.length_map (f := Fin.val), finRange_filter_lt_map hle,
    List.length_range]

theorem State.joined_transmitSide (s : State) :
    (List.finRange 128).countP (fun k => (s.joined.handle k).transmitSide) =
      128 - reserveSum s.stc.sid s.stc.reserveRegs := by
  rw [← countP_finRange_lt (Nat.sub_le 128 (reserveSum s.stc.sid s.stc.reserveRegs))]
  refine List.countP_congr fun k _ => ?_
  rw [State.joined_handle]
  split <;> simp [HandleState.transmitSide, *]

/-- The records' reservations add up to R (R144). -/
theorem State.joined_reserveSum (s : State) :
    ((List.finRange 32).map fun p => (s.joined.peer p).r).sum =
      reserveSum s.stc.sid s.stc.reserveRegs := by
  rw [reserveSum]
  refine congrArg List.sum (List.map_congr_left fun p _ => ?_)
  rw [State.peer, State.joined_peers, freshPeers_getElem]
  split <;> rfl

theorem State.joined_reserveTotal (s : State) :
    s.joined.stc.reserveTotal = reserveSum s.stc.sid s.stc.reserveRegs := by
  simp only [State.joined]

theorem poolSided_stable : Stable State.PoolSided where
  toKept := poolSided_kept
  releaseTx s k hold h :=
    ⟨h.1.returnTx hold, h.2.of_move (k := k) (x := .txFree) (State.handle_of_table rfl)
      (by rw [hold]; rfl) (by rw [hold]; simp) (fun _ => rfl) rfl⟩
  releaseRx s k p hold h :=
    ⟨poolConsistent_stable.releaseRx s k p hold h.1, h.2.of_move (k := k) (x := .rxFree)
      (State.handle_of_table rfl) (by rw [hold]; rfl) (by rw [hold]; simp)
      (State.r_setPeer (q := { s.peer p with
        inUse := (s.peer p).inUse - 1, releasedTotal := (s.peer p).releasedTotal + 1 }) rfl) rfl⟩
  accept s k e hold hentry _ h :=
    ⟨h.1.accept hold hentry, h.2.of_move (k := k) (x := .queued) (State.handle_of_table rfl)
      (by rw [hold]; rfl) (by rw [hold]; simp) (fun _ => rfl) rfl⟩
  pinReset s sid rate act :=
    ⟨poolConsistent_stable.pinReset s sid rate act, .inl (State.handle_of_clear rfl)⟩
  restart s h := ⟨poolConsistent_stable.restart s h.1, .inl (State.handle_of_clear rfl)⟩
  joined s hle _ := by
    refine ⟨s.joined_pool, .inr ⟨fun k => ?_, ?_, ?_, ?_⟩⟩
    · rw [State.joined_handle]
      split <;> simp
    · rw [State.joined_transmitSide, State.joined_reserveTotal]
    · rw [State.joined_reserveSum, State.joined_reserveTotal]
    · rw [State.joined_reserveTotal]
      exact hle

/-- Settles O9: in_use moves with the handle, and a handle changes its side at a reset or a JOIN alone. -/
theorem stepKeepsTheCountsOfBuffers : Obligations.StepKeepsTheCountsOfBuffers :=
  ⟨fun s t hpool hcount hstep => (poolCounted_stable.step s t ⟨hpool, hcount⟩ hstep).2,
    fun s t hpool hsides hstep => (poolSided_stable.step s t ⟨hpool, hsides⟩ hstep).2⟩

end Sys2Proof.Machine
end

