-- ==== Sys2Proof/Proofs/BufferPorts.lean ====
section
/-! PROOF. The host's ports to buffers and sends: TXTAKE, RELEASE, the window, SEND_GO and the pops, each branch
of their checks said once (R7, R10, R14, R16, R68, R83, R165). -/

namespace Sys2Proof.Machine

/-! ### Handles and identities named by a word -/

theorem handleOf_eq_some {w : Word} {h : Handle} (hname : w.toNat = h.val) : handleOf w = some h := by
  have hlt : w.toNat < 128 := hname ▸ h.isLt
  rw [handleOf, dif_pos hlt]
  exact congrArg some (Fin.ext hname)

theorem handleOf_eq_none {w : Word} (hover : 128 ≤ w.toNat) : handleOf w = none :=
  dif_neg (Nat.not_lt.mpr hover)

theorem toNat_of_handleOf {w : Word} {h : Handle} (hname : handleOf w = some h) : w.toNat = h.val := by
  unfold handleOf at hname
  split at hname
  case isTrue => exact congrArg Fin.val (Option.some.inj hname)
  case isFalse => cases hname

theorem stationOfWord_eq_some {w : Word} {p : StationId} (hname : w.toNat = p.val) :
    stationOfWord w = some p := by
  have hlt : w.toNat < 32 := hname ▸ p.isLt
  rw [stationOfWord, dif_pos hlt]
  exact congrArg some (Fin.ext hname)

theorem stationOfWord_eq_none {w : Word} (hover : 32 ≤ w.toNat) : stationOfWord w = none :=
  dif_neg (Nat.not_lt.mpr hover)

/-! ### TXTAKE -/

theorem exec_txtakeRead_open {s : State} (hopen : s.resetLow = false) :
    exec .txtakeRead s = .next s.takeTx :=
  congrArg _ (State.onRead_open hopen State.takeTx)

theorem State.takeTx_empty {s : State} (hfree : s.bfm.txFree = []) : s.takeTx = s.drive noneWord := by
  rw [State.takeTx, hfree]

theorem State.takeTx_oldest {s : State} {h : Handle} {rest : List Handle}
    (hfree : s.bfm.txFree = h :: rest) :
    s.takeTx =
      ({ s with bfm := { s.bfm with table := s.bfm.table.set h .composing, txFree := rest } } :
        State).drive (handleWord h) := by
  rw [State.takeTx, hfree]

/-! ### RELEASE -/

theorem exec_releaseWrite_open {s : State} (hopen : s.resetLow = false) (w : Word) :
    exec (.releaseWrite w) s = .next (s.release w) :=
  congrArg _ (State.onWrite_open hopen fun t => t.release w)

theorem State.release_none {s : State} {w : Word} (hname : handleOf w = none) :
    s.release w = s.releaseResult .badHandle := by
  rw [State.release, hname]

theorem State.release_held {s : State} {w : Word} {h : Handle} {p : StationId}
    (hname : handleOf w = some h) (hheld : s.handle h = .held p) :
    s.release w = (s.releaseHeld h p).releaseResult .doneRx := by
  simp only [State.release, hname, hheld]

theorem State.release_composing {s : State} {w : Word} {h : Handle} (hname : handleOf w = some h)
    (hcomposing : s.handle h = .composing) : s.release w = (s.returnTx h).releaseResult .doneTx := by
  simp only [State.release, hname, hcomposing]

/-- A handle that is not the host's is refused (R10). -/
theorem State.release_refused {s : State} {w : Word} {h : Handle} (hname : handleOf w = some h)
    (hcomposing : s.handle h ≠ .composing) (hheld : ∀ p, s.handle h ≠ .held p) :
    s.release w = s.releaseResult .badHandle := by
  simp only [State.release, hname]
  split
  case h_1 p hstate => exact absurd hstate (hheld p)
  case h_2 hstate => exact absurd hstate hcomposing
  all_goals rfl

/-- Everything that a write to RELEASE can do (R10). -/
theorem State.release_cases (s : State) (w : Word) :
    s.release w = s.releaseResult .badHandle ∨
      (∃ h p, handleOf w = some h ∧ s.handle h = .held p ∧
        s.release w = (s.releaseHeld h p).releaseResult .doneRx) ∨
      ∃ h, handleOf w = some h ∧ s.handle h = .composing ∧
        s.release w = (s.returnTx h).releaseResult .doneTx := by
  cases hname : handleOf w with
  | none => exact .inl (State.release_none hname)
  | some h =>
    by_cases hcomposing : s.handle h = .composing
    · exact .inr (.inr ⟨h, rfl, hcomposing, State.release_composing hname hcomposing⟩)
    · by_cases hheld : ∃ p, s.handle h = .held p
      · obtain ⟨p, hheld⟩ := hheld
        exact .inr (.inl ⟨h, p, rfl, hheld, State.release_held hname hheld⟩)
      · exact .inl (State.release_refused hname hcomposing fun p hp => hheld ⟨p, hp⟩)

/-- What the release of a HELD buffer does to the blocks (R10, R55). -/
theorem State.releaseHeld_eq (s : State) (h : Handle) (p : StationId) :
    s.releaseHeld h p =
      { s with
        bfm := { s.bfm with table := s.bfm.table.set h .rxFree, rxFree := s.bfm.rxFree ++ [h] }
        ssu :=
          { s.ssu with
            peers := s.ssu.peers.set p
              { s.peer p with
                inUse := (s.peer p).inUse - 1, releasedTotal := (s.peer p).releasedTotal + 1 } }
        cru :=
          if (s.peer p).state = .isOpen then
            s.cru.evaluated (if p ∈ s.cru.list then s.cru.list else s.cru.list ++ [p])
              (s.ssu.peers.set p
                { s.peer p with
                  inUse := (s.peer p).inUse - 1, releasedTotal := (s.peer p).releasedTotal + 1 })
          else s.cru } := by
  unfold State.releaseHeld
  by_cases hstate : (s.peer p).state = .isOpen
  · simp only [if_pos hstate, State.addCredit_eq]
    rfl
  · simp only [if_neg hstate]
    rfl

/-- Settles O18: TXTAKE with and without a free handle, then RELEASE by the state of the handle named. -/
theorem takesAndReleasesOfBuffers : Obligations.TakesAndReleasesOfBuffers := by
  refine ⟨?txtake, ?held, ?others⟩
  case txtake =>
    intro s hopen
    rw [exec_txtakeRead_open hopen]
    refine ⟨fun hfree => ?_, fun h rest hfree => ?_⟩
    · rw [State.takeTx_empty hfree]
      rfl
    · rw [State.takeTx_oldest hfree]
      rfl
  case held =>
    intro s w h p hopen hname hheld
    dsimp only
    rw [exec_releaseWrite_open hopen, State.release_held (handleOf_eq_some hname) hheld,
      State.releaseHeld_eq]
    rfl
  case others =>
    intro s w hopen
    rw [exec_releaseWrite_open hopen]
    refine ⟨fun h hname hcomposing => ?_, ?_⟩
    · rw [State.release_composing (handleOf_eq_some hname) hcomposing]
      rfl
    · rintro (hover | ⟨h, hname, hcomposing, hheld⟩)
      · rw [State.release_none (handleOf_eq_none hover)]
        rfl
      · rw [State.release_refused (handleOf_eq_some hname) hcomposing hheld]
        rfl

/-! ### The window -/

theorem exec_windowRead_open {s : State} (hopen : s.resetLow = false) (k : BitVec 7) :
    exec (.windowRead k) s = .next (s.readWindow k) :=
  congrArg _ (State.onRead_open hopen fun t => t.readWindow k)

theorem exec_windowWrite_open {s : State} (hopen : s.resetLow = false) (k : BitVec 7) (w : Word) :
    exec (.windowWrite k w) s = .next (s.writeWindow k w) :=
  congrArg _ (State.onWrite_open hopen fun t => t.writeWindow k w)

/-- The two bytes of a word written, high byte first, read back, and no other byte changes (R17, R183). -/
theorem Memory.read_writeWord {m : List Host.Cell} (hwf : Memory.wf m) {a : Nat}
    (hfit : a + 2 ≤ memoryBytes) (hi lo : Byte) (b : Nat) :
    Memory.read (Memory.writeBytes m a [hi, lo]) b =
      if b = a then hi else if b = a + 1 then lo else Memory.read m b := by
  have hlow : Memory.wf (Memory.write m a hi) := Memory.wf_write hi hwf (by omega)
  simp only [Memory.writeBytes]
  rw [Memory.read_write hlow, Memory.read_write hwf]
  by_cases hb : b = a
  · subst hb
    simp
  · simp [hb]

/-- Settles O19: the read by the state of the selected handle, then the write into a COMPOSING buffer, byte by
byte, and the refused one. -/
theorem windowAccessesAreChecked : Obligations.WindowAccessesAreChecked := by
  refine ⟨fun s k hopen => ?read, fun s k w hopen hmem => ?write⟩
  case read =>
    rw [exec_windowRead_open hopen]
    refine ⟨fun hserved => ?_, fun ⟨hcomposing, hinbound⟩ => ?_⟩
    · rw [State.readWindow, if_pos (HandleState.readable_iff.mpr hserved)]
      rfl
    · rw [State.readWindow, if_neg]
      · rfl
      · intro hread
        obtain hcomp | ⟨p, hposted | hheld⟩ := HandleState.readable_iff.mp hread
        · exact hcomposing hcomp
        · exact (hinbound p).left hposted
        · exact (hinbound p).right hheld
  case write =>
    rw [exec_windowWrite_open hopen]
    refine ⟨fun hcomposing => ?_, fun hrefused => ?_⟩
    · refine ⟨_, by rw [State.writeWindow, if_pos hcomposing], fun a => ?_⟩
      exact Memory.read_writeWord hmem (bufferAddress_add_le (windowBytes_fit k)) _ _ a
    · rw [State.writeWindow, if_neg hrefused]
      rfl

/-! ### SEND_GO -/

theorem exec_sendGoWrite_open {s : State} (hopen : s.resetLow = false) (w : Word) :
    exec (.sendGoWrite w) s = .next s.sendGo :=
  congrArg _ (State.onWrite_open hopen State.sendGo)

theorem State.sendGo_notOnline {s : State} (h : s.stc.state ≠ .online ∨ s.stc.leaveMark = true) :
    s.sendGo = s.sendResult .notOnline := if_pos h

/-- A staged request of an ONLINE station with no LEAVE taken. -/
structure State.Requests (s : State) (d : StationId) : Prop where
  online : s.stc.state = .online
  unmarked : s.stc.leaveMark = false
  dest : s.hpu.sendDest.toNat = d.val
  other : d ≠ s.stc.sid

theorem State.sendGo_noStation {s : State} (honline : s.stc.state = .online)
    (hmark : s.stc.leaveMark = false) (hover : 32 ≤ s.hpu.sendDest.toNat) :
    s.sendGo = s.sendResult .badDest := by
  rw [State.sendGo, if_neg (by simp [honline, hmark]), stationOfWord_eq_none hover]

theorem State.sendGo_self {s : State} (honline : s.stc.state = .online)
    (hmark : s.stc.leaveMark = false) (hself : s.hpu.sendDest.toNat = s.stc.sid.val) :
    s.sendGo = s.sendResult .badDest := by
  rw [State.sendGo, if_neg (by simp [honline, hmark]), stationOfWord_eq_some hself]
  exact if_pos rfl

section Requests

variable {s : State} {d : StationId} (h : s.Requests d)
include h

/-- Past the checks of the state and the destination comes the check of the length (R68). -/
theorem State.Requests.sendGo_badLength
    (hlength : s.hpu.sendLength.toNat < 1 ∨ 256 < s.hpu.sendLength.toNat) :
    s.sendGo = s.sendResult .badLength := by
  obtain ⟨honline, hmark, hdest, hother⟩ := h
  rw [State.sendGo, if_neg (by simp [honline, hmark]), stationOfWord_eq_some hdest]
  simp only [if_neg hother, if_pos hlength]

variable (hlength : ¬ (s.hpu.sendLength.toNat < 1 ∨ 256 < s.hpu.sendLength.toNat))
include hlength

theorem State.Requests.sendGo_noPeer (hstate : (s.peer d).state = .absent) :
    s.sendGo = s.sendResult .noPeer := by
  obtain ⟨honline, hmark, hdest, hother⟩ := h
  rw [State.sendGo, if_neg (by simp [honline, hmark]), stationOfWord_eq_some hdest]
  simp only [if_neg hother, if_neg hlength, hstate]

theorem State.Requests.sendGo_unreachable (hstate : (s.peer d).state = .lost) :
    s.sendGo = s.sendResult .unreachable := by
  obtain ⟨honline, hmark, hdest, hother⟩ := h
  rw [State.sendGo, if_neg (by simp [honline, hmark]), stationOfWord_eq_some hdest]
  simp only [if_neg hother, if_neg hlength, hstate]

/-- The checks on the budget and the handle come last (R68). -/
theorem State.Requests.sendGo_claim (habsent : (s.peer d).state ≠ .absent)
    (hlost : (s.peer d).state ≠ .lost) : s.sendGo = s.sendClaim d := by
  obtain ⟨honline, hmark, hdest, hother⟩ := h
  rw [State.sendGo, if_neg (by simp [honline, hmark]), stationOfWord_eq_some hdest]
  simp only [if_neg hother, if_neg hlength]
  split
  case h_1 hstate => exact absurd hstate habsent
  case h_2 hstate => exact absurd hstate hlost
  all_goals rfl

end Requests

theorem State.sendClaim_full {s : State} (d : StationId)
    (hfull : 32 ≤ s.snu.sendList.length + s.snu.completions.length) :
    s.sendClaim d = s.sendResult .listFull := if_pos hfull

section Claims

variable {s : State} (hroom : s.snu.sendList.length + s.snu.completions.length < 32)
include hroom

theorem State.sendClaim_noHandle (d : StationId) (hname : handleOf s.hpu.sendHandle = none) :
    s.sendClaim d = s.sendResult .badHandle := by
  rw [State.sendClaim, if_neg (Nat.not_le.mpr hroom), hname]

theorem State.sendClaim_notComposing (d : StationId) {h : Handle}
    (hname : handleOf s.hpu.sendHandle = some h) (hstate : s.handle h ≠ .composing) :
    s.sendClaim d = s.sendResult .badHandle := by
  rw [State.sendClaim, if_neg (Nat.not_le.mpr hroom), hname]
  exact if_neg hstate

theorem State.sendClaim_accepted (d : StationId) {h : Handle}
    (hname : handleOf s.hpu.sendHandle = some h) (hstate : s.handle h = .composing) :
    s.sendClaim d = (s.acceptSend h d).sendResult .accepted := by
  rw [State.sendClaim, if_neg (Nat.not_le.mpr hroom), hname]
  exact if_pos hstate

end Claims

theorem State.sendClaim_cases (s : State) (d : StationId) :
    (∃ r, s.sendClaim d = s.sendResult r) ∨
      ∃ h, handleOf s.hpu.sendHandle = some h ∧ s.handle h = .composing ∧
        s.sendClaim d = (s.acceptSend h d).sendResult .accepted := by
  rcases Nat.lt_or_ge (s.snu.sendList.length + s.snu.completions.length) 32 with hroom | hfull
  · cases hname : handleOf s.hpu.sendHandle with
    | none => exact .inl ⟨_, State.sendClaim_noHandle hroom d hname⟩
    | some h =>
      by_cases hstate : s.handle h = .composing
      · exact .inr ⟨h, rfl, hstate, State.sendClaim_accepted hroom d hname hstate⟩
      · exact .inl ⟨_, State.sendClaim_notComposing hroom d hname hstate⟩
  · exact .inl ⟨_, State.sendClaim_full d hfull⟩

/-- Everything that a write to SEND_GO can do: a result alone, or an entry accepted for another station. -/
theorem State.sendGo_cases (s : State) :
    (∃ r, s.sendGo = s.sendResult r) ∨
      ∃ d h, d ≠ s.stc.sid ∧ handleOf s.hpu.sendHandle = some h ∧ s.handle h = .composing ∧
        s.sendGo = (s.acceptSend h d).sendResult .accepted := by
  have hclaim : ∀ d, d ≠ s.stc.sid → s.sendGo = s.sendClaim d → (∃ r, s.sendGo = s.sendResult r) ∨
      ∃ d h, d ≠ s.stc.sid ∧ handleOf s.hpu.sendHandle = some h ∧ s.handle h = .composing ∧
        s.sendGo = (s.acceptSend h d).sendResult .accepted := by
    intro d hother heq
    rw [heq]
    exact (s.sendClaim_cases d).imp_right fun ⟨h, hname, hstate, hgo⟩ => ⟨d, h, hother, hname, hstate, hgo⟩
  by_cases hstate : s.stc.state ≠ .online ∨ s.stc.leaveMark = true
  · exact .inl ⟨_, State.sendGo_notOnline hstate⟩
  · simp only [not_or, not_not, Bool.not_eq_true] at hstate
    obtain ⟨honline, hmark⟩ := hstate
    rcases Nat.lt_or_ge s.hpu.sendDest.toNat 32 with hlt | hover
    · by_cases hself : s.hpu.sendDest.toNat = s.stc.sid.val
      · exact .inl ⟨_, State.sendGo_self honline hmark hself⟩
      · have hother : (⟨s.hpu.sendDest.toNat, hlt⟩ : StationId) ≠ s.stc.sid := fun heq =>
          hself (congrArg Fin.val heq)
        have hreq : s.Requests ⟨s.hpu.sendDest.toNat, hlt⟩ := ⟨honline, hmark, rfl, hother⟩
        by_cases hlength : s.hpu.sendLength.toNat < 1 ∨ 256 < s.hpu.sendLength.toNat
        · exact .inl ⟨_, hreq.sendGo_badLength hlength⟩
        · by_cases habsent : (s.peer ⟨s.hpu.sendDest.toNat, hlt⟩).state = .absent
          · exact .inl ⟨_, hreq.sendGo_noPeer hlength habsent⟩
          · by_cases hlost : (s.peer ⟨s.hpu.sendDest.toNat, hlt⟩).state = .lost
            · exact .inl ⟨_, hreq.sendGo_unreachable hlength hlost⟩
            · exact hclaim _ hother (hreq.sendGo_claim hlength habsent hlost)
    · exact .inl ⟨_, State.sendGo_noStation honline hmark hover⟩

/-- Settles O21: each refusal by the check that fails first, then the request that passes them all. -/
theorem sendGoChecksInOrder : Obligations.SendGoChecksInOrder := by
  refine ⟨fun s w hopen => ?refused, ?accepted⟩
  case refused =>
    intro refused
    have hrefused : ∀ r : SendResult, s.sendGo = s.sendResult r → refused r.code := fun r hgo =>
      (exec_sendGoWrite_open hopen w).trans (congrArg _ hgo)
    refine ⟨fun hstate => hrefused .notOnline (State.sendGo_notOnline hstate), fun honline hmark =>
      ⟨?_, fun d hdest hother => ?_⟩⟩
    · rintro (hover | hself)
      · exact hrefused .badDest (State.sendGo_noStation honline hmark hover)
      · exact hrefused .badDest (State.sendGo_self honline hmark hself)
    · have hreq : s.Requests d := ⟨honline, hmark, hdest, hother⟩
      refine ⟨fun hlength => hrefused .badLength (hreq.sendGo_badLength (by omega)), fun hmin hmax => ?_⟩
      have hlength : ¬ (s.hpu.sendLength.toNat < 1 ∨ 256 < s.hpu.sendLength.toNat) := by omega
      refine ⟨fun habsent => hrefused .noPeer (hreq.sendGo_noPeer hlength habsent),
        fun hlost => hrefused .unreachable (hreq.sendGo_unreachable hlength hlost),
        fun habsent hlost => ?_⟩
      have hclaim := hreq.sendGo_claim hlength habsent hlost
      refine ⟨fun hfull => hrefused .listFull (hclaim.trans (State.sendClaim_full d hfull)),
        fun hroom => ?_⟩
      rintro (hover | ⟨h, hname, hstate⟩)
      · exact hrefused .badHandle
          (hclaim.trans (State.sendClaim_noHandle hroom d (handleOf_eq_none hover)))
      · exact hrefused .badHandle
          (hclaim.trans (State.sendClaim_notComposing hroom d (handleOf_eq_some hname) hstate))
  case accepted =>
    intro s w d h hopen honline hmark hdest hother hmin hmax habsent hlost hroom hname hstate
    have hreq : s.Requests d := ⟨honline, hmark, hdest, hother⟩
    rw [exec_sendGoWrite_open hopen, hreq.sendGo_claim (by omega) habsent hlost,
      State.sendClaim_accepted hroom d (handleOf_eq_some hname) hstate]
    rfl

/-! ### The pops -/

theorem exec_inboundPopRead_open {s : State} (hopen : s.resetLow = false) :
    exec .inboundPopRead s = .next s.inboundPop :=
  congrArg _ (State.onRead_open hopen State.inboundPop)

theorem exec_completionPopRead_open {s : State} (hopen : s.resetLow = false) :
    exec .completionPopRead s = .next s.completionPop :=
  congrArg _ (State.onRead_open hopen State.completionPop)

theorem exec_peerEventPopRead_open {s : State} (hopen : s.resetLow = false) :
    exec .peerEventPopRead s = .next s.peerEventPop :=
  congrArg _ (State.onRead_open hopen State.peerEventPop)

/-- Settles O22, port by port: the empty list, then the oldest record. -/
theorem popsTakeTheOldestRecord : Obligations.PopsTakeTheOldestRecord := by
  refine ⟨fun s hopen => ?inbound, fun s hopen => ?completion, fun s hopen => ?event⟩
  case inbound =>
    rw [exec_inboundPopRead_open hopen]
    refine ⟨fun hlist => ?_, fun r rest hlist => ?_⟩ <;> rw [State.inboundPop, hlist] <;> rfl
  case completion =>
    rw [exec_completionPopRead_open hopen]
    refine ⟨fun hlist => ?_, fun r rest hlist => ?_⟩ <;> rw [State.completionPop, hlist] <;> rfl
  case event =>
    rw [exec_peerEventPopRead_open hopen]
    refine ⟨fun hlist => ?_, fun r rest hlist => ?_⟩ <;> rw [State.peerEventPop, hlist] <;> rfl

end Sys2Proof.Machine
end

