-- ==== Sys2Proof/Proofs/PoolUse.lean ====
section
/-! PROOF. What a consistent pool gives: a buffer in the host's hands stays there, and a peer with room finds a
free buffer (R14, R16, R54). -/

namespace Sys2Proof.Machine

/-! ### A buffer in the hands of the host -/

/-- The host has taken the buffer: COMPOSING or HELD. -/
def HandleState.InHand (x : HandleState) : Prop := x = .composing ∨ ∃ p, x = .held p

/-- The pool is consistent and the handle stands in this state. -/
def State.Standing (h : Handle) (x : HandleState) (s : State) : Prop :=
  s.PoolConsistent ∧ s.handle h = x

section Standing

variable {h : Handle} {x : HandleState}

theorem State.Standing.of_table {s t : State} (hs : s.Standing h x)
    (hpool : s.PoolConsistent → t.PoolConsistent) (htable : t.bfm.table = s.bfm.table) :
    t.Standing h x := by
  obtain ⟨hpool', hstate⟩ := hs
  refine ⟨hpool hpool', ?_⟩
  rw [State.handle, htable]
  exact hstate

/-- A handle that moves from a state out of the host's hands is another one. -/
theorem State.Standing.of_move {s t : State} (hs : s.Standing h x) (hx : x.InHand)
    (hpool : t.PoolConsistent) {k : Handle} {y : HandleState}
    (hstate : ∀ j, t.handle j = if j = k then y else s.handle j) (hout : ¬ (s.handle k).InHand) :
    t.Standing h x := by
  refine ⟨hpool, ?_⟩
  rw [hstate, if_neg, hs.2]
  rintro rfl
  exact hout (hs.2 ▸ hx)

theorem standing_kept (hx : x.InHand) : Kept (State.Standing h x) where
  queue s y hs := hs.of_table (poolConsistent_kept.queue s y) rfl
  low s y hs := hs.of_table (poolConsistent_kept.low s y) rfl
  rif s y hs := hs.of_table (poolConsistent_kept.rif s y) rfl
  ctu s y hs := hs.of_table (poolConsistent_kept.ctu s y) rfl
  txa s y hs := hs.of_table (poolConsistent_kept.txa s y) rfl
  hpu s y hs := hs.of_table (poolConsistent_kept.hpu s y) rfl
  stc s y hy hs := hs.of_table (poolConsistent_kept.stc s y hy) rfl
  verdict s v hs := hs.of_table (poolConsistent_kept.verdict s v) rfl
  fault s f e i hs := hs.of_table (poolConsistent_kept.fault s f e i) rfl
  demand s d hs := hs.of_table (poolConsistent_kept.demand s d) rfl
  winsel s k hs := hs.of_table (poolConsistent_kept.winsel s k) rfl
  peer s p q hstep hs := hs.of_table (poolConsistent_kept.peer s p q hstep) rfl
  appendGreet s p hs := hs.of_table (poolConsistent_kept.appendGreet s p) (by simp)
  removeGreet s p hs := hs.of_table (poolConsistent_kept.removeGreet s p) rfl
  greetToTail s p hs := hs.of_table (poolConsistent_kept.greetToTail s p) (by simp)
  addCredit s p hs := hs.of_table (poolConsistent_kept.addCredit s p) (by simp)
  dropCredit s p hs := hs.of_table (poolConsistent_kept.dropCredit s p) rfl
  creditToTail s p hs := hs.of_table (poolConsistent_kept.creditToTail s p) (by simp)
  event s p st why hs := hs.of_table (poolConsistent_kept.event s p st why) rfl
  complete s cause hs := by
    obtain ⟨hpool, hstate⟩ := hs
    refine ⟨poolConsistent_kept.complete s cause hpool, ?_⟩
    rw [State.completeWhere_handle, if_neg, hstate]
    intro hmem
    rw [← hstate, hpool.handlesOf_queued hmem] at hx
    simp [HandleState.InHand] at hx
  sending s k q hs := hs.of_table (poolConsistent_kept.sending s k q) rfl
  retry s k c hs := hs.of_table (poolConsistent_kept.retry s k c) rfl
  startFill s p k rest v payload hfree hroom hfill hlength hs :=
    hs.of_move hx (s.startFill_pool p k rest v payload hfree hfill hs.1) (State.handle_of_table rfl)
      (by rw [hs.1.head_rxFree hfree]; simp [HandleState.InHand])
  abortFill s hs := by
    cases hfill : s.rxu.fill with
    | none => rwa [State.abortFill_none hfill]
    | some f =>
      have hpool := s.abortFill_pool hs.1
      rw [State.abortFill_some hfill] at hpool ⊢
      exact hs.of_move hx hpool (State.handle_of_table rfl)
        (by rw [hs.1.fill_handle hfill]; simp [HandleState.InHand])
  postFill s p seq hs := by
    cases hfill : s.rxu.fill with
    | none => rwa [State.postFill_none p seq hfill]
    | some f =>
      have hpool := s.postFill_pool p seq hs.1
      rw [State.postFill_some p seq hfill] at hpool ⊢
      exact hs.of_move hx hpool (State.handle_of_table rfl)
        (by rw [hs.1.fill_handle hfill]; simp [HandleState.InHand])
  leaving s hs := hs.of_table (poolConsistent_kept.leaving s) (by simp)
  takeTx s k rest hfree hs :=
    hs.of_move hx (hs.1.takeTx hfree) (State.handle_of_table rfl)
      (by rw [hs.1.head_txFree hfree]; simp [HandleState.InHand])
  writeMem s k b1 b2 hs := hs.of_table (poolConsistent_kept.writeMem s k b1 b2) rfl
  popInbound s r rest hlist hs :=
    hs.of_move hx (hs.1.popInbound hlist) (State.handle_of_table rfl)
      (by rw [hs.1.head_inbound hlist]; simp [HandleState.InHand])
  popCompletion s r rest hlist hs :=
    hs.of_table (poolConsistent_kept.popCompletion s r rest hlist) rfl
  popEvent s e rest hlist hs := hs.of_table (poolConsistent_kept.popEvent s e rest hlist) rfl

end Standing

/-- A RELEASE moves no handle but the one that it names. -/
theorem State.release_handle {s : State} {w : Word} {h : Handle} (hother : w.toNat ≠ h.val) :
    (s.release w).handle h = s.handle h := by
  have hne : ∀ k, handleOf w = some k → h ≠ k := fun k hname heq =>
    hother (heq ▸ toNat_of_handleOf hname)
  rcases s.release_cases w with hgo | ⟨k, p, hname, -, hgo⟩ | ⟨k, hname, -, hgo⟩
  · rw [hgo]
    rfl
  · rw [hgo, State.releaseHeld_eq]
    exact (table_set _ _ _ _).trans (if_neg (hne k hname))
  · rw [hgo]
    exact (table_set _ _ _ _).trans (if_neg (hne k hname))

/-- A SEND_GO moves no handle but the one staged. -/
theorem State.sendGo_handle {s : State} {h : Handle} (hother : s.hpu.sendHandle.toNat ≠ h.val) :
    s.sendGo.handle h = s.handle h := by
  rcases s.sendGo_cases with ⟨r, hgo⟩ | ⟨d, k, -, hname, -, hgo⟩
  · rw [hgo]
    rfl
  · rw [hgo]
    refine (table_set _ _ _ _).trans (if_neg fun heq => ?_)
    exact hother (heq ▸ toNat_of_handleOf hname)

/-- Settles O20: a calm command moves no handle out of the host's hands, and RELEASE and SEND_GO move the one
they name. -/
theorem hostKeepsTheBuffersItTook : Obligations.HostKeepsTheBuffersItTook := by
  intro s t c h hpool hhand hrelease hsend hjoin hrestart hassert hreleased hexec
  by_cases hcalm : Calm c
  · exact ((standing_kept hhand).exec c s t hcalm ⟨hpool, rfl⟩ hexec).2
  · cases c
    case pinResetAssert => exact absurd rfl hassert
    case pinResetRelease sid rate act => exact absurd rfl (hreleased sid rate act)
    case join => exact absurd rfl hjoin
    case restart => exact absurd rfl hrestart
    case releaseWrite w =>
      cases hexec
      by_cases hlow : s.resetLow = true
      · rw [State.onWrite_low hlow]
      · rw [State.onWrite_open (by simpa using hlow)]
        exact State.release_handle (hrelease w rfl)
    case sendGoWrite w =>
      cases hexec
      by_cases hlow : s.resetLow = true
      · rw [State.onWrite_low hlow]
      · rw [State.onWrite_open (by simpa using hlow)]
        exact State.sendGo_handle (hsend w rfl)
    all_goals exact absurd trivial hcalm

/-! ### Room means a free buffer -/

/-- Sorted by what f names, the elements that f names something for are counted once each. -/
theorem sum_countP_eq {α : Type} {n : Nat} (f : α → Option (Fin n)) (l : List α) :
    ∑ p : Fin n, l.countP (fun a => decide (f a = some p)) = l.countP fun a => (f a).isSome := by
  induction l with
  | nil => simp
  | cons a l ih =>
    have hone : ∑ p : Fin n, (if decide (f a = some p) = true then 1 else 0) =
        if (f a).isSome = true then 1 else 0 := by
      cases f a <;> simp
    simp only [List.countP_cons, Finset.sum_add_distrib, ih, hone]

/-- Every buffer in use is a buffer of one peer (R1). -/
theorem State.sum_buffersOf (s : State) :
    ((List.finRange 32).map s.buffersOf).sum =
      (List.finRange 128).countP fun h => (s.handle h).holder?.isSome := by
  rw [← Fin.sum_univ_def]
  exact sum_countP_eq (fun h => (s.handle h).holder?) (List.finRange 128)

/-- The RX Free List is as long as there are handles in its state. -/
theorem State.PoolConsistent.rxFree_length {s : State} (hpool : s.PoolConsistent) :
    s.bfm.rxFree.length = (List.finRange 128).countP fun h => decide (s.handle h = .rxFree) := by
  obtain ⟨-, ⟨hnodup, hnamed⟩, -, -, -⟩ := hpool
  rw [List.countP_eq_length_filter]
  refine List.Perm.length_eq ((List.perm_ext_iff_of_nodup hnodup
    ((List.nodup_finRange 128).filter _)).mpr fun h => ?_)
  simp [hnamed]

/-- An assigned handle is on the transmit side, free on the receive side, or a buffer in use. -/
theorem HandleState.side_count {x : HandleState} (hassigned : x ≠ .unassigned) :
    (x.transmitSide).toNat + (decide (x = .rxFree)).toNat + (x.holder?.isSome).toNat = 1 := by
  cases x <;> simp_all [HandleState.transmitSide, HandleState.holder?]

theorem countP_cons_toNat {α : Type} (p : α → Bool) (x : α) (l : List α) :
    (x :: l).countP p = l.countP p + (p x).toNat := by
  rw [List.countP_cons]
  cases p x <;> rfl

theorem countP_three {α : Type} {a b c : α → Bool}
    (hone : ∀ x, (a x).toNat + (b x).toNat + (c x).toNat = 1) (l : List α) :
    l.countP a + l.countP b + l.countP c = l.length := by
  induction l with
  | nil => rfl
  | cons x l ih =>
    have hx := hone x
    rw [countP_cons_toNat, countP_cons_toNat, countP_cons_toNat, List.length_cons]
    omega

/-- The RX Free List holds R less the buffers in use (R3, R4). -/
theorem State.rxFree_inUse {s : State} (hpool : s.PoolConsistent) (hcount : s.BuffersCounted)
    (hassigned : ∀ h, s.handle h ≠ .unassigned)
    (hside : (List.finRange 128).countP (fun h => (s.handle h).transmitSide) = 128 - s.stc.reserveTotal)
    (hle : s.stc.reserveTotal ≤ 112) :
    s.bfm.rxFree.length + ((List.finRange 32).map fun p => (s.peer p).inUse).sum =
      s.stc.reserveTotal := by
  have huse : (fun p => (s.peer p).inUse) = s.buffersOf := funext hcount
  have hall := countP_three (fun h => HandleState.side_count (hassigned h)) (List.finRange 128)
  rw [huse, s.sum_buffersOf, hpool.rxFree_length]
  rw [hside, List.length_finRange] at hall
  omega

/-- One addend below its bound keeps the sum below the sum of the bounds. -/
theorem sum_lt_of_le_of_lt {n : Nat} {f g : Fin n → Nat} (hle : ∀ i, f i ≤ g i) {p : Fin n}
    (hlt : f p < g p) : ((List.finRange n).map f).sum < ((List.finRange n).map g).sum := by
  rw [← Fin.sum_univ_def, ← Fin.sum_univ_def]
  exact Finset.sum_lt_sum (fun i _ => hle i) ⟨p, Finset.mem_univ p, hlt⟩

/-- Settles O15: the sizes of the sides give the length of the RX Free List; were it empty, every peer would use
its whole reservation. -/
theorem roomMeansAFreeBuffer : Obligations.RoomMeansAFreeBuffer := by
  rintro s hpool hcount (hnone | ⟨hassigned, hside, hsum, hle⟩) ⟨h, hh⟩
  · exact absurd (hnone h) hh
  · have hlength := State.rxFree_inUse hpool hcount hassigned hside hle
    refine ⟨hlength, fun _ p hroom hbound hempty => ?_⟩
    have hlt : ((List.finRange 32).map fun k => (s.peer k).inUse).sum <
        ((List.finRange 32).map fun k => (s.peer k).r).sum :=
      sum_lt_of_le_of_lt hbound (p := p) (by omega)
    rw [hempty, List.length_nil, Nat.zero_add, ← hsum] at hlength
    exact absurd hlength hlt.ne

end Sys2Proof.Machine
end

