-- ==== Sys2Proof/Proofs/LineSteps.lean ====
section
/-! PROOF. What a step can do to the line, said once: the blocks that the invariants of the line speak of, every
change that a command makes to them, and that no step does anything else. -/

namespace Sys2Proof.Machine

/-! ### The part of a state that the line's invariants read -/

/-- The Rail Interface, the Contention Unit and the Transmit Arbiter, the station state with its pending work,
whether a verdict stands and a fill is in progress, and the station's identity. -/
structure LineView where
  rif : Rif
  ctu : Ctu
  txa : Txa
  state : StationState
  leaveMark : Bool
  pendingAnnounce : Bool
  pendingLeave : Bool
  verdict : Bool
  fill : Bool
  sid : StationId

def State.lineView (s : State) : LineView :=
  { rif := s.rif, ctu := s.ctu, txa := s.txa, state := s.stc.state, leaveMark := s.stc.leaveMark
    pendingAnnounce := s.stc.pendingAnnounce, pendingLeave := s.stc.pendingLeave
    verdict := s.rxu.verdict.isSome, fill := s.rxu.fill.isSome
    sid := s.stc.sid }

/-- A state with the same five blocks has the same view. -/
theorem State.lineView_eq {s t : State} (hrif : t.rif = s.rif) (hctu : t.ctu = s.ctu)
    (htxa : t.txa = s.txa) (hstc : t.stc = s.stc) (hrxu : t.rxu = s.rxu) : t.lineView = s.lineView := by
  simp only [State.lineView, hrif, hctu, htxa, hstc, hrxu]

namespace LineView

/-- n idle bit times pass (R107, R123). -/
def elapse (v : LineView) (n : Nat) : LineView :=
  { v with
    rif := { v.rif with idleCount := min Config.listenTimeout (v.rif.idleCount + n) }
    ctu := { v.ctu with slotClock := v.ctu.slotClock.map fun c => (c + n) % Config.windowBits } }

/-- The line turns IDLE with nothing assembled (R107). -/
def free (v : LineView) : LineView :=
  { v with rif := { v.rif with line := .idle, idleCount := 1, reception := none, broken := none } }

/-- The line turns IDLE at the end of a frame of the station's own (R107, R114). -/
def sent (v : LineView) : LineView :=
  { v with
    rif := { v.rif with line := .idle, idleCount := 1, reception := none, transmit := none,
                        broken := none } }

/-- A frame of the station's own is on the line (R107, R114, R123). -/
def transmit (v : LineView) (f : Frame) : LineView :=
  { v with
    rif := { line := .busy, idleCount := 0, reception := none, transmit := some f, replyDue := none,
             broken := none }
    ctu := { v.ctu with slotClock := none, slot := none } }

/-- The station has left the rail at once or by its own LEAVE or cut ANNOUNCE (R147). -/
def unseen (v : LineView) : LineView :=
  { v with state := .offline, leaveMark := false, pendingAnnounce := false }

/-- What a frame end makes of LW and the window kind (R127). -/
inductive Wins (c : Ctu) : Ctu → Prop
  | keeps : Wins c c
  | ordered : Wins c { c with kind := .ordered }
  | winner (p : StationId) : Wins c { c with lw := p, lwKnown := true, kind := .rotation }

/-- A station that waits to leave enters LEAVING once its part in the line is settled (R148, R149). -/
inductive Settles (v : LineView) : LineView → Prop
  | waits : Settles v v
  | leaves (hstate : v.state = .online) (hreception : v.rif.reception = none)
      (hreply : v.rif.replyDue = none) (htransmit : v.rif.transmit = none) :
      Settles v { v with state := .leaving, leaveMark := false, pendingLeave := true }

/-- An exchange in progress ends and the train is decided (R133, R136); without an item nothing ends. -/
inductive Finishes (v : LineView) : LineView → Prop
  | nothing (hitem : v.txa.item = none) : Finishes v v
  | ends {w : LineView} (train : Nat) (gap : Bool)
      (hsettles : Settles { v with txa := { v.txa with exchange := .idle, item := none } } w) :
      Finishes v { w with txa := { exchange := .idle, train := train, gap := gap, item := none } }

/-- The last thing that a frame end does (R118, R119, R148). -/
inductive EndsAwait (v : LineView) : LineView → Prop
  | awaited {w : LineView} (hexchange : v.txa.exchange = .awaitReply) (hfinishes : Finishes v w) :
      EndsAwait v w
  | other {w : LineView} (hexchange : v.txa.exchange ≠ .awaitReply) (hsettles : Settles v w) :
      EndsAwait v w

/-- The line after a pin reset (R152). -/
def cleared (active : Bool) (sid : StationId) : LineView :=
  { rif := Rif.clear active, ctu := Ctu.clear, txa := Txa.clear, state := .offline, leaveMark := false
    pendingAnnounce := false, pendingLeave := false, verdict := false, fill := false, sid := sid }

/-- Everything that a step can do to the line but a pin reset. -/
inductive Step (v : LineView) : LineView → Prop
  | same : Step v v
  | restart :
      Step v
        { rif := { Rif.clear (v.rif.line == .busy) with broken := v.rif.brokenOff }, ctu := Ctu.clear
          txa := Txa.clear, state := .offline, leaveMark := false, pendingAnnounce := false
          pendingLeave := false, verdict := false, fill := false, sid := v.sid }
  | join (silent : Bool) (hstate : v.state = .offline) :
      Step v
        { v with
          rif := { v.rif with broken := none }
          ctu := { v.ctu with lw := 0, lwKnown := false, kind := .ordered, slot := none }
          state := if silent then .announcing else .listening
          pendingAnnounce := silent || v.pendingAnnounce, verdict := false, fill := false }
  | leaveUnseen (hstate : v.state = .listening ∨
        v.state = .announcing ∧ ∀ p, v.rif.transmit ≠ some (.announce p)) : Step v v.unseen
  | leaveMarked {w : LineView} (hstate : v.state = .announcing ∨ v.state = .online)
      (hsettles : Settles { v with leaveMark := true } w) : Step v w
  | busy (hline : v.rif.line = .idle) :
      Step v
        { v with
          rif := { v.rif with line := .busy, idleCount := 0, reception := some { headerSeen := false },
                              replyDue := none }
          ctu := { v.ctu with slotClock := none, slot := none }
          txa := if v.txa.gap then Txa.clear else v.txa }
  | idle (hline : v.rif.line = .busy) (hreception : v.rif.reception = none)
      (htransmit : v.rif.transmit = none) : Step v { v.free with verdict := false }
  | elapse (n : Nat) (hline : v.rif.line = .idle) : Step v (v.elapse n)
  | window (n : Nat) (slot : Option Nat) (hline : v.rif.line = .idle) :
      Step v { v.elapse n with ctu := { v.ctu with slotClock := some 0, slot := slot } }
  | noSlot (n : Nat) (hline : v.rif.line = .idle) :
      Step v { v.elapse n with ctu := { (v.elapse n).ctu with slot := none } }
  | slotPassed : Step v { v with ctu := { v.ctu with slot := none } }
  | gapOver (n : Nat) (hline : v.rif.line = .idle) (hgap : v.txa.gap = true) :
      Step v { v.elapse n with txa := Txa.clear }
  | gapPassed (hgap : v.txa.gap = true) : Step v { v with txa := Txa.clear }
  | starts (f : Frame) (item : Item) (train : Nat) (hline : v.rif.line = .idle) (hkind : f.kind ≠ .reply)
      (hannounce : f.kind = .announce → v.state = .announcing)
      (hleave : f.kind = .leave → v.state = .leaving)
      (honline : f.kind ≠ .announce → f.kind ≠ .leave → v.state = .online) :
      Step v
        { v.transmit f with
          txa := { exchange := .transmitting, train := train, gap := false, item := some item } }
  | replies (me p : StationId) (status : ReplyStatus) (hline : v.rif.line = .idle)
      (hdue : v.rif.replyDue ≠ none) : Step v (v.transmit (.reply me p status))
  | timeout {w : LineView} (n : Nat) (hline : v.rif.line = .idle)
      (hexchange : v.txa.exchange = .awaitReply) (hfinishes : Finishes (v.elapse n) w) : Step v w
  | listened (n : Nat) (hline : v.rif.line = .idle) (hstate : v.state = .listening) :
      Step v { v.elapse n with state := .announcing, pendingAnnounce := true }
  | duplicate {c : Ctu} (hends : v.rif.endsReception = true) (hwins : Wins v.ctu c) :
      Step v
        { v.free with
          rif := { v.free.rif with transmit := none, replyDue := none }
          ctu := c, txa := Txa.clear, state := .halted, leaveMark := false, pendingAnnounce := false
          pendingLeave := false, verdict := false, fill := false }
  | listenedFrame {c : Ctu} {w : LineView} (hends : v.rif.endsReception = true) (hwins : Wins v.ctu c)
      (hstate : v.state = .listening)
      (hawait : EndsAwait
        { v.free with
          ctu := c, state := .announcing, pendingAnnounce := true, verdict := false, fill := false } w) :
      Step v w
  | received {c : Ctu} {w : LineView} (hends : v.rif.endsReception = true) (hwins : Wins v.ctu c)
      (hawait : EndsAwait { v.free with ctu := c, verdict := false, fill := false } w) : Step v w
  | receivedOnline {c : Ctu} {w : LineView} (due : Option ReplyDue) (hends : v.rif.endsReception = true)
      (hdue : ∀ p sess grant, due = some { peer := p, status := .greeted sess grant } →
        due = v.rif.replyDue ∨ p ≠ v.sid)
      (hwins : Wins v.ctu c) (hstate : v.state = .online)
      (hawait : EndsAwait
        { v.free with
          rif := { v.free.rif with replyDue := due }, ctu := c, verdict := false, fill := false } w) :
      Step v w
  | frameEnds (f : Frame) {c : Ctu} (htransmit : v.rif.transmit = some f) (hkind : f.kind ≠ .reply)
      (hannounce : f.kind ≠ .announce) (hleave : f.kind ≠ .leave) (hwins : Wins v.ctu c) :
      Step v { v.sent with ctu := c, txa := { v.txa with exchange := .awaitReply } }
  | announceEnds (p : StationId) {c : Ctu} (train : Nat) (gap : Bool)
      (htransmit : v.rif.transmit = some (.announce p)) (hwins : Wins v.ctu c) :
      Step v
        { v.sent with
          ctu := c, txa := { exchange := .idle, train := train, gap := gap, item := none }
          state := .online, pendingAnnounce := false, leaveMark := false }
  | announceEndsLeft (p : StationId) {c : Ctu} (train : Nat) (gap : Bool)
      (htransmit : v.rif.transmit = some (.announce p)) (hwins : Wins v.ctu c) :
      Step v
        { v.sent.unseen with
          ctu := c, txa := { exchange := .idle, train := train, gap := gap, item := none } }
  | leaveEnds (p : StationId) {c : Ctu} (htransmit : v.rif.transmit = some (.leave p))
      (hwins : Wins v.ctu c) :
      Step v { v.sent with ctu := c, txa := Txa.clear, state := .offline, pendingLeave := false }
  | replyEnds (f : Frame) {w : LineView} (htransmit : v.rif.transmit = some f) (hkind : f.kind = .reply)
      (hsettles : Settles v.sent w) : Step v w
  | brokenEnds (k : FrameKind) {c : Ctu} (hbroken : v.rif.broken = some (.own k))
      (htransmit : v.rif.transmit = none) (hwins : Wins v.ctu c) : Step v { v.free with ctu := c }
  | brokenCut (k : FrameKind) (hbroken : v.rif.broken = some (.own k)) (htransmit : v.rif.transmit = none) :
      Step v { v with rif := { v.rif with broken := none }, ctu := { v.ctu with kind := .ordered } }
  | replyCut (f : Frame) {w : LineView} (htransmit : v.rif.transmit = some f) (hkind : f.kind = .reply)
      (hsettles : Settles
        { v with rif := { v.rif with transmit := none }, ctu := { v.ctu with kind := .ordered } } w) :
      Step v w
  | cut (f : Frame) {w : LineView} (htransmit : v.rif.transmit = some f) (hkind : f.kind ≠ .reply)
      (hsettles : Settles
        { v with
          rif := { v.rif with transmit := none }, ctu := { v.ctu with kind := .ordered }
          txa := Txa.clear } w) : Step v w
  | announceCut (f : Frame) {w : LineView} (htransmit : v.rif.transmit = some f) (hkind : f.kind ≠ .reply)
      (hmark : v.leaveMark = true)
      (hsettles : Settles
        { v.unseen with
          rif := { v.rif with transmit := none }, ctu := { v.ctu with kind := .ordered }
          txa := Txa.clear } w) : Step v w
  | header (verdict fill : Bool) (hreception : v.rif.reception = some { headerSeen := false }) :
      Step v
        { v with
          rif := { v.rif with reception := some { headerSeen := true } }
          verdict := v.verdict || verdict, fill := v.fill || fill }
  | brokenHeader (verdict : Bool) (hbroken : v.rif.broken = some (.reception false)) :
      Step v { v with rif := { v.rif with broken := none }, verdict := v.verdict || verdict }

/-- Everything that a step can do to the line. -/
inductive Moves (v : LineView) : LineView → Prop
  | step {w : LineView} (hstep : Step v w) : Moves v w
  | reset (active : Bool) (sid : StationId) : Moves v (cleared active sid)

end LineView

/-! ### Operations that leave the line alone -/

section Quiet

variable (s : State)

@[simp] theorem State.greetOwed_lineView (p : StationId) (why : Reason) (notice : Bool) :
    (s.greetOwed p why notice).lineView = s.lineView := by simp [State.lineView]

@[simp] theorem State.hear_lineView (p : StationId) : (s.hear p).lineView = s.lineView := by
  simp [State.lineView]

@[simp] theorem State.hearSource_lineView (src : Byte) : (s.hearSource src).lineView = s.lineView := by
  simp [State.lineView]

@[simp] theorem State.announced_lineView (p : StationId) : (s.announced p).lineView = s.lineView := by
  simp [State.lineView]

@[simp] theorem State.peerLeft_lineView (p : StationId) : (s.peerLeft p).lineView = s.lineView := by
  simp [State.lineView]

@[simp] theorem State.applyOutcome_lineView (item : Item) (r : Option ReplyStatus) :
    (s.applyOutcome item r).lineView = s.lineView := by simp [State.lineView]

@[simp] theorem State.answerGreet_lineView (p : StationId) (sess grant : Byte) :
    (s.answerGreet p sess grant).lineView = s.lineView := by simp [State.lineView]

@[simp] theorem State.drive_lineView (w : Word) : (s.drive w).lineView = s.lineView := rfl

@[simp] theorem State.commandResult_lineView (r : CommandResult) :
    (s.commandResult r).lineView = s.lineView := rfl

@[simp] theorem State.completeWhere_lineView (cause : SendEntry → Option (Status × Nat)) :
    (s.completeWhere cause).lineView = s.lineView := by simp [State.lineView]

@[simp] theorem State.entryRetry_lineView (h : Handle) (counted : Bool) :
    (s.entryRetry h counted).lineView = s.lineView := rfl

@[simp] theorem State.handReply_lineView (p : StationId) (status : ReplyStatus) :
    (s.handReply p status).lineView =
      { s.lineView with rif := { s.rif with replyDue := some { peer := p, status := status } } } := rfl

@[simp] theorem State.elapse_lineView (n : Nat) : (s.elapse n).lineView = s.lineView.elapse n := rfl

@[simp] theorem State.elapseTo_lineView (n : Nat) :
    (s.elapseTo n).lineView = s.lineView.elapse (n - s.rif.idleCount) := rfl

@[simp] theorem State.lineFree_lineView : s.lineFree.lineView = s.lineView.free := rfl

@[simp] theorem State.transmit_lineView (f : Frame) :
    (s.transmit f).lineView = s.lineView.transmit f := rfl

/-- No fill is left after an abort (R13). -/
theorem State.abortFill_fill : s.abortFill.rxu.fill = none := by
  cases hfill : s.rxu.fill with
  | none => rw [State.abortFill_none hfill, hfill]
  | some f => rw [State.abortFill_some hfill]; rfl

@[simp] theorem State.dropVerdict_lineView :
    s.dropVerdict.lineView = { s.lineView with verdict := false, fill := false } := by
  have hfill : s.dropVerdict.rxu.fill = none := s.abortFill_fill
  simp [State.lineView, hfill]

end Quiet

end Sys2Proof.Machine
end

