-- ==== Sys2Proof/Proofs/LineMoves.lean ====
section
/-! PROOF. Every command and every step changes the line in one of the ways of LineView.Step. -/

namespace Sys2Proof.Machine

open LineView

/-! ### Leaving, exchanges and trains -/

theorem State.enterLeaving_lineView (s : State) :
    s.enterLeaving.lineView =
      { s.lineView with state := .leaving, leaveMark := false, pendingLeave := true } := by
  simp [State.lineView]

theorem State.settleLeave_settles (s : State) : Settles s.lineView s.settleLeave.lineView := by
  unfold State.settleLeave
  split
  · rename_i hwaits
    obtain ⟨hstate, -, hsettled⟩ := hwaits
    obtain ⟨-, hreception, hreply, htransmit⟩ := s.settled_iff.1 hsettled
    rw [State.enterLeaving_lineView]
    exact Settles.leaves hstate hreception hreply htransmit
  · exact Settles.waits

theorem State.decideTrain_lineView (s : State) (answered : Bool) : ∃ train gap,
    (s.decideTrain answered).lineView =
      { s.lineView with txa := { exchange := .idle, train := train, gap := gap, item := none } } := by
  unfold State.decideTrain
  split
  · exact ⟨s.txa.train, true, rfl⟩
  · exact ⟨0, false, rfl⟩

theorem State.finishExchange_finishes (s : State) (r : Option ReplyStatus) :
    Finishes s.lineView (s.finishExchange r).lineView := by
  unfold State.finishExchange
  cases hitem : s.txa.item with
  | none => exact Finishes.nothing hitem
  | some item =>
    dsimp only
    have hidle : ({ s.applyOutcome item r with
        txa := { (s.applyOutcome item r).txa with exchange := .idle, item := none } } : State).lineView
          = { s.lineView with txa := { s.txa with exchange := .idle, item := none } } := by
      simp [State.lineView]
    obtain ⟨train, gap, htrain⟩ := State.decideTrain_lineView
      ({ s.applyOutcome item r with
        txa := { (s.applyOutcome item r).txa with exchange := .idle, item := none } } :
          State).settleLeave (answers item r)
    rw [htrain]
    exact Finishes.ends train gap (hidle ▸ State.settleLeave_settles _)

theorem State.endAwait_ends (s : State) (r : Option ReplyStatus) :
    EndsAwait s.lineView (s.endAwait r).lineView := by
  unfold State.endAwait
  split
  · exact EndsAwait.awaited ‹_› (s.finishExchange_finishes r)
  · exact EndsAwait.other ‹_› s.settleLeave_settles

/-! ### Frames that start -/

/-- The work chosen fits the station state (R131, R134). -/
theorem State.choose_state {s : State} {w : Work} (hw : s.choose = some w) :
    (w = .announce → s.stc.state = .announcing) ∧ (w = .leave → s.stc.state = .leaving) ∧
      (w ≠ .announce → w ≠ .leave → s.stc.state = .online) := by
  unfold State.choose at hw
  split at hw
  case h_1 hstate =>
    split at hw
    · cases hw
      exact ⟨fun _ => hstate, nofun, fun h => absurd rfl h⟩
    · cases hw
  case h_2 hstate =>
    split at hw
    · cases hw
      exact ⟨nofun, fun _ => hstate, fun _ h => absurd rfl h⟩
    · cases hw
  case h_3 hstate =>
    split at hw
    · cases hw
    · split at hw <;> cases hw <;> simp [hstate]
  all_goals cases hw

/-- What the start of chosen work does to the line (R107, R114, R132). -/
theorem State.startWork_lineView (s : State) (w : Work) (train : Nat) : ∃ f item,
    (s.startWork w train).lineView =
        { s.lineView.transmit f with
          txa := { exchange := .transmitting, train := train, gap := false, item := some item } } ∧
      f.kind ≠ .reply ∧ (f.kind = .announce → w = .announce) ∧ (f.kind = .leave → w = .leave) ∧
      (f.kind ≠ .announce → w ≠ .announce) ∧ (f.kind ≠ .leave → w ≠ .leave) := by
  rw [State.startWork_starts]
  cases w with
  | announce => exact ⟨.announce s.stc.sid, _, rfl, by simp [Frame.kind]⟩
  | leave => exact ⟨.leave s.stc.sid, _, rfl, by simp [Frame.kind]⟩
  | greet p => exact ⟨.greet s.stc.sid p _ _, _, rfl, by simp [Frame.kind]⟩
  | credit p => exact ⟨.credit s.stc.sid p _, _, rfl, by simp [Frame.kind]⟩
  | message e => exact ⟨.message s.stc.sid e.dest _ _ _ _, _, rfl, by simp [Frame.kind]⟩

/-- Chosen work starts on an IDLE line, whatever the counts of the line stood at. -/
theorem State.startWork_moves {v : LineView} {t : State} {w : Work} (train : Nat)
    (hline : v.rif.line = .idle) (hstate : t.stc.state = v.state) (hw : t.choose = some w)
    (hview : ∀ f, t.lineView.transmit f = { v.transmit f with txa := t.txa }) :
    Step v (t.startWork w train).lineView := by
  obtain ⟨f, item, hstart, hkind, hannounce, hleave, hnoAnnounce, hnoLeave⟩ :=
    t.startWork_lineView w train
  obtain ⟨hisAnnounce, hisLeave, hother⟩ := State.choose_state hw
  rw [hstart, hview]
  exact Step.starts f item train hline hkind (fun h => hstate ▸ hisAnnounce (hannounce h))
    (fun h => hstate ▸ hisLeave (hleave h))
    (fun h k => hstate ▸ hother (hnoAnnounce h) (hnoLeave k))

/-! ### Events of the line -/

section Rail

variable (s : State)

theorem State.senseBusy_moves : Step s.lineView s.senseBusy.lineView := by
  unfold State.senseBusy
  split
  · rename_i hline
    have hbusy := Step.busy (v := s.lineView) hline
    dsimp only
    split
    · rename_i hgap
      rw [if_pos (by exact hgap)] at hbusy
      exact hbusy
    · rename_i hgap
      rw [if_neg (by exact hgap)] at hbusy
      exact hbusy
  · exact Step.same

theorem State.senseIdle_moves : Step s.lineView s.senseIdle.lineView := by
  unfold State.senseIdle
  split
  · rename_i hrail
    obtain ⟨hline, hreception, htransmit⟩ := hrail
    exact Step.idle hline hreception htransmit
  · exact Step.same

theorem State.settleGap_moves : Step s.lineView s.settleGap.lineView := by
  unfold State.settleGap
  split
  · rename_i hrail
    exact Step.window _ _ hrail.1
  · exact Step.same

theorem State.windowTurn_moves : Step s.lineView s.windowTurn.lineView := by
  unfold State.windowTurn
  split
  · exact Step.same
  · split
    · exact Step.window _ _ ‹_›
    · exact Step.same

theorem State.slotBegins_moves : Step s.lineView s.slotBegins.lineView := by
  unfold State.slotBegins
  split
  · rename_i k c _ _
    split
    · rename_i hline
      dsimp only
      split
      · exact State.startWork_moves 1 hline rfl ‹_› fun _ => rfl
      · exact Step.noSlot (Config.slotBits * k - c) hline
    · exact Step.slotPassed
  · exact Step.same

theorem State.gapEnds_moves : Step s.lineView s.gapEnds.lineView := by
  unfold State.gapEnds
  split
  · rename_i hgap
    split
    · rename_i hline
      dsimp only
      split
      · exact State.startWork_moves _ hline rfl ‹_› fun _ => rfl
      · exact Step.gapOver (Config.trainGapEnd - s.rif.idleCount) hline hgap
    · exact Step.gapPassed hgap
  · exact Step.same

theorem State.startReply_lineView (d : ReplyDue) : ∃ status,
    (s.startReply d).lineView = s.lineView.transmit (.reply s.stc.sid d.peer status) := by
  unfold State.startReply
  split
  · exact ⟨_, by rw [State.transmit_lineView, State.answerGreet_lineView]⟩
  all_goals exact ⟨_, rfl⟩

theorem State.replyMoment_moves : Step s.lineView s.replyMoment.lineView := by
  unfold State.replyMoment
  split
  · exact Step.same
  · rename_i d hdue
    split
    · rename_i hline
      obtain ⟨status, hview⟩ := s.startReply_lineView d
      rw [hview]
      refine Step.replies _ _ _ hline ?_
      show s.rif.replyDue ≠ none
      rw [hdue]
      exact Option.some_ne_none d
    · exact Step.same

theorem State.replyTimeout_moves : Step s.lineView s.replyTimeout.lineView := by
  unfold State.replyTimeout
  split
  · rename_i hrail
    exact Step.timeout (Config.replyTimeout - s.rif.idleCount) hrail.2 hrail.1
      (State.finishExchange_finishes (s.elapseTo Config.replyTimeout) none)
  · exact Step.same

theorem State.listenTimeout_moves : Step s.lineView s.listenTimeout.lineView := by
  unfold State.listenTimeout
  split
  · rename_i hrail
    unfold State.endListening
    split
    · exact Step.listened (Config.listenTimeout - s.rif.idleCount) hrail.1 ‹_›
    · exact Step.elapse (Config.listenTimeout - s.rif.idleCount) hrail.1
  · exact Step.same

/-! ### The station's own frames -/

theorem State.takeWinner_wins (src : Byte) : Wins s.ctu (s.takeWinner src).ctu := by
  unfold State.takeWinner
  split
  · exact Wins.winner _
  · exact Wins.keeps

theorem State.takeWinner_lineView (src : Byte) :
    (s.takeWinner src).lineView = { s.lineView with ctu := (s.takeWinner src).ctu } := by
  simp [State.lineView]

theorem State.ownEnd_lineView : s.ownEnd.lineView = { s.lineView.sent with ctu := s.ownEnd.ctu } := by
  unfold State.ownEnd
  rw [State.takeWinner_lineView]
  rfl

theorem State.ownEnd_wins : Wins s.ctu s.ownEnd.ctu :=
  State.takeWinner_wins s.lineFree.stopSending s.stc.sid.byte

theorem State.collideBroken_moves (htransmit : s.rif.transmit = none) :
    Step s.lineView s.collideBroken.lineView := by
  unfold State.collideBroken
  split
  · exact Step.brokenCut _ ‹_› htransmit
  · exact Step.same
  · exact Step.same

theorem State.endBroken_moves (kinds : List FrameKind) (htransmit : s.rif.transmit = none) :
    Step s.lineView (s.endBroken kinds).lineView := by
  unfold State.endBroken
  split
  · rename_i k hbroken
    split
    · split
      · exact Step.brokenEnds k hbroken htransmit Wins.keeps
      · rw [State.takeWinner_lineView, State.lineFree_lineView]
        exact Step.brokenEnds k hbroken htransmit (State.takeWinner_wins s.lineFree _)
    · exact Step.same
  · exact Step.same
  · exact Step.same

/-- What the cut of an exchange's frame does beside its item (R74, R85, R147). -/
theorem State.cutExchange_lineView :
    s.cutExchange.lineView = { s.lineView with txa := Txa.clear } ∨
      s.stc.leaveMark = true ∧ s.cutExchange.lineView = { s.lineView.unseen with txa := Txa.clear } := by
  unfold State.cutExchange
  dsimp only
  split
  · split
    · exact .inl (by rw [State.completeWhere_lineView]; rfl)
    · exact .inl rfl
  · split
    · exact .inr ⟨‹_›, rfl⟩
    · exact .inl rfl
  all_goals exact .inl rfl

theorem State.collide_moves : Step s.lineView s.collide.lineView := by
  unfold State.collide
  split
  · exact s.collideBroken_moves ‹_›
  · rename_i f htransmit
    dsimp only
    split
    · exact Step.replyCut f htransmit ‹_› s.stopSending.takeOrdered.settleLeave_settles
    · rename_i hkind
      have hsettles := s.stopSending.takeOrdered.cutExchange.settleLeave_settles
      rcases s.stopSending.takeOrdered.cutExchange_lineView with hview | ⟨hmark, hview⟩
      · rw [hview] at hsettles
        exact Step.cut f htransmit hkind hsettles
      · rw [hview] at hsettles
        exact Step.announceCut f htransmit hkind hmark hsettles

theorem State.awaitReply_moves (f : Frame) (htransmit : s.rif.transmit = some f)
    (hkind : f.kind ≠ .reply) (hannounce : f.kind ≠ .announce) (hleave : f.kind ≠ .leave) :
    Step s.lineView s.awaitReply.lineView := by
  have hview : s.awaitReply.lineView =
      { s.lineView.sent with ctu := s.ownEnd.ctu, txa := { s.txa with exchange := .awaitReply } } := by
    have := s.ownEnd_lineView
    simp [State.awaitReply, State.lineView, LineView.sent, State.ownEnd, State.stopSending] at this ⊢
  rw [hview]
  exact Step.frameEnds f htransmit hkind hannounce hleave s.ownEnd_wins

theorem State.frameEnds_moves : Step s.lineView s.frameEnds.lineView := by
  unfold State.frameEnds
  split
  case h_1 htransmit => exact s.awaitReply_moves _ htransmit nofun nofun nofun
  case h_2 htransmit => exact s.awaitReply_moves _ htransmit nofun nofun nofun
  case h_3 htransmit => exact s.awaitReply_moves _ htransmit nofun nofun nofun
  case h_7 htransmit => exact s.endBroken_moves _ htransmit
  all_goals exact Step.same

theorem State.announceEnds_moves : Step s.lineView s.announceEnds.lineView := by
  unfold State.announceEnds
  split
  case h_1 p htransmit =>
    dsimp only
    split
    · obtain ⟨train, gap, hview⟩ := State.decideTrain_lineView
        ({ s.ownEnd with
          stc := { s.ownEnd.stc with state := .offline, leaveMark := false, pendingAnnounce := false } } :
            State) true
      rw [hview]
      have hstep := Step.announceEndsLeft (v := s.lineView) p train gap htransmit s.ownEnd_wins
      have hown := s.ownEnd_lineView
      simp only [State.lineView, LineView.sent, LineView.unseen, LineView.mk.injEq] at hown hstep ⊢
      simp only [hown]
      exact hstep
    · obtain ⟨train, gap, hview⟩ := State.decideTrain_lineView
        ({ s.ownEnd with
          stc := { s.ownEnd.stc with state := .online, pendingAnnounce := false, latch := true } } :
            State) true
      rw [hview]
      have hstep := Step.announceEnds (v := s.lineView) p train gap htransmit s.ownEnd_wins
      have hown := s.ownEnd_lineView
      simp only [State.lineView, LineView.sent, LineView.mk.injEq] at hown hstep ⊢
      simp_all
  case h_7 htransmit => exact s.endBroken_moves _ htransmit
  all_goals exact Step.same

theorem State.leaveEnds_moves : Step s.lineView s.leaveEnds.lineView := by
  unfold State.leaveEnds
  split
  case h_1 p htransmit =>
    dsimp only
    have hstep := Step.leaveEnds (v := s.lineView) p htransmit s.ownEnd_wins
    have hown := s.ownEnd_lineView
    simp only [State.lineView, LineView.sent, LineView.mk.injEq] at hown hstep ⊢
    simp_all
  case h_7 htransmit => exact s.endBroken_moves _ htransmit
  all_goals exact Step.same

theorem State.replyEnds_moves : Step s.lineView s.replyEnds.lineView := by
  unfold State.replyEnds
  split
  case h_1 htransmit => exact Step.replyEnds _ htransmit rfl s.lineFree.stopSending.settleLeave_settles
  case h_7 htransmit => exact s.endBroken_moves _ htransmit
  all_goals exact Step.same

end Rail

end Sys2Proof.Machine
end

