-- ==== Sys2Proof/Proofs/LineExec.lean ====
section
/-! PROOF. Receptions, the host's commands and resets as changes of the line; then every command and every step. -/

namespace Sys2Proof.Machine

open LineView

/-! ### What a good frame does in ONLINE -/

/-- A GREETED reply that becomes due answers another station (R31, R153). -/
def State.AnswersOthers (s : State) (due : Option ReplyDue) : Prop :=
  ∀ p sess grant, due = some { peer := p, status := .greeted sess grant } →
    due = s.rif.replyDue ∨ p ≠ s.stc.sid

/-- Of the Rail Interface nothing changes but the reply that is due. -/
def State.SetsReply (s t : State) : Prop :=
  ∃ due, s.AnswersOthers due ∧ t.rif = { s.rif with replyDue := due }

theorem State.SetsReply.of_eq {s t : State} (h : t.rif = s.rif) : s.SetsReply t :=
  ⟨s.rif.replyDue, fun _ _ _ _ => .inl rfl, h⟩

theorem State.handReply_setsReply {s t : State} (h : t.rif = s.rif) {p : StationId}
    {status : ReplyStatus} (hstatus : ∀ sess grant, status = .greeted sess grant → p ≠ s.stc.sid) :
    s.SetsReply (t.handReply p status) := by
  refine ⟨some { peer := p, status := status }, fun k sess grant hdue => ?_, ?_⟩
  · cases hdue
    exact .inr (hstatus sess grant rfl)
  · rw [State.handReply_rif, h]

theorem State.evaluateTotal_setsReply {s t : State} (h : t.rif = s.rif) (p : StationId)
    (frame : FrameKind) (total : Byte) : s.SetsReply (t.evaluateTotal p frame total) := by
  unfold State.evaluateTotal
  split
  · exact State.handReply_setsReply (by simpa using h) nofun
  · exact State.handReply_setsReply (by simpa using h) nofun

theorem State.actOnVerdict_setsReply (s : State) : s.SetsReply s.actOnVerdict := by
  unfold State.actOnVerdict
  split
  · exact .of_eq rfl
  · dsimp only
    split
    · exact .of_eq rfl
    · split
      · exact .of_eq rfl
      · exact State.handReply_setsReply rfl nofun
      · exact State.handReply_setsReply (by simp) nofun
      · exact State.handReply_setsReply (by simp) nofun
      · exact State.evaluateTotal_setsReply (t := s.forgetVerdict) rfl _ _ _
      · exact State.evaluateTotal_setsReply (t := s.forgetVerdict.postFill _ _) (by simp) _ _ _

/-- At a good frame a reply may become due, and no verdict and no fill is left (R87, R116). -/
def State.Answered (s t : State) : Prop :=
  ∃ due, s.AnswersOthers due ∧ t.lineView =
    { s.lineView with rif := { s.rif with replyDue := due }, verdict := false, fill := false }

theorem State.Answered.of_eq {s t u : State} (h : s.Answered t) (hview : u.lineView = t.lineView) :
    s.Answered u := by
  obtain ⟨due, hothers, hdue⟩ := h
  exact ⟨due, hothers, hview.trans hdue⟩

theorem State.Answered.setsReply {s t u : State} (h : s.Answered t) (hreply : t.SetsReply u)
    (hctu : u.ctu = t.ctu) (htxa : u.txa = t.txa) (hstc : u.stc = t.stc) (hrxu : u.rxu = t.rxu) :
    s.Answered u := by
  obtain ⟨due, hothers, hdue⟩ := h
  obtain ⟨due', hothers', hdue'⟩ := hreply
  have hsid : t.stc.sid = s.stc.sid := congrArg LineView.sid hdue
  have hrif : t.rif = { s.rif with replyDue := due } := congrArg LineView.rif hdue
  have hview : u.lineView = { t.lineView with rif := { t.rif with replyDue := due' } } := by
    simp only [State.lineView, hctu, htxa, hstc, hrxu, hdue']
  refine ⟨due', fun p sess grant hgreeted => ?_, by rw [hview, hdue, hrif]⟩
  rcases hothers' p sess grant hgreeted with hsame | hother
  · have hprior : due' = due := hsame.trans (congrArg Rif.replyDue hrif)
    exact hprior ▸ hothers p sess grant (hprior ▸ hgreeted)
  · exact .inr (hsid ▸ hother)

theorem State.dropVerdict_answered (s : State) : s.Answered s.dropVerdict :=
  ⟨s.rif.replyDue, fun _ _ _ _ => .inl rfl, s.dropVerdict_lineView⟩

theorem State.actOnVerdict_answered (s : State) : s.Answered s.actOnVerdict.dropVerdict := by
  obtain ⟨due, hothers, hdue⟩ := s.actOnVerdict_setsReply
  refine ⟨due, hothers, ?_⟩
  rw [State.dropVerdict_lineView]
  simp [State.lineView, hdue]

theorem State.messageEffect_answered (src : Byte) (s : State) : s.Answered (s.messageEffect src) :=
  s.actOnVerdict_answered.of_eq (State.hearSource_lineView _ src)

theorem State.creditEffect_answered (src : Byte) (dst : StationId) (srcSess dstSess total : Byte)
    (s : State) : s.Answered (s.creditEffect src dst srcSess dstSess total) := by
  unfold State.creditEffect
  have hdrop := s.dropVerdict_answered
  dsimp only
  split
  · exact hdrop
  · split
    · split
      · exact hdrop.setsReply (State.evaluateTotal_setsReply rfl _ _ _) (by simp) (by simp) (by simp)
          (by simp)
      · exact (hdrop.setsReply (State.handReply_setsReply (p := _) (status := .stale) rfl nofun) rfl rfl rfl
          rfl).of_eq
          (State.hear_lineView _ _)
    · exact hdrop.of_eq (State.hear_lineView _ _)

theorem State.greetEffect_answered (src : Byte) (dst : StationId) (sess grant : Byte) {s : State}
    (hother : stationOf src ≠ some s.stc.sid) : s.Answered (s.greetEffect src dst sess grant) := by
  unfold State.greetEffect
  have hdrop := s.dropVerdict_answered
  dsimp only
  split
  · exact hdrop
  · rename_i p hsrc
    have hp : p ≠ s.dropVerdict.stc.sid := by
      rw [hsrc] at hother
      simpa using hother
    split
    · exact hdrop.setsReply (State.handReply_setsReply rfl fun _ _ _ => hp) rfl rfl rfl rfl
    · exact hdrop.of_eq (State.hear_lineView _ _)

theorem State.announceEffect_answered (src : Byte) (s : State) : s.Answered (s.announceEffect src) := by
  unfold State.announceEffect
  split
  · exact s.dropVerdict_answered
  · exact s.dropVerdict_answered.of_eq (State.announced_lineView _ _)

theorem State.leaveEffect_answered (src : Byte) (s : State) : s.Answered (s.leaveEffect src) := by
  unfold State.leaveEffect
  split
  · exact s.dropVerdict_answered
  · exact s.dropVerdict_answered.of_eq (State.peerLeft_lineView _ _)

theorem State.replyEffect_answered (src : Byte) (s : State) : s.Answered (s.replyEffect src) :=
  s.dropVerdict_answered.of_eq (State.hearSource_lineView _ src)

/-! ### Receptions -/

/-- A good frame on the line that has turned IDLE, with the winner taken unless it is a REPLY (R127). -/
def State.wonLine (s : State) (src : Byte) (kind : FrameKind) : State :=
  if kind = .reply then s.lineFree else s.lineFree.takeWinner src

theorem State.wonLine_wins (s : State) (src : Byte) (kind : FrameKind) :
    Wins s.ctu (s.wonLine src kind).ctu := by
  unfold State.wonLine
  split
  · exact Wins.keeps
  · exact State.takeWinner_wins s.lineFree src

theorem State.wonLine_lineView (s : State) (src : Byte) (kind : FrameKind) :
    (s.wonLine src kind).lineView = { s.lineView.free with ctu := (s.wonLine src kind).ctu } := by
  unfold State.wonLine
  split
  · rfl
  · exact State.takeWinner_lineView s.lineFree src

theorem State.enterHalted_lineView (s : State) :
    s.enterHalted.lineView =
      { s.lineView with
        rif := { s.rif with transmit := none, replyDue := none }
        txa := Txa.clear, state := .halted, leaveMark := false, pendingAnnounce := false
        pendingLeave := false, verdict := false, fill := false } := by
  have hdrop := (s.arbiterIdle.completeWhere haltedCause).dropVerdict_lineView
  rw [State.completeWhere_lineView] at hdrop
  simp only [State.lineView, LineView.mk.injEq] at hdrop ⊢
  obtain ⟨hrif, hctu, htxa, -, -, -, -, hverdict, hfill⟩ := hdrop
  refine ⟨?_, hctu, htxa, rfl, rfl, rfl, rfl, hverdict, hfill⟩
  exact congrArg (fun r : Rif => { r with transmit := none, replyDue := none }) hrif

theorem State.endListening_listening {s : State} (h : s.stc.state = .listening) :
    s.endListening.lineView = { s.lineView with state := .announcing, pendingAnnounce := true } := by
  unfold State.endListening
  rw [if_pos h]
  rfl

theorem State.endListening_other {s : State} (h : s.stc.state ≠ .listening) : s.endListening = s := by
  unfold State.endListening
  rw [if_neg h]

/-- The rest of a good frame's end, once the line is IDLE and the winner taken. -/
def State.frameTaken (s : State) (src : Byte) (kind : FrameKind) (effect : State → State)
    (r : Option ReplyStatus) : State :=
  if s.isDuplicate src then (s.handFault .duplicateId s.stc.sid kind 0).enterHalted
  else
    let t := if kind ≠ .reply ∧ (stationOf src).isSome = true then s.endListening else s
    (if t.stc.state = .online then effect t else t.dropVerdict).endAwait r

theorem State.goodFrame_eq (s : State) (src : Byte) (kind : FrameKind) (effect : State → State)
    (r : Option ReplyStatus) :
    s.goodFrame src kind effect r = (s.wonLine src kind).frameTaken src kind effect r := rfl

/-- A duplicate identity halts the station (R153). -/
theorem State.frameTaken_duplicate {s : State} {src : Byte} (h : s.isDuplicate src = true)
    (kind : FrameKind) (effect : State → State) (r : Option ReplyStatus) :
    s.frameTaken src kind effect r = (s.handFault .duplicateId s.stc.sid kind 0).enterHalted :=
  if_pos h

/-- A good frame that ends the listening (R145). -/
theorem State.frameTaken_listening {s : State} {src : Byte} {kind : FrameKind}
    (h : s.isDuplicate src = false) (hends : kind ≠ .reply ∧ (stationOf src).isSome = true)
    (hstate : s.stc.state = .listening) (effect : State → State) (r : Option ReplyStatus) :
    s.frameTaken src kind effect r = s.endListening.dropVerdict.endAwait r := by
  have hannouncing : s.endListening.stc.state ≠ .online := by
    rw [State.endListening_stc, if_pos hstate]
    nofun
  unfold State.frameTaken
  rw [h, if_pos hends]
  simp only [Bool.false_eq_true, if_false, if_neg hannouncing]

/-- Every other good frame has its effect in ONLINE, and drops the verdict elsewhere (R95, R100). -/
theorem State.frameTaken_heard {s : State} {src : Byte} {kind : FrameKind}
    (h : s.isDuplicate src = false)
    (hlistens : ¬ ((kind ≠ .reply ∧ (stationOf src).isSome = true) ∧ s.stc.state = .listening))
    (effect : State → State) (r : Option ReplyStatus) :
    s.frameTaken src kind effect r =
      (if s.stc.state = .online then effect s else s.dropVerdict).endAwait r := by
  have hstays : (if kind ≠ .reply ∧ (stationOf src).isSome = true then s.endListening else s) = s := by
    split
    · exact State.endListening_other fun hstate => hlistens ⟨‹_›, hstate⟩
    · rfl
  unfold State.frameTaken
  rw [h, hstays]
  simp only [Bool.false_eq_true, if_false]

/-- In ONLINE a good frame that is no duplicate comes from another station (R153). -/
theorem State.source_ne_sid {s : State} {src : Byte} (hdup : s.isDuplicate src = false)
    (honline : s.stc.state = .online) : stationOf src ≠ some s.stc.sid := by
  intro hsrc
  simp [State.isDuplicate, hsrc, honline] at hdup

theorem State.goodFrame_moves (s : State) (src : Byte) (kind : FrameKind) {effect : State → State}
    (r : Option ReplyStatus) (hends : s.rif.endsReception = true)
    (heffect : ∀ t : State, stationOf src ≠ some t.stc.sid → t.Answered (effect t)) :
    Step s.lineView (s.goodFrame src kind effect r).lineView := by
  have hwins := s.wonLine_wins src kind
  have hview := s.wonLine_lineView src kind
  have hstate : (s.wonLine src kind).stc.state = s.stc.state := congrArg LineView.state hview
  have hrif : (s.wonLine src kind).rif = s.lineView.free.rif := congrArg LineView.rif hview
  have hsid : (s.wonLine src kind).stc.sid = s.stc.sid := congrArg LineView.sid hview
  rw [State.goodFrame_eq]
  cases hdup : (s.wonLine src kind).isDuplicate src with
  | true =>
    have hfault : ((s.wonLine src kind).handFault .duplicateId (s.wonLine src kind).stc.sid kind 0).lineView
        = (s.wonLine src kind).lineView := rfl
    rw [State.frameTaken_duplicate hdup, State.enterHalted_lineView, hfault, hview]
    exact hrif ▸ Step.duplicate hends hwins
  | false =>
    by_cases hlistens : (kind ≠ .reply ∧ (stationOf src).isSome = true) ∧
        (s.wonLine src kind).stc.state = .listening
    · rw [State.frameTaken_listening hdup hlistens.1 hlistens.2]
      have hawait := (s.wonLine src kind).endListening.dropVerdict.endAwait_ends r
      rw [State.dropVerdict_lineView, State.endListening_listening hlistens.2, hview] at hawait
      exact Step.listenedFrame hends hwins (hstate.symm.trans hlistens.2) hawait
    · rw [State.frameTaken_heard hdup hlistens]
      split
      · rename_i honline
        obtain ⟨due, hothers, hview'⟩ :=
          heffect (s.wonLine src kind) (State.source_ne_sid hdup honline)
        have hdue : ∀ p sess grant, due = some { peer := p, status := .greeted sess grant } →
            due = s.rif.replyDue ∨ p ≠ s.stc.sid := by
          rw [State.AnswersOthers, hrif, hsid] at hothers
          exact hothers
        have hawait := (effect (s.wonLine src kind)).endAwait_ends r
        rw [hview', hview, hrif] at hawait
        exact Step.receivedOnline due hends hdue hwins (hstate.symm.trans honline) hawait
      · have hawait := (s.wonLine src kind).dropVerdict.endAwait_ends r
        rw [State.dropVerdict_lineView, hview] at hawait
        exact Step.received hends hwins hawait

/-- A bad frame, and one of no known kind (R94, R111, R112, R127). -/
theorem State.unknownFrame_moves (s : State) (hends : s.rif.endsReception = true) :
    Step s.lineView (s.lineFree.dropVerdict.endAwait none).lineView := by
  have hawait := s.lineFree.dropVerdict.endAwait_ends none
  rw [State.dropVerdict_lineView] at hawait
  exact Step.received hends Wins.keeps hawait

theorem State.badFrame_moves (s : State) (hends : s.rif.endsReception = true) :
    Step s.lineView (s.lineFree.takeOrdered.dropVerdict.endAwait none).lineView := by
  have hawait := s.lineFree.takeOrdered.dropVerdict.endAwait_ends none
  rw [State.dropVerdict_lineView] at hawait
  exact Step.received hends Wins.ordered hawait

theorem State.takeHeader_moves (s : State) (h : MessageHeader) (payload : List Byte)
    (hreception : s.rif.reception = some { headerSeen := false }) :
    Step s.lineView (s.takeHeader h payload).lineView := by
  have hstep (verdict fill : Bool) := Step.header (v := s.lineView) verdict fill hreception
  unfold State.takeHeader
  dsimp only
  split
  · have hverdict := hstep true
    rw [show (s.lineView.verdict || true) = true from Bool.or_true _] at hverdict
    split
    · simpa [State.lineView, State.startFill] using hverdict true
    · simpa [State.lineView] using hverdict false
  · simpa [State.lineView] using hstep false false

theorem State.takeBrokenHeader_moves (s : State) (h : MessageHeader)
    (hbroken : s.rif.broken = some (.reception false)) :
    Step s.lineView (s.takeBrokenHeader h).lineView := by
  have hstep (verdict : Bool) := Step.brokenHeader (v := s.lineView) verdict hbroken
  unfold State.takeBrokenHeader
  dsimp only
  split
  · simpa [State.lineView] using hstep true
  · simpa [State.lineView] using hstep false

theorem State.headerArrives_moves (s : State) (h : MessageHeader) (payload : List Byte) :
    Step s.lineView (s.headerArrives h payload).lineView := by
  unfold State.headerArrives
  split
  · exact s.takeHeader_moves h payload ‹_›
  · split
    · exact s.takeBrokenHeader_moves h ‹_›
    · exact Step.same

end Sys2Proof.Machine
end

