-- ==== Sys2Proof/Proofs/LineCommands.lean ====
section
/-! PROOF. The host's commands and the resets as changes of the line; then every command and every step. -/

namespace Sys2Proof.Machine

open LineView

/-! ### Commands that leave the line alone -/

section Quiet

variable (s : State)

theorem State.takeTx_lineView : s.takeTx.lineView = s.lineView := by
  unfold State.takeTx
  split <;> rfl

theorem State.releaseHeld_lineView (h : Handle) (p : StationId) :
    (s.releaseHeld h p).lineView = s.lineView := by
  unfold State.releaseHeld
  dsimp only
  split <;> simp [State.lineView]

theorem State.release_lineView (w : Word) : (s.release w).lineView = s.lineView := by
  unfold State.release
  split
  · rfl
  · split
    · exact s.releaseHeld_lineView _ _
    all_goals rfl

theorem State.readWindow_lineView (k : BitVec 7) : (s.readWindow k).lineView = s.lineView := by
  unfold State.readWindow
  split <;> rfl

theorem State.writeWindow_lineView (k : BitVec 7) (w : Word) :
    (s.writeWindow k w).lineView = s.lineView := by
  unfold State.writeWindow
  split <;> rfl

theorem State.sendClaim_lineView (d : StationId) : (s.sendClaim d).lineView = s.lineView := by
  unfold State.sendClaim
  split
  · rfl
  · split
    · rfl
    · split <;> rfl

theorem State.sendGo_lineView : s.sendGo.lineView = s.lineView := by
  unfold State.sendGo
  split
  · rfl
  · split
    · rfl
    · split
      · rfl
      · split
        · rfl
        · split
          · rfl
          · rfl
          all_goals exact s.sendClaim_lineView _

theorem State.inboundPop_lineView : s.inboundPop.lineView = s.lineView := by
  unfold State.inboundPop
  split <;> rfl

theorem State.completionPop_lineView : s.completionPop.lineView = s.lineView := by
  unfold State.completionPop
  split <;> rfl

theorem State.peerEventPop_lineView : s.peerEventPop.lineView = s.lineView := by
  unfold State.peerEventPop
  split <;> rfl

theorem State.takeSource_lineView : s.takeSource.lineView = s.lineView := by
  unfold State.takeSource
  split <;> rfl

theorem State.finishSource_lineView : s.finishSource.lineView = s.lineView := by
  unfold State.finishSource
  split <;> rfl

theorem State.writeProfile_lineView (reg : ProfileReg) (w : Word) :
    (s.writeProfile reg w).lineView = s.lineView := by
  unfold State.writeProfile
  split
  · cases reg <;> rfl
  · rfl

theorem State.writeRegister_lineView (addr : BitVec 9) (w : Word) :
    (s.writeRegister addr w).lineView = s.lineView := by
  unfold State.writeRegister
  repeat' split
  all_goals rfl

theorem State.regreet_lineView (peer : BitVec 6) : (s.regreet peer).lineView = s.lineView := by
  unfold State.regreet
  split
  · rfl
  · split
    · rfl
    · split
      · exact State.greetOwed_lineView s _ .hostRegreet false
      · rfl

end Quiet

/-! ### JOIN, LEAVE and the resets -/

theorem State.joined_lineView (s : State) :
    s.joined.lineView =
      { s.lineView with
        rif := { s.rif with broken := none }
        ctu := { s.ctu with lw := 0, lwKnown := false, kind := .ordered, slot := none }
        state := .listening, verdict := false, fill := false } := by
  simp [State.lineView, State.joined, Rxu.clear]

theorem State.join_moves (s : State) : Step s.lineView s.join.lineView := by
  unfold State.join
  split
  · exact Step.same
  · rename_i hstate
    have hjoin (silent : Bool) := Step.join (v := s.lineView) silent (not_not.1 hstate)
    split
    · exact Step.same
    · split
      · rw [State.endListening_listening (by simp only [State.joined]), State.joined_lineView]
        exact hjoin true
      · rw [State.joined_lineView]
        exact hjoin false

theorem State.leave_moves (s : State) : Step s.lineView s.leave.lineView := by
  unfold State.leave
  split
  · exact Step.same
  · split
    · exact Step.leaveUnseen (.inl ‹_›)
    · rename_i hstate
      rw [State.commandResult_lineView]
      split
      · exact Step.leaveMarked (.inl hstate) Settles.waits
      · rename_i hannounce
        refine Step.leaveUnseen (.inr ⟨hstate, fun p htransmit => hannounce ?_⟩)
        simp only [State.announceOnLine, show s.rif.transmit = some (.announce p) from htransmit]
    · rename_i hstate
      rw [State.commandResult_lineView]
      have hsettles := (s.completeWhere leaveCause).markLeave.settleLeave_settles
      have hmarked : (s.completeWhere leaveCause).markLeave.lineView =
          { s.lineView with leaveMark := true } :=
        congrArg (fun v : LineView => { v with leaveMark := true }) (s.completeWhere_lineView leaveCause)
      rw [hmarked] at hsettles
      exact Step.leaveMarked (.inr hstate) hsettles
    all_goals exact Step.same

theorem State.afterRestart_moves (s : State) : Step s.lineView s.afterRestart.lineView :=
  Step.restart

theorem State.heldInReset_moves (s : State) : Moves s.lineView s.heldInReset.lineView :=
  Moves.reset _ s.stc.sid

theorem State.afterPinReset_moves (s : State) (sid : StationId) (rate : BitVec 2) (lineActive : Bool) :
    Moves s.lineView (s.afterPinReset sid rate lineActive).lineView := Moves.reset lineActive sid

/-! ### Every command and every step -/

theorem State.onWrite_moves (s : State) {f : State → State}
    (h : Step s.lineView (f s).lineView) : Step s.lineView (s.onWrite f).lineView := by
  unfold State.onWrite
  split
  · exact Step.same
  · exact h

theorem State.onRail_moves (s : State) {f : State → State}
    (h : Step s.lineView (f s).lineView) : Step s.lineView (s.onRail f).lineView :=
  s.onWrite_moves h

theorem State.onReception_moves (s : State) {f : State → State}
    (h : s.rif.endsReception = true → Step s.lineView (f s).lineView) :
    Step s.lineView (s.onReception f).lineView := by
  refine s.onRail_moves ?_
  split
  · exact h ‹_›
  · exact Step.same

theorem State.onWrite_quiet (s : State) {f : State → State} (h : (f s).lineView = s.lineView) :
    Step s.lineView (s.onWrite f).lineView :=
  s.onWrite_moves (h ▸ Step.same)

theorem State.onRead_quiet (s : State) {f : State → State} (h : (f s).lineView = s.lineView) :
    Step s.lineView (s.onRead f).lineView := by
  unfold State.onRead
  split
  · exact Step.same
  · exact h ▸ Step.same

/-- Every command but the two of RESET#. -/
theorem exec_stepsLine (c : Instr) (s t : State) (hassert : c ≠ .pinResetAssert)
    (hrelease : ∀ sid rate active, c ≠ .pinResetRelease sid rate active) (e : exec c s = .next t) :
    Step s.lineView t.lineView := by
  cases c <;> cases e
  case pinResetAssert => exact absurd rfl hassert
  case pinResetRelease sid rate active => exact absurd rfl (hrelease sid rate active)
  case txtakeRead => exact s.onRead_quiet s.takeTx_lineView
  case releaseWrite w => exact s.onWrite_quiet (s.release_lineView w)
  case windowRead k => exact s.onRead_quiet (s.readWindow_lineView k)
  case windowWrite k w => exact s.onWrite_quiet (s.writeWindow_lineView k w)
  case sendGoWrite w => exact s.onWrite_quiet s.sendGo_lineView
  case inboundPopRead => exact s.onRead_quiet s.inboundPop_lineView
  case completionPopRead => exact s.onRead_quiet s.completionPop_lineView
  case peerEventPopRead => exact s.onRead_quiet s.peerEventPop_lineView
  case attentionRead => exact s.onRead_quiet s.takeSource_lineView
  case finishWrite w => exact s.onWrite_quiet s.finishSource_lineView
  case stateChangeRead => exact s.onRead_quiet rfl
  case attnEnableWrite w => exact s.onWrite_quiet rfl
  case profileWrite reg w => exact s.onWrite_quiet (s.writeProfile_lineView reg w)
  case registerWrite addr w => exact s.onWrite_quiet (s.writeRegister_lineView addr w)
  case join => exact s.onWrite_moves s.join_moves
  case leave => exact s.onWrite_moves s.leave_moves
  case restart => exact s.onWrite_moves s.afterRestart_moves
  case regreet p => exact s.onWrite_quiet (s.regreet_lineView p)
  case clearFault => exact s.onWrite_quiet rfl
  case clearFlags => exact s.onWrite_quiet rfl
  case unusedCommandCode code => exact s.onWrite_quiet rfl
  case lineBusy => exact s.onRail_moves s.senseBusy_moves
  case settleGap => exact s.onRail_moves s.settleGap_moves
  case windowLastSlotEnd => exact s.onRail_moves s.windowTurn_moves
  case slotStart => exact s.onRail_moves s.slotBegins_moves
  case trainGapEnd => exact s.onRail_moves s.gapEnds_moves
  case collision => exact s.onRail_moves s.collide_moves
  case ownFrameEnd => exact s.onRail_moves s.frameEnds_moves
  case ownAnnounceEnd => exact s.onRail_moves s.announceEnds_moves
  case ownLeaveEnd => exact s.onRail_moves s.leaveEnds_moves
  case ownReplyEnd => exact s.onRail_moves s.replyEnds_moves
  case replyMoment => exact s.onRail_moves s.replyMoment_moves
  case replyTimeout => exact s.onRail_moves s.replyTimeout_moves
  case listenTimeout => exact s.onRail_moves s.listenTimeout_moves
  case messageHeader h payload => exact s.onRail_moves (s.headerArrives_moves h payload)
  case messageFrameEnd src dst =>
    exact s.onReception_moves fun h => s.goodFrame_moves src _ _ h fun t _ => t.messageEffect_answered src
  case creditFrameEnd src dst a b c =>
    exact s.onReception_moves fun h => s.goodFrame_moves src _ _ h fun t _ => t.creditEffect_answered src dst a b c
  case greetFrameEnd src dst a b =>
    exact s.onReception_moves fun h => s.goodFrame_moves src _ _ h fun _ ho => State.greetEffect_answered src dst a b ho
  case announceFrameEnd src =>
    exact s.onReception_moves fun h => s.goodFrame_moves src _ _ h fun t _ => t.announceEffect_answered src
  case leaveFrameEnd src =>
    exact s.onReception_moves fun h => s.goodFrame_moves src _ _ h fun t _ => t.leaveEffect_answered src
  case replyFrameEnd src dst a b c =>
    exact s.onReception_moves fun h => s.goodFrame_moves src _ _ h fun t _ => t.replyEffect_answered src
  case unknownKindFrameEnd => exact s.onReception_moves s.unknownFrame_moves
  case badFrameEnd => exact s.onReception_moves s.badFrame_moves
  case lineIdle => exact s.onRail_moves s.senseIdle_moves

/-- Every command. -/
theorem exec_moves (c : Instr) (s t : State) (e : exec c s = .next t) :
    Moves s.lineView t.lineView := by
  by_cases hassert : c = .pinResetAssert
  · subst hassert
    cases e
    exact s.heldInReset_moves
  · by_cases hrelease : ∃ sid rate active, c = .pinResetRelease sid rate active
    · obtain ⟨sid, rate, active, rfl⟩ := hrelease
      cases e
      exact s.afterPinReset_moves sid rate active
    · exact .step (exec_stepsLine c s t hassert (fun sid rate active hc => hrelease ⟨sid, rate, active, hc⟩) e)

/-- Every step: a command, or one bit time. -/
theorem step_moves {s t : State} (e : step s = .next t) : Moves s.lineView t.lineView := by
  unfold step at e
  split at e
  · rename_i c rest _
    exact exec_moves c (s.withPending rest) t e
  · unfold State.bitTime at e
    split at e
    · rename_i htime
      split at e
      · exact exec_moves _ _ _ e
      · cases e
        have hline : s.rif.line = .idle := by
          simpa using (Bool.and_eq_true_iff.1 htime).2
        exact .step (Step.elapse 1 hline)
    · cases e
      exact .step Step.same

end Sys2Proof.Machine
end

