-- ==== Sys2Proof/Proofs/LineKept.lean ====
section
/-! PROOF. Every step keeps the laws of the line, of pending work and of the arbiter (R87, R105 to R107, R122,
R130, R133, R139). -/

namespace Sys2Proof.Machine

namespace LineView

/-! ### The laws, as laws of the view -/

/-- LineConsistent. -/
def Consistent (v : LineView) : Prop :=
  (v.rif.line = .busy →
      v.rif.idleCount = 0 ∧ v.ctu.slotClock = none ∧ v.ctu.slot = none ∧ v.rif.replyDue = none) ∧
    (v.rif.line = .idle →
      1 ≤ v.rif.idleCount ∧ v.rif.idleCount ≤ 1024 ∧ v.rif.reception = none ∧ v.rif.transmit = none) ∧
    (v.rif.reception ≠ none → v.rif.transmit = none) ∧
    (v.rif.broken ≠ none →
      v.rif.line = .busy ∧ v.rif.reception = none ∧ v.rif.transmit = none) ∧
    ∀ c, v.ctu.slotClock = some c → c < 256

/-- FillInReception. -/
def FillsInFrame (v : LineView) : Prop :=
  v.fill = true → v.rif.reception = some { headerSeen := true }

/-- OrderedUntilKnown. -/
def Ordered (v : LineView) : Prop := v.ctu.lwKnown = false → v.ctu.kind = .ordered

/-- PendingMatchesState. -/
def PendingMatches (v : LineView) : Prop :=
  (v.leaveMark = true → v.state = .online ∨ v.state = .announcing) ∧
    (v.pendingAnnounce = true ↔ v.state = .announcing) ∧
    (v.pendingLeave = true ↔ v.state = .leaving) ∧
    (∀ p, v.rif.transmit = some (.announce p) → v.state = .announcing) ∧
    (∀ p, v.rif.transmit = some (.leave p) → v.state = .leaving) ∧
    (∀ f, v.rif.transmit = some f → f.kind ≠ .announce → f.kind ≠ .leave → v.state = .online) ∧
    (v.rif.replyDue ≠ none → v.state = .online) ∧
    (v.rif.broken ≠ none → v.state = .offline)

/-- VerdictInFrame. -/
def VerdictFits (v : LineView) : Prop :=
  v.verdict = true →
    v.rif.line = .busy ∧ v.rif.transmit = none ∧ v.rif.broken = none ∧
      (v.rif.reception = some { headerSeen := true } ∨ (v.rif.reception = none ∧ v.state = .offline))

/-- ArbiterConsistent. -/
def Arbitrates (v : LineView) : Prop :=
  (v.txa.exchange = .idle ↔ v.txa.item = none) ∧
    (v.txa.gap = true → v.txa.exchange = .idle) ∧
    (v.rif.replyDue ≠ none → v.txa.exchange = .idle) ∧
    (v.txa.exchange = .transmitting ↔ ∃ f, v.rif.transmit = some f ∧ f.kind ≠ .reply)

theorem Wins.slots {c d : Ctu} (h : Wins c d) : d.slotClock = c.slotClock ∧ d.slot = c.slot := by
  cases h <;> exact ⟨rfl, rfl⟩

theorem Settles.rail {v w : LineView} (h : Settles v w) :
    w.rif = v.rif ∧ w.ctu = v.ctu ∧ w.txa = v.txa ∧ w.verdict = v.verdict ∧ w.fill = v.fill := by
  cases h <;> exact ⟨rfl, rfl, rfl, rfl, rfl⟩

theorem Finishes.rail {v w : LineView} (h : Finishes v w) :
    w.rif = v.rif ∧ w.ctu = v.ctu ∧ w.verdict = v.verdict ∧ w.fill = v.fill := by
  cases h with
  | nothing => exact ⟨rfl, rfl, rfl, rfl⟩
  | ends train gap hsettles =>
    obtain ⟨hrif, hctu, -, hverdict, hfill⟩ := hsettles.rail
    exact ⟨hrif, hctu, hverdict, hfill⟩

theorem EndsAwait.rail {v w : LineView} (h : EndsAwait v w) :
    w.rif = v.rif ∧ w.ctu = v.ctu ∧ w.verdict = v.verdict ∧ w.fill = v.fill := by
  cases h with
  | awaited hexchange hfinishes => exact hfinishes.rail
  | other hexchange hsettles =>
    obtain ⟨hrif, hctu, -, hverdict, hfill⟩ := hsettles.rail
    exact ⟨hrif, hctu, hverdict, hfill⟩

theorem Consistent.of_eq {v w : LineView} (h : v.Consistent) (hrif : w.rif = v.rif)
    (hclock : w.ctu.slotClock = v.ctu.slotClock) (hslot : w.ctu.slot = v.ctu.slot) : w.Consistent := by
  unfold Consistent
  rwa [hrif, hclock, hslot]

/-! ### The rail in the states of the line -/

theorem Consistent.of_idle {w : LineView} (hline : w.rif.line = .idle) (hone : 1 ≤ w.rif.idleCount)
    (hmax : w.rif.idleCount ≤ 1024) (hreception : w.rif.reception = none)
    (htransmit : w.rif.transmit = none) (hbroken : w.rif.broken = none)
    (hclock : ∀ c, w.ctu.slotClock = some c → c < 256) : w.Consistent := by
  refine ⟨fun hbusy => ?_, fun _ => ⟨hone, hmax, hreception, htransmit⟩, fun _ => htransmit,
    fun h => absurd hbroken h, hclock⟩
  rw [hline] at hbusy
  cases hbusy

theorem Consistent.of_busy {w : LineView} (hline : w.rif.line = .busy) (hcount : w.rif.idleCount = 0)
    (hclock : w.ctu.slotClock = none) (hslot : w.ctu.slot = none) (hreply : w.rif.replyDue = none)
    (hreception : w.rif.reception ≠ none → w.rif.transmit = none)
    (hbroken : w.rif.broken ≠ none → w.rif.reception = none ∧ w.rif.transmit = none) :
    w.Consistent := by
  refine ⟨fun _ => ⟨hcount, hclock, hslot, hreply⟩, fun hidle => ?_, hreception,
    fun h => ⟨hline, hbroken h⟩, fun c hc => ?_⟩
  · rw [hline] at hidle
    cases hidle
  · rw [hclock] at hc
    cases hc

/-- An IDLE line carries nothing (R107). -/
theorem Consistent.idle {v : LineView} (h : v.Consistent) (hline : v.rif.line = .idle) :
    v.rif.reception = none ∧ v.rif.transmit = none ∧ v.rif.broken = none := by
  obtain ⟨-, hidle, -, hbroken, -⟩ := h
  obtain ⟨-, -, hreception, htransmit⟩ := hidle hline
  refine ⟨hreception, htransmit, of_not_not fun hsome => ?_⟩
  rw [hline] at hbroken
  cases (hbroken hsome).1

/-- A frame of the station's own has the line to itself (R107, R114). -/
theorem Consistent.transmitting {v : LineView} {f : Frame} (h : v.Consistent)
    (htransmit : v.rif.transmit = some f) :
    v.rif.line = .busy ∧ v.rif.reception = none ∧ v.rif.broken = none ∧ v.rif.replyDue = none := by
  obtain ⟨hbusy, hidle, hreception, hbroken, -⟩ := h
  cases hline : v.rif.line <;> grind

/-- Where a frame end can be handed, nothing of the station's own is on the line (R113). -/
theorem Consistent.ends {v : LineView} (h : v.Consistent) (hends : v.rif.endsReception = true) :
    v.rif.line = .busy ∧ v.rif.transmit = none ∧ v.rif.replyDue = none := by
  obtain ⟨hbusy, hidle, hreception, hbroken, -⟩ := h
  rw [Rif.endsReception_iff] at hends
  cases hline : v.rif.line <;> grind

/-- A frame that a RESTART broke off is alone on a BUSY line (R151). -/
theorem Consistent.broken {v : LineView} {b : Broken} (h : v.Consistent)
    (hbroken : v.rif.broken = some b) :
    v.rif.line = .busy ∧ v.rif.reception = none ∧ v.rif.transmit = none ∧ v.rif.replyDue = none := by
  obtain ⟨hbusy, -, -, hb, -⟩ := h
  obtain ⟨hline, hreception, htransmit⟩ := hb (by rw [hbroken]; exact Option.some_ne_none b)
  exact ⟨hline, hreception, htransmit, (hbusy hline).2.2.2⟩

theorem Consistent.clock {v : LineView} (h : v.Consistent) : ∀ c, v.ctu.slotClock = some c → c < 256 :=
  h.2.2.2.2

/-! ### The line and the fill -/

/-- After a frame end the line is IDLE, whatever the frame made of the contention and of a reply due. -/
theorem Consistent.of_free {v w : LineView} {c : Ctu} {due : Option ReplyDue} (h : v.Consistent)
    (hwins : Wins v.ctu c) (htransmit : v.rif.transmit = none)
    (hrif : w.rif = { v.free.rif with replyDue := due }) (hctu : w.ctu = c) : w.Consistent := by
  refine .of_idle ?_ ?_ ?_ ?_ ?_ ?_ (fun k hk => h.clock k ?_)
  · rw [hrif]; rfl
  · rw [hrif]; exact le_refl 1
  · rw [hrif]; exact Nat.le_of_ble_eq_true rfl
  · rw [hrif]; rfl
  · rw [hrif]; exact htransmit
  · rw [hrif]; rfl
  · rw [← hwins.slots.1, ← hctu, hk]

theorem Consistent.of_sent {v w : LineView} {c : Ctu} (h : v.Consistent) (hwins : Wins v.ctu c)
    (hrif : w.rif = v.sent.rif) (hctu : w.ctu = c) : w.Consistent := by
  refine .of_idle ?_ ?_ ?_ ?_ ?_ ?_ (fun k hk => h.clock k ?_)
  · rw [hrif]; rfl
  · rw [hrif]; exact le_refl 1
  · rw [hrif]; exact Nat.le_of_ble_eq_true rfl
  · rw [hrif]; rfl
  · rw [hrif]; rfl
  · rw [hrif]; rfl
  · rw [← hwins.slots.1, ← hctu, hk]

theorem Consistent.elapse {v : LineView} (h : v.Consistent) (n : Nat) (hline : v.rif.line = .idle) :
    (v.elapse n).Consistent := by
  obtain ⟨hreception, htransmit, hbroken⟩ := h.idle hline
  obtain ⟨hone, hmax, -, -⟩ := h.2.1 hline
  refine .of_idle hline ?_ (Nat.min_le_left _ _) hreception htransmit hbroken (fun c hc => ?_)
  · exact Nat.le_min.2 ⟨by decide, Nat.le_add_right_of_le hone⟩
  · obtain ⟨c', -, rfl⟩ := Option.map_eq_some_iff.1 hc
    exact Nat.mod_lt _ (by decide)

theorem Consistent.transmit (v : LineView) (f : Frame) : (v.transmit f).Consistent :=
  .of_busy rfl rfl rfl rfl rfl (fun h => absurd rfl h) (fun h => absurd rfl h)

theorem Consistent.clear (active : Bool) {w : LineView} (hrif : w.rif = Rif.clear active)
    (hctu : w.ctu = Ctu.clear) : w.Consistent := by
  unfold Consistent
  rw [hrif, hctu]
  cases active <;> simp [Rif.clear, Ctu.clear]

/-- Nothing more is driven once a frame of the station's own is cut (R115). -/
theorem Consistent.of_cut {v w : LineView} (h : v.Consistent) {f : Frame}
    (htransmit : v.rif.transmit = some f) (hrif : w.rif = { v.rif with transmit := none })
    (hctu : w.ctu = { v.ctu with kind := .ordered }) : w.Consistent := by
  obtain ⟨hline, hreception, hbroken, hreply⟩ := h.transmitting htransmit
  obtain ⟨hcount, hclock, hslot, -⟩ := h.1 hline
  refine .of_busy ?_ ?_ ?_ ?_ ?_ ?_ ?_
  all_goals simp [hrif, hctu, hline, hcount, hclock, hslot, hreply, hbroken]

/-- What RESTART breaks off was on a BUSY line (R151). -/
theorem Consistent.brokenOff_none {v : LineView} (h : v.Consistent) (hline : v.rif.line = .idle) :
    v.rif.brokenOff = none := by
  obtain ⟨hreception, htransmit, -⟩ := h.idle hline
  simp [Rif.brokenOff, hreception, htransmit]

theorem Consistent.restart {v w : LineView} (h : v.Consistent)
    (hrif : w.rif = { Rif.clear (v.rif.line == .busy) with broken := v.rif.brokenOff })
    (hctu : w.ctu = Ctu.clear) : w.Consistent := by
  cases hline : v.rif.line with
  | idle =>
    refine .clear false ?_ hctu
    rw [hrif, h.brokenOff_none hline, hline]
    rfl
  | busy =>
    refine .of_busy ?_ ?_ ?_ ?_ ?_ ?_ ?_
    all_goals simp [hrif, hctu, hline, Rif.clear, Ctu.clear]

/-- The station gives up its slot (R126). -/
theorem Consistent.slotless {v w : LineView} (h : v.Consistent) (hrif : w.rif = v.rif)
    (hclock : w.ctu.slotClock = v.ctu.slotClock) (hslot : w.ctu.slot = none) : w.Consistent := by
  obtain ⟨hbusy, hidle, hreception, hbroken, hlimit⟩ := h
  unfold Consistent
  rw [hrif, hclock, hslot]
  refine ⟨fun hline => ?_, hidle, hreception, hbroken, hlimit⟩
  obtain ⟨hcount, hnone, -, hreply⟩ := hbusy hline
  exact ⟨hcount, hnone, rfl, hreply⟩

/-- Nothing more is told of a frame broken off. -/
theorem Consistent.forgets {v w : LineView} (h : v.Consistent)
    (hrif : w.rif = { v.rif with broken := none }) (hclock : w.ctu.slotClock = v.ctu.slotClock)
    (hslot : w.ctu.slot = v.ctu.slot) : w.Consistent := by
  obtain ⟨hbusy, hidle, hreception, -, hlimit⟩ := h
  unfold Consistent
  rw [hrif, hclock, hslot]
  exact ⟨hbusy, hidle, hreception, fun hb => absurd rfl hb, hlimit⟩

/-- The line stays consistent (R107, R123, R151). -/
theorem Step.consistent {v w : LineView} (hstep : Step v w) (h : v.Consistent) : w.Consistent := by
  cases hstep with
  | same => exact h
  | restart => exact h.restart rfl rfl
  | join silent hstate =>
    have hslotless : LineView.Consistent { v with ctu := { v.ctu with slot := none } } :=
      h.slotless rfl rfl rfl
    exact hslotless.forgets rfl rfl rfl
  | leaveUnseen hstate => exact h.of_eq rfl rfl rfl
  | leaveMarked hstate hsettles =>
    obtain ⟨hrif, hctu, -⟩ := hsettles.rail
    exact h.of_eq hrif (by rw [hctu]) (by rw [hctu])
  | busy hline =>
    obtain ⟨-, htransmit, hbroken⟩ := h.idle hline
    exact .of_busy rfl rfl rfl rfl rfl (fun _ => htransmit) (fun hb => absurd hbroken hb)
  | idle hline hreception htransmit => exact h.of_free Wins.keeps htransmit rfl rfl
  | elapse n hline => exact h.elapse n hline
  | window n slot hline =>
    obtain ⟨-, helapsed, -⟩ := h.elapse n hline
    obtain ⟨hone, hmax, hreception, htransmit⟩ := helapsed hline
    refine .of_idle hline hone hmax hreception htransmit (h.idle hline).2.2 (fun c hc => ?_)
    cases hc
    decide
  | noSlot n hline => exact (h.elapse n hline).slotless rfl rfl rfl
  | slotPassed => exact h.slotless rfl rfl rfl
  | gapOver n hline hgap => exact (h.elapse n hline).of_eq rfl rfl rfl
  | gapPassed hgap => exact h.of_eq rfl rfl rfl
  | starts f item train hline => exact (Consistent.transmit v f).of_eq rfl rfl rfl
  | replies me p status hline => exact Consistent.transmit v _
  | timeout n hline hexchange hfinishes =>
    obtain ⟨hrif, hctu, -⟩ := hfinishes.rail
    exact (h.elapse n hline).of_eq hrif (by rw [hctu]) (by rw [hctu])
  | listened n hline => exact (h.elapse n hline).of_eq rfl rfl rfl
  | duplicate hends hwins =>
    refine Consistent.of_free (due := none) h hwins (h.ends hends).2.1 ?_ rfl
    simp only [LineView.free, (h.ends hends).2.1]
  | listenedFrame hends hwins hstate hawait =>
    obtain ⟨hrif, hctu, -⟩ := hawait.rail
    exact h.of_free hwins (h.ends hends).2.1 hrif hctu
  | received hends hwins hawait =>
    obtain ⟨hrif, hctu, -⟩ := hawait.rail
    exact h.of_free hwins (h.ends hends).2.1 hrif hctu
  | receivedOnline due hends hdue hwins hstate hawait =>
    obtain ⟨hrif, hctu, -⟩ := hawait.rail
    exact h.of_free hwins (h.ends hends).2.1 hrif hctu
  | frameEnds f htransmit hkind hannounce hleave hwins => exact h.of_sent hwins rfl rfl
  | announceEnds p train gap htransmit hwins => exact h.of_sent hwins rfl rfl
  | announceEndsLeft p train gap htransmit hwins => exact h.of_sent hwins rfl rfl
  | leaveEnds p htransmit hwins => exact h.of_sent hwins rfl rfl
  | replyEnds f htransmit hkind hsettles =>
    obtain ⟨hrif, hctu, -⟩ := hsettles.rail
    exact h.of_sent Wins.keeps hrif hctu
  | brokenEnds k hbroken htransmit hwins => exact h.of_free hwins htransmit rfl rfl
  | brokenCut k hbroken htransmit =>
    exact h.forgets rfl rfl rfl
  | replyCut f htransmit hkind hsettles =>
    obtain ⟨hrif, hctu, -⟩ := hsettles.rail
    exact h.of_cut htransmit hrif hctu
  | cut f htransmit hkind hsettles =>
    obtain ⟨hrif, hctu, -⟩ := hsettles.rail
    exact h.of_cut htransmit hrif hctu
  | announceCut f htransmit hkind hmark hsettles =>
    obtain ⟨hrif, hctu, -⟩ := hsettles.rail
    exact h.of_cut htransmit hrif hctu
  | header verdict fill hreception =>
    obtain ⟨hbusy, hidle, hfree, hbroken, hlimit⟩ := h
    have hsome : v.rif.reception ≠ none := by simp [hreception]
    exact ⟨hbusy, fun hline => absurd (hidle hline).2.2.1 hsome, fun _ => hfree hsome,
      fun hb => absurd (hbroken hb).2.1 hsome, hlimit⟩
  | brokenHeader verdict hbroken => exact h.forgets rfl rfl rfl

theorem Moves.consistent {v w : LineView} (hmoves : Moves v w) (h : v.Consistent) : w.Consistent := by
  cases hmoves with
  | step hstep => exact hstep.consistent h
  | reset active => exact .clear active rfl rfl

/-! ### The fill -/

theorem FillsInFrame.of_eq {v w : LineView} (h : v.FillsInFrame) (hfill : w.fill = v.fill)
    (hreception : w.rif.reception = v.rif.reception) : w.FillsInFrame := by
  unfold FillsInFrame
  rwa [hfill, hreception]

theorem FillsInFrame.of_none {w : LineView} (hfill : w.fill = false) : w.FillsInFrame := fun h => by
  rw [hfill] at h
  cases h

theorem FillsInFrame.none {v : LineView} (h : v.FillsInFrame) (hreception : v.rif.reception = none) :
    v.fill = false := by
  cases hfill : v.fill with
  | false => rfl
  | true =>
    rw [h hfill] at hreception
    cases hreception

/-- Where nothing is assembled there is no fill, so none outlives its reception (R87). -/
theorem Step.fillsInFrame {v w : LineView} (hstep : Step v w) (h : v.Consistent)
    (hf : v.FillsInFrame) : w.FillsInFrame := by
  cases hstep with
  | same => exact hf
  | restart | join | duplicate => exact .of_none rfl
  | leaveUnseen | elapse | window | noSlot | slotPassed | gapOver | gapPassed | listened | brokenCut
  | brokenHeader => exact hf.of_eq rfl rfl
  | idle hline hreception => exact hf.of_eq rfl hreception.symm
  | leaveMarked hstate hsettles =>
    obtain ⟨hrif, -, -, -, hfill⟩ := hsettles.rail
    exact hf.of_eq hfill (by rw [hrif])
  | busy hline => exact .of_none (hf.none (h.idle hline).1)
  | starts f item train hline => exact .of_none (hf.none (h.idle hline).1)
  | replies me p status hline => exact .of_none (hf.none (h.idle hline).1)
  | timeout n hline hexchange hfinishes =>
    obtain ⟨hrif, -, -, hfill⟩ := hfinishes.rail
    exact hf.of_eq hfill (by rw [hrif]; rfl)
  | listenedFrame hends hwins hstate hawait =>
    obtain ⟨-, -, -, hfill⟩ := hawait.rail
    exact .of_none hfill
  | received hends hwins hawait =>
    obtain ⟨-, -, -, hfill⟩ := hawait.rail
    exact .of_none hfill
  | receivedOnline due hends hdue hwins hstate hawait =>
    obtain ⟨-, -, -, hfill⟩ := hawait.rail
    exact .of_none hfill
  | frameEnds f htransmit => exact .of_none (hf.none (h.transmitting htransmit).2.1)
  | announceEnds p train gap htransmit => exact .of_none (hf.none (h.transmitting htransmit).2.1)
  | announceEndsLeft p train gap htransmit => exact .of_none (hf.none (h.transmitting htransmit).2.1)
  | leaveEnds p htransmit => exact .of_none (hf.none (h.transmitting htransmit).2.1)
  | replyEnds f htransmit hkind hsettles =>
    obtain ⟨-, -, -, -, hfill⟩ := hsettles.rail
    exact .of_none (hfill.trans (hf.none (h.transmitting htransmit).2.1))
  | brokenEnds k hbroken => exact .of_none (hf.none (h.broken hbroken).2.1)
  | replyCut f htransmit hkind hsettles =>
    obtain ⟨hrif, -, -, -, hfill⟩ := hsettles.rail
    exact hf.of_eq hfill (by rw [hrif])
  | cut f htransmit hkind hsettles =>
    obtain ⟨hrif, -, -, -, hfill⟩ := hsettles.rail
    exact hf.of_eq hfill (by rw [hrif])
  | announceCut f htransmit hkind hmark hsettles =>
    obtain ⟨hrif, -, -, -, hfill⟩ := hsettles.rail
    exact hf.of_eq hfill (by rw [hrif])
  | header verdict fill hreception => exact fun _ => rfl

theorem Moves.fillsInFrame {v w : LineView} (hmoves : Moves v w) (h : v.Consistent)
    (hf : v.FillsInFrame) : w.FillsInFrame := by
  cases hmoves with
  | step hstep => exact hstep.fillsInFrame h hf
  | reset => exact .of_none rfl

/-! ### The window kind -/

theorem Wins.ordered_kept {c d : Ctu} (hwins : Wins c d) (h : c.lwKnown = false → c.kind = .ordered) :
    d.lwKnown = false → d.kind = .ordered := by
  cases hwins with
  | keeps => exact h
  | ordered => exact fun _ => rfl
  | winner p => exact nofun

theorem Ordered.of_eq {v w : LineView} (h : v.Ordered) (hknown : w.ctu.lwKnown = v.ctu.lwKnown)
    (hkind : w.ctu.kind = v.ctu.kind) : w.Ordered := by
  unfold Ordered
  rwa [hknown, hkind]

theorem Ordered.of_kind {w : LineView} (h : w.ctu.kind = .ordered) : w.Ordered := fun _ => h

theorem Ordered.of_wins {v w : LineView} {c : Ctu} (h : v.Ordered) (hwins : Wins v.ctu c)
    (hctu : w.ctu = c) : w.Ordered := by
  unfold Ordered
  rw [hctu]
  exact hwins.ordered_kept h

/-- LW unknown stays with ORDERED (R122, R127). -/
theorem Step.ordered {v w : LineView} (hstep : Step v w) (h : v.Ordered) : w.Ordered := by
  cases hstep with
  | same => exact h
  | restart | join | brokenCut => exact .of_kind rfl
  | leaveUnseen | busy | idle | elapse | window | noSlot | slotPassed | gapOver | gapPassed | starts
  | replies | listened | header | brokenHeader => exact h.of_eq rfl rfl
  | leaveMarked hstate hsettles =>
    obtain ⟨-, hctu, -⟩ := hsettles.rail
    exact h.of_eq (by rw [hctu]) (by rw [hctu])
  | timeout n hline hexchange hfinishes =>
    obtain ⟨-, hctu, -⟩ := hfinishes.rail
    exact h.of_eq (by rw [hctu]; rfl) (by rw [hctu]; rfl)
  | duplicate hends hwins => exact h.of_wins hwins rfl
  | listenedFrame hends hwins hstate hawait =>
    obtain ⟨-, hctu, -⟩ := hawait.rail
    exact h.of_wins hwins hctu
  | received hends hwins hawait =>
    obtain ⟨-, hctu, -⟩ := hawait.rail
    exact h.of_wins hwins hctu
  | receivedOnline due hends hdue hwins hstate hawait =>
    obtain ⟨-, hctu, -⟩ := hawait.rail
    exact h.of_wins hwins hctu
  | frameEnds f htransmit hkind hannounce hleave hwins => exact h.of_wins hwins rfl
  | announceEnds p train gap htransmit hwins => exact h.of_wins hwins rfl
  | announceEndsLeft p train gap htransmit hwins => exact h.of_wins hwins rfl
  | leaveEnds p htransmit hwins => exact h.of_wins hwins rfl
  | brokenEnds k hbroken htransmit hwins => exact h.of_wins hwins rfl
  | replyEnds f htransmit hkind hsettles =>
    obtain ⟨-, hctu, -⟩ := hsettles.rail
    exact h.of_wins Wins.keeps hctu
  | replyCut f htransmit hkind hsettles =>
    obtain ⟨-, hctu, -⟩ := hsettles.rail
    exact .of_kind (by rw [hctu])
  | cut f htransmit hkind hsettles =>
    obtain ⟨-, hctu, -⟩ := hsettles.rail
    exact .of_kind (by rw [hctu])
  | announceCut f htransmit hkind hmark hsettles =>
    obtain ⟨-, hctu, -⟩ := hsettles.rail
    exact .of_kind (by rw [hctu])

theorem Moves.ordered {v w : LineView} (hmoves : Moves v w) (h : v.Ordered) : w.Ordered := by
  cases hmoves with
  | step hstep => exact hstep.ordered h
  | reset => exact .of_kind rfl

end LineView

end Sys2Proof.Machine
end

