-- ==== Sys2Proof/Proofs/LineLaws.lean ====
section
/-! PROOF. Every step keeps pending work with the station state, verdicts inside their frame, and the arbiter in step
with the line; settles O13 and O16. -/

namespace Sys2Proof.Machine

namespace LineView

/-! ### Pending work -/

theorem PendingMatches.of_eq {v w : LineView} (h : v.PendingMatches) (hstate : w.state = v.state)
    (hmark : w.leaveMark = v.leaveMark) (hannounce : w.pendingAnnounce = v.pendingAnnounce)
    (hleave : w.pendingLeave = v.pendingLeave) (htransmit : w.rif.transmit = v.rif.transmit)
    (hreply : w.rif.replyDue = v.rif.replyDue) (hbroken : w.rif.broken = v.rif.broken) :
    w.PendingMatches := by
  unfold PendingMatches
  rwa [hstate, hmark, hannounce, hleave, htransmit, hreply, hbroken]

/-- With nothing of the station's own on the line, no reply due and nothing broken off, only the pending work has
to fit. -/
theorem PendingMatches.of_quiet {w : LineView}
    (hmark : w.leaveMark = true → w.state = .online ∨ w.state = .announcing)
    (hannounce : w.pendingAnnounce = true ↔ w.state = .announcing)
    (hleave : w.pendingLeave = true ↔ w.state = .leaving) (htransmit : w.rif.transmit = none)
    (hreply : w.rif.replyDue = none) (hbroken : w.rif.broken = none) : w.PendingMatches := by
  unfold PendingMatches
  rw [htransmit, hreply, hbroken]
  exact ⟨hmark, hannounce, hleave, nofun, nofun, nofun, nofun, nofun⟩

theorem Settles.pending {v w : LineView} (hsettles : Settles v w) (h : v.PendingMatches) :
    w.PendingMatches := by
  cases hsettles with
  | waits => exact h
  | leaves hstate hreception hreply htransmit =>
    obtain ⟨-, hannounce, -, -, -, -, -, hbroken⟩ := h
    refine .of_quiet nofun ?_ (by simp) htransmit hreply (of_not_not fun hb => ?_)
    · simpa [hstate] using hannounce
    · rw [hbroken hb] at hstate
      cases hstate

theorem Finishes.pending {v w : LineView} (hfinishes : Finishes v w) (h : v.PendingMatches) :
    w.PendingMatches := by
  cases hfinishes with
  | nothing => exact h
  | ends train gap hsettles =>
    have hidle : LineView.PendingMatches { v with txa := { v.txa with exchange := .idle, item := none } } := h
    exact (hsettles.pending hidle).of_eq rfl rfl rfl rfl rfl rfl rfl

theorem EndsAwait.pending {v w : LineView} (hawait : EndsAwait v w) (h : v.PendingMatches) :
    w.PendingMatches := by
  cases hawait with
  | awaited hexchange hfinishes => exact hfinishes.pending h
  | other hexchange hsettles => exact hsettles.pending h

/-- The pending work, the station's own frames and a reply due stay with the station states that may have them
(R105, R116, R134, R139). -/
theorem Step.pendingMatches {v w : LineView} (hstep : Step v w) (hc : v.Consistent)
    (h : v.PendingMatches) : w.PendingMatches := by
  cases hstep with
  | same => exact h
  | elapse | window | noSlot | slotPassed | gapOver | gapPassed | header =>
    exact h.of_eq rfl rfl rfl rfl rfl rfl rfl
  | restart => simp [PendingMatches, Rif.clear]
  | join | leaveUnseen | listened => grind [PendingMatches, unseen, LineView.elapse]
  | leaveMarked hstate hsettles => exact hsettles.pending (by grind [PendingMatches])
  | busy | idle | brokenEnds | brokenCut | brokenHeader => grind [PendingMatches, free]
  | starts | replies => grind [PendingMatches, LineView.transmit, Frame.kind]
  | timeout n hline hexchange hfinishes =>
    exact hfinishes.pending (h.of_eq rfl rfl rfl rfl rfl rfl rfl)
  | duplicate => exact .of_quiet nofun (by simp) (by simp) rfl rfl rfl
  | listenedFrame hends hwins hstate hawait =>
    exact hawait.pending (by grind [PendingMatches, free])
  | received hends hwins hawait => exact hawait.pending (by grind [PendingMatches, free])
  | receivedOnline due hends hdue hwins hstate hawait =>
    exact hawait.pending (by grind [PendingMatches, free])
  | frameEnds => grind [PendingMatches, sent]
  | announceEnds | announceEndsLeft | leaveEnds => grind [PendingMatches, sent, unseen]
  | replyEnds f htransmit hkind hsettles => exact hsettles.pending (by grind [PendingMatches, sent])
  | replyCut f htransmit hkind hsettles => exact hsettles.pending (by grind [PendingMatches])
  | cut f htransmit hkind hsettles => exact hsettles.pending (by grind [PendingMatches])
  | announceCut f htransmit hkind hmark hsettles =>
    obtain ⟨-, -, -, hreply⟩ := hc.transmitting htransmit
    exact hsettles.pending (by grind [PendingMatches, unseen])

theorem Moves.pendingMatches {v w : LineView} (hmoves : Moves v w) (hc : v.Consistent)
    (h : v.PendingMatches) : w.PendingMatches := by
  cases hmoves with
  | step hstep => exact hstep.pendingMatches hc h
  | reset => exact .of_quiet nofun (by simp [cleared]) (by simp [cleared]) rfl rfl rfl

/-! ### The verdict -/

theorem VerdictFits.of_none {w : LineView} (hverdict : w.verdict = false) : w.VerdictFits := fun h => by
  rw [hverdict] at h
  cases h

theorem VerdictFits.of_eq {v w : LineView} (h : v.VerdictFits) (hverdict : w.verdict = v.verdict)
    (hrif : w.rif = v.rif) (hstate : w.state = v.state) : w.VerdictFits := by
  unfold VerdictFits
  rwa [hverdict, hrif, hstate]

/-- No verdict stands on an IDLE line. -/
theorem VerdictFits.idle {v : LineView} (h : v.VerdictFits) (hline : v.rif.line = .idle) :
    v.verdict = false := by
  cases hverdict : v.verdict with
  | false => rfl
  | true =>
    rw [(h hverdict).1] at hline
    cases hline

/-- No verdict stands beside a frame of the station's own. -/
theorem VerdictFits.transmitting {v : LineView} {f : Frame} (h : v.VerdictFits)
    (htransmit : v.rif.transmit = some f) : v.verdict = false := by
  cases hverdict : v.verdict with
  | false => rfl
  | true =>
    obtain ⟨-, hnone, -⟩ := h hverdict
    rw [hnone] at htransmit
    cases htransmit

/-- No verdict stands beside a frame that was broken off. -/
theorem VerdictFits.broken {v : LineView} {b : Broken} (h : v.VerdictFits)
    (hbroken : v.rif.broken = some b) : v.verdict = false := by
  cases hverdict : v.verdict with
  | false => rfl
  | true =>
    obtain ⟨-, -, hnone, -⟩ := h hverdict
    rw [hnone] at hbroken
    cases hbroken

theorem Settles.verdictFits {v w : LineView} (hsettles : Settles v w) (h : v.VerdictFits) :
    w.VerdictFits := by
  cases hsettles with
  | waits => exact h
  | leaves hstate hreception hreply htransmit =>
    intro hverdict
    obtain ⟨-, -, -, hseen | ⟨-, hoffline⟩⟩ := h hverdict
    · rw [hreception] at hseen
      cases hseen
    · rw [hstate] at hoffline
      cases hoffline

/-- No verdict exists between frames (R87). -/
theorem Step.verdictFits {v w : LineView} (hstep : Step v w) (hc : v.Consistent)
    (hp : v.PendingMatches) (h : v.VerdictFits) : w.VerdictFits := by
  cases hstep with
  | same => exact h
  | restart | join | idle | duplicate => exact .of_none rfl
  | leaveUnseen hstate => grind [VerdictFits, unseen]
  | leaveMarked hstate hsettles => exact hsettles.verdictFits h
  | busy hline => exact .of_none (h.idle hline)
  | elapse n hline => exact .of_none (h.idle hline)
  | window n slot hline => exact .of_none (h.idle hline)
  | noSlot n hline => exact .of_none (h.idle hline)
  | gapOver n hline => exact .of_none (h.idle hline)
  | starts f item train hline => exact .of_none (h.idle hline)
  | replies me p status hline => exact .of_none (h.idle hline)
  | listened n hline => exact .of_none (h.idle hline)
  | timeout n hline hexchange hfinishes =>
    obtain ⟨-, -, hverdict, -⟩ := hfinishes.rail
    exact .of_none (hverdict.trans (h.idle hline))
  | slotPassed | gapPassed => exact h.of_eq rfl rfl rfl
  | listenedFrame hends hwins hstate hawait =>
    obtain ⟨-, -, hverdict, -⟩ := hawait.rail
    exact .of_none hverdict
  | received hends hwins hawait =>
    obtain ⟨-, -, hverdict, -⟩ := hawait.rail
    exact .of_none hverdict
  | receivedOnline due hends hdue hwins hstate hawait =>
    obtain ⟨-, -, hverdict, -⟩ := hawait.rail
    exact .of_none hverdict
  | frameEnds f htransmit => exact .of_none (h.transmitting htransmit)
  | announceEnds p train gap htransmit => exact .of_none (h.transmitting htransmit)
  | announceEndsLeft p train gap htransmit => exact .of_none (h.transmitting htransmit)
  | leaveEnds p htransmit => exact .of_none (h.transmitting htransmit)
  | replyEnds f htransmit hkind hsettles =>
    obtain ⟨-, -, -, hverdict, -⟩ := hsettles.rail
    exact .of_none (hverdict.trans (h.transmitting htransmit))
  | replyCut f htransmit hkind hsettles =>
    obtain ⟨-, -, -, hverdict, -⟩ := hsettles.rail
    exact .of_none (hverdict.trans (h.transmitting htransmit))
  | cut f htransmit hkind hsettles =>
    obtain ⟨-, -, -, hverdict, -⟩ := hsettles.rail
    exact .of_none (hverdict.trans (h.transmitting htransmit))
  | announceCut f htransmit hkind hmark hsettles =>
    obtain ⟨-, -, -, hverdict, -⟩ := hsettles.rail
    exact .of_none (hverdict.trans (h.transmitting htransmit))
  | brokenEnds k hbroken => exact .of_none (h.broken hbroken)
  | brokenCut k hbroken => exact .of_none (h.broken hbroken)
  | header verdict fill hreception =>
    have hsome : v.rif.reception ≠ none := by simp [hreception]
    have hends : v.rif.endsReception = true := (Rif.endsReception_iff _).2 (.inl hsome)
    obtain ⟨hline, htransmit, -⟩ := hc.ends hends
    refine fun _ => ⟨hline, htransmit, of_not_not fun hb => ?_, .inl rfl⟩
    obtain ⟨-, -, -, hbroken, -⟩ := hc
    exact hsome (hbroken hb).2.1
  | brokenHeader verdict hbroken =>
    obtain ⟨hline, hreception, htransmit, -⟩ := hc.broken hbroken
    obtain ⟨-, -, -, -, -, -, -, hoffline⟩ := hp
    exact fun _ => ⟨hline, htransmit, rfl, .inr ⟨hreception, hoffline (by simp [hbroken])⟩⟩

theorem Moves.verdictFits {v w : LineView} (hmoves : Moves v w) (hc : v.Consistent)
    (hp : v.PendingMatches) (h : v.VerdictFits) : w.VerdictFits := by
  cases hmoves with
  | step hstep => exact hstep.verdictFits hc hp h
  | reset => exact .of_none rfl

/-! ### The arbiter -/

theorem Arbitrates.of_eq {v w : LineView} (h : v.Arbitrates) (htxa : w.txa = v.txa)
    (htransmit : w.rif.transmit = v.rif.transmit) (hreply : w.rif.replyDue = v.rif.replyDue) :
    w.Arbitrates := by
  unfold Arbitrates
  rwa [htxa, htransmit, hreply]

/-- An arbiter in IDLE fits a line that carries no frame but a REPLY of the station's own. -/
theorem Arbitrates.of_idle {w : LineView} (hexchange : w.txa.exchange = .idle) (hitem : w.txa.item = none)
    (htransmit : ∀ f, w.rif.transmit = some f → f.kind = .reply) : w.Arbitrates := by
  unfold Arbitrates
  rw [hexchange, hitem]
  refine ⟨by simp, fun _ => rfl, fun _ => rfl, nofun, ?_⟩
  rintro ⟨f, hf, hkind⟩
  exact absurd (htransmit f hf) hkind

theorem Finishes.arbitrates {v w : LineView} (hfinishes : Finishes v w)
    (hitem : v.txa.exchange = .idle ↔ v.txa.item = none) (hexchange : v.txa.exchange = .awaitReply)
    (htransmit : v.rif.transmit = none) : w.Arbitrates := by
  cases hfinishes with
  | nothing hnone =>
    rw [hitem.2 hnone] at hexchange
    cases hexchange
  | ends train gap hsettles =>
    obtain ⟨hrif, -⟩ := hsettles.rail
    exact .of_idle rfl rfl (by simp [hrif, htransmit])

/-- The end of a reception ends the exchange that awaits it; a reply is then due only in IDLE (R118, R133). -/
theorem EndsAwait.arbitrates {v w : LineView} (hawait : EndsAwait v w)
    (hitem : v.txa.exchange = .idle ↔ v.txa.item = none) (hsends : v.txa.exchange ≠ .transmitting) (htransmit : v.rif.transmit = none) : w.Arbitrates := by
  cases hawait with
  | awaited hexchange hfinishes => exact hfinishes.arbitrates hitem hexchange htransmit
  | other hexchange hsettles =>
    obtain ⟨hrif, -, htxa, -⟩ := hsettles.rail
    have hidle : v.txa.exchange = .idle := by
      cases h : v.txa.exchange with
      | idle => rfl
      | transmitting => exact absurd h hsends
      | awaitReply => exact absurd h hexchange
    exact .of_idle (by rw [htxa, hidle]) (by rw [htxa, hitem.1 hidle]) (by simp [hrif, htransmit])

/-- The exchange state follows the item, the train gap and the line (R130, R133). -/
theorem Step.arbitrates {v w : LineView} (hstep : Step v w) (hc : v.Consistent) (h : v.Arbitrates) :
    w.Arbitrates := by
  have h0 := h
  obtain ⟨hitem, hgap, hreply, hsends⟩ := h0
  cases hstep with
  | same => exact h
  | restart => exact .of_idle rfl rfl nofun
  | join | leaveUnseen | idle | elapse | window | noSlot | slotPassed | listened | brokenEnds | brokenCut
  | header | brokenHeader => exact h.of_eq rfl rfl rfl
  | leaveMarked hstate hsettles =>
    obtain ⟨hrif, -, htxa, -⟩ := hsettles.rail
    exact h.of_eq htxa (by rw [hrif]) (by rw [hrif])
  | busy hline => grind [Arbitrates, Txa.clear]
  | gapOver n hline hgap => grind [Arbitrates, Txa.clear, LineView.elapse]
  | gapPassed hgap => grind [Arbitrates, Txa.clear]
  | starts f item train hline hkind =>
    refine ⟨by simp, nofun, fun hdue => absurd rfl hdue, fun _ => ⟨f, rfl, hkind⟩, fun _ => rfl⟩
  | replies me p status hline hdue =>
    refine .of_idle (hreply hdue) (hitem.1 (hreply hdue)) (fun f hf => ?_)
    cases hf
    rfl
  | timeout n hline hexchange hfinishes =>
    exact hfinishes.arbitrates hitem hexchange (hc.idle hline).2.1
  | duplicate => exact .of_idle rfl rfl nofun
  | listenedFrame hends hwins hstate hawait =>
    obtain ⟨-, htransmit, -⟩ := hc.ends hends
    exact hawait.arbitrates hitem (fun hx => by simp [htransmit] at hsends; exact hsends hx) htransmit
  | received hends hwins hawait =>
    obtain ⟨-, htransmit, -⟩ := hc.ends hends
    exact hawait.arbitrates hitem (fun hx => by simp [htransmit] at hsends; exact hsends hx) htransmit
  | receivedOnline due hends hdue hwins hstate hawait =>
    obtain ⟨-, htransmit, -⟩ := hc.ends hends
    exact hawait.arbitrates hitem (fun hx => by simp [htransmit] at hsends; exact hsends hx) htransmit
  | frameEnds f htransmit hkind =>
    obtain ⟨-, -, -, hdue⟩ := hc.transmitting htransmit
    grind [Arbitrates, sent]
  | announceEnds | announceEndsLeft | leaveEnds => exact .of_idle rfl rfl nofun
  | replyEnds f htransmit hkind hsettles =>
    obtain ⟨hrif, -, htxa, -⟩ := hsettles.rail
    grind [Arbitrates, sent]
  | replyCut f htransmit hkind hsettles =>
    obtain ⟨hrif, -, htxa, -⟩ := hsettles.rail
    grind [Arbitrates]
  | cut f htransmit hkind hsettles =>
    obtain ⟨hrif, -, htxa, -⟩ := hsettles.rail
    exact .of_idle (by rw [htxa]; rfl) (by rw [htxa]; rfl) (by rw [hrif]; nofun)
  | announceCut f htransmit hkind hmark hsettles =>
    obtain ⟨hrif, -, htxa, -⟩ := hsettles.rail
    exact .of_idle (by rw [htxa]; rfl) (by rw [htxa]; rfl) (by rw [hrif]; nofun)

theorem Moves.arbitrates {v w : LineView} (hmoves : Moves v w) (hc : v.Consistent)
    (h : v.Arbitrates) : w.Arbitrates := by
  cases hmoves with
  | step hstep => exact hstep.arbitrates hc h
  | reset => exact .of_idle rfl rfl nofun

/-! ### The reply due -/

/-- No GREET of the station's own is due an answer (R153). -/
def GreetsOthers (v : LineView) : Prop :=
  ∀ p sess grant, v.rif.replyDue = some { peer := p, status := .greeted sess grant } → p ≠ v.sid

theorem GreetsOthers.of_eq {v w : LineView} (h : v.GreetsOthers) (hreply : w.rif.replyDue = v.rif.replyDue)
    (hsid : w.sid = v.sid) : w.GreetsOthers := by
  unfold GreetsOthers
  rwa [hreply, hsid]

theorem GreetsOthers.of_none {w : LineView} (hreply : w.rif.replyDue = none) : w.GreetsOthers := by
  intro p sess grant hdue
  rw [hreply] at hdue
  cases hdue

theorem Settles.sid {v w : LineView} (h : Settles v w) : w.sid = v.sid := by
  cases h <;> rfl

theorem Finishes.sid {v w : LineView} (h : Finishes v w) : w.sid = v.sid := by
  cases h with
  | nothing => rfl
  | ends train gap hsettles => exact hsettles.sid

theorem EndsAwait.sid {v w : LineView} (h : EndsAwait v w) : w.sid = v.sid := by
  cases h with
  | awaited hexchange hfinishes => exact hfinishes.sid
  | other hexchange hsettles => exact hsettles.sid

/-- A GREETED reply becomes due at a GREET from another station alone (R31, R153). -/
theorem Step.greetsOthers {v w : LineView} (hstep : Step v w) (h : v.GreetsOthers) :
    w.GreetsOthers := by
  cases hstep with
  | same => exact h
  | restart | busy | starts | replies | duplicate => exact .of_none rfl
  | join | leaveUnseen | idle | elapse | window | noSlot | slotPassed | gapOver | gapPassed | listened
  | frameEnds | announceEnds | announceEndsLeft | leaveEnds | brokenEnds | brokenCut | header
  | brokenHeader => exact h.of_eq rfl rfl
  | leaveMarked hstate hsettles =>
    exact h.of_eq (congrArg Rif.replyDue hsettles.rail.1 :) hsettles.sid
  | timeout n hline hexchange hfinishes =>
    exact h.of_eq (congrArg Rif.replyDue hfinishes.rail.1 :) hfinishes.sid
  | listenedFrame hends hwins hstate hawait =>
    exact h.of_eq (congrArg Rif.replyDue hawait.rail.1 :) hawait.sid
  | received hends hwins hawait =>
    exact h.of_eq (congrArg Rif.replyDue hawait.rail.1 :) hawait.sid
  | receivedOnline due hends hdue hwins hstate hawait =>
    intro p sess grant hgreeted
    rw [congrArg Rif.replyDue hawait.rail.1] at hgreeted
    rw [hawait.sid]
    rcases hdue p sess grant hgreeted with hsame | hother
    · exact h p sess grant (hsame ▸ hgreeted)
    · exact hother
  | replyEnds f htransmit hkind hsettles =>
    exact h.of_eq (congrArg Rif.replyDue hsettles.rail.1 :) hsettles.sid
  | replyCut f htransmit hkind hsettles =>
    exact h.of_eq (congrArg Rif.replyDue hsettles.rail.1 :) hsettles.sid
  | cut f htransmit hkind hsettles =>
    exact h.of_eq (congrArg Rif.replyDue hsettles.rail.1 :) hsettles.sid
  | announceCut f htransmit hkind hmark hsettles =>
    exact h.of_eq (congrArg Rif.replyDue hsettles.rail.1 :) hsettles.sid

theorem Moves.greetsOthers {v w : LineView} (hmoves : Moves v w) (h : v.GreetsOthers) :
    w.GreetsOthers := by
  cases hmoves with
  | step hstep => exact hstep.greetsOthers h
  | reset => exact .of_none rfl

/-- The identity is sampled at a pin reset alone (R140). -/
theorem Step.sid {v w : LineView} (hstep : Step v w) : w.sid = v.sid := by
  cases hstep with
  | leaveMarked hstate hsettles => exact hsettles.sid
  | timeout n hline hexchange hfinishes => exact hfinishes.sid
  | listenedFrame hends hwins hstate hawait => exact hawait.sid
  | received hends hwins hawait => exact hawait.sid
  | receivedOnline due hends hdue hwins hstate hawait => exact hawait.sid
  | replyEnds f htransmit hkind hsettles => exact hsettles.sid
  | replyCut f htransmit hkind hsettles => exact hsettles.sid
  | cut f htransmit hkind hsettles => exact hsettles.sid
  | announceCut f htransmit hkind hmark hsettles => exact hsettles.sid
  | _ => rfl

end LineView

/-! ### The laws of the state -/

theorem State.fillInReception_iff (s : State) : s.FillInReception ↔ s.lineView.FillsInFrame := by
  unfold State.FillInReception LineView.FillsInFrame
  rw [← Option.isSome_iff_ne_none]
  rfl

theorem State.verdictInFrame_iff (s : State) : s.VerdictInFrame ↔ s.lineView.VerdictFits := by
  unfold State.VerdictInFrame LineView.VerdictFits
  rw [← Option.isSome_iff_ne_none]
  rfl


/-- Settles O13, by the ways in which a step can change the line. -/
theorem stepKeepsTheLineConsistent : Obligations.StepKeepsTheLineConsistent := by
  unfold Obligations.StepKeepsTheLineConsistent
  refine ⟨fun s t hline hfill _ _ hstep => ?_, fun s t hline hpending hverdict hstep => ?_,
    fun s t hline harbiter hstep => (step_moves hstep).arbitrates hline harbiter⟩
  · rw [State.fillInReception_iff] at hfill ⊢
    exact ⟨(step_moves hstep).consistent hline, (step_moves hstep).fillsInFrame hline hfill⟩
  · rw [State.verdictInFrame_iff] at hverdict ⊢
    exact (step_moves hstep).verdictFits hline hpending hverdict

/-- Settles O16, by the ways in which a step can change the line. -/
theorem stepKeepsPendingWorkWithTheState : Obligations.StepKeepsPendingWorkWithTheState := by
  unfold Obligations.StepKeepsPendingWorkWithTheState
  intro s t hline _ hordered hpending hstep
  exact ⟨(step_moves hstep).ordered hordered, (step_moves hstep).pendingMatches hline hpending⟩

end Sys2Proof.Machine
end

