-- ==== Sys2Proof/Proofs/SessionFits.lean ====
section
/-! PROOF. The agreement of a peer's record with the session lists and with the exchange in progress (R18, R25, R54,
R56, R53), and what each session change does to it. -/

namespace Sys2Proof.Machine

/-! ### The agreement, peer by peer -/

/-- The exchange in progress is a CREDIT or a MESSAGE to p that carries c. -/
def State.Carries (s : State) (p : StationId) (c : Carried) : Prop :=
  s.txa.item = some (.credit p c) ∨ ∃ h, s.txa.item = some (.message h p c)

/-- In the session that a frame was sent in, its total is no further back than acked_total (R53). -/
def Peer.Follows (q : Peer) (c : Carried) : Prop :=
  q.mySess = c.srcSess → q.theirSess = some c.dstSess →
    distance c.total q.releasedTotal ≤ distance q.ackedTotal q.releasedTotal

/-- A record agrees with the identity, with its entries in the two lists, and with its reservation. -/
structure Peer.Fits (q : Peer) (own greeted credited : Prop) : Prop where
  own : q.state = .self ↔ own
  greeted : greeted ↔ q.state = .greeting
  credited : credited ↔ q.state = .isOpen ∧ q.releasedTotal ≠ q.ackedTotal
  session : q.theirSess ≠ none ↔ q.state = .isOpen
  room : q.inUse + distance q.ackedTotal q.releasedTotal ≤ q.r

structure State.FitsAt (s : State) (p : StationId) : Prop where
  record : (s.peer p).Fits (p = s.stc.sid) (p ∈ s.ssu.greetList) (p ∈ s.cru.list)
  follows : ∀ c, s.Carries p c → (s.peer p).Follows c

/-- RecordsMatchLists and RoomKept together. -/
def State.Fits (s : State) : Prop := ∀ p : StationId, s.FitsAt p

theorem State.fits_iff (s : State) : s.Fits ↔ s.RecordsMatchLists ∧ s.RoomKept := by
  constructor
  · refine fun h => ⟨fun p => ?_, fun p => (h p).record.room, fun p c => (h p).follows c⟩
    obtain ⟨hown, hgreeted, hcredited, hsession, -⟩ := (h p).record
    exact ⟨hown, hgreeted, hcredited, hsession⟩
  · rintro ⟨hrecords, hroom, hfollows⟩ p
    obtain ⟨hown, hgreeted, hcredited, hsession⟩ := hrecords p
    exact ⟨⟨hown, hgreeted, hcredited, hsession, hroom p⟩, hfollows p⟩

/-- One record may differ, with its entries; everything else that the agreement reads is the same. -/
structure State.SameBut (s t : State) (p : StationId) : Prop where
  peer : ∀ k ≠ p, t.peer k = s.peer k
  greeted : ∀ k ≠ p, (k ∈ t.ssu.greetList ↔ k ∈ s.ssu.greetList)
  credited : ∀ k ≠ p, (k ∈ t.cru.list ↔ k ∈ s.cru.list)
  sid : t.stc.sid = s.stc.sid
  item : t.txa.item = s.txa.item

theorem State.SameBut.carries {s t : State} {p : StationId} (h : s.SameBut t p) {k : StationId}
    {c : Carried} (hc : t.Carries k c) : s.Carries k c := by
  unfold State.Carries at hc ⊢
  rwa [h.item] at hc

theorem State.Fits.of_at {s t : State} {p : StationId} (h : s.Fits) (hsame : s.SameBut t p)
    (hp : t.FitsAt p) : t.Fits := by
  intro k
  by_cases hk : k = p
  · exact hk ▸ hp
  · obtain ⟨hrecord, hfollows⟩ := h k
    refine ⟨?_, fun c hc => ?_⟩
    · rw [hsame.peer k hk, hsame.sid]
      obtain ⟨hown, hgreeted, hcredited, hsession, hroom⟩ := hrecord
      exact ⟨hown, (hsame.greeted k hk).trans hgreeted, (hsame.credited k hk).trans hcredited, hsession,
        hroom⟩
    · rw [hsame.peer k hk]
      exact hfollows c (hsame.carries hc)

/-- One record is replaced, with its entries in the lists. -/
theorem State.Fits.replaced {s t : State} (h : s.Fits) {p : StationId} {q : Peer}
    (hpeers : t.ssu.peers = s.ssu.peers.set p q)
    (hgreet : ∀ k ≠ p, (k ∈ t.ssu.greetList ↔ k ∈ s.ssu.greetList))
    (hcredit : ∀ k ≠ p, (k ∈ t.cru.list ↔ k ∈ s.cru.list)) (hsid : t.stc.sid = s.stc.sid)
    (hitem : t.txa.item = s.txa.item)
    (hfits : q.Fits (p = s.stc.sid) (p ∈ t.ssu.greetList) (p ∈ t.cru.list))
    (hfollows : ∀ c, s.Carries p c → q.Follows c) : t.Fits := by
  have hpeer (k : StationId) : t.peer k = if k = p then q else s.peer k := by
    simp only [State.peer, hpeers]
    exact peers_set _ _ _ _
  have hbut : s.SameBut t p := ⟨fun k hk => by rw [hpeer, if_neg hk], hgreet, hcredit, hsid, hitem⟩
  refine h.of_at hbut ⟨?_, fun c hc => ?_⟩
  · rw [hpeer, if_pos rfl, hsid]
    exact hfits
  · rw [hpeer, if_pos rfl]
    exact hfollows c (hbut.carries hc)

theorem State.Fits.of_eq {s t : State} (h : s.Fits) (hssu : t.ssu = s.ssu) (hcru : t.cru.list = s.cru.list)
    (hsid : t.stc.sid = s.stc.sid) (hitem : t.txa.item = s.txa.item) : t.Fits := by
  have hpeer (k : StationId) : t.peer k = s.peer k := by simp only [State.peer, hssu]
  refine fun k => State.Fits.of_at (p := k) h
    ⟨fun k _ => hpeer k, fun _ _ => by rw [hssu], fun _ _ => by rw [hcru], hsid, hitem⟩ ?_ k
  obtain ⟨hrecord, hfollows⟩ := h k
  refine ⟨by rw [hpeer, hsid, hssu, hcru]; exact hrecord, fun c hc => ?_⟩
  rw [hpeer]
  refine hfollows c ?_
  unfold State.Carries at hc ⊢
  rwa [hitem] at hc

/-- An exchange that is over binds nothing. -/
theorem State.Fits.of_noItem {s t : State} (h : s.Fits) (hssu : t.ssu = s.ssu)
    (hcru : t.cru.list = s.cru.list) (hsid : t.stc.sid = s.stc.sid) (hitem : t.txa.item = none) :
    t.Fits := by
  have hpeer (k : StationId) : t.peer k = s.peer k := by simp only [State.peer, hssu]
  refine fun k => ⟨by rw [hpeer, hsid, hssu, hcru]; exact (h k).record, fun c hc => ?_⟩
  rcases hc with hc | ⟨_, hc⟩ <;> rw [hitem] at hc <;> cases hc

/-- A record that is not OPEN holds no session, so no total of a frame binds it. -/
theorem Peer.Follows.of_none {q : Peer} (h : q.theirSess = none) (c : Carried) : q.Follows c := by
  intro _ hsess
  rw [h] at hsess
  cases hsess

theorem Peer.Follows.of_eq {q q' : Peer} {c : Carried} (h : q.Follows c) (hmine : q'.mySess = q.mySess)
    (htheirs : q'.theirSess = q.theirSess) (hreleased : q'.releasedTotal = q.releasedTotal)
    (hacked : q'.ackedTotal = q.ackedTotal) : q'.Follows c := by
  unfold Peer.Follows
  rwa [hmine, htheirs, hreleased, hacked]

/-! ### A record that keeps its session -/

/-- The fields that the agreement reads of a session are the same. -/
structure Peer.SameSession (q q' : Peer) : Prop where
  state : q'.state = q.state
  mySess : q'.mySess = q.mySess
  theirSess : q'.theirSess = q.theirSess
  released : q'.releasedTotal = q.releasedTotal
  acked : q'.ackedTotal = q.ackedTotal

theorem Peer.Fits.of_session {q q' : Peer} {own greeted credited : Prop} (h : q.Fits own greeted credited)
    (hsame : q.SameSession q') (hroom : q'.inUse + distance q'.ackedTotal q'.releasedTotal ≤ q'.r) :
    q'.Fits own greeted credited := by
  obtain ⟨hown, hgreeted, hcredited, hsession, -⟩ := h
  obtain ⟨hstate, -, htheirs, hreleased, hacked⟩ := hsame
  exact ⟨by rw [hstate]; exact hown, by rw [hstate]; exact hgreeted,
    by rw [hstate, hreleased, hacked]; exact hcredited, by rw [hstate, htheirs]; exact hsession, hroom⟩

/-- A record is written again with the same session and buffers within its reservation. -/
theorem State.Fits.setPeer {s t : State} (h : s.Fits) {p : StationId} {q : Peer}
    (hpeers : t.ssu.peers = s.ssu.peers.set p q) (hgreet : ∀ k, k ∈ t.ssu.greetList ↔ k ∈ s.ssu.greetList)
    (hcredit : ∀ k, k ∈ t.cru.list ↔ k ∈ s.cru.list) (hsid : t.stc.sid = s.stc.sid)
    (hitem : t.txa.item = s.txa.item) (hsame : (s.peer p).SameSession q)
    (hroom : q.inUse + distance q.ackedTotal q.releasedTotal ≤ q.r) : t.Fits := by
  refine h.replaced hpeers (fun k _ => hgreet k) (fun k _ => hcredit k) hsid hitem ?_ fun c hc =>
    ((h p).follows c hc).of_eq hsame.mySess hsame.theirSess hsame.released hsame.acked
  rw [propext (hgreet p), propext (hcredit p)]
  exact (h p).record.of_session hsame hroom

/-! ### Sessions that end -/

/-- An ended record fits where it stands in the Greet List exactly when a GREET is owed, and in no Credit
Return List. -/
theorem Peer.Fits.ended {q : Peer} {own greeted credited greeted' credited' : Prop}
    (h : q.Fits own greeted credited) {st : PeerState} {mySess : Byte} {ctl : Nat} (hown : ¬ own)
    (hself : st ≠ .self) (hopen : st ≠ .isOpen) (hgreeted : greeted' ↔ st = .greeting)
    (hcredited : ¬ credited') : (q.ended st mySess ctl).Fits own greeted' credited' := by
  refine ⟨⟨fun hst => absurd hst hself, fun ho => absurd ho hown⟩, hgreeted,
    ⟨fun hc => absurd hc hcredited, fun hc => absurd hc.1 hopen⟩,
    ⟨fun hn => absurd rfl hn, fun hc => absurd hc hopen⟩, ?_⟩
  simp only [Peer.ended, distance_self]
  exact (Nat.le_add_right _ _).trans h.room

/-- The session with a peer that is another station ends or stays ended. -/
theorem State.Fits.ended {s t : State} (h : s.Fits) {p : StationId} {st : PeerState} {mySess : Byte}
    {ctl : Nat} {listed : Bool} (hp : p ≠ s.stc.sid)
    (hssu : t.ssu = s.ssu.updated p ((s.peer p).ended st mySess ctl) listed)
    (hcru : ∀ k, k ∈ t.cru.list ↔ k ≠ p ∧ k ∈ s.cru.list) (hsid : t.stc.sid = s.stc.sid)
    (hitem : t.txa.item = s.txa.item) (hself : st ≠ .self) (hopen : st ≠ .isOpen)
    (hlisted : listed = true ↔ st = .greeting) : t.Fits := by
  have hgreet (k : StationId) :
      k ∈ t.ssu.greetList ↔ if k = p then listed = true else k ∈ s.ssu.greetList := by
    rw [hssu]
    cases listed <;> by_cases hk : k = p <;> by_cases hmem : p ∈ s.ssu.greetList <;>
      simp [Ssu.updated, hk, hmem]
  refine h.replaced (by rw [hssu]; rfl) (fun k hk => by rw [hgreet, if_neg hk])
    (fun k hk => by rw [hcru, and_iff_right hk]) hsid hitem ?_ fun c _ => .of_none rfl c
  exact (h p).record.ended hp hself hopen (by rw [hgreet, if_pos rfl]; exact hlisted) (by simp [hcru])

/-- Away from OPEN there is no Credit Return List entry to drop. -/
theorem State.Fits.credit_dropped {s t : State} (h : s.Fits) {p : StationId}
    (hcru : t.cru.list = if (s.peer p).state = .isOpen then s.cru.list.filter (· ≠ p) else s.cru.list)
    (k : StationId) : k ∈ t.cru.list ↔ k ≠ p ∧ k ∈ s.cru.list := by
  rw [hcru]
  split
  · simp [and_comm]
  · rename_i hstate
    refine ⟨fun hk => ⟨fun hkp => hstate ?_, hk⟩, And.right⟩
    exact ((h p).record.credited.1 (hkp ▸ hk)).1

theorem State.greetOwed_ssu (s : State) (p : StationId) (why : Reason) (notice : Bool) :
    (s.greetOwed p why notice).ssu = s.ssu.updated p (s.peer p).owed true := by
  by_cases hopen : (s.peer p).state = .isOpen
  · cases notice
    · rw [State.greetOwed_quiet s p why hopen]; rfl
    · rw [State.greetOwed_restart s p why hopen]; rfl
  · rw [State.greetOwed_notOpen s p why notice hopen]; rfl

theorem State.greetOwed_credits (s : State) (p : StationId) (why : Reason) (notice : Bool) :
    (s.greetOwed p why notice).cru.list =
      if (s.peer p).state = .isOpen then s.cru.list.filter (· ≠ p) else s.cru.list := by
  by_cases hopen : (s.peer p).state = .isOpen
  · rw [if_pos hopen]
    cases notice
    · rw [State.greetOwed_quiet s p why hopen]; rfl
    · rw [State.greetOwed_restart s p why hopen]; rfl
  · rw [State.greetOwed_notOpen s p why notice hopen, if_neg hopen]; rfl

theorem State.becomeLost_ssu (s : State) (p : StationId) (why : Reason) (named : Option Handle) :
    (s.becomeLost p why named).ssu =
      s.ssu.updated p ((s.peer p).ended .lost (s.peer p).mySess (s.peer p).ctlAttempts) false := by
  by_cases hopen : (s.peer p).state = .isOpen
  · rw [State.becomeLost_open s p why named hopen]; rfl
  · rw [State.becomeLost_notOpen s p why named hopen]; rfl

theorem State.becomeLost_credits (s : State) (p : StationId) (why : Reason) (named : Option Handle) :
    (s.becomeLost p why named).cru.list =
      if (s.peer p).state = .isOpen then s.cru.list.filter (· ≠ p) else s.cru.list := by
  by_cases hopen : (s.peer p).state = .isOpen
  · rw [State.becomeLost_open s p why named hopen, if_pos hopen]; rfl
  · rw [State.becomeLost_notOpen s p why named hopen, if_neg hopen]; rfl

theorem State.peerLeft_ssu (s : State) (p : StationId) (h : (s.peer p).state ≠ .absent) :
    (s.peerLeft p).ssu = s.ssu.updated p ((s.peer p).ended .absent (s.peer p).mySess 0) false := by
  by_cases hopen : (s.peer p).state = .isOpen
  · rw [State.peerLeft_open s p hopen]; rfl
  · rw [State.peerLeft_notOpen s p hopen h]; rfl

theorem State.peerLeft_credits (s : State) (p : StationId) (h : (s.peer p).state ≠ .absent) :
    (s.peerLeft p).cru.list =
      if (s.peer p).state = .isOpen then s.cru.list.filter (· ≠ p) else s.cru.list := by
  by_cases hopen : (s.peer p).state = .isOpen
  · rw [State.peerLeft_open s p hopen, if_pos hopen]; rfl
  · rw [State.peerLeft_notOpen s p hopen h, if_neg hopen]

/-- A record in any state but SELF is another station's. -/
theorem State.Fits.other {s : State} (h : s.Fits) {p : StationId} {st : PeerState}
    (hstate : (s.peer p).state = st) (hself : st ≠ .self) : p ≠ s.stc.sid := fun hp =>
  hself (hstate.symm.trans ((h p).record.own.2 hp))

section Ends

variable {s : State} (h : s.Fits)
include h

theorem State.Fits.greetOwed {p : StationId} (hp : p ≠ s.stc.sid) (why : Reason) (notice : Bool) :
    (s.greetOwed p why notice).Fits :=
  h.ended hp (s.greetOwed_ssu p why notice) (h.credit_dropped (s.greetOwed_credits p why notice))
    (by simp) (by simp) nofun nofun (by simp)

theorem State.Fits.becomeLost {p : StationId} (hp : p ≠ s.stc.sid) (why : Reason)
    (named : Option Handle) : (s.becomeLost p why named).Fits :=
  h.ended hp (s.becomeLost_ssu p why named) (h.credit_dropped (s.becomeLost_credits p why named))
    (by simp) (by simp) nofun nofun (by simp)

theorem State.Fits.peerLeft {p : StationId} (hp : p ≠ s.stc.sid) : (s.peerLeft p).Fits := by
  by_cases habsent : (s.peer p).state = .absent
  · rw [State.peerLeft, if_pos habsent]
    exact h
  · exact h.ended hp (s.peerLeft_ssu p habsent) (h.credit_dropped (s.peerLeft_credits p habsent))
      (by simp) (by simp) nofun nofun (by simp)

theorem State.Fits.hear (p : StationId) : (s.hear p).Fits := by
  unfold State.hear
  split
  · rename_i hdead
    have hp : p ≠ s.stc.sid := by
      rcases hdead with hstate | hstate <;> exact h.other hstate nofun
    exact h.greetOwed hp _ _
  · exact h

theorem State.Fits.hearSource (src : Byte) : (s.hearSource src).Fits := by
  unfold State.hearSource
  split
  · exact h.hear _
  · exact h

theorem State.Fits.protocolFault (p : StationId) : (s.protocolFault p).Fits := by
  unfold State.protocolFault
  split
  · exact h.greetOwed (h.other (st := .isOpen) ‹_› nofun) _ _
  · exact h

theorem State.Fits.refusedReply (p : StationId) (why : Reason) (notice : Bool) :
    (s.refusedReply p why notice).Fits := by
  unfold State.refusedReply
  split
  · exact h.greetOwed (h.other (st := .isOpen) ‹_› nofun) _ _
  · exact h

theorem State.Fits.announced (p : StationId) : (s.announced p).Fits := by
  unfold State.announced
  split
  · exact h.setPeer rfl (fun _ => Iff.rfl) (fun _ => Iff.rfl) rfl rfl ⟨rfl, rfl, rfl, rfl, rfl⟩
      (h p).record.room
  · exact h.greetOwed (h.other (st := .absent) ‹_› nofun) _ _
  · exact h.greetOwed (h.other (st := .isOpen) ‹_› nofun) _ _
  · exact h.greetOwed (h.other (st := .lost) ‹_› nofun) _ _
  · exact h

end Ends

end Sys2Proof.Machine
end

