-- ==== Sys2Proof/Proofs/SessionOpens.lean ====
section
/-! PROOF. The agreement of records, lists and exchange through sessions that open, fills, outcomes of exchanges and
the ends of good frames. -/

namespace Sys2Proof.Machine

/-! ### Sessions that open -/

theorem mem_filter_ne_iff {α : Type} [DecidableEq α] {l : List α} {a k : α} :
    k ∈ l.filter (· ≠ a) ↔ k ≠ a ∧ k ∈ l := by simp [and_comm]

/-- The session of another station opens, with its entries in the lists as they belong (R29, R31). -/
theorem State.Fits.opened {s t : State} (h : s.Fits) {p : StationId} {q : Peer} (hp : p ≠ s.stc.sid)
    (hssu : t.ssu = s.ssu.updated p q false) (hstate : q.state = .isOpen) (hsess : q.theirSess ≠ none)
    (hroom : q.inUse + distance q.ackedTotal q.releasedTotal ≤ q.r)
    (hcredit : p ∈ t.cru.list ↔ q.releasedTotal ≠ q.ackedTotal)
    (hcredits : ∀ k ≠ p, (k ∈ t.cru.list ↔ k ∈ s.cru.list)) (hsid : t.stc.sid = s.stc.sid)
    (hitem : t.txa.item = s.txa.item) (hfree : ∀ c, ¬ s.Carries p c) : t.Fits := by
  have hgreet (k : StationId) : k ∈ t.ssu.greetList ↔ k ≠ p ∧ k ∈ s.ssu.greetList := by
    rw [hssu]
    exact mem_filter_ne_iff
  refine h.replaced (by rw [hssu]; rfl) (fun k hk => by rw [hgreet, and_iff_right hk]) hcredits hsid hitem
    ?_ fun c hc => absurd hc (hfree c)
  exact ⟨by simp [hstate, hp], by simp [hgreet, hstate], by simp [hcredit, hstate],
    by simp [hsess, hstate], hroom⟩

theorem State.Fits.openSession {s : State} (h : s.Fits) {p : StationId}
    (hstate : (s.peer p).state = .greeting) (hfree : ∀ c, ¬ s.Carries p c) (sess grant : Byte) :
    (s.openSession p sess grant).Fits := by
  have hnot : p ∉ s.cru.list := fun hmem => by
    have := ((h p).record.credited.1 hmem).1
    rw [hstate] at this
    cases this
  rw [State.openSession_eq]
  refine h.opened (h.other hstate nofun) rfl rfl (Option.some_ne_none sess) (h p).record.room ?_ ?_ rfl
    rfl hfree
  all_goals
    dsimp only
    split
  · rename_i heq
    simp [hnot, heq]
  · rename_i hne
    simp [Cru.evaluated, hne]
  · exact fun _ _ => Iff.rfl
  · intro k hk
    simp [Cru.evaluated, hk]

theorem State.Fits.answerGreet {s : State} (h : s.Fits) {p : StationId} (hp : p ≠ s.stc.sid)
    (hitem : s.txa.item = none) (sess grant : Byte) : (s.answerGreet p sess grant).Fits := by
  have hfree (c : Carried) : ¬ s.Carries p c := by simp [State.Carries, hitem]
  have hcru (k : StationId) : k ∈ (s.answerGreet p sess grant).cru.list ↔ k ≠ p ∧ k ∈ s.cru.list := by
    refine h.credit_dropped ?_ k
    rw [State.answerGreet_eq]
    dsimp only
    split <;> rfl
  have hroom := (h p).record.room
  refine h.opened hp (by rw [State.answerGreet_eq]; rfl) rfl (Option.some_ne_none sess) ?_ ?_ ?_ (by simp)
    (by simp) hfree
  · simp only [Peer.ended, distance_self]
    exact (Nat.le_add_right _ _).trans hroom
  · simp [hcru, Peer.ended]
  · intro k hk
    rw [hcru, and_iff_right hk]

/-! ### Buffers of a peer -/

theorem State.Fits.abortFill {s : State} (h : s.Fits) : s.abortFill.Fits := by
  cases hfill : s.rxu.fill with
  | none => rwa [State.abortFill_none hfill]
  | some f =>
    rw [State.abortFill_some hfill]
    refine h.setPeer (p := f.source) rfl (fun _ => Iff.rfl) (fun _ => Iff.rfl) rfl rfl
      ⟨rfl, rfl, rfl, rfl, rfl⟩ ?_
    exact (Nat.add_le_add_right (Nat.sub_le _ _) _).trans (h f.source).record.room

theorem State.Fits.dropVerdict {s : State} (h : s.Fits) : s.dropVerdict.Fits :=
  h.abortFill.of_eq rfl rfl rfl rfl

theorem State.Fits.postFill {s : State} (h : s.Fits) (p : StationId) (seq : Byte) :
    (s.postFill p seq).Fits := by
  cases hfill : s.rxu.fill with
  | none => rwa [State.postFill_none p seq hfill]
  | some f =>
    rw [State.postFill_some p seq hfill]
    exact h.setPeer (p := p) rfl (fun _ => Iff.rfl) (fun _ => Iff.rfl) rfl rfl
      ⟨rfl, rfl, rfl, rfl, rfl⟩ (h p).record.room

theorem State.Fits.startFill {s : State} (h : s.Fits) {p : StationId} (hroom : 1 ≤ (s.peer p).room)
    (k : Handle) (rest : List Handle) (v : Verdict) (payload : List Byte) :
    (s.startFill p k rest v payload).Fits := by
  refine h.setPeer (s.startFill_peers p k rest v payload) (fun _ => Iff.rfl) (fun _ => Iff.rfl) rfl rfl
    ⟨rfl, rfl, rfl, rfl, rfl⟩ ?_
  simp only [Peer.room, Peer.unacked] at hroom ⊢
  omega

/-! ### Totals -/

theorem State.Fits.evaluateTotal {s : State} (h : s.Fits) (p : StationId) (frame : FrameKind)
    (total : Byte) : (s.evaluateTotal p frame total).Fits := by
  unfold State.evaluateTotal
  split
  · have hfault : (s.handFault .creditRange p frame total).Fits := h.of_eq rfl rfl rfl rfl
    exact (hfault.protocolFault p).of_eq rfl rfl rfl rfl
  · exact h.setPeer (p := p) rfl (fun _ => Iff.rfl) (fun _ => Iff.rfl) rfl rfl
      ⟨rfl, rfl, rfl, rfl, rfl⟩ (h p).record.room

/-- One exchange at a time: what it carries to a station is one thing (R130). -/
theorem State.Carries.unique {s : State} {p : StationId} {c d : Carried} (hc : s.Carries p c)
    (hd : s.Carries p d) : c = d := by
  rcases hc with hc | ⟨_, hc⟩ <;> rcases hd with hd | ⟨_, hd⟩ <;> rw [hc] at hd <;> cases hd <;> rfl

/-- Equal bytes are those at distance 0 (R48). -/
theorem distance_eq_zero_iff {a b : Byte} : distance a b = 0 ↔ a = b := by
  refine ⟨fun h => ?_, fun h => h ▸ distance_self a⟩
  unfold distance at h
  bv_omega

/-- A total behind released_total is one that the peer still has to be told of (R56). -/
theorem State.Fits.credited_of_behind {s : State} (h : s.Fits) {p : StationId} {c : Carried}
    (hc : s.Carries p c) (hcarries : (s.peer p).carries c = true)
    (hbelow : c.total ≠ (s.peer p).releasedTotal) : p ∈ s.cru.list := by
  simp only [Peer.carries, Bool.and_eq_true, beq_iff_eq] at hcarries
  obtain ⟨⟨hstate, hmine⟩, htheirs⟩ := hcarries
  have hbehind := (h p).follows c hc hmine htheirs
  refine (h p).record.credited.2 ⟨hstate, fun hlevel => hbelow (distance_eq_zero_iff.1 ?_)⟩
  rw [← hlevel, distance_self] at hbehind
  exact Nat.le_zero.1 hbehind

/-- acked_total of p takes the total that its frame carried, in the session of that frame (R53). -/
theorem State.Fits.acked {s t : State} (h : s.Fits) {p : StationId} {c : Carried} (hc : s.Carries p c)
    (hcarries : (s.peer p).carries c = true)
    (hpeers : t.ssu.peers = s.ssu.peers.set p { s.peer p with ackedTotal := c.total, ctlAttempts := 0 })
    (hgreet : t.ssu.greetList = s.ssu.greetList) (hsid : t.stc.sid = s.stc.sid)
    (hitem : t.txa.item = s.txa.item) (hcredits : ∀ k ≠ p, (k ∈ t.cru.list ↔ k ∈ s.cru.list))
    (hcredit : p ∈ t.cru.list ↔ (s.peer p).releasedTotal ≠ c.total) : t.Fits := by
  simp only [Peer.carries, Bool.and_eq_true, beq_iff_eq] at hcarries
  obtain ⟨⟨hstate, hmine⟩, htheirs⟩ := hcarries
  obtain ⟨⟨hown, hgreeted, -, hsession, hroom⟩, hfollows⟩ := h p
  have hbehind := hfollows c hc hmine htheirs
  refine h.replaced hpeers (fun _ _ => by rw [hgreet]) hcredits hsid hitem ?_ fun d hd => ?_
  · rw [hgreet]
    exact ⟨hown, hgreeted, by rw [hcredit]; simp [hstate], hsession,
      (Nat.add_le_add_left hbehind _).trans hroom⟩
  · rw [State.Carries.unique hd hc]
    exact fun _ _ => le_rfl

/-- The total that a frame carried lies between acked_total and released_total, so acknowledging it keeps the
reservation and leaves the Credit Return List entry right (R53, R56). -/
theorem State.Fits.acceptTotal {s : State} (h : s.Fits) {p : StationId} {c : Carried}
    (hc : s.Carries p c) : (s.acceptTotal p c).Fits := by
  unfold State.acceptTotal
  dsimp only
  split
  · rename_i hcarries
    split
    · rename_i hlevel
      have hlevel' : (s.peer p).releasedTotal = c.total := hlevel.symm
      exact h.acked hc hcarries rfl rfl rfl rfl (fun k hk => mem_filter_ne_iff.trans (and_iff_right hk))
        (by simp [hlevel'])
    · rename_i hbelow
      exact h.acked hc hcarries rfl rfl rfl rfl (fun k _ => Iff.rfl)
        (iff_of_true (h.credited_of_behind hc hcarries hbelow) (Ne.symm hbelow))
  · exact h.setPeer (p := p) rfl (fun _ => Iff.rfl) (fun _ => Iff.rfl) rfl rfl
      ⟨rfl, rfl, rfl, rfl, rfl⟩ (h p).record.room

end Sys2Proof.Machine
end

