-- ==== Sys2Proof/Proofs/SessionOutcomes.lean ====
section
/-! PROOF. The agreement of records, lists and exchange through the outcomes of exchanges, the ends of good frames
and the starts of the station's own; and that no entry is addressed to the station itself. -/

namespace Sys2Proof.Machine

/-! ### Entries for other stations -/

/-- No entry of the Send List is addressed to the identity (R68). -/
def State.SendsPast (sid : StationId) (s : State) : Prop := ∀ e ∈ s.snu.sendList, e.dest ≠ sid

theorem State.SendsPast.of_eq {sid : StationId} {s t : State} (h : s.SendsPast sid)
    (hsnu : t.snu.sendList = s.snu.sendList) : t.SendsPast sid := by
  unfold State.SendsPast
  rwa [hsnu]

/-- Every operation but an accepted SEND_GO only drops entries, or changes them under their destination. -/
theorem sendsPast_kept (sid : StationId) : Kept (State.SendsPast sid) where
  queue _ _ h := h
  low _ _ h := h
  rif _ _ h := h
  ctu _ _ h := h
  txa _ _ h := h
  hpu _ _ h := h
  stc _ _ _ h := h
  verdict _ _ h := h
  fault _ _ _ _ h := h
  demand _ _ h := h
  winsel _ _ h := h
  peer _ _ _ _ h := h
  appendGreet _ _ h := h.of_eq (by simp)
  removeGreet _ _ h := h
  greetToTail _ _ h := h.of_eq (by simp)
  addCredit _ _ h := h.of_eq (by simp)
  dropCredit _ _ h := h
  creditToTail _ _ h := h.of_eq (by simp)
  event _ _ _ _ h := h
  complete s cause h := by
    intro e he
    rw [State.completeWhere_sendList] at he
    exact h e (List.mem_of_mem_filter he)
  sending s k q h := by
    intro e he
    obtain ⟨e', he', rfl⟩ := List.mem_map.1 he
    split
    · exact h e' he'
    · exact h e' he'
  retry s k c h := by
    intro e he
    obtain ⟨e', he', rfl⟩ := List.mem_map.1 he
    split
    · exact h e' he'
    · exact h e' he'
  startFill _ _ _ _ _ _ _ _ _ _ h := h
  abortFill s h := h.of_eq (by simp)
  postFill s _ _ h := h.of_eq (by simp)
  leaving s h := h.of_eq (by simp)
  takeTx _ _ _ _ h := h
  writeMem _ _ _ _ h := h
  popInbound _ _ _ _ h := h
  popCompletion _ _ _ _ h := h
  popEvent _ _ _ _ h := h

/-! ### Outcomes -/

theorem State.Fits.completeWhere {s : State} (h : s.Fits) (cause : SendEntry → Option (Status × Nat)) :
    (s.completeWhere cause).Fits := h.of_eq (by simp) (by simp) (by simp) (by simp)

theorem State.Fits.raiseCtl {s : State} (h : s.Fits) (p : StationId) :
    (s.setPeer p { s.peer p with ctlAttempts := (s.peer p).raisedCtl }).Fits :=
  h.setPeer rfl (fun _ => Iff.rfl) (fun _ => Iff.rfl) rfl rfl ⟨rfl, rfl, rfl, rfl, rfl⟩ (h p).record.room

/-- Moving an entry to the tail keeps a list's members. -/
theorem mem_toTail_iff {α : Type} [DecidableEq α] {l : List α} {a k : α} :
    (k ∈ if a ∈ l then l.filter (· ≠ a) ++ [a] else l) ↔ k ∈ l := by
  by_cases ha : a ∈ l <;> by_cases hk : k = a <;> simp [ha, hk]

/-- A record is written again with its session, and its entries may move in their lists. -/
theorem State.Fits.toTail {s t : State} (h : s.Fits) (hssu : t.ssu.peers = s.ssu.peers)
    (hgreet : ∀ k, k ∈ t.ssu.greetList ↔ k ∈ s.ssu.greetList)
    (hcredit : ∀ k, k ∈ t.cru.list ↔ k ∈ s.cru.list) (hsid : t.stc.sid = s.stc.sid)
    (hitem : t.txa.item = s.txa.item) : t.Fits := by
  intro p
  refine h.setPeer (p := p) (q := s.peer p) ?_ hgreet hcredit hsid hitem ⟨rfl, rfl, rfl, rfl, rfl⟩
    (h p).record.room p
  simp [hssu, State.peer]

theorem State.Fits.greetOutcome {s : State} (h : s.Fits) {p : StationId}
    (hitem : s.txa.item = some (.greet p)) (r : Option ReplyStatus) : (s.greetOutcome p r).Fits := by
  have hunanswered : ∀ hstate : (s.peer p).state = .greeting,
      ((s.setPeer p { s.peer p with ctlAttempts := (s.peer p).raisedCtl }).greetToTail p).Fits ∧
        p ≠ s.stc.sid := fun hstate =>
    ⟨(h.raiseCtl p).toTail (by simp) (fun k => by rw [State.greetToTail_greetList]; exact mem_toTail_iff)
      (by simp) (by simp) (by simp),
      h.other hstate nofun⟩
  unfold State.greetOutcome
  dsimp only
  split
  · split
    · exact h.openSession ‹_› (by simp [State.Carries, hitem]) _ _
    · exact h
  all_goals
    split
    · rename_i hgreeting
      obtain ⟨htail, hp⟩ := hunanswered hgreeting.1
      split
      · exact htail.becomeLost (by simpa using hp) _ _
      · exact htail
    · exact h

theorem State.Fits.creditOutcome {s : State} (h : s.Fits) {p : StationId} {c : Carried}
    (hc : s.Carries p c) (r : Option ReplyStatus) : (s.creditOutcome p c r).Fits := by
  unfold State.creditOutcome
  dsimp only
  split
  · exact h.acceptTotal hc
  · exact h.refusedReply _ _ _
  all_goals
    split
    · rename_i hcarries
      have hp : p ≠ s.stc.sid := by
        simp only [Peer.carries, Bool.and_eq_true, beq_iff_eq] at hcarries
        exact h.other hcarries.1.1 nofun
      have htail : ((s.setPeer p { s.peer p with
          ctlAttempts := (s.peer p).raisedCtl }).creditToTail p).Fits :=
        (h.raiseCtl p).toTail (by simp) (by simp)
          (fun k => by rw [State.creditToTail_list]; exact mem_toTail_iff) (by simp) (by simp)
      split
      · exact htail.becomeLost (by simpa using hp) _ _
      · exact htail
    · exact h

theorem State.Fits.messageOutcome {s : State} (h : s.Fits) (hsends : s.SendsPast s.stc.sid) {k : Handle}
    {p : StationId} {c : Carried} (hc : s.Carries p c) (r : Option ReplyStatus) :
    (s.messageOutcome k p c r).Fits := by
  have hunanswered : ((if s.stc.leaveMark then s.completeWhere (entryCause k .withdrawn true)
      else match s.sendingEntry k with
        | some e => s.messageUnanswered e
        | none => s) : State).Fits := by
    split
    · exact h.completeWhere _
    · split
      · rename_i e hentry
        unfold State.messageUnanswered
        split
        · exact h.becomeLost (hsends e (List.mem_of_find?_eq_some hentry)) _ _
        · exact h.of_eq rfl rfl rfl rfl
      · exact h
  unfold State.messageOutcome
  split
  · refine (h.completeWhere _).acceptTotal ?_
    simpa [State.Carries] using hc
  · exact (h.completeWhere _).refusedReply _ _ _
  · exact (h.completeWhere _).refusedReply _ _ _
  · exact hunanswered
  · exact hunanswered

theorem State.Fits.applyOutcome {s : State} (h : s.Fits) (hsends : s.SendsPast s.stc.sid) {item : Item}
    (hitem : s.txa.item = some item) (r : Option ReplyStatus) : (s.applyOutcome item r).Fits := by
  cases item with
  | announce => exact h
  | leave => exact h
  | greet p => exact h.greetOutcome hitem r
  | credit p c => exact h.creditOutcome (.inl hitem) r
  | message k p c => exact h.messageOutcome hsends (.inr ⟨k, hitem⟩) r

/-! ### Leaving and the ends of exchanges -/

theorem State.Fits.enterLeaving {s : State} (h : s.Fits) : s.enterLeaving.Fits := by
  intro p
  obtain ⟨⟨hown, hgreeted, hcredited, hsession, hroom⟩, hfollows⟩ := h p
  have hsid : s.enterLeaving.stc.sid = s.stc.sid := by simp
  by_cases hp : p = s.stc.sid
  · have hself := hown.2 hp
    have hnone : (s.peer p).theirSess = none := by simpa [hself] using hsession
    refine ⟨?_, fun c _ => ?_⟩
    · rw [State.enterLeaving_peer, if_pos hp, hsid, State.enterLeaving_greetList, State.enterLeaving_cru]
      exact ⟨hown, by simp [hself], by simp [hself, Cru.clear], hsession, hroom⟩
    · rw [State.enterLeaving_peer, if_pos hp]
      exact .of_none hnone c
  · refine ⟨?_, fun c _ => ?_⟩
    · rw [State.enterLeaving_peer, if_neg hp, hsid, State.enterLeaving_greetList, State.enterLeaving_cru]
      exact (h p).record.ended (st := .absent) (mySess := (s.peer p).mySess) (ctl := 0) hp nofun nofun (by simp)
        (by simp [Cru.clear])
    · rw [State.enterLeaving_peer, if_neg hp]
      exact .of_none rfl c

theorem State.Fits.settleLeave {s : State} (h : s.Fits) : s.settleLeave.Fits := by
  unfold State.settleLeave
  split
  · exact h.enterLeaving
  · exact h

theorem State.Fits.arbiterIdle {s : State} (h : s.Fits) : s.arbiterIdle.Fits :=
  h.of_noItem rfl rfl rfl rfl

theorem State.Fits.decideTrain {s : State} (h : s.Fits) (answered : Bool) : (s.decideTrain answered).Fits := by
  unfold State.decideTrain
  split
  · exact h.of_noItem rfl rfl rfl rfl
  · exact h.arbiterIdle

theorem State.Fits.finishExchange {s : State} (h : s.Fits) (hsends : s.SendsPast s.stc.sid)
    (r : Option ReplyStatus) : (s.finishExchange r).Fits := by
  unfold State.finishExchange
  split
  · exact h
  · rename_i item hitem
    have hover : ({ s.applyOutcome item r with
        txa := { (s.applyOutcome item r).txa with exchange := .idle, item := none } } : State).Fits :=
      (h.applyOutcome hsends hitem r).of_noItem rfl rfl rfl rfl
    exact hover.settleLeave.decideTrain _

theorem State.Fits.endAwait {s : State} (h : s.Fits) (hsends : s.SendsPast s.stc.sid)
    (r : Option ReplyStatus) : (s.endAwait r).Fits := by
  unfold State.endAwait
  split
  · exact h.finishExchange hsends r
  · exact h.settleLeave

theorem State.Fits.enterHalted {s : State} (h : s.Fits) : s.enterHalted.Fits :=
  (h.arbiterIdle.completeWhere haltedCause).dropVerdict.of_eq rfl rfl rfl rfl

theorem State.Fits.endListening {s : State} (h : s.Fits) : s.endListening.Fits := by
  unfold State.endListening
  split
  · exact h.of_eq rfl rfl rfl rfl
  · exact h

/-! ### Good frames in ONLINE -/

section Effects

variable {s : State} (h : s.Fits)
include h

theorem State.Fits.handReply (p : StationId) (status : ReplyStatus) : (s.handReply p status).Fits :=
  h.of_eq rfl rfl rfl rfl

theorem State.Fits.handFault (kind : FaultKind) (p : StationId) (frame : FrameKind) (value : Byte) :
    (s.handFault kind p frame value).Fits := h.of_eq rfl rfl rfl rfl

theorem State.Fits.forgetVerdict : s.forgetVerdict.Fits := h.of_eq rfl rfl rfl rfl

theorem State.Fits.actOnVerdict : s.actOnVerdict.Fits := by
  unfold State.actOnVerdict
  split
  · exact h
  · dsimp only
    have hforget := h.forgetVerdict
    split
    · exact hforget
    · split
      · exact hforget
      · exact hforget.handReply _ _
      · exact ((hforget.handFault _ _ _ _).protocolFault _).handReply _ _
      · exact ((hforget.handFault _ _ _ _).protocolFault _).handReply _ _
      · exact hforget.evaluateTotal _ _ _
      · exact (hforget.postFill _ _).evaluateTotal _ _ _

theorem State.Fits.messageEffect (src : Byte) : (s.messageEffect src).Fits :=
  h.actOnVerdict.dropVerdict.hearSource src

theorem State.Fits.creditEffect (src : Byte) (dst : StationId) (srcSess dstSess total : Byte) :
    (s.creditEffect src dst srcSess dstSess total).Fits := by
  unfold State.creditEffect
  dsimp only
  split
  · exact h.dropVerdict
  · split
    · split
      · exact h.dropVerdict.evaluateTotal _ _ _
      · exact (h.dropVerdict.handReply _ _).hear _
    · exact h.dropVerdict.hear _

theorem State.Fits.greetEffect (src : Byte) (dst : StationId) (sess grant : Byte) :
    (s.greetEffect src dst sess grant).Fits := by
  unfold State.greetEffect
  dsimp only
  split
  · exact h.dropVerdict
  · split
    · exact h.dropVerdict.handReply _ _
    · exact h.dropVerdict.hear _

theorem State.Fits.announceEffect (src : Byte) : (s.announceEffect src).Fits := by
  unfold State.announceEffect
  split
  · exact h.dropVerdict
  · exact h.dropVerdict.announced _

theorem State.Fits.leaveEffect {src : Byte} (hother : stationOf src ≠ some s.stc.sid) :
    (s.leaveEffect src).Fits := by
  unfold State.leaveEffect
  split
  · exact h.dropVerdict
  · rename_i p hsrc
    refine h.dropVerdict.peerLeft ?_
    rw [hsrc] at hother
    simpa using hother

theorem State.Fits.replyEffect (src : Byte) : (s.replyEffect src).Fits := h.dropVerdict.hearSource src

end Effects

end Sys2Proof.Machine
end

