-- ==== Sys2Proof/Proofs/SessionEvents.lean ====
section
/-! PROOF. The agreement of records, lists and exchange through good frames, the starts of the station's own frames,
the events of the line, releases and resets. -/

namespace Sys2Proof.Machine

/-! ### The ends of good frames -/

theorem State.Fits.takeWinner {s : State} (h : s.Fits) (src : Byte) : (s.takeWinner src).Fits :=
  h.of_eq (by simp) (by simp) (by simp) (by simp)

theorem State.Fits.lineFree {s : State} (h : s.Fits) : s.lineFree.Fits := h.of_eq rfl rfl rfl rfl

theorem State.Fits.wonLine {s : State} (h : s.Fits) (src : Byte) (kind : FrameKind) :
    (s.wonLine src kind).Fits := by
  unfold State.wonLine
  split
  · exact h.lineFree
  · exact h.lineFree.takeWinner src

theorem State.SendsPast.wonLine {s : State} {sid : StationId} (h : s.SendsPast sid) (src : Byte)
    (kind : FrameKind) : (s.wonLine src kind).SendsPast sid := by
  unfold State.wonLine
  split
  · exact h
  · exact (sendsPast_kept sid).takeWinner _ _ h

theorem State.endListening_sid (s : State) : s.endListening.stc.sid = s.stc.sid := by
  unfold State.endListening
  split <;> rfl

theorem State.Fits.goodFrame {s : State} (h : s.Fits) (hsends : s.SendsPast s.stc.sid) (src : Byte)
    (kind : FrameKind) {effect : State → State} (r : Option ReplyStatus)
    (hanswered : ∀ t : State, stationOf src ≠ some t.stc.sid → t.Answered (effect t))
    (hfits : ∀ t : State, t.Fits → stationOf src ≠ some t.stc.sid → (effect t).Fits)
    (hkept : ∀ t : State, t.SendsPast s.stc.sid → (effect t).SendsPast s.stc.sid) :
    (s.goodFrame src kind effect r).Fits := by
  have hwon := h.wonLine src kind
  have hsid : (s.wonLine src kind).stc.sid = s.stc.sid :=
    congrArg LineView.sid (s.wonLine_lineView src kind)
  have hpast := hsends.wonLine src kind
  have hkeeps := sendsPast_kept s.stc.sid
  rw [State.goodFrame_eq]
  cases hdup : (s.wonLine src kind).isDuplicate src with
  | true =>
    rw [State.frameTaken_duplicate hdup]
    exact (hwon.handFault _ _ _ _).enterHalted
  | false =>
    by_cases hlistens : (kind ≠ .reply ∧ (stationOf src).isSome = true) ∧
        (s.wonLine src kind).stc.state = .listening
    · rw [State.frameTaken_listening hdup hlistens.1 hlistens.2]
      have hsid' : (s.wonLine src kind).endListening.dropVerdict.stc.sid = s.stc.sid :=
        (congrArg LineView.sid (State.dropVerdict_lineView _)).trans
          ((State.endListening_sid _).trans hsid)
      exact hwon.endListening.dropVerdict.endAwait
        (hsid' ▸ hkeeps.dropVerdict _ (hkeeps.endListening _ hpast)) r
    · rw [State.frameTaken_heard hdup hlistens]
      split
      · rename_i honline
        have hother := State.source_ne_sid hdup honline
        obtain ⟨due, -, hview⟩ := hanswered _ hother
        have hsid' : (effect (s.wonLine src kind)).stc.sid = s.stc.sid :=
          (congrArg LineView.sid hview).trans hsid
        exact (hfits _ hwon hother).endAwait (hsid' ▸ hkept _ hpast) r
      · refine hwon.dropVerdict.endAwait ?_ r
        simpa [hsid] using hkeeps.dropVerdict _ hpast

/-- A frame end of no known kind, and a bad one. -/
theorem State.Fits.unknownFrame {s : State} (h : s.Fits) (hsends : s.SendsPast s.stc.sid) :
    (s.lineFree.dropVerdict.endAwait none).Fits := by
  refine h.lineFree.dropVerdict.endAwait ?_ none
  simpa using (sendsPast_kept s.stc.sid).dropVerdict s.lineFree hsends

theorem State.Fits.badFrame {s : State} (h : s.Fits) (hsends : s.SendsPast s.stc.sid) :
    (s.lineFree.takeOrdered.dropVerdict.endAwait none).Fits := by
  have hordered : s.lineFree.takeOrdered.Fits := h.of_eq rfl rfl rfl rfl
  refine hordered.dropVerdict.endAwait ?_ none
  simpa using (sendsPast_kept s.stc.sid).dropVerdict s.lineFree.takeOrdered hsends

/-! ### MESSAGE headers -/

/-- An ADMITTED header comes from a station with room (R91). -/
theorem State.headerClass_admitted {s : State} {h : MessageHeader} {p : StationId}
    (hsrc : stationOf h.src = some p) (hcls : s.headerClass h = .admitted) : 1 ≤ (s.peer p).room := by
  simp only [State.headerClass, hsrc] at hcls
  split at hcls
  · cases hcls
  · simp only [State.judge] at hcls
    split at hcls
    · split at hcls
      · rename_i hseq
        subst hcls
        simp only [sequenceCheck] at hseq
        repeat' split at hseq
        all_goals simp at hseq
      · split at hcls
        · rename_i hroom
          exact hroom.1
        · cases hcls
    · cases hcls

theorem State.Fits.headerArrives {s : State} (h : s.Fits) (hd : MessageHeader) (payload : List Byte) :
    (s.headerArrives hd payload).Fits := by
  unfold State.headerArrives
  split
  · have hseen : ({ s with rif := { s.rif with reception := some { headerSeen := true } } } : State).Fits :=
      h.of_eq rfl rfl rfl rfl
    unfold State.takeHeader
    dsimp only
    split
    · have hjudged : ({ s with
          rif := { s.rif with reception := some { headerSeen := true } }
          rxu := { s.rxu with verdict := some (verdictOf hd (s.headerClass hd)) } } : State).Fits :=
        h.of_eq rfl rfl rfl rfl
      split
      · rename_i hcls hsrc _ _
        exact hjudged.startFill (State.headerClass_admitted (s := s) hsrc hcls) _ _ _ _
      · exact hjudged
    · exact hseen
  · split
    · exact h.of_eq (by simp) (by simp) (by simp) (by simp)
    · exact h

/-! ### Frames that start -/

/-- A new item binds what its frame takes from the record (R49, R132). -/
theorem State.Fits.starts {s t : State} (h : s.Fits) (hssu : t.ssu = s.ssu) (hcru : t.cru = s.cru)
    (hstc : t.stc = s.stc) (hfollows : ∀ p c, t.Carries p c → (s.peer p).Follows c) : t.Fits := by
  have hpeer (k : StationId) : t.peer k = s.peer k := by simp only [State.peer, hssu]
  refine fun p => ⟨?_, fun c hc => ?_⟩
  · rw [hpeer, hssu, hcru, hstc]
    exact (h p).record
  · rw [hpeer]
    exact hfollows p c hc

/-- What a frame carries at its start is the released_total of its moment (R49). -/
theorem Peer.follows_carried (q : Peer) : q.Follows q.carried := by
  intro _ _
  simp [Peer.carried]

/-- A GREET is owed to the head of the Greet List, a CREDIT or MESSAGE goes as it is chosen (R131). -/
theorem State.choose_greet {s : State} {p : StationId} (hw : s.choose = some (.greet p)) :
    p ∈ s.ssu.greetList := by
  unfold State.choose at hw
  split at hw
  case h_3 =>
    split at hw
    · cases hw
    · split at hw <;> cases hw
      rename_i hlist
      simp [hlist]
  all_goals
    repeat' split at hw
    all_goals cases hw

/-- Zeroing the session of a GREETING peer at its GREET's start changes nothing that the agreement reads. -/
theorem State.Fits.zeroedForGreet {s : State} (h : s.Fits) {p : StationId} (hp : p ∈ s.ssu.greetList) :
    (s.setPeer p (s.peer p).zeroedKeepCtl).Fits := by
  have hstate := (h p).record.greeted.1 hp
  have hnot : p ∉ s.cru.list := fun hmem => by
    have := ((h p).record.credited.1 hmem).1
    rw [hstate] at this
    cases this
  refine h.ended (st := .greeting) (mySess := (s.peer p).mySess) (ctl := (s.peer p).ctlAttempts)
    (listed := true) (h.other hstate nofun) ?_ (fun k => ⟨fun hk => ⟨fun hkp => hnot (hkp ▸ hk), hk⟩,
      And.right⟩) rfl rfl nofun nofun (by simp)
  simp only [Ssu.updated, if_pos hp]
  rw [← hstate]
  rfl

theorem State.Fits.startWork {s : State} (h : s.Fits) {w : Work} (hw : s.choose = some w) (train : Nat) :
    (s.startWork w train).Fits := by
  cases w with
  | announce => exact h.starts rfl rfl rfl fun p c hc => by rcases hc with hc | ⟨_, hc⟩ <;> cases hc
  | leave => exact h.starts rfl rfl rfl fun p c hc => by rcases hc with hc | ⟨_, hc⟩ <;> cases hc
  | greet p =>
    exact (h.zeroedForGreet (State.choose_greet hw)).starts rfl rfl rfl fun p c hc => by
      rcases hc with hc | ⟨_, hc⟩ <;> cases hc
  | credit p =>
    refine h.starts rfl rfl rfl fun k c hc => ?_
    rcases hc with hc | ⟨_, hc⟩ <;> cases hc
    exact (s.peer p).follows_carried
  | message e =>
    unfold State.startWork
    dsimp only
    split
    · have hspent : (s.setPeer e.dest (s.peer e.dest).firstAttempt).Fits :=
        h.setPeer rfl (fun _ => Iff.rfl) (fun _ => Iff.rfl) rfl rfl ⟨rfl, rfl, rfl, rfl, rfl⟩
          (h e.dest).record.room
      refine hspent.starts rfl rfl rfl fun k c hc => ?_
      rcases hc with hc | ⟨_, hc⟩ <;> cases hc
      rw [State.peer_setPeer_self]
      exact (s.peer e.dest).follows_carried.of_eq rfl rfl rfl rfl
    · refine h.starts rfl rfl rfl fun k c hc => ?_
      rcases hc with hc | ⟨_, hc⟩ <;> cases hc
      exact (s.peer e.dest).follows_carried

end Sys2Proof.Machine
end

