-- ==== Sys2Proof/Proofs/SessionKept.lean ====
section
/-! PROOF. The agreement of records, lists and exchange through releases, resets, the events of the line and the
host's commands. -/

namespace Sys2Proof.Machine

/-! ### Releases, JOIN and the resets -/

theorem mem_appendNew_iff {α : Type} [DecidableEq α] {l : List α} {a k : α} :
    (k ∈ if a ∈ l then l else l ++ [a]) ↔ k = a ∨ k ∈ l := by
  by_cases ha : a ∈ l <;> by_cases hk : k = a <;> simp [ha, hk]

theorem distance_add_one {a b : Byte} (h : distance a b < 255) : distance a (b + 1) = distance a b + 1 := by
  unfold distance at h ⊢
  bv_omega

/-- A release moves released_total one further from acked_total and from every total a frame carries, as far from
wrapping as the reservation is small (R10, R48, R54). -/
theorem State.Fits.releaseHeld {s : State} (h : s.Fits) {p : StationId} (hbound : (s.peer p).InBounds)
    (hheld : 1 ≤ (s.peer p).inUse) (k : Handle) : (s.releaseHeld k p).Fits := by
  obtain ⟨-, -, hr, -⟩ := hbound
  obtain ⟨⟨hown, hgreeted, hcredited, hsession, hroom⟩, hfollows⟩ := h p
  have hnext := distance_add_one (a := (s.peer p).ackedTotal) (b := (s.peer p).releasedTotal) (by omega)
  have hmoved : (s.peer p).releasedTotal + 1 ≠ (s.peer p).ackedTotal := fun heq => by
    rw [heq, distance_self] at hnext
    omega
  have hcredit (j : StationId) : j ∈ (s.releaseHeld k p).cru.list ↔
      ((s.peer p).state = .isOpen ∧ j = p) ∨ j ∈ s.cru.list := by
    rw [State.releaseHeld_eq]
    dsimp only
    split
    · rename_i hopen
      rw [and_iff_right hopen]
      exact mem_appendNew_iff
    · rename_i hclosed
      simp [hclosed]
  refine h.replaced (q := { s.peer p with
      inUse := (s.peer p).inUse - 1, releasedTotal := (s.peer p).releasedTotal + 1 })
    (by rw [State.releaseHeld_eq]) (fun _ _ => by rw [State.releaseHeld_eq])
    (fun j hj => by simp [hcredit, hj]) (by rw [State.releaseHeld_eq]) (by rw [State.releaseHeld_eq])
    ⟨hown, by rw [State.releaseHeld_eq]; exact hgreeted, ?_, hsession, ?_⟩ fun c hc hmine htheirs => ?_
  · rw [hcredit, hcredited]
    exact ⟨fun hmem => ⟨hmem.elim And.left And.left, hmoved⟩, fun hopen => .inl ⟨hopen.1, rfl⟩⟩
  · simp only [hnext]
    omega
  · have hbehind := hfollows c hc hmine htheirs
    have hcarried := distance_add_one (a := c.total) (b := (s.peer p).releasedTotal) (by omega)
    simp only [hcarried, hnext]
    omega

theorem Peer.fresh_fits {r : Nat} {own greeted credited : Prop} (hown : ¬ own) (hgreeted : ¬ greeted)
    (hcredited : ¬ credited) : (Peer.fresh r).Fits own greeted credited :=
  ⟨by simp [Peer.fresh, hown], by simp [Peer.fresh, hgreeted], by simp [Peer.fresh, hcredited],
    by simp [Peer.fresh], by simp [Peer.fresh]⟩

theorem Peer.selfRecord_fits {own greeted credited : Prop} (hown : own) (hgreeted : ¬ greeted)
    (hcredited : ¬ credited) : Peer.selfRecord.Fits own greeted credited :=
  ⟨by simp [Peer.selfRecord, hown], by simp [Peer.selfRecord, hgreeted],
    by simp [Peer.selfRecord, hcredited], by simp [Peer.selfRecord, Peer.fresh],
    by simp [Peer.selfRecord, Peer.fresh]⟩

/-- Fresh records with both lists empty agree (R19). -/
theorem State.Fits.of_fresh {s : State} {r : StationId → Nat}
    (hpeers : s.ssu.peers = freshPeers s.stc.sid r) (hgreet : s.ssu.greetList = [])
    (hcredit : s.cru.list = []) : s.Fits := by
  intro p
  have hpeer : s.peer p = if p = s.stc.sid then Peer.selfRecord else Peer.fresh (r p) := by
    rw [State.peer, hpeers]
    exact freshPeers_getElem _ _ _
  refine ⟨?_, fun c _ => ?_⟩
  · rw [hpeer, hgreet, hcredit]
    split
    · exact Peer.selfRecord_fits ‹_› List.not_mem_nil List.not_mem_nil
    · exact Peer.fresh_fits ‹_› List.not_mem_nil List.not_mem_nil
  · rw [hpeer]
    split <;> exact .of_none rfl c

/-! ### Events of the line -/

section Rail

variable {s : State} (h : s.Fits)
include h

theorem State.Fits.senseBusy : s.senseBusy.Fits := by
  unfold State.senseBusy
  split
  · dsimp only
    split
    · exact h.of_noItem rfl rfl rfl rfl
    · exact h.of_eq rfl rfl rfl rfl
  · exact h

theorem State.Fits.senseIdle : s.senseIdle.Fits := by
  unfold State.senseIdle
  split
  · exact h.of_eq rfl rfl rfl rfl
  · exact h

theorem State.Fits.settleGap : s.settleGap.Fits := by
  unfold State.settleGap
  split
  · exact h.of_eq rfl rfl rfl rfl
  · exact h

theorem State.Fits.windowTurn : s.windowTurn.Fits := by
  unfold State.windowTurn
  split
  · exact h
  · split
    · exact h.of_eq rfl rfl rfl rfl
    · exact h

theorem State.Fits.slotBegins : s.slotBegins.Fits := by
  unfold State.slotBegins
  split
  · split
    · rename_i k c _ _ _
      have hslotless : (s.elapse (Config.slotBits * k - c)).noSlot.Fits := h.of_eq rfl rfl rfl rfl
      dsimp only
      split
      · exact hslotless.startWork ‹_› 1
      · exact hslotless
    · exact h.of_eq rfl rfl rfl rfl
  · exact h

theorem State.Fits.gapEnds : s.gapEnds.Fits := by
  unfold State.gapEnds
  split
  · split
    · have hlater : (s.elapseTo Config.trainGapEnd).Fits := h.of_eq rfl rfl rfl rfl
      dsimp only
      split
      · exact hlater.startWork ‹_› _
      · exact hlater.arbiterIdle
    · exact h.arbiterIdle
  · exact h

/-- The reply that is due goes to another station, and no exchange is in progress then (R117, R133). -/
theorem State.Fits.replyMoment (harbiter : s.ArbiterConsistent) (hothers : s.lineView.GreetsOthers) :
    s.replyMoment.Fits := by
  unfold State.replyMoment
  split
  · exact h
  · rename_i d hdue
    split
    · unfold State.startReply
      split
      · rename_i sess grant hstatus
        obtain ⟨hitem, -, hreply, -⟩ := harbiter
        have hnone : s.txa.item = none := hitem.1 (hreply (by simp [hdue]))
        have hp : d.peer ≠ s.stc.sid := hothers d.peer sess grant (by rw [← hstatus]; exact hdue)
        exact (h.answerGreet hp hnone sess grant).of_eq rfl rfl rfl rfl
      all_goals exact h.of_eq rfl rfl rfl rfl
    · exact h

theorem State.Fits.replyTimeout (hsends : s.SendsPast s.stc.sid) : s.replyTimeout.Fits := by
  unfold State.replyTimeout
  split
  · have hlater : (s.elapseTo Config.replyTimeout).Fits := h.of_eq rfl rfl rfl rfl
    exact hlater.finishExchange hsends none
  · exact h

theorem State.Fits.listenTimeout : s.listenTimeout.Fits := by
  unfold State.listenTimeout
  split
  · have hlater : (s.elapseTo Config.listenTimeout).Fits := h.of_eq rfl rfl rfl rfl
    exact hlater.endListening
  · exact h

theorem State.Fits.cutExchange : s.cutExchange.Fits := by
  have hidle := h.arbiterIdle
  unfold State.cutExchange
  dsimp only
  split
  · split
    · exact hidle.completeWhere _
    · exact hidle.of_eq rfl rfl rfl rfl
  · split
    · exact hidle.of_eq rfl rfl rfl rfl
    · exact hidle
  all_goals exact hidle

theorem State.Fits.collide : s.collide.Fits := by
  unfold State.collide
  split
  · exact h.of_eq (by simp) (by simp) (by simp) (by simp)
  · have hcut : s.stopSending.takeOrdered.Fits := h.of_eq rfl rfl rfl rfl
    refine State.Fits.settleLeave ?_
    split
    · exact hcut
    · exact hcut.cutExchange

theorem State.Fits.ownEnd : s.ownEnd.Fits := by
  have hstopped : s.lineFree.stopSending.Fits := h.of_eq rfl rfl rfl rfl
  exact hstopped.takeWinner _

theorem State.Fits.endBroken (kinds : List FrameKind) : (s.endBroken kinds).Fits :=
  h.of_eq (by simp) (by simp) (by simp) (by simp)

theorem State.Fits.frameEnds : s.frameEnds.Fits := by
  have hawait : s.awaitReply.Fits := h.ownEnd.of_eq rfl rfl rfl rfl
  unfold State.frameEnds
  split
  case h_7 => exact h.endBroken _
  all_goals first | exact hawait | exact h

theorem State.Fits.announceEnds : s.announceEnds.Fits := by
  unfold State.announceEnds
  split
  case h_1 =>
    dsimp only
    refine State.Fits.decideTrain ?_ true
    split
    · exact h.ownEnd.of_eq rfl rfl rfl rfl
    · exact h.ownEnd.of_eq rfl rfl rfl rfl
  case h_7 => exact h.endBroken _
  all_goals exact h

theorem State.Fits.leaveEnds : s.leaveEnds.Fits := by
  unfold State.leaveEnds
  split
  case h_1 => exact h.ownEnd.arbiterIdle.of_eq rfl rfl rfl rfl
  case h_7 => exact h.endBroken _
  all_goals exact h

theorem State.Fits.replyEnds : s.replyEnds.Fits := by
  unfold State.replyEnds
  split
  case h_1 =>
    have hstopped : s.lineFree.stopSending.Fits := h.of_eq rfl rfl rfl rfl
    exact hstopped.settleLeave
  case h_7 => exact h.endBroken _
  all_goals exact h

end Rail

/-! ### The host's commands -/

section Host

variable {s : State} (h : s.Fits)
include h

/-- What a read cycle drives, and what a result says, is no part of a session. -/
theorem State.Fits.takeTx : s.takeTx.Fits := by
  unfold State.takeTx
  split <;> exact h.of_eq rfl rfl rfl rfl

theorem State.Fits.release (hcounted : s.BuffersCounted) (hbounds : s.PeersInBounds) (w : Word) :
    (s.release w).Fits := by
  rcases s.release_cases w with hbad | ⟨k, p, -, hheld, hrelease⟩ | ⟨k, -, -, hrelease⟩
  · rw [hbad]
    exact h.of_eq rfl rfl rfl rfl
  · rw [hrelease]
    have hpos : 1 ≤ (s.peer p).inUse := hcounted.inUse_pos (k := k) (by rw [hheld]; rfl)
    exact (h.releaseHeld (hbounds p) hpos k).of_eq rfl rfl rfl rfl
  · rw [hrelease]
    exact h.of_eq rfl rfl rfl rfl

theorem State.Fits.readWindow (k : BitVec 7) : (s.readWindow k).Fits := by
  unfold State.readWindow
  split <;> exact h.of_eq rfl rfl rfl rfl

theorem State.Fits.writeWindow (k : BitVec 7) (w : Word) : (s.writeWindow k w).Fits := by
  unfold State.writeWindow
  split <;> exact h.of_eq rfl rfl rfl rfl

theorem State.Fits.sendGo : s.sendGo.Fits := by
  rcases s.sendGo_cases with ⟨r, hgo⟩ | ⟨d, k, -, -, -, hgo⟩
  · rw [hgo]
    exact h.of_eq rfl rfl rfl rfl
  · rw [hgo]
    exact h.of_eq rfl rfl rfl rfl

theorem State.Fits.inboundPop : s.inboundPop.Fits := by
  unfold State.inboundPop
  split <;> exact h.of_eq rfl rfl rfl rfl

theorem State.Fits.completionPop : s.completionPop.Fits := by
  unfold State.completionPop
  split <;> exact h.of_eq rfl rfl rfl rfl

theorem State.Fits.peerEventPop : s.peerEventPop.Fits := by
  unfold State.peerEventPop
  split <;> exact h.of_eq rfl rfl rfl rfl

theorem State.Fits.takeSource : s.takeSource.Fits := by
  unfold State.takeSource
  split <;> exact h.of_eq rfl rfl rfl rfl

theorem State.Fits.finishSource : s.finishSource.Fits := by
  unfold State.finishSource
  split <;> exact h.of_eq rfl rfl rfl rfl

theorem State.Fits.writeProfile (reg : ProfileReg) (w : Word) : (s.writeProfile reg w).Fits := by
  unfold State.writeProfile
  split
  · cases reg <;> exact h.of_eq rfl rfl rfl rfl
  · exact h.of_eq rfl rfl rfl rfl

theorem State.Fits.writeRegister (addr : BitVec 9) (w : Word) : (s.writeRegister addr w).Fits := by
  unfold State.writeRegister
  repeat' split
  all_goals exact h.of_eq rfl rfl rfl rfl

theorem State.Fits.join : s.join.Fits := by
  have hjoined : s.joined.Fits :=
    .of_fresh (r := fun p => (s.stc.reserveRegs[p]).toNat) (by simp only [State.joined])
      (by simp only [State.joined]) (by simp only [State.joined, Cru.clear])
  unfold State.join
  split
  · exact h.of_eq rfl rfl rfl rfl
  · split
    · exact h.of_eq rfl rfl rfl rfl
    · split
      · exact hjoined.endListening
      · exact hjoined

theorem State.Fits.leave : s.leave.Fits := by
  unfold State.leave
  split
  · exact h.of_eq rfl rfl rfl rfl
  · split
    · exact h.of_eq rfl rfl rfl rfl
    · split <;> exact h.of_eq rfl rfl rfl rfl
    · have hmarked : (s.completeWhere leaveCause).markLeave.Fits :=
        (h.completeWhere leaveCause).of_eq rfl rfl rfl rfl
      exact hmarked.settleLeave.of_eq rfl rfl rfl rfl
    all_goals exact h.of_eq rfl rfl rfl rfl

theorem State.Fits.regreet (n : BitVec 6) : (s.regreet n).Fits := by
  unfold State.regreet
  split
  · exact h.of_eq rfl rfl rfl rfl
  · split
    · exact h.of_eq rfl rfl rfl rfl
    · split
      · exact (h.greetOwed (h.other (st := .lost) ‹_› nofun) .hostRegreet false).of_eq rfl rfl rfl rfl
      · exact h.of_eq rfl rfl rfl rfl

theorem State.Fits.onWrite {f : State → State} (hf : (f s).Fits) : (s.onWrite f).Fits := by
  unfold State.onWrite
  split
  · exact h
  · exact hf

theorem State.Fits.onRail {f : State → State} (hf : (f s).Fits) : (s.onRail f).Fits := h.onWrite hf

theorem State.Fits.onRead {f : State → State} (hf : (f s).Fits) : (s.onRead f).Fits := by
  unfold State.onRead
  split
  · exact h.of_eq rfl rfl rfl rfl
  · exact hf

theorem State.Fits.onReception {f : State → State} (hf : (f s).Fits) : (s.onReception f).Fits := by
  refine h.onRail ?_
  split
  · exact hf
  · exact h

end Host

end Sys2Proof.Machine
end

