-- ==== Sys2Proof/Proofs/SessionSteps.lean ====
section
/-! PROOF. Every command and every step keeps the records in agreement with the lists and the exchange, and sends
past the station itself; settles O14. -/

namespace Sys2Proof.Machine

/-! ### Entries for other stations, at every command -/

theorem State.SendsPast.of_clear {s : State} (h : s.snu = Snu.clear) (sid : StationId) :
    s.SendsPast sid := by
  intro e he
  rw [h] at he
  cases he

/-- No command adds an entry for the station itself (R68). -/
theorem exec_sendsPast (c : Instr) (s t : State) (h : s.SendsPast s.stc.sid) (e : exec c s = .next t) :
    t.SendsPast t.stc.sid := by
  by_cases hassert : c = .pinResetAssert
  · subst hassert
    cases e
    exact .of_clear rfl _
  by_cases hrelease : ∃ sid rate active, c = .pinResetRelease sid rate active
  · obtain ⟨sid, rate, active, rfl⟩ := hrelease
    cases e
    exact .of_clear rfl _
  have hsid : t.stc.sid = s.stc.sid :=
    (exec_stepsLine c s t hassert (fun sid rate active hc => hrelease ⟨sid, rate, active, hc⟩) e).sid
  rw [hsid]
  have hkept := sendsPast_kept s.stc.sid
  cases c
  case pinResetAssert => exact absurd rfl hassert
  case pinResetRelease sid rate active => exact absurd ⟨sid, rate, active, rfl⟩ hrelease
  case releaseWrite w =>
    cases e
    refine Kept.onWrite s (fun u => u.release w) (fun u hu => ?_) h
    rcases u.release_cases w with hr | ⟨k, p, -, -, hr⟩ | ⟨k, -, -, hr⟩
    · rw [hr]
      exact hu
    · rw [hr, State.releaseHeld_eq]
      exact hu
    · rw [hr]
      exact hu
  case sendGoWrite w =>
    cases e
    show State.SendsPast s.stc.sid (s.onWrite State.sendGo)
    unfold State.onWrite
    split
    · exact h
    · rcases s.sendGo_cases with ⟨r, hgo⟩ | ⟨d, k, hd, -, -, hgo⟩
      · rw [hgo]
        exact h
      · rw [hgo]
        intro f hf
        rcases List.mem_append.1 hf with hold | hnew
        · exact h f hold
        · rw [List.mem_singleton.1 hnew]
          exact hd
  case join =>
    cases e
    refine Kept.onWrite s State.join (fun u hu => ?_) h
    have hjoined : u.joined.SendsPast s.stc.sid := .of_clear (by simp) _
    unfold State.join
    split
    · exact hu
    · split
      · exact hu
      · split
        · exact hkept.endListening _ hjoined
        · exact hjoined
  case restart =>
    cases e
    exact Kept.onWrite s State.afterRestart (fun u _ => .of_clear rfl _) h
  all_goals exact hkept.exec _ s t (by trivial) h e

/-! ### Every command -/

/-- What a command needs of the state beside the agreement itself. -/
structure State.SessionsReady (s : State) : Prop where
  arbiter : s.ArbiterConsistent
  counted : s.BuffersCounted
  bounds : s.PeersInBounds
  fits : s.Fits
  sends : s.SendsPast s.stc.sid
  greets : s.lineView.GreetsOthers

theorem exec_fits (c : Instr) (s t : State) (hready : s.SessionsReady) (e : exec c s = .next t) :
    t.Fits := by
  obtain ⟨harbiter, hcounted, hbounds, h, hsends, hgreets⟩ := hready
  have hkept := sendsPast_kept s.stc.sid
  cases c <;> cases e
  case pinResetAssert => exact .of_fresh (r := fun _ => 0) rfl rfl rfl
  case pinResetRelease sid rate act => exact .of_fresh (r := fun _ => 0) rfl rfl rfl
  case txtakeRead => exact h.onRead h.takeTx
  case releaseWrite w => exact h.onWrite (h.release hcounted hbounds w)
  case windowRead k => exact h.onRead (h.readWindow k)
  case windowWrite k w => exact h.onWrite (h.writeWindow k w)
  case sendGoWrite w => exact h.onWrite h.sendGo
  case inboundPopRead => exact h.onRead h.inboundPop
  case completionPopRead => exact h.onRead h.completionPop
  case peerEventPopRead => exact h.onRead h.peerEventPop
  case attentionRead => exact h.onRead h.takeSource
  case finishWrite w => exact h.onWrite h.finishSource
  case stateChangeRead => exact h.onRead (h.of_eq rfl rfl rfl rfl)
  case attnEnableWrite w => exact h.onWrite (h.of_eq rfl rfl rfl rfl)
  case profileWrite reg w => exact h.onWrite (h.writeProfile reg w)
  case registerWrite addr w => exact h.onWrite (h.writeRegister addr w)
  case join => exact h.onWrite h.join
  case leave => exact h.onWrite h.leave
  case restart => exact h.onWrite (.of_fresh (r := fun _ => 0) rfl rfl rfl)
  case regreet p => exact h.onWrite (h.regreet p)
  case clearFault => exact h.onWrite (h.of_eq rfl rfl rfl rfl)
  case clearFlags => exact h.onWrite (h.of_eq rfl rfl rfl rfl)
  case unusedCommandCode code => exact h.onWrite (h.of_eq rfl rfl rfl rfl)
  case lineBusy => exact h.onRail h.senseBusy
  case settleGap => exact h.onRail h.settleGap
  case windowLastSlotEnd => exact h.onRail h.windowTurn
  case slotStart => exact h.onRail h.slotBegins
  case trainGapEnd => exact h.onRail h.gapEnds
  case collision => exact h.onRail h.collide
  case ownFrameEnd => exact h.onRail h.frameEnds
  case ownAnnounceEnd => exact h.onRail h.announceEnds
  case ownLeaveEnd => exact h.onRail h.leaveEnds
  case ownReplyEnd => exact h.onRail h.replyEnds
  case replyMoment => exact h.onRail (h.replyMoment harbiter hgreets)
  case replyTimeout => exact h.onRail (h.replyTimeout hsends)
  case listenTimeout => exact h.onRail h.listenTimeout
  case messageHeader hd payload => exact h.onRail (h.headerArrives hd payload)
  case messageFrameEnd src dst =>
    exact h.onReception (h.goodFrame hsends src _ _ (fun t _ => t.messageEffect_answered src)
      (fun _ ht _ => ht.messageEffect src) (fun t => hkept.messageEffect src t))
  case creditFrameEnd src dst a b c =>
    exact h.onReception (h.goodFrame hsends src _ _ (fun t _ => t.creditEffect_answered src dst a b c)
      (fun _ ht _ => ht.creditEffect src dst a b c) (fun t => hkept.creditEffect src dst a b c t))
  case greetFrameEnd src dst a b =>
    exact h.onReception (h.goodFrame hsends src _ _
      (fun _ ho => State.greetEffect_answered src dst a b ho)
      (fun _ ht _ => ht.greetEffect src dst a b) (fun t => hkept.greetEffect src dst a b t))
  case announceFrameEnd src =>
    exact h.onReception (h.goodFrame hsends src _ _ (fun t _ => t.announceEffect_answered src)
      (fun _ ht _ => ht.announceEffect src) (fun t => hkept.announceEffect src t))
  case leaveFrameEnd src =>
    exact h.onReception (h.goodFrame hsends src _ _ (fun t _ => t.leaveEffect_answered src)
      (fun _ ht ho => ht.leaveEffect ho) (fun t => hkept.leaveEffect src t))
  case replyFrameEnd src dst a b c =>
    exact h.onReception (h.goodFrame hsends src _ _ (fun t _ => t.replyEffect_answered src)
      (fun _ ht _ => ht.replyEffect src) (fun t => hkept.replyEffect src t))
  case unknownKindFrameEnd => exact h.onReception (h.unknownFrame hsends)
  case badFrameEnd => exact h.onReception (h.badFrame hsends)
  case lineIdle => exact h.onRail h.senseIdle

/-! ### Every step -/

/-- A step is a command, or one bit time with none due. -/
theorem step_cases {s t : State} (e : step s = .next t) :
    (∃ c q, exec c { s with pending := q } = .next t) ∨ t = s.elapse 1 ∨ t = s := by
  unfold step at e
  split at e
  · exact .inl ⟨_, _, e⟩
  · unfold State.bitTime at e
    split at e
    · split at e
      · rename_i c _
        exact .inl ⟨c, s.pending, e⟩
      · cases e
        exact .inr (.inl rfl)
    · cases e
      exact .inr (.inr rfl)

/-- Settles O14, through the agreement of each peer's record with its entries and with the exchange in
progress. -/
theorem stepKeepsSessionsWithinTheirRoom : Obligations.StepKeepsSessionsWithinTheirRoom := by
  unfold Obligations.StepKeepsSessionsWithinTheirRoom
  rintro s t - harbiter - hcounted hbounds hrecords hroom ⟨hsends, hgreets⟩ hstep
  have hready : s.SessionsReady := ⟨harbiter, hcounted, hbounds, s.fits_iff.2 ⟨hrecords, hroom⟩, hsends,
    hgreets⟩
  have hgreets' : t.lineView.GreetsOthers := (step_moves hstep).greetsOthers hgreets
  obtain ⟨hfits', hsends'⟩ : t.Fits ∧ t.SendsPast t.stc.sid := by
    rcases step_cases hstep with ⟨c, q, e⟩ | rfl | rfl
    · have hqueue : ({ s with pending := q } : State).SessionsReady := by
        obtain ⟨ha, hc, hb, hf, hs, hg⟩ := hready
        exact ⟨ha, hc, hb, hf.of_eq rfl rfl rfl rfl, hs, hg⟩
      exact ⟨exec_fits c _ t hqueue e, exec_sendsPast c _ t hqueue.sends e⟩
    · exact ⟨hready.fits.of_eq rfl rfl rfl rfl, hsends⟩
    · exact ⟨hready.fits, hsends⟩
  obtain ⟨hrecords', hroom'⟩ := t.fits_iff.1 hfits'
  exact ⟨hrecords', hroom', hsends', hgreets'⟩

end Sys2Proof.Machine
end

