-- ==== Sys2Proof/Proofs/QueueSteps.lean ====
section
/-! PROOF. The queue (logs 1 and 2): a step takes the front command, and an empty queue passes one bit time. -/

namespace Sys2Proof.Machine

/-! ### The queue -/

theorem step_nil {s : State} (h : s.pending = []) : step s = s.bitTime := by
  rw [step, h]

/-- Settles O1, by the definition of a step. -/
theorem stepTakesTheFrontCommand : Obligations.StepTakesTheFrontCommand := fun _ _ _ => rfl

/-- Nothing happens on a BUSY line or while RESET# is low (log 2). -/
theorem State.bitTime_still {s : State} (h : s.resetLow = true ∨ s.rif.line = .busy) :
    s.bitTime = .next s := by
  have htime : s.timePasses = false := by
    rcases h with hlow | hbusy
    · simp [State.timePasses, hlow]
    · simp [State.timePasses, hbusy]
  rw [State.bitTime, if_neg (by simp [htime])]

/-- On an IDLE line the bit time brings its event, if one is due (log 2). -/
theorem State.bitTime_due {s : State} (hopen : s.resetLow = false) (hline : s.rif.line = .idle)
    {c : Instr} (hdue : s.dueCommand = some c) : s.bitTime = exec c s := by
  rw [State.bitTime, if_pos (by simp [State.timePasses, hopen, hline]), hdue]

theorem State.bitTime_elapse {s : State} (hopen : s.resetLow = false) (hline : s.rif.line = .idle)
    (hdue : s.dueCommand = none) : s.bitTime = .next (s.elapse 1) := by
  rw [State.bitTime, if_pos (by simp [State.timePasses, hopen, hline]), hdue]

theorem State.nextIdle_iff (s : State) (n : Nat) : s.nextIdle n = true ↔ n ≤ s.rif.idleCount + 1 := by
  simp [State.nextIdle]

theorem State.slotDue_iff (s : State) :
    s.slotDue = true ↔
      ∃ k c : Nat, s.ctu.slot = some k ∧ s.ctu.slotClock = some c ∧ 4 * k ≤ c + 1 := by
  unfold State.slotDue
  cases s.ctu.slot <;> cases s.ctu.slotClock <;> simp [Config.slotBits]

/-- The events of an idle bit time as propositions, in their order (R107, R117, R118, R120, R123, R126). -/
theorem State.dueCommand_eq (s : State) [Decidable (∃ k c : Nat, s.ctu.slot = some k ∧
      s.ctu.slotClock = some c ∧ 4 * k ≤ c + 1)] :
    s.dueCommand =
      if s.rif.replyDue ≠ none ∧ 6 ≤ s.rif.idleCount + 1 then some .replyMoment
      else if s.txa.gap = true ∧ 9 ≤ s.rif.idleCount + 1 then some .trainGapEnd
      else if s.ctu.slotClock = none ∧ 16 ≤ s.rif.idleCount + 1 then some .settleGap
      else if ∃ k c : Nat, s.ctu.slot = some k ∧ s.ctu.slotClock = some c ∧ 4 * k ≤ c + 1 then
        some .slotStart
      else if s.txa.exchange = .awaitReply ∧ 24 ≤ s.rif.idleCount + 1 then some .replyTimeout
      else if s.ctu.slotClock = some 255 then some .windowLastSlotEnd
      else if s.rif.idleCount + 1 = 1024 then some .listenTimeout
      else none := by
  unfold State.dueCommand
  simp only [Bool.and_eq_true, State.nextIdle_iff, State.slotDue_iff, Option.isSome_iff_ne_none,
    Option.isNone_iff_eq_none, beq_iff_eq, Config.replyStart, Config.trainGapEnd, Config.settleGap,
    Config.replyTimeout, Config.windowBits, Config.listenTimeout]

/-- Settles O2: the event due is the first of the seven whose moment it is. -/
theorem emptyQueuePassesOneBitTime : Obligations.EmptyQueuePassesOneBitTime := by
  classical
  intro s hqueue
  rw [step_nil hqueue]
  refine ⟨State.bitTime_still, fun hopen hline => ?_⟩
  have hdue := s.dueCommand_eq
  dsimp only
  refine ⟨fun hreply => ?_, fun hreply hgap => ?_, fun hreply hgap hsettle => ?_,
    fun hreply hgap hsettle hslot => ?_, fun hreply hgap hsettle hslot htimeout => ?_,
    fun hreply hgap hsettle hslot htimeout hturn => ?_,
    fun hreply hgap hsettle hslot htimeout hturn hlisten => ?_,
    fun hreply hgap hsettle hslot htimeout hturn hlisten => ?_⟩
  · rw [if_pos hreply] at hdue
    exact State.bitTime_due hopen hline hdue
  · rw [if_neg hreply, if_pos hgap] at hdue
    exact State.bitTime_due hopen hline hdue
  · rw [if_neg hreply, if_neg hgap, if_pos hsettle] at hdue
    exact State.bitTime_due hopen hline hdue
  · rw [if_neg hreply, if_neg hgap, if_neg hsettle, if_pos hslot] at hdue
    exact State.bitTime_due hopen hline hdue
  · rw [if_neg hreply, if_neg hgap, if_neg hsettle, if_neg hslot, if_pos htimeout] at hdue
    exact State.bitTime_due hopen hline hdue
  · rw [if_neg hreply, if_neg hgap, if_neg hsettle, if_neg hslot, if_neg htimeout, if_pos hturn] at hdue
    exact State.bitTime_due hopen hline hdue
  · rw [if_neg hreply, if_neg hgap, if_neg hsettle, if_neg hslot, if_neg htimeout, if_neg hturn,
      if_pos hlisten] at hdue
    exact State.bitTime_due hopen hline hdue
  · rw [if_neg hreply, if_neg hgap, if_neg hsettle, if_neg hslot, if_neg htimeout, if_neg hturn,
      if_neg hlisten] at hdue
    exact State.bitTime_elapse hopen hline hdue

end Sys2Proof.Machine
end

