-- ==== Sys2Proof/Proofs/CommandsComplete.lean ====
section
/-! PROOF. Every command completes and leaves the queue alone (log 26). -/

namespace Sys2Proof.Machine

/-! ### When a command is taken -/

section Guards

variable {s : State} {f : State → State} (h : (f s).pending = s.pending)
include h

theorem State.onWrite_pending : (s.onWrite f).pending = s.pending := by
  unfold State.onWrite
  split
  · rfl
  · exact h

theorem State.onRead_pending : (s.onRead f).pending = s.pending := by
  unfold State.onRead
  split
  · rfl
  · exact h

theorem State.onRail_pending : (s.onRail f).pending = s.pending := State.onWrite_pending h

theorem State.onReception_pending : (s.onReception f).pending = s.pending := by
  refine State.onRail_pending ?_
  split
  · exact h
  · rfl

end Guards

section Operations

variable (s : State)

/-! ### The host's accesses -/

theorem State.takeTx_pending : s.takeTx.pending = s.pending := by
  unfold State.takeTx
  split <;> rfl

theorem State.releaseHeld_pending (h : Handle) (p : StationId) :
    (s.releaseHeld h p).pending = s.pending := by
  unfold State.releaseHeld
  dsimp only
  split <;> simp

theorem State.release_pending (w : Word) : (s.release w).pending = s.pending := by
  unfold State.release
  split
  · rfl
  · rename_i h _
    split
    case h_1 p _ => exact s.releaseHeld_pending h p
    all_goals rfl

theorem State.readWindow_pending (k : BitVec 7) : (s.readWindow k).pending = s.pending := by
  unfold State.readWindow
  split <;> rfl

theorem State.writeWindow_pending (k : BitVec 7) (w : Word) : (s.writeWindow k w).pending = s.pending := by
  unfold State.writeWindow
  split <;> rfl

theorem State.sendClaim_pending (d : StationId) : (s.sendClaim d).pending = s.pending := by
  unfold State.sendClaim
  split
  · rfl
  · split
    · rfl
    · split <;> rfl

theorem State.sendGo_pending : s.sendGo.pending = s.pending := by
  unfold State.sendGo
  split
  · rfl
  · split
    · rfl
    · rename_i dest _
      split
      · rfl
      · split
        · rfl
        · split
          case h_1 | h_2 => rfl
          all_goals exact s.sendClaim_pending dest

theorem State.inboundPop_pending : s.inboundPop.pending = s.pending := by
  unfold State.inboundPop
  split <;> rfl

theorem State.completionPop_pending : s.completionPop.pending = s.pending := by
  unfold State.completionPop
  split <;> rfl

theorem State.peerEventPop_pending : s.peerEventPop.pending = s.pending := by
  unfold State.peerEventPop
  split <;> rfl

theorem State.takeSource_pending : s.takeSource.pending = s.pending := by
  unfold State.takeSource
  split <;> rfl

theorem State.finishSource_pending : s.finishSource.pending = s.pending := by
  unfold State.finishSource
  split <;> rfl

theorem State.writeProfile_pending (reg : ProfileReg) (w : Word) :
    (s.writeProfile reg w).pending = s.pending := by
  unfold State.writeProfile
  split <;> rfl

theorem State.writeRegister_pending (addr : BitVec 9) (w : Word) :
    (s.writeRegister addr w).pending = s.pending := by
  unfold State.writeRegister
  repeat' split
  all_goals rfl

/-! ### The host's commands -/

theorem State.join_pending : s.join.pending = s.pending := by
  unfold State.join
  split
  · rfl
  · split
    · rfl
    · split <;> simp only [State.endListening_frame, State.joined]

theorem State.leave_pending : s.leave.pending = s.pending := by
  unfold State.leave
  split
  · rfl
  · split
    case h_2 => split <;> rfl
    case h_3 => simp [State.markLeave]
    all_goals rfl

theorem State.regreet_pending (n : BitVec 6) : (s.regreet n).pending = s.pending := by
  unfold State.regreet
  split
  · rfl
  · split
    · rfl
    · split <;> simp

/-! ### The line -/

theorem State.senseBusy_pending : s.senseBusy.pending = s.pending := by
  unfold State.senseBusy
  split
  · dsimp only
    split <;> rfl
  · rfl

theorem State.senseIdle_pending : s.senseIdle.pending = s.pending := by
  unfold State.senseIdle
  split <;> rfl

theorem State.settleGap_pending : s.settleGap.pending = s.pending := by
  unfold State.settleGap
  split <;> rfl

theorem State.windowTurn_pending : s.windowTurn.pending = s.pending := by
  unfold State.windowTurn
  split
  · rfl
  · split <;> rfl

theorem State.slotBegins_pending : s.slotBegins.pending = s.pending := by
  unfold State.slotBegins
  split
  · split
    · dsimp only
      split
      · rw [(State.startWork_frame _ _ _).1]
        rfl
      · rfl
    · rfl
  · rfl

theorem State.gapEnds_pending : s.gapEnds.pending = s.pending := by
  unfold State.gapEnds
  split
  · split
    · dsimp only
      split
      · rw [(State.startWork_frame _ _ _).1]
        rfl
      · rfl
    · rfl
  · rfl

theorem State.startReply_pending (d : ReplyDue) : (s.startReply d).pending = s.pending := by
  unfold State.startReply
  split
  · simp
  all_goals rfl

theorem State.replyMoment_pending : s.replyMoment.pending = s.pending := by
  unfold State.replyMoment
  split
  · rfl
  · split
    · exact s.startReply_pending _
    · rfl

theorem State.replyTimeout_pending : s.replyTimeout.pending = s.pending := by
  unfold State.replyTimeout
  split <;> simp

theorem State.listenTimeout_pending : s.listenTimeout.pending = s.pending := by
  unfold State.listenTimeout
  split <;> simp

/-! ### The station's own transmissions -/

theorem State.cutExchange_pending : s.cutExchange.pending = s.pending := by
  unfold State.cutExchange
  dsimp only
  split
  · split <;> simp
  · split <;> rfl
  all_goals rfl

theorem State.collide_pending : s.collide.pending = s.pending := by
  unfold State.collide
  split
  · simp
  · dsimp only
    rw [(State.settleLeave_frame _).1]
    split
    · rfl
    · rw [State.cutExchange_pending]
      rfl

theorem State.ownEnd_pending : s.ownEnd.pending = s.pending := by
  unfold State.ownEnd
  simp [State.stopSending]

theorem State.frameEnds_pending : s.frameEnds.pending = s.pending := by
  unfold State.frameEnds
  split
  case h_1 | h_2 | h_3 => exact s.ownEnd_pending
  case h_7 => simp
  all_goals rfl

theorem State.announceEnds_pending : s.announceEnds.pending = s.pending := by
  unfold State.announceEnds
  split
  case h_1 =>
    dsimp only
    rw [(State.decideTrain_frame _ _).1]
    split <;> exact s.ownEnd_pending
  case h_7 => simp
  all_goals rfl

theorem State.leaveEnds_pending : s.leaveEnds.pending = s.pending := by
  unfold State.leaveEnds
  split
  case h_1 => exact s.ownEnd_pending
  case h_7 => simp
  all_goals rfl

theorem State.replyEnds_pending : s.replyEnds.pending = s.pending := by
  unfold State.replyEnds
  split
  case h_1 => simp [State.stopSending]
  case h_7 => simp
  all_goals rfl

/-! ### Frames of others -/

theorem State.takeHeader_pending (h : MessageHeader) (payload : List Byte) :
    (s.takeHeader h payload).pending = s.pending := by
  unfold State.takeHeader
  dsimp only
  split
  · split
    · simp
    · rfl
  · rfl

theorem State.headerArrives_pending (h : MessageHeader) (payload : List Byte) :
    (s.headerArrives h payload).pending = s.pending := by
  unfold State.headerArrives
  split
  · exact s.takeHeader_pending h payload
  · split
    · simp
    · rfl

theorem State.frameTaken_pending (src : Byte) (kind : FrameKind) (effect : State → State)
    (outcome : Option ReplyStatus) (h : ∀ t : State, (effect t).pending = t.pending) :
    (s.frameTaken src kind effect outcome).pending = s.pending := by
  unfold State.frameTaken
  split
  · simp
  · dsimp only
    rw [(State.endAwait_frame _ _).1]
    generalize hheard : (if kind ≠ .reply ∧ (stationOf src).isSome = true then s.endListening else s) = t
    have ht : t.pending = s.pending := by
      rw [← hheard]
      split <;> simp
    split
    · rw [h, ht]
    · rw [(State.dropVerdict_frame _).1, ht]

theorem State.goodFrame_pending (src : Byte) (kind : FrameKind) (effect : State → State)
    (outcome : Option ReplyStatus) (h : ∀ t : State, (effect t).pending = t.pending) :
    (s.goodFrame src kind effect outcome).pending = s.pending := by
  rw [State.goodFrame_eq, State.frameTaken_pending _ _ _ _ _ h]
  unfold State.wonLine
  split <;> simp

theorem State.messageEffect_pending (src : Byte) : (s.messageEffect src).pending = s.pending := by
  simp [State.messageEffect]

theorem State.creditEffect_pending (src : Byte) (dst : StationId) (srcSess dstSess total : Byte) :
    (s.creditEffect src dst srcSess dstSess total).pending = s.pending := by
  unfold State.creditEffect
  dsimp only
  split
  · simp
  · split
    · split <;> simp
    · simp

theorem State.greetEffect_pending (src : Byte) (dst : StationId) (sess grant : Byte) :
    (s.greetEffect src dst sess grant).pending = s.pending := by
  unfold State.greetEffect
  dsimp only
  split
  · simp
  · split <;> simp

theorem State.announceEffect_pending (src : Byte) : (s.announceEffect src).pending = s.pending := by
  unfold State.announceEffect
  split <;> simp

theorem State.leaveEffect_pending (src : Byte) : (s.leaveEffect src).pending = s.pending := by
  unfold State.leaveEffect
  split <;> simp

theorem State.replyEffect_pending (src : Byte) : (s.replyEffect src).pending = s.pending := by
  simp [State.replyEffect]

end Operations

/-! ### Every command -/

/-- The state that a command leads to. -/
theorem exec_completes (c : Instr) (s : State) : ∃ t : State, exec c s = .next t := by
  cases c <;> exact ⟨_, rfl⟩

theorem next_pending {s u t : State} (e : (.next u : Host.Outcome State Fault Refusal) = .next t)
    (h : u.pending = s.pending) : t.pending = s.pending := by
  cases e
  exact h

theorem exec_pending {c : Instr} {s t : State} (e : exec c s = .next t) : t.pending = s.pending := by
  cases c with
  | pinResetAssert | pinResetRelease => exact next_pending e rfl
  | restart => exact next_pending e (State.onWrite_pending rfl)
  | txtakeRead => exact next_pending e (State.onRead_pending s.takeTx_pending)
  | releaseWrite w => exact next_pending e (State.onWrite_pending (s.release_pending w))
  | windowRead k => exact next_pending e (State.onRead_pending (s.readWindow_pending k))
  | windowWrite k w => exact next_pending e (State.onWrite_pending (s.writeWindow_pending k w))
  | sendGoWrite => exact next_pending e (State.onWrite_pending s.sendGo_pending)
  | inboundPopRead => exact next_pending e (State.onRead_pending s.inboundPop_pending)
  | completionPopRead => exact next_pending e (State.onRead_pending s.completionPop_pending)
  | peerEventPopRead => exact next_pending e (State.onRead_pending s.peerEventPop_pending)
  | attentionRead => exact next_pending e (State.onRead_pending s.takeSource_pending)
  | finishWrite => exact next_pending e (State.onWrite_pending s.finishSource_pending)
  | stateChangeRead => exact next_pending e (State.onRead_pending rfl)
  | profileWrite reg w => exact next_pending e (State.onWrite_pending (s.writeProfile_pending reg w))
  | registerWrite addr w => exact next_pending e (State.onWrite_pending (s.writeRegister_pending addr w))
  | join => exact next_pending e (State.onWrite_pending s.join_pending)
  | leave => exact next_pending e (State.onWrite_pending s.leave_pending)
  | regreet n => exact next_pending e (State.onWrite_pending (s.regreet_pending n))
  | attnEnableWrite | clearFault | clearFlags | unusedCommandCode =>
    exact next_pending e (State.onWrite_pending rfl)
  | lineBusy => exact next_pending e (State.onRail_pending s.senseBusy_pending)
  | lineIdle => exact next_pending e (State.onRail_pending s.senseIdle_pending)
  | settleGap => exact next_pending e (State.onRail_pending s.settleGap_pending)
  | windowLastSlotEnd => exact next_pending e (State.onRail_pending s.windowTurn_pending)
  | slotStart => exact next_pending e (State.onRail_pending s.slotBegins_pending)
  | trainGapEnd => exact next_pending e (State.onRail_pending s.gapEnds_pending)
  | collision => exact next_pending e (State.onRail_pending s.collide_pending)
  | ownFrameEnd => exact next_pending e (State.onRail_pending s.frameEnds_pending)
  | ownAnnounceEnd => exact next_pending e (State.onRail_pending s.announceEnds_pending)
  | ownLeaveEnd => exact next_pending e (State.onRail_pending s.leaveEnds_pending)
  | ownReplyEnd => exact next_pending e (State.onRail_pending s.replyEnds_pending)
  | replyMoment => exact next_pending e (State.onRail_pending s.replyMoment_pending)
  | replyTimeout => exact next_pending e (State.onRail_pending s.replyTimeout_pending)
  | listenTimeout => exact next_pending e (State.onRail_pending s.listenTimeout_pending)
  | messageHeader h payload => exact next_pending e (State.onRail_pending (s.headerArrives_pending h payload))
  | messageFrameEnd src =>
    exact next_pending e (State.onReception_pending (s.goodFrame_pending src _ _ _ fun t =>
      t.messageEffect_pending src))
  | creditFrameEnd src dst a b total =>
    exact next_pending e (State.onReception_pending (s.goodFrame_pending src _ _ _ fun t =>
      t.creditEffect_pending src dst a b total))
  | greetFrameEnd src dst a b =>
    exact next_pending e (State.onReception_pending (s.goodFrame_pending src _ _ _ fun t =>
      t.greetEffect_pending src dst a b))
  | announceFrameEnd src =>
    exact next_pending e (State.onReception_pending (s.goodFrame_pending src _ _ _ fun t =>
      t.announceEffect_pending src))
  | leaveFrameEnd src =>
    exact next_pending e (State.onReception_pending (s.goodFrame_pending src _ _ _ fun t =>
      t.leaveEffect_pending src))
  | replyFrameEnd src =>
    exact next_pending e (State.onReception_pending (s.goodFrame_pending src _ _ _ fun t =>
      t.replyEffect_pending src))
  | unknownKindFrameEnd | badFrameEnd => exact next_pending e (State.onReception_pending (by simp))

/-- Settles O3, by the command and by the queue of a step. -/
theorem everyCommandCompletes : Obligations.EveryCommandCompletes := by
  refine ⟨fun c s => ?_, fun s => ?_⟩
  · obtain ⟨t, e⟩ := exec_completes c s
    exact ⟨t, e, exec_pending e⟩
  · unfold step
    split
    · exact exec_completes _ _
    · unfold State.bitTime
      split
      · split
        · exact exec_completes _ _
        · exact ⟨_, rfl⟩
      · exact ⟨_, rfl⟩

end Sys2Proof.Machine
end

