-- ==== Sys2Proof/Proofs/Resets.lean ====
section
/-! PROOF. The state after the resets (R152): the values right after pin reset, the two ends of a pin reset, and
the invariants that the reset state satisfies. -/

namespace Sys2Proof.Machine

/-! ### Records and handles that are cleared -/

/-- The records that a reset leaves: SELF at the station's own identity and nothing else. -/
theorem State.peer_of_clear {s : State} {sid : StationId} (hssu : s.ssu = Ssu.clear sid) (p : StationId) :
    s.peer p = if p = sid then { Peer.fresh 0 with state := .self } else Peer.fresh 0 := by
  rw [State.peer, hssu]
  exact freshPeers_getElem sid (fun _ => 0) p

theorem reserveRegs_afterPinReset (sid : StationId) (rate : BitVec 2) (p : StationId) :
    (Stc.afterPinReset sid rate).reserveRegs[p] = 3 := by
  simp only [Stc.afterPinReset, Fin.getElem_fin, Vector.getElem_replicate]

theorem Rif.clear_eq (active : Bool) :
    Rif.clear active =
      { line := if active then .busy else .idle, idleCount := if active then 0 else 1,
        reception := none, transmit := none, replyDue := none, broken := none } := rfl

/-- The line of a reset that finds the line as it stands (R107). -/
theorem Rif.clear_line (r : Rif) :
    Rif.clear (r.line == .busy) =
      { line := r.line, idleCount := if r.line = .busy then 0 else 1, reception := none,
        transmit := none, replyDue := none, broken := none } := by
  rw [Rif.clear_eq]
  cases r.line <;> rfl

theorem reset_peer (p : StationId) :
    State.reset.peer p = if p = 0 then { Peer.fresh 0 with state := .self } else Peer.fresh 0 :=
  State.peer_of_clear (sid := 0) rfl p

/-- Settles O4, block by block. -/
theorem resetStateAsTheRulesGive : Obligations.ResetStateAsTheRulesGive := by
  refine ⟨⟨rfl, rfl⟩, rfl, rfl, rfl, ⟨rfl, ?_, fun p hp => ?_⟩, rfl, ⟨rfl, rfl, rfl, fun _ => rfl, ?_⟩, rfl,
    rfl, ⟨rfl, rfl, rfl, rfl, ?_, rfl, rfl, rfl, rfl⟩, rfl, rfl⟩
  · rw [reset_peer, if_pos rfl]
  · rw [reset_peer, if_neg hp]
    rfl
  · exact fun h => State.handle_of_clear (mem := []) rfl h
  · exact reserveRegs_afterPinReset _ _

/-! ### The pins -/

theorem hostRead_low {s : State} (hlow : s.resetLow = true) (addr : BitVec 9) : hostRead s addr = 0 := by
  rw [hostRead, if_pos hlow]

theorem State.atnAsserted_low {s : State} (hlow : s.resetLow = true) : s.atnAsserted = false := by
  rw [State.atnAsserted, hlow]
  rfl

/-- A host write does nothing while RESET# is held low (R152). -/
theorem exec_hostWrite_low {s : State} (hlow : s.resetLow = true) (addr : BitVec 9) (w : Word) :
    exec (hostWriteCommand addr w) s = .next s := by
  have hwrite (f : State → State) : (.next (s.onWrite f) : Host.Outcome State Fault Refusal) = .next s :=
    congrArg _ (State.onWrite_low hlow f)
  unfold hostWriteCommand commandOfWord
  dsimp only
  repeat' split
  all_goals exact hwrite _

/-- A host read drives 0 and does nothing else while RESET# is held low (R152, R169). -/
theorem exec_hostRead_low {s : State} (hlow : s.resetLow = true) {addr : BitVec 9} {c : Instr}
    (hcommand : hostReadCommand addr = some c) :
    exec c s = .next { s with hpu := { s.hpu with readData := 0 } } := by
  have hread (f : State → State) :
      (.next (s.onRead f) : Host.Outcome State Fault Refusal) = .next (s.drive 0) :=
    congrArg _ (State.onRead_low hlow f)
  unfold hostReadCommand at hcommand
  repeat' split at hcommand
  all_goals cases hcommand
  all_goals exact hread _

/-- Settles O5: each block after the release, each block while RESET# is low, and the host's accesses. -/
theorem pinResetBringsTheResetState : Obligations.PinResetBringsTheResetState := by
  refine ⟨⟨fun s sid rate active => ?_, fun s => ?_⟩, fun s hlow => ?_⟩
  · exact ⟨s.afterPinReset sid rate active, rfl, rfl, rfl, rfl, rfl, rfl, rfl, rfl, rfl, rfl, rfl, rfl,
      rfl, rfl, State.peer_of_clear rfl⟩
  · exact ⟨s.heldInReset, rfl, rfl, rfl, Rif.clear_line s.rif, rfl, rfl, rfl, rfl, rfl, rfl, rfl, rfl, rfl,
      rfl, State.peer_of_clear rfl, State.atnAsserted_low rfl, hostRead_low rfl⟩
  · exact ⟨exec_hostWrite_low hlow, fun _ _ => exec_hostRead_low hlow, hostRead_low hlow⟩

/-! ### The invariants -/

theorem reset_lineConsistent : State.reset.LineConsistent :=
  LineView.Consistent.clear (w := State.reset.lineView) false rfl rfl

theorem reset_arbiterConsistent : State.reset.ArbiterConsistent :=
  ⟨⟨fun _ => rfl, fun _ => rfl⟩, nofun, fun _ => rfl, nofun, fun ⟨_, h, _⟩ => nomatch h⟩

theorem reset_pendingMatchesState : State.reset.PendingMatchesState :=
  ⟨nofun, ⟨nofun, nofun⟩, ⟨nofun, nofun⟩, nofun, nofun, nofun, fun h => absurd rfl h,
    fun h => absurd rfl h⟩

theorem reset_agrees : State.reset.RecordsMatchLists ∧ State.reset.RoomKept :=
  (State.fits_iff _).mp (State.Fits.of_fresh (r := fun _ => 0) rfl rfl rfl)

/-- Settles O17: nothing is listed, counted or on the line. -/
theorem invariantsHoldAtReset : Obligations.InvariantsHoldAtReset :=
  ⟨Memory.wf_nil, .of_clear rfl rfl rfl, .of_clear rfl rfl, .inl (State.handle_of_clear rfl), .of_clear rfl,
    .of_fresh rfl fun _ => Nat.zero_le _, .of_nil rfl rfl rfl, reset_lineConsistent, fun h => absurd rfl h,
    fun h => absurd rfl h, reset_arbiterConsistent, fun _ => rfl, reset_pendingMatchesState, reset_agrees.1,
    reset_agrees.2, nofun, nofun⟩

end Sys2Proof.Machine
end

