-- ==== Sys2Proof/Proofs/BusCycles.lean ====
section
/-! PROOF. Bus cycles (R169) and the commands that they stand for (R171, R173, R183). -/

namespace Sys2Proof

/-! ### Addresses -/

theorem hostWriteCommand_window {addr : BitVec 9} (h : addr.toNat < 0x080) (w : Word) :
    hostWriteCommand addr w = .windowWrite (addr.extractLsb' 0 7) w := by
  rw [hostWriteCommand, if_pos h]

theorem hostReadCommand_window {addr : BitVec 9} (h : addr.toNat < 0x080) :
    hostReadCommand addr = some (.windowRead (addr.extractLsb' 0 7)) := by
  rw [hostReadCommand, if_pos h]

theorem windowAddress_toNat (k : BitVec 7) : (k.setWidth 9).toNat = k.toNat := by
  rw [BitVec.toNat_setWidth]
  exact Nat.mod_eq_of_lt (by omega)

theorem windowAddress_index (k : BitVec 7) : (k.setWidth 9).extractLsb' 0 7 = k := by
  apply BitVec.eq_of_toNat_eq
  rw [BitVec.extractLsb'_toNat, windowAddress_toNat, Nat.shiftRight_zero]
  exact Nat.mod_eq_of_lt k.isLt

/-- The reserve registers share their address with no other row (R171). -/
theorem hostWriteCommand_reserve {addr : BitVec 9} (hlow : 0x160 ≤ addr.toNat) (hhigh : addr.toNat ≤ 0x17F)
    (w : Word) : hostWriteCommand addr w = .profileWrite (.reserve (reserveIndex addr)) w := by
  unfold hostWriteCommand
  rw [if_neg (by omega), if_neg (by bv_omega), if_neg (by bv_omega), if_neg (by bv_omega),
    if_neg (by bv_omega), if_neg (by bv_omega), if_neg (by bv_omega), if_neg (by bv_omega),
    if_pos ⟨hlow, hhigh⟩]

theorem reserveAddress_toNat (p : StationId) : (0x160 + BitVec.ofNat 9 p.val : BitVec 9).toNat = 0x160 + p.val := by
  have hp := p.isLt
  bv_omega

theorem reserveAddress_index (p : StationId) : reserveIndex (0x160 + BitVec.ofNat 9 p.val) = p := by
  apply Fin.ext
  rw [reserveIndex]
  dsimp only
  rw [reserveAddress_toNat]
  have hp := p.isLt
  omega

theorem hostWriteCommand_reserveAddress (p : StationId) (w : Word) :
    hostWriteCommand (0x160 + BitVec.ofNat 9 p.val) w = .profileWrite (.reserve p) w := by
  have hp := p.isLt
  rw [hostWriteCommand_reserve (by rw [reserveAddress_toNat]; omega) (by rw [reserveAddress_toNat]; omega),
    reserveAddress_index]

/-! ### The word written to COMMAND -/

theorem commandCode_eq (w : Word) : w.extractLsb' 0 4 = BitVec.ofNat 4 (w.toNat % 16) := by
  apply BitVec.eq_of_toNat_eq
  simp

theorem commandPeer_eq (w : Word) : w.extractLsb' 8 6 = BitVec.ofNat 6 (w.toNat / 256 % 64) := by
  apply BitVec.eq_of_toNat_eq
  simp [Nat.shiftRight_eq_div_pow]

theorem commandOfWord_eq (w : Word) :
    commandOfWord w =
      match w.toNat % 16 with
      | 1 => .join
      | 2 => .leave
      | 3 => .restart
      | 4 => .regreet (BitVec.ofNat 6 (w.toNat / 256 % 64))
      | 5 => .clearFault
      | 6 => .clearFlags
      | n => .unusedCommandCode (BitVec.ofNat 4 n) := by
  have hcode : w.toNat % 16 < 16 := Nat.mod_lt _ (by decide)
  rw [commandOfWord, commandCode_eq, commandPeer_eq]
  generalize w.toNat % 16 = n at *
  interval_cases n <;> rfl

theorem commandOfWord_wf (w : Word) : (commandOfWord w).wf = true := by
  rw [commandOfWord_eq]
  have hcode : w.toNat % 16 < 16 := Nat.mod_lt _ (by decide)
  generalize w.toNat % 16 = n at *
  interval_cases n <;> rfl

/-! ### Rows of their own -/

theorem hostWriteCommand_register {addr : BitVec 9} (h : ownWriteRow addr = false) (w : Word) :
    hostWriteCommand addr w = .registerWrite addr w := by
  simp only [ownWriteRow, Bool.or_eq_false_iff, Bool.and_eq_false_iff, decide_eq_false_iff_not,
    beq_eq_false_iff_ne] at h
  obtain ⟨⟨⟨⟨⟨⟨⟨⟨hwindow, hcommand⟩, hrelease⟩, hsend⟩, hfinish⟩, henable⟩, hretry⟩, htrain⟩, hreserve⟩ := h
  unfold hostWriteCommand
  rw [if_neg hwindow, if_neg hcommand, if_neg hrelease, if_neg hsend, if_neg hfinish, if_neg henable,
    if_neg hretry, if_neg htrain, if_neg (by omega)]

theorem hostWriteCommand_wf (addr : BitVec 9) (w : Word) : (hostWriteCommand addr w).wf = true := by
  cases hrow : ownWriteRow addr with
  | false =>
    rw [hostWriteCommand_register hrow, Instr.wf, hrow]
    rfl
  | true =>
    simp only [ownWriteRow, Bool.or_eq_true, Bool.and_eq_true, decide_eq_true_eq, beq_iff_eq] at hrow
    rcases hrow with
      (((((((hwindow | rfl) | rfl) | rfl) | rfl) | rfl) | rfl) | rfl) | ⟨hlow, hhigh⟩
    case inl.inl.inl.inl.inl.inl.inl.inl =>
      rw [hostWriteCommand_window hwindow]
      rfl
    case inl.inl.inl.inl.inl.inl.inl.inr => exact commandOfWord_wf w
    case true.inr =>
      rw [hostWriteCommand_reserve hlow hhigh]
      rfl
    all_goals rfl

namespace Machine

/-! ### The pins of a cycle -/

theorem BusPins.reads_iff (p : BusPins) : p.reads = true ↔ p.cs = .low ∧ p.rd = .low ∧ p.wr = .high := by
  simp [BusPins.reads, and_assoc]

theorem BusPins.writes_iff (p : BusPins) : p.writes = true ↔ p.cs = .low ∧ p.wr = .low ∧ p.rd = .high := by
  simp [BusPins.writes, and_assoc]

theorem BusPins.not_reads {p : BusPins} (h : p.cs = .high ∨ p.rd = .high ∨ p.wr = .low) :
    ¬ p.reads = true := by
  rw [p.reads_iff]
  rintro ⟨hcs, hrd, hwr⟩
  rcases h with h | h | h <;> simp_all

theorem BusPins.not_writes {p : BusPins} (h : p.cs = .high ∨ p.wr = .high ∨ p.rd = .low) :
    ¬ p.writes = true := by
  rw [p.writes_iff]
  rintro ⟨hcs, hwr, hrd⟩
  rcases h with h | h | h <;> simp_all

section Cycles

variable (s : State) {p : BusPins}

/-- A read cycle is taken at its beginning and holds its value (R169). -/
theorem BusCycle.onPins_reads (h : p.reads = true) :
    BusCycle.idle.onPins s p = (.reading (s.readValue p.addr), some (.read p.addr)) ∧
      BusCycle.abandonedRead.onPins s p = (.abandonedRead, none) ∧
      ∀ v : Word, (BusCycle.reading v).onPins s p = (.reading v, none) := by
  simp [BusCycle.onPins, BusPins.begin, h]

theorem BusCycle.onPins_writes (h : p.writes = true) (hread : ¬ p.reads = true) :
    BusCycle.idle.onPins s p = (.writing, none) ∧ BusCycle.writing.onPins s p = (.writing, none) ∧
      BusCycle.abandonedWrite.onPins s p = (.abandonedWrite, none) := by
  simp [BusCycle.onPins, BusPins.begin, h, hread]

theorem BusCycle.onPins_none (hread : ¬ p.reads = true) (hwrite : ¬ p.writes = true) :
    BusCycle.idle.onPins s p = (.idle, none) := by
  simp [BusCycle.onPins, BusPins.begin, hread, hwrite]

theorem BusCycle.onPins_readEnds (h : ¬ p.reads = true) :
    BusCycle.abandonedRead.onPins s p = (.idle, none) ∧
      ∀ v : Word, (BusCycle.reading v).onPins s p = (.idle, none) := by
  simp [BusCycle.onPins, h]

/-- A write cycle is taken at its end, with the address and data of that moment (R169). -/
theorem BusCycle.onPins_writeEnds (h : ¬ p.writes = true) (hlevels : ¬ (p.cs = .low ∧ p.wr = .low)) :
    BusCycle.writing.onPins s p = (.idle, some (.write p.addr p.data)) := by
  simp only [BusCycle.onPins, if_neg h, if_neg hlevels]

/-- A write that RD# joins takes nothing (log 32). -/
theorem BusCycle.onPins_writeJoined (h : ¬ p.writes = true) (hlevels : p.cs = .low ∧ p.wr = .low) :
    BusCycle.writing.onPins s p = (.idle, none) := by
  simp only [BusCycle.onPins, if_neg h, if_pos hlevels]

theorem BusCycle.onPins_abandonedWriteEnds (h : ¬ p.writes = true) :
    BusCycle.abandonedWrite.onPins s p = (.idle, none) := by
  simp [BusCycle.onPins, h]

end Cycles

/-- Settles O6: the cycle by its levels, and the command by its address. -/
theorem busCyclesStandForCommands : Obligations.BusCyclesStandForCommands := by
  refine ⟨⟨fun s p => ⟨?_, ?_, ?_, ?_, ?_, ?_, ?_⟩, fun v => ?_, fun s addr => ?_⟩, ?_, ?_, ?_, ?_, ?_⟩
  · exact fun hcs hrd hwr => BusCycle.onPins_reads s (p.reads_iff.mpr ⟨hcs, hrd, hwr⟩)
  · exact fun hcs hwr hrd => BusCycle.onPins_writes s (p.writes_iff.mpr ⟨hcs, hwr, hrd⟩)
      (BusPins.not_reads (.inr (.inl hrd)))
  · rintro (hcs | hequal)
    · exact BusCycle.onPins_none s (BusPins.not_reads (.inl hcs)) (BusPins.not_writes (.inl hcs))
    · cases hrd : p.rd with
      | low =>
        exact BusCycle.onPins_none s (BusPins.not_reads (.inr (.inr (hequal ▸ hrd))))
          (BusPins.not_writes (.inr (.inr hrd)))
      | high =>
        exact BusCycle.onPins_none s (BusPins.not_reads (.inr (.inl hrd)))
          (BusPins.not_writes (.inr (.inl (hequal ▸ hrd))))
  · exact fun h => BusCycle.onPins_readEnds s (BusPins.not_reads h)
  · rintro h
    refine BusCycle.onPins_writeEnds s (BusPins.not_writes (h.imp_right .inl)) ?_
    rintro ⟨hcs, hwr⟩
    rcases h with h | h <;> simp_all
  · exact fun hcs hwr hrd => BusCycle.onPins_writeJoined s (BusPins.not_writes (.inr (.inr hrd))) ⟨hcs, hwr⟩
  · exact fun h => BusCycle.onPins_abandonedWriteEnds s (BusPins.not_writes h)
  · exact ⟨⟨rfl, rfl, rfl, rfl, rfl⟩, rfl, rfl, rfl, rfl, rfl⟩
  · exact ⟨rfl, fun _ => rfl, State.readValue_of_none, fun _ _ => State.readValue_of_command⟩
  · intro k w
    have hlow : (k.setWidth 9).toNat < 0x080 := by
      rw [windowAddress_toNat]
      exact k.isLt
    rw [hostWriteCommand_window hlow, hostReadCommand_window hlow, windowAddress_index]
    exact ⟨rfl, rfl⟩
  · exact fun w => ⟨rfl, rfl, rfl, rfl, rfl, rfl, fun p => hostWriteCommand_reserveAddress p w⟩
  · exact commandOfWord_eq
  · exact ⟨rfl, rfl, rfl, rfl, rfl, rfl⟩
  · exact fun addr w => ⟨fun h => hostWriteCommand_register h w, hostWriteCommand_wf addr w⟩

end Machine

end Sys2Proof
end

