-- ==== Sys2Proof/Proofs/Registers.lean ====
section
/-! PROOF. The registers of the host port: STATE_CHANGE and the enables (R156, R158), the writes and reads of the
registers (R67, R171, R177), the profile registers (R141), and the words that a read packs (R172, R178, R183). -/

namespace Sys2Proof.Machine

/-! ### Fields of a word -/

theorem append_toNat {m n : Nat} (x : BitVec m) (y : BitVec n) :
    (x ++ y).toNat = 2 ^ n * x.toNat + y.toNat := by
  rw [BitVec.toNat_append, Nat.mul_comm, ← Nat.shiftLeft_eq, Nat.shiftLeft_add_eq_or_of_lt y.isLt]

theorem fieldWord_toNat {n : Nat} (hn : n ≤ 16) (v : BitVec n) : (fieldWord v).toNat = v.toNat := by
  rw [fieldWord, BitVec.toNat_setWidth]
  exact Nat.mod_eq_of_lt (lt_of_lt_of_le v.isLt (Nat.pow_le_pow_right (by decide) hn))

theorem packWord_toNat (hi lo : Byte) : (packWord hi lo).toNat = 256 * hi.toNat + lo.toNat :=
  append_toNat hi lo

theorem levelWord_toNat {a b : Nat} (ha : a < 256) (hb : b < 256) : (levelWord a b).toNat = 256 * a + b := by
  rw [levelWord, packWord_toNat, BitVec.toNat_ofNat, BitVec.toNat_ofNat, Nat.mod_eq_of_lt ha,
    Nat.mod_eq_of_lt hb]

theorem stationWord_toNat (p : StationId) : (stationWord p).toNat = p.val := by
  rw [stationWord, BitVec.toNat_ofNat]
  exact Nat.mod_eq_of_lt (by omega)

theorem ofBool_toNat (b : Bool) : (BitVec.ofBool b).toNat = if b = true then 1 else 0 := by
  cases b <;> rfl

theorem station_toNat (p : StationId) : (BitVec.ofNat 5 p.val).toNat = p.val :=
  Nat.mod_eq_of_lt p.isLt

/-! ### STATE_CHANGE and the enables -/

theorem stateChangeWord_eq (s : State) :
    stateChangeWord s = BitVec.ofNat 16 (s.stc.state.code.toNat + if s.stc.latch = true then 16 else 0) := by
  unfold stateChangeWord
  cases s.stc.state <;> cases s.stc.latch <;> rfl

/-- Settles O26: the word that the read drives, and the low five bits of the word written. -/
theorem stateChangeReadAndEnables : Obligations.StateChangeReadAndEnables := by
  intro s hopen
  refine ⟨?_, fun w => ⟨w.extractLsb' 0 5, ?_, fun n => ?_⟩⟩
  · rw [← stateChangeWord_eq]
    exact congrArg _ (State.onRead_open hopen State.takeStateChange)
  · exact congrArg _ (State.onWrite_open hopen fun t => t.setEnables w)
  · rw [BitVec.getLsbD_extractLsb']
    simp

/-! ### Writes of the registers -/

theorem exec_registerWrite_open {s : State} (hopen : s.resetLow = false) (addr : BitVec 9) (w : Word) :
    exec (.registerWrite addr w) s = .next (s.writeRegister addr w) :=
  congrArg _ (State.onWrite_open hopen fun t => t.writeRegister addr w)

theorem exec_profileWrite_open {s : State} (hopen : s.resetLow = false) (reg : ProfileReg) (w : Word) :
    exec (.profileWrite reg w) s = .next (s.writeProfile reg w) :=
  congrArg _ (State.onWrite_open hopen fun t => t.writeProfile reg w)

/-- A write at any other address changes nothing (R171). -/
theorem State.writeRegister_other (s : State) {addr : BitVec 9} (w : Word) (hwinsel : addr ≠ 0x104)
    (hhandle : addr ≠ 0x110) (hdest : addr ≠ 0x111) (hlength : addr ≠ 0x112) (htag : addr ≠ 0x113)
    (hflags : addr ≠ 0x114) (hselect : addr ≠ 0x130) : s.writeRegister addr w = s := by
  rw [State.writeRegister, if_neg hwinsel, if_neg hhandle, if_neg hdest, if_neg hlength, if_neg htag,
    if_neg hflags, if_neg hselect]

theorem registerWord_peerSelect (s : State) : registerWord s 0x130 = stationWord s.hpu.peerSelect := rfl

/-- Settles O28: each register takes its field, and a read gives it back. -/
theorem registerWritesStoreTheirFields : Obligations.RegisterWritesStoreTheirFields := by
  intro s w hopen
  have hwrite (addr : BitVec 9) := exec_registerWrite_open hopen addr w
  refine ⟨hwrite 0x110, hwrite 0x111, hwrite 0x112, hwrite 0x113, hwrite 0x114,
    ⟨lowStation w, rfl, hwrite 0x130⟩, ⟨rfl, rfl, rfl, rfl, rfl, ?_⟩, ?_⟩
  · rw [registerWord_peerSelect, stationWord_toNat]
  · intro addr hwinsel hhandle hdest hlength htag hflags hselect
    rw [hwrite, s.writeRegister_other w hwinsel hhandle hdest hlength htag hflags hselect]

/-! ### The profile registers -/

theorem extractLow_eq (n : Nat) (w : Word) : w.extractLsb' 0 n = BitVec.ofNat n w.toNat := by
  apply BitVec.eq_of_toNat_eq
  simp

theorem State.writeProfile_offline {s : State} (h : s.stc.state = .offline) (reg : ProfileReg) (w : Word) :
    s.writeProfile reg w = { s with stc := s.stc.storeProfile reg w } := by
  rw [State.writeProfile, if_pos h]

theorem State.writeProfile_locked {s : State} (h : s.stc.state ≠ .offline) (reg : ProfileReg) (w : Word) :
    s.writeProfile reg w = { s with stc := { s.stc with profileLocked := true } } := by
  rw [State.writeProfile, if_neg h]
  rfl

theorem registerWord_retry (s : State) : registerWord s 0x150 = fieldWord s.stc.retryReg := rfl

theorem registerWord_train (s : State) : registerWord s 0x151 = fieldWord s.stc.trainReg := rfl

theorem registerWord_reserve (s : State) (p : StationId) :
    registerWord s (0x160 + BitVec.ofNat 9 p.val) = fieldWord s.stc.reserveRegs[p] := by
  have haddr := reserveAddress_toNat p
  have hp := p.isLt
  generalize (0x160 + BitVec.ofNat 9 p.val : BitVec 9) = addr at haddr
  have hindex : addr.toNat % 32 = p.val := by omega
  unfold registerWord
  iterate 28 rw [if_neg (by bv_omega)]
  rw [if_pos (by omega)]
  congr 1
  exact getElem_congr_idx hindex

/-- Settles O31: the write by the station state, the reads by their addresses. -/
theorem profileWritesAreStoredInOffline : Obligations.ProfileWritesAreStoredInOffline := by
  intro s w hopen
  refine ⟨fun hoffline => ?_, fun hstate reg => ?_, ?_, ?_, fun p => ?_⟩
  · have hwrite (reg : ProfileReg) :=
      (exec_profileWrite_open hopen reg w).trans (congrArg _ (State.writeProfile_offline hoffline reg w))
    rw [← extractLow_eq, ← extractLow_eq, ← extractLow_eq]
    exact ⟨hwrite .retry, hwrite .train, fun p => hwrite (.reserve p)⟩
  · rw [exec_profileWrite_open hopen, State.writeProfile_locked hstate]
  · rw [registerWord_retry, fieldWord_toNat (by decide)]
  · rw [registerWord_train, fieldWord_toNat (by decide)]
  · rw [registerWord_reserve, fieldWord_toNat (by decide)]

/-! ### The words that a read packs -/

theorem statusWord_toNat (s : State) :
    (statusWord s).toNat =
      s.stc.state.code.toNat + (if s.stc.leaveMark = true then 8 else 0)
        + (if s.stc.latch = true then 16 else 0) + (if s.hpu.windowMisuse = true then 32 else 0)
        + (if s.stc.profileLocked = true then 64 else 0) + (if s.cru.demand = true then 128 else 0)
        + (if s.ctu.kind = .rotation then 256 else 0) + (if s.ctu.lwKnown = true then 512 else 0)
        + 1024 * s.ctu.lw.val := by
  have hkind : (s.ctu.kind == .rotation) = true ↔ s.ctu.kind = .rotation := beq_iff_eq
  simp only [statusWord, append_toNat, ofBool_toNat, station_toNat, hkind]
  simp only [BitVec.toNat_ofNat]
  split_ifs <;> omega

theorem registerWord_status (s : State) : registerWord s 0x100 = statusWord s := rfl

theorem registerWord_freeLevels (s : State) :
    registerWord s 0x180 = levelWord s.bfm.txFree.length s.bfm.rxFree.length := rfl

theorem registerWord_sendLevels (s : State) :
    registerWord s 0x181 = levelWord s.snu.sendList.length s.snu.completions.length := rfl

theorem registerWord_eventLevels (s : State) :
    registerWord s 0x182 = levelWord s.rxu.inbound.length s.atu.peerEvents.length := rfl

theorem registerWord_sessionLevels (s : State) :
    registerWord s 0x183 = levelWord s.cru.list.length s.ssu.greetList.length := rfl

/-- A list of different stations has at most 32 entries. -/
theorem nodup_length_le {n : Nat} {l : List (Fin n)} (h : l.Nodup) : l.length ≤ n := by
  simpa using h.length_le_card

theorem State.eventLevels_lt {s : State} (hone : s.OneEntryPerPeer) (hpool : s.PoolConsistent) :
    s.rxu.inbound.length < 256 ∧ s.atu.peerEvents.length < 256 := by
  obtain ⟨-, -, hevents, -⟩ := hone
  obtain ⟨-, -, -, ⟨hinbound, -⟩, -⟩ := hpool
  have h := nodup_length_le hevents
  have k := nodup_length_le hinbound
  rw [List.length_map] at h k
  omega

theorem State.sessionLevels_lt {s : State} (hone : s.OneEntryPerPeer) :
    s.cru.list.length < 256 ∧ s.ssu.greetList.length < 256 := by
  obtain ⟨hgreet, hcredit, -, -⟩ := hone
  have h := nodup_length_le hgreet
  have k := nodup_length_le hcredit
  omega

/-- Every address that no register stands at, and every write-only one (R171). -/
def UnmappedRead (addr : BitVec 9) : Prop :=
  (0x080 ≤ addr.toNat ∧ addr.toNat < 0x100) ∨ (0x105 ≤ addr.toNat ∧ addr.toNat ≤ 0x107) ∨
    (0x10B ≤ addr.toNat ∧ addr.toNat ≤ 0x10F) ∨ addr.toNat = 0x117 ∨
    (0x11D ≤ addr.toNat ∧ addr.toNat ≤ 0x11F) ∨ (0x125 ≤ addr.toNat ∧ addr.toNat ≤ 0x127) ∨
    (0x12B ≤ addr.toNat ∧ addr.toNat ≤ 0x12F) ∨ (0x138 ≤ addr.toNat ∧ addr.toNat ≤ 0x13F) ∨
    (0x144 ≤ addr.toNat ∧ addr.toNat ≤ 0x147) ∨ (0x14D ≤ addr.toNat ∧ addr.toNat ≤ 0x14F) ∨
    (0x153 ≤ addr.toNat ∧ addr.toNat ≤ 0x15F) ∨ 0x184 ≤ addr.toNat ∨
    addr.toNat = 0x102 ∨ addr.toNat = 0x109 ∨ addr.toNat = 0x115 ∨ addr.toNat = 0x141

theorem UnmappedRead.readCommand {addr : BitVec 9} (h : UnmappedRead addr) : hostReadCommand addr = none := by
  unfold UnmappedRead at h
  unfold hostReadCommand
  repeat rw [if_neg (by bv_omega)]

theorem UnmappedRead.registerWord {addr : BitVec 9} (h : UnmappedRead addr) (s : State) :
    registerWord s addr = 0 := by
  unfold UnmappedRead at h
  unfold Machine.registerWord
  repeat rw [if_neg (by bv_omega)]

theorem UnmappedRead.hostRead {addr : BitVec 9} (h : UnmappedRead addr) (s : State) :
    hostRead s addr = 0 := by
  rw [Machine.hostRead, h.registerWord, ite_self]

theorem registerWord_ident_toNat (s : State) :
    (registerWord s 0x152).toNat = s.stc.sid.val + 256 * s.stc.rate.toNat := by
  rw [show registerWord s 0x152 = identWord s from rfl, identWord, fieldWord_toNat (by decide), append_toNat,
    append_toNat, station_toNat]
  simp
  omega

theorem registerWord_event_toNat (s : State) :
    (registerWord s 0x12A).toNat = 256 * s.hpu.peReason.toNat + s.hpu.peChanges.toNat := by
  rw [show registerWord s 0x12A = fieldWord (s.hpu.peReason ++ s.hpu.peChanges) from rfl,
    fieldWord_toNat (by decide), append_toNat]
  rfl

/-! ### The fault view and the peer view -/

theorem registerWord_fault (s : State) :
    registerWord s 0x148 = faultViewWord s.atu.fault 0 ∧ registerWord s 0x149 = faultViewWord s.atu.fault 1 ∧
      registerWord s 0x14A = faultViewWord s.atu.fault 2 ∧ registerWord s 0x14B = faultViewWord s.atu.fault 3 ∧
      registerWord s 0x14C = faultViewWord s.atu.fault 4 :=
  ⟨rfl, rfl, rfl, rfl, rfl⟩

theorem registerWord_peerView (s : State) {addr : BitVec 9} (hlow : 0x131 ≤ addr.toNat)
    (hhigh : addr.toNat ≤ 0x137) :
    registerWord s addr = peerViewWord (viewedPeer s) (addr.toNat - 0x131) := by
  unfold registerWord
  iterate 21 rw [if_neg (by bv_omega)]
  rw [if_pos ⟨hlow, hhigh⟩]

theorem registerWord_peer (s : State) :
    registerWord s 0x131 = peerViewWord (viewedPeer s) 0 ∧ registerWord s 0x132 = peerViewWord (viewedPeer s) 1 ∧
      registerWord s 0x133 = peerViewWord (viewedPeer s) 2 ∧
      registerWord s 0x134 = peerViewWord (viewedPeer s) 3 ∧
      registerWord s 0x135 = peerViewWord (viewedPeer s) 4 ∧
      registerWord s 0x136 = peerViewWord (viewedPeer s) 5 ∧
      registerWord s 0x137 = peerViewWord (viewedPeer s) 6 :=
  ⟨registerWord_peerView s (by decide) (by decide), registerWord_peerView s (by decide) (by decide),
    registerWord_peerView s (by decide) (by decide), registerWord_peerView s (by decide) (by decide),
    registerWord_peerView s (by decide) (by decide), registerWord_peerView s (by decide) (by decide),
    registerWord_peerView s (by decide) (by decide)⟩

theorem viewedPeer_self {s : State} (h : s.hpu.peerSelect = s.stc.sid) : viewedPeer s = Peer.selfRecord := by
  rw [viewedPeer, if_pos h]

theorem viewedPeer_other {s : State} (h : s.hpu.peerSelect ≠ s.stc.sid) :
    viewedPeer s = s.peer s.hpu.peerSelect := by
  rw [viewedPeer, if_neg h]
  rfl

theorem faultView_toNat (f : FaultRecord) :
    (faultViewWord (some f) 0).toNat = f.kind.code.toNat ∧ (faultViewWord (some f) 1).toNat = f.peer.val ∧
      (faultViewWord (some f) 2).toNat = f.frame.code.toNat ∧
      (faultViewWord (some f) 3).toNat = f.value.toNat ∧
      (faultViewWord (some f) 4).toNat = if f.more = true then 1 else 0 :=
  ⟨fieldWord_toNat (by decide) f.kind.code, stationWord_toNat f.peer,
    fieldWord_toNat (by decide) f.frame.code, fieldWord_toNat (by decide) f.value,
    (fieldWord_toNat (by decide) (BitVec.ofBool f.more)).trans (ofBool_toNat _)⟩

theorem isSome_iff_ne {α : Type} (x : Option α) : x.isSome = true ↔ x ≠ none := Option.isSome_iff_ne_none

theorem peerView_state_toNat (q : Peer) :
    (peerViewWord q 0).toNat =
      q.state.code.toNat + (if q.theirSess ≠ none then 256 else 0)
        + (if q.lastRxSeq ≠ none then 512 else 0) := by
  rw [show peerViewWord q 0 = fieldWord (BitVec.ofBool q.lastRxSeq.isSome ++ BitVec.ofBool q.theirSess.isSome
    ++ 0#5 ++ q.state.code) from rfl, fieldWord_toNat (by decide)]
  simp only [append_toNat, ofBool_toNat, isSome_iff_ne]
  split_ifs <;> simp <;> omega

theorem byte_toNat {n : Nat} (h : n < 256) : (BitVec.ofNat 8 n).toNat = n := Nat.mod_eq_of_lt h

/-- Settles O29: each address by its register, each word by its fields. -/
theorem readWordsPackTheRegisters : Obligations.ReadWordsPackTheRegisters := by
  refine ⟨fun s => ⟨?_, fun htx hrx => ?_, fun hbudget => ?_, fun hone hpool => ⟨?_, ?_⟩, ?_, fun hfault => ?_,
    fun f hfault => ?_, fun addr haddr => ?_⟩, fun s => ⟨fun hself => ?_, fun hother hbounds => ?_⟩⟩
  · rw [registerWord_status, statusWord_toNat]
  · rw [registerWord_freeLevels, levelWord_toNat htx hrx]
  · have hbudget : s.snu.sendList.length + s.snu.completions.length ≤ 32 := hbudget
    rw [registerWord_sendLevels, levelWord_toNat (by omega) (by omega)]
  · obtain ⟨hinbound, hevents⟩ := State.eventLevels_lt hone hpool
    rw [registerWord_eventLevels, levelWord_toNat hinbound hevents]
  · obtain ⟨hcredit, hgreet⟩ := State.sessionLevels_lt hone
    rw [registerWord_sessionLevels, levelWord_toNat hcredit hgreet]
  · have hfield {n : Nat} (hn : n ≤ 16) (v : BitVec n) := fieldWord_toNat hn v
    exact ⟨hfield (by decide) s.hpu.commandResult, hfield (by decide) s.hpu.releaseResult,
      hfield (by decide) s.hpu.sendResult, hfield (by decide) s.hpu.inSource,
      hfield (by decide) s.hpu.inLength, rfl, hfield (by decide) s.hpu.inSess, rfl,
      hfield (by decide) s.hpu.cDest, hfield (by decide) s.hpu.cStatus, hfield (by decide) s.hpu.cAttempts,
      hfield (by decide) s.hpu.peState, registerWord_event_toNat s, hfield (by decide) s.atu.enables,
      hfield (by decide) s.atu.inService, registerWord_ident_toNat s⟩
  · obtain ⟨h0, h1, h2, h3, h4⟩ := registerWord_fault s
    rw [h0, h1, h2, h3, h4, hfault]
    exact ⟨rfl, rfl, rfl, rfl, rfl⟩
  · obtain ⟨h0, h1, h2, h3, h4⟩ := registerWord_fault s
    rw [h0, h1, h2, h3, h4, hfault]
    exact faultView_toNat f
  · have hunmapped : UnmappedRead addr := haddr
    exact ⟨hunmapped.readCommand, hunmapped.registerWord s, hunmapped.hostRead s⟩
  · obtain ⟨h0, h1, h2, h3, h4, h5, h6⟩ := registerWord_peer s
    rw [h0, h1, h2, h3, h4, h5, h6, viewedPeer_self hself]
    exact ⟨rfl, rfl, rfl, rfl, rfl, rfl, rfl⟩
  · obtain ⟨h0, h1, h2, h3, h4, h5, h6⟩ := registerWord_peer s
    obtain ⟨hcredits, hctl, hr, huse⟩ := hbounds
    rw [h0, h1, h2, h3, h4, h5, h6, viewedPeer_other hother]
    dsimp only
    refine ⟨peerView_state_toNat _, rfl, rfl, (packWord_toNat _ _).trans ?_, (packWord_toNat _ _).trans ?_,
      rfl, (fieldWord_toNat (by decide) (BitVec.ofNat 7 _)).trans ?_⟩
    · rw [byte_toNat (by omega)]
    · rw [byte_toNat (by omega), byte_toNat (by omega)]
    · exact Nat.mod_eq_of_lt (by omega)

end Sys2Proof.Machine
end

