-- ==== Sys2Proof/Proofs/FrameEnds.lean ====
section
/-! PROOF. Ends of receptions: a frame end as the operation that it brings, a frame from no station, a frame
outside ONLINE, a bad frame and a duplicate identity (R94, R111, R112, R127, R145, R153). -/

namespace Sys2Proof.Machine

/-! ### The operation of a frame end -/

theorem Rif.endsReception_of_reception {r : Rif} (h : r.reception.isSome = true) : r.endsReception = true := by
  rw [Rif.endsReception, h]
  rfl

section Ends

variable {s : State} (hopen : s.resetLow = false) (hends : s.rif.endsReception = true)
include hopen hends

theorem exec_messageFrameEnd_ends (src : Byte) (dst : StationId) :
    exec (.messageFrameEnd src dst) s = .next (s.goodFrame src .message (State.messageEffect src) none) :=
  congrArg _ (State.onReception_ends hopen hends _)

theorem exec_creditFrameEnd_ends (src : Byte) (dst : StationId) (srcSess dstSess total : Byte) :
    exec (.creditFrameEnd src dst srcSess dstSess total) s =
      .next (s.goodFrame src .credit (State.creditEffect src dst srcSess dstSess total) none) :=
  congrArg _ (State.onReception_ends hopen hends _)

theorem exec_greetFrameEnd_ends (src : Byte) (dst : StationId) (sess grant : Byte) :
    exec (.greetFrameEnd src dst sess grant) s =
      .next (s.goodFrame src .greet (State.greetEffect src dst sess grant) none) :=
  congrArg _ (State.onReception_ends hopen hends _)

theorem exec_announceFrameEnd_ends (src : Byte) :
    exec (.announceFrameEnd src) s = .next (s.goodFrame src .announce (State.announceEffect src) none) :=
  congrArg _ (State.onReception_ends hopen hends _)

theorem exec_leaveFrameEnd_ends (src : Byte) :
    exec (.leaveFrameEnd src) s = .next (s.goodFrame src .leave (State.leaveEffect src) none) :=
  congrArg _ (State.onReception_ends hopen hends _)

theorem exec_replyFrameEnd_ends (src : Byte) (dst : StationId) (status sess grant : Byte) :
    exec (.replyFrameEnd src dst status sess grant) s =
      .next
        (s.goodFrame src .reply (State.replyEffect src) (s.replyOutcome src dst status sess grant)) :=
  congrArg _ (State.onReception_ends hopen hends _)

theorem exec_unknownKindFrameEnd_ends :
    exec .unknownKindFrameEnd s = .next (s.lineFree.dropVerdict.endAwait none) :=
  congrArg _ (State.onReception_ends hopen hends _)

theorem exec_badFrameEnd_ends :
    exec .badFrameEnd s = .next (s.lineFree.takeOrdered.dropVerdict.endAwait none) :=
  congrArg _ (State.onReception_ends hopen hends _)

end Ends

/-! ### Waiting -/

theorem State.settleLeave_notOnline {s : State} (h : s.stc.state ≠ .online) : s.settleLeave = s := by
  unfold State.settleLeave
  rw [if_neg]
  rintro ⟨honline, -, -⟩
  exact h honline

/-- A frame end ends nothing but a wait for a reply and a wait to leave (R118, R148). -/
theorem State.endAwait_notOnline {s : State} (r : Option ReplyStatus) (hawait : s.txa.exchange ≠ .awaitReply)
    (h : s.stc.state ≠ .online) : s.endAwait r = s := by
  unfold State.endAwait
  rw [if_neg hawait, State.settleLeave_notOnline h]

/-! ### A source that is no station -/

theorem stationOf_none {b : Byte} (h : 32 ≤ b.toNat) : stationOf b = none := by
  rw [stationOf, dif_neg (by omega)]

theorem State.isDuplicate_none (s : State) {src : Byte} (hsrc : stationOf src = none) :
    s.isDuplicate src = false := by
  rw [State.isDuplicate, hsrc]
  rfl

theorem State.dropVerdict_idem {s : State} (hfill : s.rxu.fill = none) :
    s.forgetVerdict.dropVerdict = s.dropVerdict := by
  rw [State.dropVerdict_noFill s hfill, State.dropVerdict_noFill _ (by exact hfill)]
  rfl

theorem State.hearSource_none (s : State) {src : Byte} (hsrc : stationOf src = none) :
    s.hearSource src = s := by
  rw [State.hearSource, hsrc]

/-- The verdict on a header from no station asks for nothing (R88). -/
theorem State.actOnVerdict_none {s : State} {src : Byte} (hsrc : stationOf src = none)
    (hverdict : ∀ v, s.rxu.verdict = some v → v.source = src) :
    s.actOnVerdict = s ∨ s.actOnVerdict = s.forgetVerdict := by
  unfold State.actOnVerdict
  cases hv : s.rxu.verdict with
  | none => exact .inl rfl
  | some v =>
    right
    dsimp only
    rw [hverdict v hv, hsrc]

/-- A good frame from no station ends its reception alone (R112, R182). -/
theorem State.goodFrame_noStation {s : State} {src : Byte} (hsrc : stationOf src = none)
    (hawait : s.txa.exchange ≠ .awaitReply) (hmark : s.stc.leaveMark = false) (hfill : s.rxu.fill = none)
    (kind : FrameKind) {effect : State → State} (r : Option ReplyStatus)
    (heffect : effect s.lineFree = s.received) : s.goodFrame src kind effect r = s.received := by
  have hwon : s.wonLine src kind = s.lineFree := by
    unfold State.wonLine
    rw [State.takeWinner_none _ _ hsrc, ite_self]
  rw [State.goodFrame_eq, hwon, State.frameTaken_heard (s.lineFree.isDuplicate_none hsrc) (by simp [hsrc]),
    heffect, State.dropVerdict_received s hfill, ite_self]
  exact State.endAwait_none s.received r hawait hmark

/-- The source of such a frame has no record to change. -/
theorem effects_noStation {s : State} {src : Byte} (hsrc : stationOf src = none) (hfill : s.rxu.fill = none)
    (hverdict : ∀ v, s.rxu.verdict = some v → v.source = src) (dst : StationId) (a b c : Byte) :
    s.lineFree.messageEffect src = s.received ∧ s.lineFree.creditEffect src dst a b c = s.received ∧
      s.lineFree.greetEffect src dst a b = s.received ∧ s.lineFree.announceEffect src = s.received ∧
      s.lineFree.leaveEffect src = s.received ∧ s.lineFree.replyEffect src = s.received := by
  have hdrop := State.dropVerdict_received s hfill
  refine ⟨?_, ?_, ?_, ?_, ?_, ?_⟩
  · have hact : s.lineFree.actOnVerdict.dropVerdict = s.received := by
      rcases State.actOnVerdict_none (s := s.lineFree) hsrc hverdict with h | h
      · rw [h, hdrop]
      · rw [h, State.dropVerdict_idem (by exact hfill), hdrop]
    rw [State.messageEffect, hact, State.hearSource_none _ hsrc]
  · rw [State.creditEffect, hsrc, hdrop]
  · rw [State.greetEffect, hsrc, hdrop]
  · rw [State.announceEffect, hsrc, hdrop]
  · rw [State.leaveEffect, hsrc, hdrop]
  · rw [State.replyEffect, hdrop, State.hearSource_none _ hsrc]

/-! ### Unknown and bad frames -/

section Quiet

variable {s : State} (hopen : s.resetLow = false) (hends : s.rif.endsReception = true)
  (hawait : s.txa.exchange ≠ .awaitReply) (hfill : s.rxu.fill = none)
include hopen hends hawait hfill

theorem exec_unknownKind_received (hstays : s.stc.leaveMark = false ∨ s.stc.state ≠ .online) :
    exec .unknownKindFrameEnd s = .next s.received := by
  rw [exec_unknownKindFrameEnd_ends hopen hends, State.dropVerdict_received s hfill]
  rcases hstays with hmark | hstate
  · rw [State.endAwait_none s.received none hawait hmark]
  · rw [State.endAwait_notOnline (s := s.received) none hawait hstate]

theorem exec_badFrame_received (hstays : s.stc.leaveMark = false ∨ s.stc.state ≠ .online) :
    exec .badFrameEnd s = .next { s.received with ctu := { s.ctu with kind := .ordered } } := by
  have hdrop : s.lineFree.takeOrdered.dropVerdict =
      { s.received with ctu := { s.ctu with kind := .ordered } } := by
    rw [State.dropVerdict_noFill _ (by exact hfill)]
    rfl
  rw [exec_badFrameEnd_ends hopen hends, hdrop]
  rcases hstays with hmark | hstate
  · rw [State.endAwait_none _ none (by exact hawait) (by exact hmark)]
  · rw [State.endAwait_notOnline none (by exact hawait) (by exact hstate)]

end Quiet

/-- A bad frame aborts the fill in progress (R13, R94). -/
theorem exec_badFrame_aborts {s : State} (h : s.AtFrameEnd) {f : Fill} (hfill : s.rxu.fill = some f) :
    let peers :=
      s.ssu.peers.set f.source { s.peer f.source with inUse := (s.peer f.source).inUse - 1 }
    exec .badFrameEnd s =
      .next
        { s.received with
          ctu := { s.ctu with kind := .ordered }
          ssu := { s.ssu with peers := peers }
          cru := s.cru.evaluated s.cru.list peers
          bfm :=
            { s.bfm with
              table := s.bfm.table.set f.handle .rxFree, rxFree := s.bfm.rxFree ++ [f.handle] }
          rxu := { s.rxu with verdict := none, fill := none } } := by
  obtain ⟨hopen, hreception, honline, hmark, hawait⟩ := h
  rw [exec_badFrameEnd_ends hopen (Rif.endsReception_of_reception hreception)]
  have hdrop := State.abortFill_some (s := s.lineFree.takeOrdered) hfill
  rw [State.dropVerdict, hdrop, State.endAwait_none _ none (by exact hawait) (by exact hmark)]
  rfl

/-- Settles O56: the frame from no station, kind by kind, then the bad frame with and without a fill. -/
theorem unknownAndBadFrameEnds : Obligations.UnknownAndBadFrameEnds := by
  refine ⟨fun s src dst a b c i hopen hreception hawait hmark hfill hover hverdict hi => ?_, fun s hend =>
    ⟨fun hfill => ?_, fun f hfill => exec_badFrame_aborts hend hfill⟩⟩
  · have hends := Rif.endsReception_of_reception hreception
    have hsrc := stationOf_none hover
    obtain ⟨hmessage, hcredit, hgreet, hannounce, hleave, hreply⟩ :=
      effects_noStation hsrc hfill hverdict dst a b c
    have hframe (kind : FrameKind) {effect : State → State} (r : Option ReplyStatus) :=
      State.goodFrame_noStation hsrc hawait hmark hfill kind (effect := effect) r
    rcases hi with rfl | rfl | rfl | rfl | rfl | rfl | rfl
    · exact exec_unknownKind_received hopen hends hawait hfill (.inl hmark)
    · rw [exec_announceFrameEnd_ends hopen hends, hframe .announce none hannounce]
    · rw [exec_leaveFrameEnd_ends hopen hends, hframe .leave none hleave]
    · rw [exec_greetFrameEnd_ends hopen hends, hframe .greet none hgreet]
    · rw [exec_messageFrameEnd_ends hopen hends, hframe .message none hmessage]
    · rw [exec_creditFrameEnd_ends hopen hends, hframe .credit none hcredit]
    · rw [exec_replyFrameEnd_ends hopen hends, hframe .reply _ hreply]
  · obtain ⟨hopen, hreception, honline, hmark, hawait⟩ := hend
    have hends := Rif.endsReception_of_reception hreception
    exact ⟨exec_unknownKind_received hopen hends hawait hfill (.inl hmark),
      exec_badFrame_received hopen hends hawait hfill (.inl hmark)⟩

/-! ### Outside ONLINE -/

/-- What the end of a good frame makes of a station that listens (R145). -/
def Stc.heard (c : Stc) : Stc :=
  if c.state = .listening then { c with state := .announcing, pendingAnnounce := true } else c

theorem Stc.heard_notOnline {c : Stc} (h : c.state ≠ .online) : c.heard.state ≠ .online := by
  unfold Stc.heard
  split
  · nofun
  · exact h

theorem State.endListening_heard (s : State) : s.endListening = { s with stc := s.stc.heard } := by
  unfold State.endListening Stc.heard
  split <;> rfl

theorem State.isDuplicate_notMember {s : State} (src : Byte)
    (h : s.stc.state = .offline ∨ s.stc.state = .halted) : s.isDuplicate src = false := by
  unfold State.isDuplicate
  rcases h with h | h <;> rw [h] <;> simp

theorem State.isDuplicate_false {s : State} {p : StationId}
    (h : p ≠ s.stc.sid ∨ s.stc.state = .offline ∨ s.stc.state = .halted) : s.isDuplicate p.byte = false :=
  h.elim (s.isDuplicate_other p) (State.isDuplicate_notMember p.byte)

section Outside

variable {s : State} {p : StationId} (hstate : s.stc.state ≠ .online)
  (hawait : s.txa.exchange ≠ .awaitReply) (hfill : s.rxu.fill = none)
  (hother : p ≠ s.stc.sid ∨ s.stc.state = .offline ∨ s.stc.state = .halted)
include hstate hawait hfill hother

/-- Outside ONLINE a good frame that is no REPLY sets LW and ends listening (R127, R145). -/
theorem State.goodFrame_outside {kind : FrameKind} (hkind : kind ≠ .reply) (effect : State → State)
    (r : Option ReplyStatus) :
    s.goodFrame p.byte kind effect r = { s.received.wonBy p with stc := s.stc.heard } := by
  have hwon : s.wonLine p.byte kind = s.lineFree.wonBy p := by
    unfold State.wonLine
    rw [if_neg hkind, State.takeWinner_wonBy]
  have hdup : (s.lineFree.wonBy p).isDuplicate p.byte = false := State.isDuplicate_false hother
  have hquiet := Stc.heard_notOnline hstate
  rw [State.goodFrame_eq, hwon]
  have hstation : kind ≠ .reply ∧ (stationOf p.byte).isSome = true := ⟨hkind, by rw [stationOf_byte]; rfl⟩
  unfold State.frameTaken
  rw [hdup, if_pos hstation, State.endListening_heard]
  simp only [Bool.false_eq_true, if_false]
  rw [if_neg (by exact hquiet), State.dropVerdict_noFill _ (by exact hfill),
    State.endAwait_notOnline _ (by exact hawait) (by exact hquiet)]
  rfl

/-- Outside ONLINE a good REPLY ends its reception alone (R127). -/
theorem State.goodFrame_replyOutside (effect : State → State) (r : Option ReplyStatus) :
    s.goodFrame p.byte .reply effect r = s.received := by
  have hdup : s.lineFree.isDuplicate p.byte = false := State.isDuplicate_false hother
  have hwon : s.wonLine p.byte .reply = s.lineFree := if_pos rfl
  rw [State.goodFrame_eq, hwon, State.frameTaken_heard hdup (by simp), if_neg (by exact hstate),
    State.dropVerdict_received s hfill, State.endAwait_notOnline _ (by exact hawait) (by exact hstate)]

variable (hopen : s.resetLow = false) (hends : s.rif.endsReception = true)
include hopen hends

theorem exec_frames_outside (dst : StationId) (a b c : Byte) :
    (∀ i : Instr,
      i = .announceFrameEnd p.byte ∨ i = .leaveFrameEnd p.byte ∨ i = .greetFrameEnd p.byte dst a b ∨
          i = .messageFrameEnd p.byte dst ∨ i = .creditFrameEnd p.byte dst a b c →
        exec i s = .next { s.received.wonBy p with stc := s.stc.heard }) ∧
      exec (.replyFrameEnd p.byte dst a b c) s = .next s.received := by
  have hframe {kind : FrameKind} (hkind : kind ≠ .reply) (effect : State → State) :=
    State.goodFrame_outside hstate hawait hfill hother hkind effect none
  refine ⟨fun i hi => ?_, ?_⟩
  · rcases hi with rfl | rfl | rfl | rfl | rfl
    · rw [exec_announceFrameEnd_ends hopen hends, hframe (by decide)]
    · rw [exec_leaveFrameEnd_ends hopen hends, hframe (by decide)]
    · rw [exec_greetFrameEnd_ends hopen hends, hframe (by decide)]
    · rw [exec_messageFrameEnd_ends hopen hends, hframe (by decide)]
    · rw [exec_creditFrameEnd_ends hopen hends, hframe (by decide)]
  · rw [exec_replyFrameEnd_ends hopen hends, State.goodFrame_replyOutside hstate hawait hfill hother]

end Outside

theorem exec_listenTimeout_open {s : State} (hopen : s.resetLow = false) :
    exec .listenTimeout s = .next s.listenTimeout :=
  congrArg _ (State.onRail_open hopen State.listenTimeout)

/-- The listen timeout comes once in an idle period (R107, R145). -/
theorem State.listenTimeout_idle {s : State} (hline : s.rif.line = .idle) (hcount : s.rif.idleCount < 1024) :
    s.listenTimeout = { s.idleAt 1024 with stc := s.stc.heard } := by
  rw [State.listenTimeout, if_pos ⟨hline, hcount⟩, State.elapseTo_idleAt s 1024 hcount.le le_rfl,
    State.endListening_heard]
  rfl

/-- Settles O57: the frames by kind, then the listen timeout. -/
theorem framesOutsideOnline : Obligations.FramesOutsideOnline := by
  intro s p dst a b c hopen hstate hawait hother
  refine ⟨fun hreception hfill => ?_, fun hline hcount => ?_⟩
  · exact exec_frames_outside hstate hawait hfill hother hopen (Rif.endsReception_of_reception hreception)
      dst a b c
  · rw [exec_listenTimeout_open hopen, State.listenTimeout_idle hline hcount]
    rfl

/-! ### A duplicate identity -/

/-- A station that a duplicate identity has halted (R153, R154). -/
def State.haltedBy (s : State) (kind : FrameKind) : State :=
  let t := (s.faulted .duplicateId s.stc.sid kind 0).completed fun e => some (.withdrawn, e.attempts)
  { t with
    rif := { t.rif with replyDue := none }
    txa := { exchange := .idle, train := 0, gap := false, item := none }
    stc :=
      { t.stc with
        state := .halted, leaveMark := false, pendingAnnounce := false, pendingLeave := false,
        latch := true } }

theorem State.isDuplicate_own {s : State}
    (h : s.stc.state = .listening ∨ s.stc.state = .announcing ∨ s.stc.state = .online ∨
      s.stc.state = .leaving) : s.isDuplicate s.stc.sid.byte = true := by
  unfold State.isDuplicate
  rw [stationOf_byte]
  rcases h with h | h | h | h <;> rw [h] <;> simp

theorem State.enterHalted_haltedBy {s : State} (htransmit : s.rif.transmit = none)
    (hfill : s.rxu.fill = none) (kind : FrameKind) :
    (s.handFault .duplicateId s.stc.sid kind 0).enterHalted =
      { s.haltedBy kind with rxu := { s.rxu with verdict := none } } := by
  have hrif : ({ s.rif with transmit := none, replyDue := none } : Rif) = { s.rif with replyDue := none } := by
    rw [← htransmit]
  unfold State.enterHalted
  rw [State.handFault_faulted, State.completeWhere_completed, State.dropVerdict_noFill _ (by exact hfill)]
  exact (congrArg (fun r : Rif =>
    ({ s.haltedBy kind with rif := r, rxu := { s.rxu with verdict := none } } : State)) hrif :)

section Own

variable {s : State}
  (hstate : s.stc.state = .listening ∨ s.stc.state = .announcing ∨ s.stc.state = .online ∨
    s.stc.state = .leaving)
  (htransmit : s.rif.transmit = none) (hfill : s.rxu.fill = none)
include hstate htransmit hfill

theorem State.goodFrame_own {kind : FrameKind} (hkind : kind ≠ .reply) (effect : State → State)
    (r : Option ReplyStatus) :
    s.goodFrame s.stc.sid.byte kind effect r = (s.received.wonBy s.stc.sid).haltedBy kind := by
  have hwon : s.wonLine s.stc.sid.byte kind = s.lineFree.wonBy s.stc.sid := by
    unfold State.wonLine
    rw [if_neg hkind, State.takeWinner_wonBy]
  have hdup : (s.lineFree.wonBy s.stc.sid).isDuplicate s.stc.sid.byte = true :=
    State.isDuplicate_own (s := s.lineFree.wonBy s.stc.sid) hstate
  rw [State.goodFrame_eq, hwon, State.frameTaken_duplicate hdup,
    State.enterHalted_haltedBy (by exact htransmit) (by exact hfill)]
  rfl

theorem State.goodFrame_ownReply (effect : State → State) (r : Option ReplyStatus) :
    s.goodFrame s.stc.sid.byte .reply effect r = s.received.haltedBy .reply := by
  have hwon : s.wonLine s.stc.sid.byte .reply = s.lineFree := if_pos rfl
  have hdup : s.lineFree.isDuplicate s.stc.sid.byte = true := State.isDuplicate_own (s := s.lineFree) hstate
  rw [State.goodFrame_eq, hwon, State.frameTaken_duplicate hdup,
    State.enterHalted_haltedBy (by exact htransmit) (by exact hfill)]
  rfl

end Own

/-- Settles O59: every good frame with the station's own source, by its kind. -/
theorem duplicateIdentityHalts : Obligations.DuplicateIdentityHalts := by
  intro s dst a b c hopen hreception htransmit hfill hstate
  have hends := Rif.endsReception_of_reception hreception
  have hframe {kind : FrameKind} (hkind : kind ≠ .reply) (effect : State → State) :=
    State.goodFrame_own hstate htransmit hfill hkind effect none
  refine ⟨?_, ?_, ?_, ?_, ?_, ?_⟩
  · rw [exec_announceFrameEnd_ends hopen hends, hframe (by decide)]
    rfl
  · rw [exec_leaveFrameEnd_ends hopen hends, hframe (by decide)]
    rfl
  · rw [exec_greetFrameEnd_ends hopen hends, hframe (by decide)]
    rfl
  · rw [exec_messageFrameEnd_ends hopen hends, hframe (by decide)]
    rfl
  · rw [exec_creditFrameEnd_ends hopen hends, hframe (by decide)]
    rfl
  · rw [exec_replyFrameEnd_ends hopen hends, State.goodFrame_ownReply hstate htransmit hfill]
    rfl

end Sys2Proof.Machine
end

