-- ==== Sys2Proof/Proofs/StationCommands.lean ====
section
/-! PROOF. The host's commands JOIN, LEAVE and RESTART (R142 to R145, R147 to R149, R151). -/

namespace Sys2Proof.Machine

/-! ### JOIN -/

theorem exec_join_open {s : State} (hopen : s.resetLow = false) : exec .join s = .next s.join :=
  congrArg _ (State.onWrite_open hopen State.join)

theorem State.joined_blocks (s : State) :
    s.joined.pending = s.pending ∧ s.joined.resetLow = s.resetLow ∧
      s.joined.rif = { s.rif with broken := none } ∧ s.joined.txa = s.txa ∧
      s.joined.ctu = { s.ctu with lw := 0, lwKnown := false, kind := .ordered, slot := none } ∧
      s.joined.ssu.greetList = [] ∧ s.joined.cru = Cru.clear ∧ s.joined.bfm.mem = s.bfm.mem ∧
      s.joined.stc =
        { s.stc with
          state := .listening, retryLimit := retryLimitOf s.stc.retryReg
          trainLimit := trainLimitOf s.stc.trainReg
          reserveTotal := reserveSum s.stc.sid s.stc.reserveRegs } ∧
      s.joined.atu = { s.atu with peerEvents := [] } ∧
      s.joined.hpu =
        { s.hpu with
          inSource := 0, inLength := 0, inTag := 0, inSess := 0, cTag := 0, cDest := 0, cStatus := 0,
          cAttempts := 0, peState := 0, peReason := 0, peChanges := 0, commandResult := 1 } := by
  simp only [State.joined, Bfm.build, CommandResult.code, and_self]

theorem State.joined_peer (s : State) (p : StationId) :
    s.joined.peer p =
      if p = s.stc.sid then { Peer.fresh 0 with state := .self } else Peer.fresh (s.stc.reserveRegs[p]).toNat := by
  rw [State.peer, State.joined_peers]
  exact freshPeers_getElem _ _ p

theorem filter_ge_range {m n : Nat} (hle : n ≤ m) :
    ((List.range m).filter fun k => !decide (k < n)) = List.range' n (m - n) := by
  obtain ⟨d, rfl⟩ := Nat.exists_eq_add_of_le hle
  have hfirst : ((List.range n).filter fun k => !decide (k < n)) = [] :=
    List.filter_eq_nil_iff.mpr fun k hk => by simpa using List.mem_range.mp hk
  have hrest : ((List.range d).map (n + ·)).filter (fun k => !decide (k < n)) = (List.range d).map (n + ·) :=
    List.filter_eq_self.mpr fun k hk => by
      obtain ⟨j, -, rfl⟩ := List.mem_map.mp hk
      simp
  rw [List.range_add, List.filter_append, hfirst, hrest, List.nil_append, Nat.add_sub_cancel_left,
    List.range'_eq_map_range]

/-- The handles from n on, as numbers. -/
theorem finRange_filter_ge_map {m n : Nat} (hle : n ≤ m) :
    ((List.finRange m).filter fun k => !decide (k.val < n)).map Fin.val = List.range' n (m - n) := by
  rw [← filter_ge_range hle, ← List.map_coe_finRange_eq_range, List.filter_map]
  rfl

/-- A JOIN that is accepted on a line silent for the listen timeout, or on any other (R144, R145). -/
theorem State.join_accepted {s : State} (hstate : s.stc.state = .offline)
    (hfits : reserveSum s.stc.sid s.stc.reserveRegs ≤ 112) :
    let silent : Bool := decide (s.rif.line = .idle ∧ s.rif.idleCount = 1024)
    s.join =
      { s.joined with
        stc :=
          { s.joined.stc with
            state := if silent then .announcing else .listening
            pendingAnnounce := silent || s.stc.pendingAnnounce } } := by
  obtain ⟨-, -, -, -, -, -, -, -, hstc, -⟩ := s.joined_blocks
  have hlistening : s.joined.stc.state = .listening := by rw [hstc]
  have hannounce : s.joined.stc.pendingAnnounce = s.stc.pendingAnnounce := by rw [hstc]
  intro silent
  have hfits' : ¬ Config.reserveMax < reserveSum s.stc.sid s.stc.reserveRegs := Nat.not_lt.mpr hfits
  rw [State.join, if_neg (not_not.mpr hstate), if_neg hfits']
  by_cases hsilent : s.rif.line = .idle ∧ s.rif.idleCount = 1024
  · have hs : silent = true := decide_eq_true hsilent
    rw [if_pos hsilent, State.endListening, if_pos hlistening, hs]
    rfl
  · have hs : silent = false := decide_eq_false hsilent
    rw [if_neg hsilent, hs, Bool.false_or, ← hannounce]
    simp only [Bool.false_eq_true, if_false]
    rw [← hlistening]

theorem State.join_refusedState {s : State} (hstate : s.stc.state ≠ .offline) :
    s.join = s.commandResult .refusedState := if_pos hstate

theorem State.join_refusedProfile {s : State} (hstate : s.stc.state = .offline)
    (hover : 112 < reserveSum s.stc.sid s.stc.reserveRegs) : s.join = s.commandResult .refusedProfile := by
  have hover' : Config.reserveMax < reserveSum s.stc.sid s.stc.reserveRegs := hover
  rw [State.join, if_neg (not_not.mpr hstate), if_pos hover']

/-- Settles O32: the blocks of the station that has joined, then the refusals. -/
theorem joinRebuildsTheStation : Obligations.JoinRebuildsTheStation := by
  refine ⟨fun s hopen hstate hfits => ?_, fun s hopen => ⟨fun hstate => ?_, fun hstate hover => ?_,
    fun code => ?_⟩⟩
  · obtain ⟨hpending, hlow, hrif, htxa, hctu, hgreet, hcru, hmem, hstc, hatu, hhpu⟩ := s.joined_blocks
    intro total silent
    have htotal : total ≤ 128 := hfits.trans (by decide)
    refine ⟨_, (exec_join_open hopen).trans (congrArg _ (State.join_accepted hstate hfits)), hpending,
      hlow.trans hopen, hrif, htxa, hctu, s.joined_peer, hgreet, hcru, s.joined_handle, ?_, ?_,
      s.joined_winsel, hmem, s.joined_snu, s.joined_rxu, ?_, hatu, hhpu⟩
    · rw [State.joined_txFree]
      exact finRange_filter_lt_map (Nat.sub_le _ _)
    · rw [State.joined_rxFree]
      refine (finRange_filter_ge_map (Nat.sub_le _ _)).trans ?_
      rw [Nat.sub_sub_self htotal]
    · dsimp only
      rw [hstc]
      rfl
  · rw [exec_join_open hopen, State.join_refusedState hstate]
    rfl
  · rw [exec_join_open hopen, State.join_refusedProfile hstate hover]
    rfl
  · exact congrArg _ (State.onWrite_open hopen fun t => t.commandResult .refusedCommand)

/-! ### LEAVE -/

theorem exec_leave_open {s : State} (hopen : s.resetLow = false) : exec .leave s = .next s.leave :=
  congrArg _ (State.onWrite_open hopen State.leave)

theorem State.announceOnLine_iff (s : State) :
    s.announceOnLine = true ↔ ∃ p, s.rif.transmit = some (.announce p) := by
  unfold State.announceOnLine
  split
  · rename_i p htransmit
    exact ⟨fun _ => ⟨p, htransmit⟩, fun _ => rfl⟩
  · rename_i hother
    exact ⟨nofun, fun ⟨p, htransmit⟩ => absurd htransmit (hother p)⟩

/-- With no leave mark to clear, a station not yet seen keeps everything but its state (R147). -/
theorem State.leaveUnseen_unmarked {s : State} (hmark : s.stc.leaveMark = false) :
    s.leaveUnseen = { s with stc := { s.stc with state := .offline, pendingAnnounce := false } } := by
  have hstc : ({ s.stc with state := .offline, leaveMark := false, pendingAnnounce := false } : Stc) =
      { s.stc with state := .offline, pendingAnnounce := false } := by
    simp [hmark]
  rw [State.leaveUnseen, hstc]

section Leave

variable {s : State} (hmark : s.stc.leaveMark = false)
include hmark

theorem State.leave_unseen
    (hstate : s.stc.state = .listening ∨
      (s.stc.state = .announcing ∧ ∀ p, s.rif.transmit ≠ some (.announce p))) :
    s.leave = s.leaveUnseen.commandResult .done := by
  unfold State.leave
  rw [hmark]
  rcases hstate with hlistening | ⟨hannouncing, hother⟩
  · rw [hlistening]
    rfl
  · have hline : ¬ s.announceOnLine = true := by
      rw [s.announceOnLine_iff]
      exact fun ⟨p, htransmit⟩ => hother p htransmit
    rw [hannouncing]
    simp only [Bool.false_eq_true, if_false, if_neg hline]

theorem State.leave_announcing (hstate : s.stc.state = .announcing)
    (hline : ∃ p, s.rif.transmit = some (.announce p)) : s.leave = s.markLeave.commandResult .done := by
  unfold State.leave
  rw [hmark, hstate]
  simp only [Bool.false_eq_true, if_false, if_pos (s.announceOnLine_iff.mpr hline)]

theorem State.leave_online (hstate : s.stc.state = .online) :
    s.leave = ((s.completed leaveCause).markLeave.settleLeave).commandResult .done := by
  unfold State.leave
  rw [hmark, hstate, State.completeWhere_completed]
  rfl

/-- The entries withdrawn, a station with something of its own on the line goes on waiting (R85, R148). -/
theorem State.leave_waits (hstate : s.stc.state = .online)
    (hwaits : ¬ (s.txa.exchange = .idle ∧ s.rif.reception = none ∧ s.rif.replyDue = none ∧
      s.rif.transmit = none)) :
    s.leave =
      { s.completed leaveCause with
        stc := { s.stc with leaveMark := true }
        hpu := { s.hpu with commandResult := 1 } } := by
  obtain ⟨-, -, hrif, -, htxa, -, -, -, hstc, -, hhpu⟩ := s.completed_frame leaveCause
  rw [State.leave_online hmark hstate]
  generalize s.completed leaveCause = t at *
  rw [← hrif, ← htxa] at hwaits
  rw [State.settleLeave_waits t.markLeave hwaits, ← hstc, ← hhpu]
  rfl

/-- The entries withdrawn, a station whose part in the line is settled enters LEAVING at once (R85, R148). -/
theorem State.leave_settled (hstate : s.stc.state = .online) (hexchange : s.txa.exchange = .idle)
    (hreception : s.rif.reception = none) (hreply : s.rif.replyDue = none)
    (htransmit : s.rif.transmit = none) :
    s.leave = { (s.completed leaveCause).leavingNow with hpu := { s.hpu with commandResult := 1 } } := by
  obtain ⟨-, -, hrif, -, htxa, -, -, -, hstc, -, hhpu⟩ := s.completed_frame leaveCause
  rw [State.leave_online hmark hstate]
  generalize s.completed leaveCause = t at *
  rw [← hstc] at hstate
  rw [← htxa] at hexchange
  rw [← hrif] at hreception hreply htransmit
  rw [State.settleLeave_now t.markLeave hstate rfl hexchange hreception hreply htransmit, ← hhpu]
  rfl

end Leave

theorem State.leave_refused {s : State}
    (h : s.stc.leaveMark = true ∨ s.stc.state = .offline ∨ s.stc.state = .leaving ∨ s.stc.state = .halted) :
    s.leave = s.commandResult .refusedState := by
  unfold State.leave
  split
  · rfl
  · rename_i hmark
    rcases h with h | h | h | h
    · exact absurd h hmark
    all_goals rw [h]

/-- Settles O33: a station not yet seen, one whose ANNOUNCE is on the line, one ONLINE, and the refusals. -/
theorem leaveInEveryState : Obligations.LeaveInEveryState := by
  refine ⟨fun s hopen hmark => ⟨fun hstate => ?_, fun hstate hline => ?_⟩, fun s hopen => ?_⟩
  · rw [exec_leave_open hopen, State.leave_unseen hmark hstate, State.leaveUnseen_unmarked hmark]
    rfl
  · rw [exec_leave_open hopen, State.leave_announcing hmark hstate hline]
    rfl
  · refine ⟨fun hstate hmark hwaits => ?_, fun hstate hmark hsettled => ?_, fun hrefused => ?_⟩
    · exact (exec_leave_open hopen).trans (congrArg _ (State.leave_waits hmark hstate hwaits))
    · obtain ⟨hexchange, hreception, hreply, htransmit⟩ := hsettled
      exact (exec_leave_open hopen).trans
        (congrArg _ (State.leave_settled hmark hstate hexchange hreception hreply htransmit))
    · rw [exec_leave_open hopen, State.leave_refused hrefused]
      rfl

/-! ### RESTART -/

theorem exec_restart_open {s : State} (hopen : s.resetLow = false) : exec .restart s = .next s.afterRestart :=
  congrArg _ (State.onWrite_open hopen State.afterRestart)

theorem Rif.brokenOff_transmit {r : Rif} {f : Frame} (h : r.transmit = some f) :
    r.brokenOff = some (.own f.kind) := by
  rw [Rif.brokenOff, h]

theorem Rif.brokenOff_reception {r : Rif} (htransmit : r.transmit = none) :
    r.brokenOff = r.reception.map fun x => .reception x.headerSeen := by
  rw [Rif.brokenOff, htransmit]
  cases r.reception <;> rfl

theorem State.afterRestart_rif (s : State) :
    s.afterRestart.rif =
      { line := s.rif.line, idleCount := if s.rif.line = .busy then 0 else 1, reception := none,
        transmit := none, replyDue := none, broken := s.afterRestart.rif.broken } := by
  have hline := Rif.clear_line s.rif
  exact congrArg (fun r : Rif => { r with broken := s.rif.brokenOff }) hline

/-- The frame that a RESTART breaks off leaves OFFLINE to its last event. -/
structure State.Restarted (s : State) : Prop where
  opened : s.resetLow = false
  offline : s.stc.state = .offline
  exchange : s.txa.exchange ≠ .awaitReply
  fill : s.rxu.fill = none
  reception : s.rif.reception = none
  transmit : s.rif.transmit = none

section Restarted

variable {s : State} (h : s.Restarted)
include h

theorem State.Restarted.notOnline : s.stc.state ≠ .online := by
  rw [h.offline]
  decide

/-- A header of the reception broken off is IGNORED (R88, R151). -/
theorem State.Restarted.header {x : Bool} (hbroken : s.rif.broken = some (.reception x)) (m : MessageHeader)
    (payload : List Byte) :
    exec (.messageHeader m payload) s = .next (if x = true then s else s.takeBrokenHeader m) := by
  have hexec : exec (.messageHeader m payload) s = .next (s.headerArrives m payload) :=
    congrArg _ (State.onRail_open h.opened fun t => t.headerArrives m payload)
  have hnone : ¬ s.rif.reception = some { headerSeen := false } := by
    rw [h.reception]
    nofun
  rw [hexec, State.headerArrives, if_neg hnone, hbroken]
  cases x <;> rfl

theorem State.Restarted.collision {k : FrameKind} (hbroken : s.rif.broken = some (.own k)) :
    exec .collision s =
      .next { s with rif := { s.rif with broken := none }, ctu := { s.ctu with kind := .ordered } } := by
  have hexec : exec .collision s = .next s.collide := congrArg _ (State.onRail_open h.opened State.collide)
  rw [hexec, State.collide, h.transmit]
  dsimp only
  rw [State.collideBroken, hbroken]
  rfl

end Restarted

/-- The end of a frame broken off frees the line and, unless it is a REPLY, sets LW (R127, R151). -/
theorem State.endBroken_own {s : State} {k : FrameKind} {kinds : List FrameKind}
    (hbroken : s.rif.broken = some (.own k)) (hreception : s.rif.reception = none) (hkind : k ∈ kinds) :
    let free : State := { s with rif := { s.rif with line := .idle, idleCount := 1, broken := none } }
    s.endBroken kinds = if k = .reply then free else free.wonBy s.stc.sid := by
  have hfree : s.lineFree =
      { s with rif := { s.rif with line := .idle, idleCount := 1, broken := none } } := by
    simp [State.lineFree, hreception]
  rw [State.endBroken, hbroken]
  dsimp only
  rw [if_pos hkind, State.takeWinner_wonBy, hfree]

section Restarted

variable {s : State} (h : s.Restarted)
include h

theorem State.Restarted.ownFrameEnd {k : FrameKind} (hbroken : s.rif.broken = some (.own k)) :
    let free : State := { s with rif := { s.rif with line := .idle, idleCount := 1, broken := none } }
    (k = .greet ∨ k = .message ∨ k = .credit → exec .ownFrameEnd s = .next (free.wonBy s.stc.sid)) ∧
      (k = .announce → exec .ownAnnounceEnd s = .next (free.wonBy s.stc.sid)) ∧
      (k = .leave → exec .ownLeaveEnd s = .next (free.wonBy s.stc.sid)) ∧
      (k = .reply → exec .ownReplyEnd s = .next free) := by
  have hrun {f : State → State} {kinds : List FrameKind} (hkind : k ∈ kinds)
      (hf : f s = s.endBroken kinds) := (State.onRail_open h.opened f).trans
    (hf.trans (State.endBroken_own hbroken h.reception hkind))
  refine ⟨fun hk => ?_, fun hk => ?_, fun hk => ?_, fun hk => ?_⟩
  · have hnot : k ≠ .reply := by rcases hk with rfl | rfl | rfl <;> decide
    refine congrArg _ ((hrun (f := State.frameEnds) (kinds := [.greet, .message, .credit]) (by simpa using hk)
      ?_).trans (if_neg hnot))
    rw [State.frameEnds, h.transmit]
  · refine congrArg _ ((hrun (f := State.announceEnds) (kinds := [.announce]) (by simpa using hk)
      ?_).trans (if_neg (by rw [hk]; decide)))
    rw [State.announceEnds, h.transmit]
  · refine congrArg _ ((hrun (f := State.leaveEnds) (kinds := [.leave]) (by simpa using hk)
      ?_).trans (if_neg (by rw [hk]; decide)))
    rw [State.leaveEnds, h.transmit]
  · refine congrArg _ ((hrun (f := State.replyEnds) (kinds := [.reply]) (by simpa using hk)
      ?_).trans (if_pos hk))
    rw [State.replyEnds, h.transmit]

/-- The first idle bit time frees the line, and no verdict stands then (R87, R107). -/
theorem State.Restarted.lineIdle (hline : s.rif.line = .busy) :
    exec .lineIdle s =
      .next
        { s with
          rif := { s.rif with line := .idle, idleCount := 1, broken := none }
          rxu := { s.rxu with verdict := none } } := by
  have hexec : exec .lineIdle s = .next s.senseIdle := congrArg _ (State.onRail_open h.opened State.senseIdle)
  rw [hexec, State.senseIdle, if_pos ⟨hline, h.reception, h.transmit⟩]
  simp [State.lineFree, State.forgetVerdict, h.reception]

theorem State.Restarted.frames {x : Bool} (hbroken : s.rif.broken = some (.reception x)) :
    exec .badFrameEnd s = .next { s.received with ctu := { s.ctu with kind := .ordered } } ∧
      exec .unknownKindFrameEnd s = .next s.received ∧
      ∀ (p dst : StationId) (a b c : Byte),
        (∀ i : Instr,
          i = .announceFrameEnd p.byte ∨ i = .leaveFrameEnd p.byte ∨ i = .greetFrameEnd p.byte dst a b ∨
              i = .messageFrameEnd p.byte dst ∨ i = .creditFrameEnd p.byte dst a b c →
            exec i s = .next (s.received.wonBy p)) ∧
        exec (.replyFrameEnd p.byte dst a b c) s = .next s.received := by
  have hends : s.rif.endsReception = true := s.rif.endsReception_iff.mpr (.inr ⟨x, hbroken⟩)
  have hstc : s.stc.heard = s.stc := by
    rw [Stc.heard, h.offline]
    rfl
  refine ⟨exec_badFrame_received h.opened hends h.exchange h.fill (.inr h.notOnline),
    exec_unknownKind_received h.opened hends h.exchange h.fill (.inr h.notOnline), fun p dst a b c => ?_⟩
  have hframes := exec_frames_outside h.notOnline h.exchange h.fill (.inr (.inl h.offline)) h.opened hends
    (p := p) dst a b c
  rw [hstc] at hframes
  exact hframes

end Restarted

/-- Settles O34: the blocks after RESTART, then each event of the frame that it broke off. -/
theorem restartClearsTheStation : Obligations.RestartClearsTheStation := by
  refine ⟨fun s hopen => ?_, fun s hopen hstate hexchange hfill hreception htransmit => ?_⟩
  · refine ⟨s.afterRestart, exec_restart_open hopen, rfl, hopen, s.afterRestart_rif, fun f htransmit => ?_,
      fun htransmit => ⟨fun x hreception => ?_, fun hreception => ?_⟩, rfl, rfl, rfl, rfl, rfl, rfl, rfl, rfl,
      rfl, rfl, State.peer_of_clear rfl⟩
    · exact Rif.brokenOff_transmit htransmit
    · exact (Rif.brokenOff_reception htransmit).trans (by rw [hreception]; rfl)
    · exact (Rif.brokenOff_reception htransmit).trans (by rw [hreception]; rfl)
  · have h : s.Restarted := ⟨hopen, hstate, hexchange, hfill, hreception, htransmit⟩
    refine ⟨fun x hbroken => ?_, fun k hbroken => ⟨h.collision hbroken, h.ownFrameEnd hbroken⟩, h.lineIdle⟩
    obtain ⟨hbad, hunknown, hframes⟩ := h.frames hbroken
    refine ⟨hbad, hunknown, hframes, fun m payload => ?_⟩
    rw [h.header hbroken, State.takeBrokenHeader]
    simp only [stationOf_iff]
    rfl

end Sys2Proof.Machine
end

