-- ==== Sys2Proof/Proofs/Choices.lean ====
section
/-! PROOF. What the units choose and count: demand mode (R57, R59), the frame that the Transmit Arbiter chooses
and the oldest eligible entry (R71, R131), and the Peer Event List (R164). -/

namespace Sys2Proof.Machine

/-! ### Demand mode -/

theorem Peer.starved_iff (q : Peer) :
    q.starved = true ↔ distance q.ackedTotal q.releasedTotal = q.r - q.inUse := beq_iff_eq

theorem State.anyStarved_iff (s : State) :
    s.anyStarved = true ↔
      ∃ p ∈ s.cru.list,
        distance (s.peer p).ackedTotal (s.peer p).releasedTotal = (s.peer p).r - (s.peer p).inUse := by
  unfold State.anyStarved
  rw [List.any_eq_true]
  exact exists_congr fun p => and_congr_right fun _ => (s.peer p).starved_iff

theorem demandAfter_entered (n : Nat) (starved : Bool) :
    demandAfter false n starved = true ↔ 6 ≤ n ∨ starved = true := by
  simp [demandAfter]

theorem demandAfter_left (n : Nat) (starved : Bool) :
    demandAfter true n starved = false ↔ n ≤ 2 ∧ ¬ starved = true := by
  simp [demandAfter]

/-- Settles O38, by the mode before the evaluation. -/
theorem demandModeHasHysteresis : Obligations.DemandModeHasHysteresis := by
  refine fun s => ⟨demandAfter s.cru.demand s.cru.list.length s.anyStarved, rfl, fun hnormal => ?_,
    fun hdemand => ?_⟩
  · rw [hnormal, demandAfter_entered, s.anyStarved_iff]
  · rw [hdemand, demandAfter_left, s.anyStarved_iff]

/-! ### The frame chosen -/

section Choice

variable {s : State}

theorem State.choose_announcing (h : s.stc.state = .announcing) :
    s.choose = if s.stc.pendingAnnounce = true ∧ s.stc.leaveMark = false then some .announce else none := by
  unfold State.choose
  rw [h]
  simp

theorem State.choose_leaving (h : s.stc.state = .leaving) :
    s.choose = if s.stc.pendingLeave = true then some .leave else none := by
  unfold State.choose
  rw [h]

theorem State.choose_silent
    (h : s.stc.state = .offline ∨ s.stc.state = .listening ∨ s.stc.state = .halted) : s.choose = none := by
  unfold State.choose
  rcases h with h | h | h <;> rw [h]

variable (honline : s.stc.state = .online)
include honline

theorem State.choose_marked (hmark : s.stc.leaveMark = true) : s.choose = none := by
  unfold State.choose
  rw [honline]
  simp only [hmark, if_true]

variable (hmark : s.stc.leaveMark = false)
include hmark

theorem State.choose_greeting {p : StationId} {rest : List StationId} (h : s.ssu.greetList = p :: rest) :
    s.choose = some (.greet p) := by
  unfold State.choose
  rw [honline, hmark, h]
  rfl

variable (hgreet : s.ssu.greetList = [])
include hgreet

theorem State.choose_demanded {p : StationId} {rest : List StationId} (hdemand : s.cru.demand = true)
    (h : s.cru.list = p :: rest) : s.choose = some (.credit p) := by
  unfold State.choose
  rw [honline, hmark, hgreet, hdemand, h]
  rfl

/-- In normal mode, or with no credit to return, a message comes before a CREDIT (R131). -/
theorem State.choose_message (h : s.cru.demand = false ∨ s.cru.list = []) {e : SendEntry}
    (he : s.eligible = some e) : s.choose = some (.message e) := by
  unfold State.choose
  rw [honline, hmark, hgreet, he]
  rcases h with h | h
  · rw [h]
    rfl
  · rw [h]
    cases s.cru.demand <;> rfl

theorem State.choose_credit (h : s.cru.demand = false ∨ s.cru.list = []) (he : s.eligible = none) :
    s.choose = s.cru.list.head?.map .credit := by
  unfold State.choose
  rw [honline, hmark, hgreet, he]
  rcases h with h | h
  · rw [h]
    cases s.cru.list <;> rfl
  · rw [h]
    cases s.cru.demand <;> rfl

end Choice

/-! ### The oldest eligible entry -/

/-- The entry may be chosen when those before it have these destinations (R71). -/
def SendEntry.Eligible (peers : Vector Peer 32) (seen : List StationId) (before : List SendEntry)
    (e : SendEntry) : Prop :=
  e.dest ∉ seen ∧ (∀ f ∈ before, f.dest ≠ e.dest) ∧ e.ready peers = true

theorem SendEntry.eligible_cons {peers : Vector Peer 32} {seen : List StationId} {before : List SendEntry}
    {f e : SendEntry} :
    e.Eligible peers seen (f :: before) ↔ e.Eligible peers (f.dest :: seen) before := by
  simp only [SendEntry.Eligible, List.mem_cons, forall_eq_or_imp, not_or]
  tauto

theorem SendEntry.eligible_nil {peers : Vector Peer 32} {seen : List StationId} {e : SendEntry} :
    e.Eligible peers seen [] ↔ e.dest ∉ seen ∧ e.ready peers = true := by
  simp [SendEntry.Eligible]

/-- No entry of the list is eligible in its place. -/
def NoneEligible (peers : Vector Peer 32) (seen : List StationId) (l : List SendEntry) : Prop :=
  ∀ (f : SendEntry) (b c : List SendEntry), l = b ++ f :: c → ¬ f.Eligible peers seen b

theorem noneEligible_nil {peers : Vector Peer 32} {seen : List StationId} : NoneEligible peers seen [] := by
  intro f b c h
  simp at h

theorem noneEligible_cons {peers : Vector Peer 32} {seen : List StationId} {l : List SendEntry}
    {g : SendEntry} :
    NoneEligible peers seen (g :: l) ↔
      ¬ g.Eligible peers seen [] ∧ NoneEligible peers (g.dest :: seen) l := by
  constructor
  · intro h
    refine ⟨h g [] l rfl, fun f b c hl he => h f (g :: b) c ?_ (SendEntry.eligible_cons.mpr he)⟩
    rw [hl]
    rfl
  · rintro ⟨hg, hl⟩ f b c h
    cases b with
    | nil =>
      cases h
      exact hg
    | cons k b =>
      cases h
      rw [SendEntry.eligible_cons]
      exact hl f b c rfl

theorem firstEligible_iff (peers : Vector Peer 32) (seen : List StationId) (l : List SendEntry)
    (e : SendEntry) :
    firstEligible peers seen l = some e ↔
      ∃ before after : List SendEntry, l = before ++ e :: after ∧ e.Eligible peers seen before ∧
        NoneEligible peers seen before := by
  induction l generalizing seen with
  | nil => simp [firstEligible]
  | cons g l ih =>
    rw [firstEligible]
    by_cases hg : g.dest ∉ seen ∧ g.ready peers = true
    · rw [if_pos hg]
      constructor
      · rintro ⟨⟩
        exact ⟨[], l, rfl, SendEntry.eligible_nil.mpr hg, noneEligible_nil⟩
      · rintro ⟨before, after, h, -, hnone⟩
        cases before with
        | nil =>
          cases h
          rfl
        | cons k before =>
          cases h
          exact absurd (SendEntry.eligible_nil.mpr hg) (noneEligible_cons.mp hnone).1
    · rw [if_neg hg, ih]
      constructor
      · rintro ⟨before, after, rfl, he, hnone⟩
        exact ⟨g :: before, after, rfl, SendEntry.eligible_cons.mpr he,
          noneEligible_cons.mpr ⟨fun h => hg (SendEntry.eligible_nil.mp h), hnone⟩⟩
      · rintro ⟨before, after, h, he, hnone⟩
        cases before with
        | nil =>
          cases h
          exact absurd (SendEntry.eligible_nil.mp he) hg
        | cons k before =>
          cases h
          exact ⟨before, after, rfl, SendEntry.eligible_cons.mp he, (noneEligible_cons.mp hnone).2⟩

theorem SendEntry.ready_iff (s : State) (e : SendEntry) :
    e.ready s.ssu.peers = true ↔
      (s.peer e.dest).state = .isOpen ∧
        (e.phase = .retry ∨ (e.phase = .waiting ∧ 1 ≤ (s.peer e.dest).creditsHeld)) := by
  simp [SendEntry.ready, State.peer]

theorem SendEntry.eligible_iff (s : State) (before : List SendEntry) (e : SendEntry) :
    e.Eligible s.ssu.peers [] before ↔
      (s.peer e.dest).state = .isOpen ∧ (∀ f ∈ before, f.dest ≠ e.dest) ∧
        (e.phase = .retry ∨ (e.phase = .waiting ∧ 1 ≤ (s.peer e.dest).creditsHeld)) := by
  rw [SendEntry.Eligible, SendEntry.ready_iff]
  simp only [List.not_mem_nil, not_false_eq_true, true_and]
  exact and_left_comm

/-- Settles O39: the choice by the station state, then the entry by its place in the list. -/
theorem theFrameChosenByOrder : Obligations.TheFrameChosenByOrder := by
  refine ⟨fun s => ⟨State.choose_silent, State.choose_announcing, State.choose_leaving, State.choose_marked,
    fun honline hmark => ⟨fun p rest => State.choose_greeting honline hmark, fun hgreet =>
      ⟨fun p rest => State.choose_demanded honline hmark hgreet, fun hnormal =>
        ⟨fun e => State.choose_message honline hmark hgreet hnormal, fun hnone => ?_⟩⟩⟩⟩, fun s e => ?_⟩
  · rw [State.choose_credit honline hmark hgreet hnormal hnone]
    cases s.cru.list <;> rfl
  · rw [State.eligible, firstEligible_iff]
    simp only [NoneEligible, SendEntry.eligible_iff, and_assoc]

/-! ### Peer events -/

/-- A peer with no entry gets one at the tail (R164). -/
theorem foldEvent_new {p : StationId} {st : PeerState} {why : Reason} {l : List PeerEvent}
    (h : ∀ e ∈ l, e.peer ≠ p) :
    foldEvent p st why l = l ++ [{ peer := p, state := st, reason := why, changes := 1 }] := by
  induction l with
  | nil => rfl
  | cons e l ih =>
    rw [List.forall_mem_cons] at h
    rw [foldEvent, if_neg h.1, ih h.2]
    rfl

/-- A peer's entry is updated where it stands (R164). -/
theorem foldEvent_old {p : StationId} {st : PeerState} {why : Reason} {a b : List PeerEvent} {e : PeerEvent}
    (hpeer : e.peer = p) (h : ∀ f ∈ a, f.peer ≠ p) :
    foldEvent p st why (a ++ e :: b) =
      a ++ { peer := p, state := st, reason := why, changes := min 255 (e.changes + 1) } :: b := by
  induction a with
  | nil =>
    rw [List.nil_append, foldEvent, if_pos hpeer, hpeer]
    rfl
  | cons f a ih =>
    rw [List.forall_mem_cons] at h
    rw [List.cons_append, foldEvent, if_neg h.1, ih h.2]
    rfl

/-- Settles O40, by the entry that the peer has. -/
theorem peerEventsFoldInPlace : Obligations.PeerEventsFoldInPlace := by
  refine fun s p st why => ⟨fun h => ?_, fun a b e hlist hpeer h => ?_⟩
  · rw [State.peerEvent, foldEvent_new h]
  · rw [State.peerEvent, hlist, foldEvent_old hpeer h]

end Sys2Proof.Machine
end

