-- ==== Sys2Proof/Proofs/Windows.lean ====
section
/-! PROOF. The line turning BUSY and IDLE (R107), the windows with the station's slot (R123 to R125), and the
starts of the frame chosen (R126, R132, R137). -/

namespace Sys2Proof.Machine

/-! ### BUSY and IDLE -/

theorem State.senseBusy_idle {s : State} (hline : s.rif.line = .idle) :
    s.senseBusy =
      { s with
        rif :=
          { s.rif with
            line := .busy, idleCount := 0, reception := some { headerSeen := false },
            replyDue := none }
        ctu := { s.ctu with slotClock := none, slot := none }
        txa :=
          if s.txa.gap = true then { exchange := .idle, train := 0, gap := false, item := none }
          else s.txa } := by
  rw [State.senseBusy, if_pos hline]
  dsimp only
  split <;> rfl

theorem State.senseBusy_busy {s : State} (hline : s.rif.line = .busy) : s.senseBusy = s := by
  rw [State.senseBusy, if_neg (by rw [hline]; decide)]

theorem State.senseIdle_free {s : State} (hline : s.rif.line = .busy) (hreception : s.rif.reception = none)
    (htransmit : s.rif.transmit = none) :
    s.senseIdle =
      { s with
        rif := { s.rif with line := .idle, idleCount := 1, broken := none }
        rxu := { s.rxu with verdict := none } } := by
  rw [State.senseIdle, if_pos ⟨hline, hreception, htransmit⟩]
  simp [State.lineFree, State.forgetVerdict, hreception]

theorem State.senseIdle_none {s : State}
    (h : s.rif.line = .idle ∨ s.rif.reception ≠ none ∨ s.rif.transmit ≠ none) : s.senseIdle = s := by
  rw [State.senseIdle, if_neg]
  rintro ⟨hline, hreception, htransmit⟩
  rcases h with h | h | h
  · rw [h] at hline
    cases hline
  · exact h hreception
  · exact h htransmit

theorem exec_lineBusy_open {s : State} (hopen : s.resetLow = false) : exec .lineBusy s = .next s.senseBusy :=
  congrArg _ (State.onRail_open hopen State.senseBusy)

theorem exec_lineIdle_open {s : State} (hopen : s.resetLow = false) : exec .lineIdle s = .next s.senseIdle :=
  congrArg _ (State.onRail_open hopen State.senseIdle)

/-- Settles O41, by the line. -/
theorem lineTurnsBusyAndIdle : Obligations.LineTurnsBusyAndIdle := by
  intro s hopen
  rw [exec_lineBusy_open hopen, exec_lineIdle_open hopen]
  exact ⟨fun hline => congrArg _ (State.senseBusy_busy hline),
    fun hline => congrArg _ (State.senseBusy_idle hline),
    fun hline hreception htransmit => congrArg _ (State.senseIdle_free hline hreception htransmit),
    fun h => congrArg _ (State.senseIdle_none h)⟩

/-! ### The station's slot -/

/-- The slot in a window that begins now. -/
def State.ownSlot (s : State) : Option Nat :=
  s.tier.map fun urgent => (if urgent then 0 else 32) + slotIndex s.ctu.kind s.stc.sid s.ctu.lw

theorem State.ownSlot_none {s : State} (h : s.tier = none) : s.ownSlot = none := by
  rw [State.ownSlot, h]
  rfl

theorem State.ownSlot_urgent {s : State} (h : s.tier = some true) :
    s.ownSlot = some (slotIndex s.ctu.kind s.stc.sid s.ctu.lw) := by
  rw [State.ownSlot, h]
  exact congrArg some (Nat.zero_add _)

theorem State.ownSlot_normal {s : State} (h : s.tier = some false) :
    s.ownSlot = some (32 + slotIndex s.ctu.kind s.stc.sid s.ctu.lw) := by
  rw [State.ownSlot, h]
  rfl

theorem State.tier_none {s : State} (h : s.txa.exchange ≠ .idle ∨ s.txa.gap = true ∨ s.choose = none) :
    s.tier = none := by
  unfold State.tier
  rcases h with h | h | h
  · rw [if_neg fun k => h k.1]
  · rw [if_neg fun k => by rw [h] at k; cases k.2]
  · rw [h]
    exact ite_self _

section Tier

variable {s : State} (hexchange : s.txa.exchange = .idle) (hgap : s.txa.gap = false)
include hexchange hgap

theorem State.tier_announce (h : s.choose = some .announce) : s.tier = some true := by
  rw [State.tier, if_pos ⟨hexchange, hgap⟩, h]

theorem State.tier_leave (h : s.choose = some .leave) : s.tier = some true := by
  rw [State.tier, if_pos ⟨hexchange, hgap⟩, h]

theorem State.tier_greet {p : StationId} (h : s.choose = some (.greet p)) : s.tier = some true := by
  rw [State.tier, if_pos ⟨hexchange, hgap⟩, h]

theorem State.tier_credit {p : StationId} (h : s.choose = some (.credit p)) :
    s.tier = some s.cru.demand := by
  rw [State.tier, if_pos ⟨hexchange, hgap⟩, h]

theorem State.tier_message {e : SendEntry} (h : s.choose = some (.message e)) : s.tier = some false := by
  rw [State.tier, if_pos ⟨hexchange, hgap⟩, h]

end Tier

/-- A station that may start nothing has no slot (R124, R148). -/
theorem State.choose_none {s : State}
    (h : s.stc.state = .offline ∨ s.stc.state = .listening ∨ s.stc.state = .halted ∨
      (s.stc.leaveMark = true ∧ s.stc.state ≠ .leaving)) : s.choose = none := by
  rcases h with h | h | h | ⟨hmark, hstate⟩
  · exact State.choose_silent (.inl h)
  · exact State.choose_silent (.inr (.inl h))
  · exact State.choose_silent (.inr (.inr h))
  · cases hs : s.stc.state with
    | offline => exact State.choose_silent (.inl hs)
    | listening => exact State.choose_silent (.inr (.inl hs))
    | halted => exact State.choose_silent (.inr (.inr hs))
    | announcing => rw [State.choose_announcing hs, if_neg (by simp [hmark])]
    | online => exact State.choose_marked hs hmark
    | leaving => exact absurd hs hstate

/-- The slot is the one that R124 and R125 give. -/
theorem State.slotByRule (s : State) : s.SlotByRule s.ownSlot := by
  refine ⟨fun h => State.ownSlot_none (State.tier_none ?_), fun hexchange hgap hmark =>
    ⟨fun hstate hpending => ?_, fun hstate hpending => ?_, fun hstate =>
      ⟨fun hurgent => ?_, fun hgreet hnormal => ⟨fun hwork => ?_, fun hnone hlist => ?_⟩⟩⟩⟩
  · exact h.imp_right fun h => h.imp_right State.choose_none
  · refine State.ownSlot_urgent (State.tier_announce hexchange hgap ?_)
    rw [State.choose_announcing hstate, if_pos ⟨hpending, hmark⟩]
  · refine State.ownSlot_urgent (State.tier_leave hexchange hgap ?_)
    rw [State.choose_leaving hstate, if_pos hpending]
  · cases hlist : s.ssu.greetList with
    | cons p rest =>
      exact State.ownSlot_urgent (State.tier_greet hexchange hgap (State.choose_greeting hstate hmark hlist))
    | nil =>
      obtain ⟨hdemand, hcredit⟩ := hurgent.resolve_left fun h => h hlist
      obtain ⟨p, rest, hcredits⟩ := List.exists_cons_of_ne_nil hcredit
      refine State.ownSlot_urgent ((State.tier_credit hexchange hgap
        (State.choose_demanded hstate hmark hlist hdemand hcredits)).trans ?_)
      rw [hdemand]
  · cases he : s.eligible with
    | some e =>
      exact State.ownSlot_normal (State.tier_message hexchange hgap
        (State.choose_message hstate hmark hgreet hnormal he))
    | none =>
      have hcredit := hwork.resolve_left fun h => h he
      obtain ⟨p, rest, hcredits⟩ := List.exists_cons_of_ne_nil hcredit
      have hchoose : s.choose = some (.credit p) := by
        rw [State.choose_credit hstate hmark hgreet hnormal he, hcredits]
        rfl
      refine State.ownSlot_normal ((State.tier_credit hexchange hgap hchoose).trans ?_)
      rw [hnormal.resolve_right hcredit]
  · refine State.ownSlot_none (State.tier_none (.inr (.inr ?_)))
    rw [State.choose_credit hstate hmark hgreet hnormal hnone, hlist]
    rfl

/-! ### Windows -/

theorem exec_settleGap_open {s : State} (hopen : s.resetLow = false) : exec .settleGap s = .next s.settleGap :=
  congrArg _ (State.onRail_open hopen State.settleGap)

theorem exec_windowLastSlotEnd_open {s : State} (hopen : s.resetLow = false) :
    exec .windowLastSlotEnd s = .next s.windowTurn :=
  congrArg _ (State.onRail_open hopen State.windowTurn)

theorem State.elapse_ownSlot (s : State) (n : Nat) : (s.elapse n).ownSlot = s.ownSlot := rfl

/-- A window that begins at the settle gap (R123). -/
theorem State.settleGap_begins {s : State} (hline : s.rif.line = .idle) (hclock : s.ctu.slotClock = none)
    (hcount : s.rif.idleCount ≤ 16) :
    s.settleGap =
      { s with
        rif := { s.rif with idleCount := 16 }
        ctu := { s.ctu with slotClock := some 0, slot := s.ownSlot } } := by
  rw [State.settleGap, if_pos ⟨hline, hclock⟩, State.elapseTo_idleAt s 16 hcount (by decide)]
  rfl

/-- A window that follows on one that ran idle (R123). -/
theorem State.windowTurn_begins {s : State} {c : Nat} (hline : s.rif.line = .idle)
    (hclock : s.ctu.slotClock = some c) :
    s.windowTurn =
      { s with
        rif := { s.rif with idleCount := min 1024 (s.rif.idleCount + (256 - c)) }
        ctu := { s.ctu with slotClock := some 0, slot := s.ownSlot } } := by
  unfold State.windowTurn
  rw [hclock]
  dsimp only
  rw [if_pos hline]
  rfl

theorem slotIndex_rotation (a lw : StationId) :
    slotIndex .rotation a lw = (a.val + 64 - lw.val - 1) % 32 := by
  have ha := a.isLt
  have hlw := lw.isLt
  unfold slotIndex
  simp only [Fin.val_sub]
  omega

theorem slotIndex_lt (kind : WindowKind) (a lw : StationId) : slotIndex kind a lw < 32 := by
  cases kind with
  | rotation => exact (a - lw - 1).isLt
  | ordered => exact a.isLt

/-- Distinct identities have distinct indexes (R125). -/
theorem slotIndex_injective (kind : WindowKind) (lw : StationId) {a b : StationId}
    (h : slotIndex kind a lw = slotIndex kind b lw) : a = b := by
  cases kind with
  | rotation => exact sub_left_injective (sub_left_injective (Fin.ext h : a - lw - 1 = b - lw - 1))
  | ordered => exact Fin.ext h

/-- Settles O42: the two beginnings of a window, then the slot index. -/
theorem windowsBeginWithASlot : Obligations.WindowsBeginWithASlot := by
  refine ⟨fun s hopen hline => ⟨fun hclock hcount => ⟨s.ownSlot, ?_, s.slotByRule⟩, fun c hclock _ =>
    ⟨s.ownSlot, ?_, s.slotByRule⟩⟩, fun a b lw kind =>
      ⟨slotIndex_rotation a lw, rfl, slotIndex_lt kind a lw, slotIndex_injective kind lw⟩⟩
  · rw [exec_settleGap_open hopen, State.settleGap_begins hline hclock hcount]
  · rw [exec_windowLastSlotEnd_open hopen, State.windowTurn_begins hline hclock]

/-! ### Starts -/

theorem exec_slotStart_open {s : State} (hopen : s.resetLow = false) : exec .slotStart s = .next s.slotBegins :=
  congrArg _ (State.onRail_open hopen State.slotBegins)

theorem exec_trainGapEnd_open {s : State} (hopen : s.resetLow = false) :
    exec .trainGapEnd s = .next s.gapEnds :=
  congrArg _ (State.onRail_open hopen State.gapEnds)

/-- A frame start ends the idle period and the window, however far they were (R114, R123). -/
theorem State.starts_elapsed (s : State) (r : Rif) (clock slot : Option Nat) (w : Work) (n : Nat) :
    ({ s with rif := r, ctu := { s.ctu with slotClock := clock, slot := slot } } : State).starts w n =
      s.starts w n := by
  cases w <;> rfl

section Slot

variable {s : State} {k c : Nat} (hslot : s.ctu.slot = some k) (hclock : s.ctu.slotClock = some c)
include hslot hclock

theorem State.slotBegins_busy (hline : s.rif.line = .busy) :
    s.slotBegins = { s with ctu := { s.ctu with slot := none } } := by
  unfold State.slotBegins
  rw [hslot, hclock]
  dsimp only
  rw [if_neg (by rw [hline]; decide)]
  rfl

theorem State.slotBegins_starts (hline : s.rif.line = .idle) {w : Work} (hw : s.choose = some w) :
    s.slotBegins = s.starts w 1 := by
  have hchoose : (s.elapse (Config.slotBits * k - c)).noSlot.choose = some w := hw
  unfold State.slotBegins
  rw [hslot, hclock]
  dsimp only
  rw [if_pos hline, hchoose]
  exact (State.startWork_starts _ w 1).trans (s.starts_elapsed _ _ _ w 1)

theorem State.slotBegins_passes (hline : s.rif.line = .idle) (hw : s.choose = none) (hle : c ≤ 4 * k)
    (hlt : 4 * k < 256) :
    s.slotBegins =
      { s with
        rif := { s.rif with idleCount := min 1024 (s.rif.idleCount + (4 * k - c)) }
        ctu := { s.ctu with slotClock := some (4 * k), slot := none } } := by
  have hchoose : (s.elapse (Config.slotBits * k - c)).noSlot.choose = none := hw
  have hmoment : (c + (Config.slotBits * k - c)) % Config.windowBits = 4 * k := by
    rw [Nat.add_sub_cancel' hle]
    exact Nat.mod_eq_of_lt hlt
  unfold State.slotBegins
  rw [hslot, hclock]
  dsimp only
  rw [if_pos hline, hchoose]
  simp only [State.noSlot, State.elapse, hclock, Option.map_some, hmoment]

end Slot

section Gap

variable {s : State} (hgap : s.txa.gap = true)
include hgap

theorem State.gapEnds_busy (hline : s.rif.line = .busy) :
    s.gapEnds = { s with txa := { exchange := .idle, train := 0, gap := false, item := none } } := by
  rw [State.gapEnds, if_pos hgap, if_neg (by rw [hline]; decide)]
  rfl

theorem State.gapEnds_starts (hline : s.rif.line = .idle) {w : Work} (hw : s.choose = some w) :
    s.gapEnds = s.starts w (s.txa.train + 1) := by
  have hchoose : (s.elapseTo Config.trainGapEnd).choose = some w := hw
  rw [State.gapEnds, if_pos hgap, if_pos hline]
  dsimp only
  rw [hchoose]
  exact (State.startWork_starts _ w _).trans (s.starts_elapsed _ _ _ w _)

theorem State.gapEnds_passes (hline : s.rif.line = .idle) (hw : s.choose = none)
    (hcount : s.rif.idleCount ≤ 9) :
    s.gapEnds =
      { s.idleAt 9 with txa := { exchange := .idle, train := 0, gap := false, item := none } } := by
  have hchoose : (s.elapseTo Config.trainGapEnd).choose = none := hw
  rw [State.gapEnds, if_pos hgap, if_pos hline]
  dsimp only
  rw [hchoose, State.elapseTo_idleAt s 9 hcount (by decide)]
  rfl

end Gap

/-- Settles O43: the slot start, then the end of the train gap, by the line and the frame chosen. -/
theorem startsOfTheChosenFrame : Obligations.StartsOfTheChosenFrame := by
  refine ⟨fun s k c hopen hslot hclock => ⟨fun hline => ⟨fun w hw => ?_, fun hw hle hlt => ?_⟩,
    fun hline => ?_⟩, fun s hopen hgap => ⟨fun hline => ⟨fun w hw => ?_, fun hw hcount => ?_⟩, fun hline => ?_⟩⟩
  · rw [exec_slotStart_open hopen, State.slotBegins_starts hslot hclock hline hw]
  · rw [exec_slotStart_open hopen, State.slotBegins_passes hslot hclock hline hw hle hlt]
  · rw [exec_slotStart_open hopen, State.slotBegins_busy hslot hclock hline]
  · rw [exec_trainGapEnd_open hopen, State.gapEnds_starts hgap hline hw]
  · rw [exec_trainGapEnd_open hopen, State.gapEnds_passes hgap hline hw hcount]
  · rw [exec_trainGapEnd_open hopen, State.gapEnds_busy hgap hline]

end Sys2Proof.Machine
end

