-- ==== Sys2Proof/Proofs/OwnFrames.lean ====
section
/-! PROOF. The station's own transmissions: collisions (R115, R128, R135), their ends (R114, R118, R133, R146,
R150), and the reply that is due (R117, R31). -/

namespace Sys2Proof.Machine

/-! ### The compare -/

theorem bitMismatch_false_iff (d x : Level × Level) :
    bitMismatch d x = false ↔ mismatch d.1 x.1 = false ∧ mismatch d.2 x.2 = false := by
  rw [bitMismatch, Bool.or_eq_false_iff]

theorem Frame.endCommand_cut {f : Frame} {sensed : List (Level × Level)}
    (h : ∃ q ∈ f.lineHalves.zip sensed, mismatch q.1.1 q.2.1 = true ∨ mismatch q.1.2 q.2.2 = true) :
    f.endCommand sensed = .collision := by
  obtain ⟨q, hq, hmismatch⟩ := h
  rw [Frame.endCommand, if_pos ((isCut_iff _ _).mpr ⟨q, hq, (bitMismatch_iff _ _).mpr hmismatch⟩)]

theorem Frame.endCommand_whole {f : Frame} {sensed : List (Level × Level)}
    (h : ∀ q ∈ f.lineHalves.zip sensed, mismatch q.1.1 q.2.1 = false ∧ mismatch q.1.2 q.2.2 = false) :
    f.endCommand sensed = f.kind.ownEnd := by
  rw [Frame.endCommand, if_neg]
  rw [isCut_iff]
  rintro ⟨q, hq, hcut⟩
  rw [(bitMismatch_false_iff _ _).mpr (h q hq)] at hcut
  cases hcut

/-! ### Collisions -/

theorem exec_collision_open {s : State} (hopen : s.resetLow = false) : exec .collision s = .next s.collide :=
  congrArg _ (State.onRail_open hopen State.collide)

/-- The transmission cut, and the next window ORDERED (R115, R128). -/
def State.cutShort (s : State) : State :=
  { s with rif := { s.rif with transmit := none }, ctu := { s.ctu with kind := .ordered } }

section Collide

variable {s : State} {f : Frame} (htransmit : s.rif.transmit = some f)
include htransmit

theorem State.collide_reply (hkind : f.kind = .reply) : s.collide = s.cutShort.settleLeave := by
  unfold State.collide
  rw [htransmit]
  dsimp only
  rw [if_pos hkind]
  rfl

theorem State.collide_exchange (hkind : f.kind ≠ .reply) :
    s.collide = s.cutShort.cutExchange.settleLeave := by
  unfold State.collide
  rw [htransmit]
  dsimp only
  rw [if_neg hkind]
  rfl

end Collide

/-- An exchange that ends with no outcome leaves every item but a MESSAGE where it is (R135). -/
theorem State.cutExchange_kept {s : State} (hmark : s.stc.leaveMark = false)
    (hitem : ∀ h p c, s.txa.item ≠ some (.message h p c)) : s.cutExchange = s.arbiterIdle := by
  unfold State.cutExchange
  dsimp only
  split
  case h_1 h p c hmessage => exact absurd hmessage (hitem h p c)
  case h_2 => rw [hmark, if_neg Bool.false_ne_true]
  all_goals rfl

/-- A MESSAGE that is cut goes to RETRY with its attempts unchanged (R74). -/
theorem State.cutExchange_message {s : State} (hmark : s.stc.leaveMark = false) {h : Handle} {p : StationId}
    {c : Carried} (hitem : s.txa.item = some (.message h p c)) :
    s.cutExchange = s.arbiterIdle.entryRetry h false := by
  unfold State.cutExchange
  rw [hitem, hmark]
  rfl

/-- An ANNOUNCE that is cut after a LEAVE makes the station OFFLINE (R147). -/
theorem State.cutExchange_announce {s : State} (hmark : s.stc.leaveMark = true)
    (hitem : s.txa.item = some .announce) :
    s.cutExchange =
      { s.arbiterIdle with
        stc := { s.stc with state := .offline, leaveMark := false, pendingAnnounce := false } } := by
  unfold State.cutExchange
  rw [hitem, hmark]
  rfl

/-- Settles O44: the compare, then the cut by the frame and the item. -/
theorem collisionCutsTheTransmission : Obligations.CollisionCutsTheTransmission := by
  refine ⟨⟨mismatch_iff, fun before after heard later d x hl hwhole hcut => ?_,
    fun driven sensed hl hwhole => drivenUntilCut_whole driven sensed hl hwhole, fun f sensed =>
      ⟨Frame.endCommand_cut, fun hwhole => ?_⟩⟩, fun s f hopen htransmit => ?_⟩
  · exact drivenUntilCut_append before heard d x after later hl hwhole ((bitMismatch_iff d x).mpr hcut)
  · refine (Frame.endCommand_whole hwhole).trans ?_
    cases f.kind <;> rfl
  · rw [exec_collision_open hopen]
    refine ⟨fun hmark hkind => ?_, fun hmark hkind hitem => ?_, fun hmark hkind h p c hitem => ?_,
      fun hmark hkind hitem => ?_⟩
    · rw [State.collide_reply htransmit hkind, State.settleLeave_unmarked s.cutShort hmark]
      rfl
    · rw [State.collide_exchange htransmit hkind, State.cutExchange_kept (s := s.cutShort) hmark hitem,
        State.settleLeave_unmarked s.cutShort.arbiterIdle hmark]
      rfl
    · rw [State.collide_exchange htransmit hkind, State.cutExchange_message (s := s.cutShort) hmark hitem,
        State.settleLeave_unmarked _ (by exact hmark)]
      rfl
    · rw [State.collide_exchange htransmit hkind, State.cutExchange_announce (s := s.cutShort) hmark hitem,
        State.settleLeave_notOnline (by exact nofun)]
      rfl

/-! ### Ends of the station's own frames -/

/-- The line after a frame of the station's own. -/
def Rif.afterSending (r : Rif) : Rif :=
  { r with line := .idle, idleCount := 1, reception := none, transmit := none, broken := none }

theorem State.ownEnd_eq (s : State) : s.ownEnd = { s.wonBy s.stc.sid with rif := s.rif.afterSending } := by
  rw [State.ownEnd, State.takeWinner_wonBy]
  rfl

theorem State.awaitReply_eq (s : State) :
    s.awaitReply =
      { s.wonBy s.stc.sid with rif := s.rif.afterSending, txa := { s.txa with exchange := .awaitReply } } := by
  rw [State.awaitReply, State.ownEnd_eq]
  rfl

theorem State.frameEnds_awaits {s : State} {f : Frame} (htransmit : s.rif.transmit = some f)
    (hkind : f.kind = .greet ∨ f.kind = .message ∨ f.kind = .credit) : s.frameEnds = s.awaitReply := by
  unfold State.frameEnds
  rw [htransmit]
  cases f with
  | greet | message | credit => rfl
  | announce | leave | reply => simp [Frame.kind] at hkind

theorem State.replyEnds_sent {s : State} {f : Frame} (htransmit : s.rif.transmit = some f)
    (hkind : f.kind = .reply) : s.replyEnds = ({ s with rif := s.rif.afterSending } : State).settleLeave := by
  unfold State.replyEnds
  rw [htransmit]
  cases f with
  | reply => rfl
  | announce | leave | greet | message | credit => cases hkind

/-- The station is ONLINE, or OFFLINE when a LEAVE was taken during its ANNOUNCE (R146, R147). -/
def Stc.announced (c : Stc) : Stc :=
  if c.leaveMark = true then { c with state := .offline, leaveMark := false, pendingAnnounce := false }
  else { c with state := .online, pendingAnnounce := false, latch := true }

theorem State.announceEnds_sent {s : State} {p : StationId}
    (htransmit : s.rif.transmit = some (.announce p)) :
    s.announceEnds =
      ({ s.wonBy s.stc.sid with rif := s.rif.afterSending, stc := s.stc.announced } : State).exchangeOver
        true := by
  unfold State.announceEnds
  rw [htransmit]
  dsimp only
  rw [State.decideTrain_over, State.ownEnd_eq, Stc.announced]
  split <;> rfl

theorem State.leaveEnds_sent {s : State} {p : StationId} (htransmit : s.rif.transmit = some (.leave p)) :
    s.leaveEnds =
      { s.wonBy s.stc.sid with
        rif := s.rif.afterSending
        stc := { s.stc with state := .offline, pendingLeave := false, latch := true }
        txa := { exchange := .idle, train := 0, gap := false, item := none } } := by
  unfold State.leaveEnds
  rw [htransmit]
  dsimp only
  rw [State.ownEnd_eq]
  rfl

/-- A train with nothing more to send is over (R138). -/
theorem State.exchangeOver_none {s : State} (h : s.choose = none) (answered : Bool) :
    s.exchangeOver answered =
      { s with txa := { exchange := .idle, train := 0, gap := false, item := none } } := by
  rw [State.exchangeOver, if_neg fun k => k.2.2 h]

/-- Settles O45, by the frame that has ended. -/
theorem ownTransmissionsEnd : Obligations.OwnTransmissionsEnd := by
  refine ⟨fun s f hopen htransmit => ⟨fun hkind => ?_, fun hkind hmark => ?_⟩, fun s p hopen =>
    ⟨fun htransmit hmark => ?_, fun htransmit hmark => ?_, fun htransmit => ?_⟩⟩
  · refine congrArg _ ((State.onRail_open hopen State.frameEnds).trans ?_)
    rw [State.frameEnds_awaits htransmit hkind, State.awaitReply_eq]
    rfl
  · refine congrArg _ ((State.onRail_open hopen State.replyEnds).trans ?_)
    rw [State.replyEnds_sent htransmit hkind, State.settleLeave_unmarked _ (by exact hmark)]
    rfl
  · refine congrArg _ ((State.onRail_open hopen State.announceEnds).trans ?_)
    rw [State.announceEnds_sent htransmit, Stc.announced, if_neg (by simp [hmark])]
    rfl
  · refine congrArg _ ((State.onRail_open hopen State.announceEnds).trans ?_)
    rw [State.announceEnds_sent htransmit, Stc.announced, if_pos hmark,
      State.exchangeOver_none (State.choose_silent (.inl rfl))]
    rfl
  · refine congrArg _ ((State.onRail_open hopen State.leaveEnds).trans ?_)
    rw [State.leaveEnds_sent htransmit]
    rfl

/-! ### The reply that is due -/

theorem exec_replyMoment_open {s : State} (hopen : s.resetLow = false) :
    exec .replyMoment s = .next s.replyMoment :=
  congrArg _ (State.onRail_open hopen State.replyMoment)

theorem State.replyMoment_busy {s : State} (hline : s.rif.line = .busy) : s.replyMoment = s := by
  unfold State.replyMoment
  split
  · rfl
  · rw [if_neg (by rw [hline]; decide)]

theorem State.replyMoment_starts {s : State} {d : ReplyDue} (hline : s.rif.line = .idle)
    (hdue : s.rif.replyDue = some d) : s.replyMoment = s.startReply d := by
  unfold State.replyMoment
  rw [hdue]
  dsimp only
  rw [if_pos hline]

/-- A session opened by answering a GREET, with the GREETED reply on the line (R24, R31). -/
theorem State.startReply_greeted (s : State) (p : StationId) (sess grant : Byte) :
    let q := s.peer p
    let opened : Peer :=
      { q.ended .isOpen (q.mySess + 1) 0 with theirSess := some sess, creditsHeld := min 15 grant.toNat }
    let u := s.sessionEnds p opened false .greeted (sentReset p)
    s.startReply { peer := p, status := .greeted sess grant } =
      ({ u with cru := if q.state = .isOpen then u.cru else s.cru } : State).sending
        (.reply s.stc.sid p (.greeted (q.mySess + 1) (BitVec.ofNat 8 (q.r - q.inUse)))) := by
  intro q opened u
  have hpeer : (s.answerGreet p sess grant).peer p = opened := by
    rw [State.answerGreet_eq]
    exact (State.sessionEnds_peer s p opened false .greeted (sentReset p) p).trans (if_pos rfl)
  unfold State.startReply
  dsimp only
  rw [hpeer, State.answerGreet_eq]
  rfl

/-- Settles O46, by the line and the reply that is due. -/
theorem replyMomentSendsTheReply : Obligations.ReplyMomentSendsTheReply := by
  intro s p hopen
  rw [exec_replyMoment_open hopen]
  refine ⟨fun hline => by rw [State.replyMoment_busy hline], fun hline => ⟨fun hdue => ?_, fun hdue => ?_,
    fun hdue => ?_, fun sess grant hdue => ?_⟩⟩
  · rw [State.replyMoment_starts hline hdue]
    rfl
  · rw [State.replyMoment_starts hline hdue]
    rfl
  · rw [State.replyMoment_starts hline hdue]
    rfl
  · rw [State.replyMoment_starts hline hdue, State.startReply_greeted]

end Sys2Proof.Machine
end

