-- ==== Sys2Proof/Proofs/Timeouts.lean ====
section
/-! PROOF. The reply timeout (R30, R36, R61, R78, R79, R118). -/

namespace Sys2Proof.Machine

/-! ### The outcome no reply -/

theorem exec_replyTimeout_open {s : State} (hopen : s.resetLow = false) :
    exec .replyTimeout s = .next s.replyTimeout :=
  congrArg _ (State.onRail_open hopen State.replyTimeout)

theorem State.applyOutcome_stc (s : State) (item : Item) (r : Option ReplyStatus) :
    (s.applyOutcome item r).stc = s.stc := by
  simp

/-- The timeout hands the outcome no reply at the 24th idle bit time (R118). -/
theorem exec_replyTimeout_over {s : State} {item : Item} (h : s.Awaiting item) (hline : s.rif.line = .idle)
    (hcount : s.rif.idleCount ≤ 24) :
    exec .replyTimeout s =
      .next (((s.idleAt 24).applyOutcome item none).exchangeOver (answers item none)) := by
  obtain ⟨hopen, honline, hmark, hexchange, hitem⟩ := h
  have hkept : ((s.idleAt 24).applyOutcome item none).stc.leaveMark = false := by
    rw [State.applyOutcome_stc]
    exact hmark
  rw [exec_replyTimeout_open hopen, State.replyTimeout, if_pos ⟨hexchange, hline⟩,
    State.elapseTo_idleAt s 24 hcount (by decide),
    State.finishExchange_over (s.idleAt 24) item none hitem hkept]

/-! ### A MESSAGE -/

/-- An entry whose frame has gone unanswered, at the retry limit or below it (R78, R79). -/
theorem State.messageOutcome_unanswered {s : State} {h : Handle} {e : SendEntry} (p : StationId) (c : Carried)
    (hmark : s.stc.leaveMark = false) (he : s.sendingEntry h = some e) :
    s.messageOutcome h p c none = s.messageUnanswered e := by
  unfold State.messageOutcome
  dsimp only
  rw [if_neg (by simp [hmark]), he]

theorem State.messageUnanswered_below {s : State} {e : SendEntry}
    (h : s.stc.retryLimit = none ∨ ∃ l, s.stc.retryLimit = some l ∧ min 255 (e.attempts + 1) < l) :
    s.messageUnanswered e = s.entryRetry e.handle true := by
  rw [State.messageUnanswered, reachesLimit_below s.stc.retryLimit e.raised h, if_neg Bool.false_ne_true]

theorem State.messageUnanswered_reached {s : State} {e : SendEntry} {l : Nat}
    (hl : s.stc.retryLimit = some l) (h : l ≤ min 255 (e.attempts + 1)) :
    s.messageUnanswered e = s.becomeLost e.dest .retryExhausted (some e.handle) := by
  rw [State.messageUnanswered, hl, reachesLimit_reached l e.raised h, if_pos rfl]

/-- Settles O47, by the retry limit. -/
theorem replyTimeoutOfAMessage : Obligations.ReplyTimeoutOfAMessage := by
  intro s h p c e hawaiting hline hcount he hhandle hdest hphase hunique hpeer
  obtain ⟨-, -, hmark, -⟩ := id hawaiting
  have hentry : (s.idleAt 24).sendingEntry h = some e :=
    State.sendingEntry_of_mem (s.idleAt 24) h e he hhandle hphase hunique
  have hover := exec_replyTimeout_over hawaiting hline hcount
  rw [State.applyOutcome, State.messageOutcome_unanswered (s := s.idleAt 24) p c hmark hentry] at hover
  subst hhandle hdest
  refine ⟨fun hbelow => ?_, fun l hl hreached => ?_⟩
  · rw [hover, State.messageUnanswered_below (s := s.idleAt 24) hbelow]
    rfl
  · rw [hover, State.messageUnanswered_reached (s := s.idleAt 24) hl hreached,
      State.becomeLost_open (s.idleAt 24) e.dest _ _ hpeer, lostCause_eq]
    rfl

/-! ### A GREET or a CREDIT -/

theorem peers_set_set (peers : Vector Peer 32) (p : StationId) (a b : Peer) :
    (peers.set p a).set p b = peers.set p b := Vector.set_set _ _

/-- A record that is replaced at the tail of the Greet List is replaced as it would be in its place (R25). -/
theorem Ssu.updated_toTail (u : Ssu) (p : StationId) (a b : Peer) :
    ({ peers := u.peers.set p a, greetList := u.greetList.filter (· ≠ p) ++ [p] } : Ssu).updated p b false =
      u.updated p b false := by
  simp [Ssu.updated]

/-- The record after one more unanswered GREET or CREDIT (R36). -/
def Peer.retried (q : Peer) : Peer := { q with ctlAttempts := min 64 (q.ctlAttempts + 1) }

/-- An unanswered GREET is counted, and its entry goes to the tail (R30). -/
def State.greetRetried (s : State) (p : StationId) : State :=
  { s with
    ssu :=
      { peers := s.ssu.peers.set p (s.peer p).retried
        greetList := s.ssu.greetList.filter (· ≠ p) ++ [p] } }

/-- An unanswered CREDIT is counted, and its entry goes to the tail (R61). -/
def State.creditRetried (s : State) (p : StationId) : State :=
  { s with
    ssu := { s.ssu with peers := s.ssu.peers.set p (s.peer p).retried }
    cru := s.cru.evaluated (s.cru.list.filter (· ≠ p) ++ [p]) (s.ssu.peers.set p (s.peer p).retried) }

theorem State.greetRetried_peer (s : State) (p : StationId) : (s.greetRetried p).peer p = (s.peer p).retried :=
  (peers_set s.ssu.peers p p _).trans (if_pos rfl)

theorem State.creditRetried_peer (s : State) (p : StationId) : (s.creditRetried p).peer p = (s.peer p).retried :=
  (peers_set s.ssu.peers p p _).trans (if_pos rfl)

theorem State.greetOutcome_none {s : State} {p : StationId} (hstate : (s.peer p).state = .greeting)
    (hlisted : p ∈ s.ssu.greetList) :
    s.greetOutcome p none =
      if reachesLimit s.stc.retryLimit (s.peer p).raisedCtl = true then
        (s.greetRetried p).becomeLost p .greetExhausted none
      else s.greetRetried p := by
  have hmoved : (s.setPeer p (s.peer p).retried).greetToTail p = s.greetRetried p := if_pos hlisted
  unfold State.greetOutcome
  dsimp only
  rw [if_pos ⟨hstate, hlisted⟩, ← hmoved]
  rfl

theorem State.creditOutcome_none {s : State} {p : StationId} {c : Carried}
    (hcarries : (s.peer p).carries c = true) (hlisted : p ∈ s.cru.list) :
    s.creditOutcome p c none =
      if reachesLimit s.stc.retryLimit (s.peer p).raisedCtl = true then
        (s.creditRetried p).becomeLost p .retryExhausted none
      else s.creditRetried p := by
  have hmoved : (s.setPeer p (s.peer p).retried).creditToTail p = s.creditRetried p :=
    State.creditToTail_eq (s.setPeer p (s.peer p).retried) p hlisted
  unfold State.creditOutcome
  dsimp only
  rw [if_pos hcarries, ← hmoved]
  rfl

theorem Peer.carries_iff (q : Peer) (c : Carried) :
    q.carries c = true ↔ q.state = .isOpen ∧ q.mySess = c.srcSess ∧ q.theirSess = some c.dstSess := by
  simp [Peer.carries, and_assoc]

/-- The record of a peer at whose retry limit the session is given up (R37). -/
def Peer.givenUp (q : Peer) : Peer := q.ended .lost q.mySess (min 64 (q.ctlAttempts + 1))

/-- A GREETING peer becomes LOST from the tail of the Greet List (R30, R37). -/
theorem State.greetOutcome_reached {s : State} {p : StationId} (hstate : (s.peer p).state = .greeting)
    (hlisted : p ∈ s.ssu.greetList)
    (hlimit : reachesLimit s.stc.retryLimit (s.peer p).raisedCtl = true) :
    s.greetOutcome p none =
      ({ s with
          ssu := s.ssu.updated p (s.peer p).givenUp false
          atu := s.atu.told p .lost .greetExhausted } : State).completed (lostCause p none) := by
  have hnotOpen : ((s.greetRetried p).peer p).state ≠ .isOpen := by
    rw [State.greetRetried_peer, Peer.retried, hstate]
    decide
  have hssu : (s.greetRetried p).ssu.updated p (s.peer p).givenUp false =
      s.ssu.updated p (s.peer p).givenUp false := Ssu.updated_toTail s.ssu p _ _
  rw [State.greetOutcome_none hstate hlisted, if_pos hlimit, State.becomeLost_notOpen _ _ _ _ hnotOpen,
    State.greetRetried_peer, ← hssu]
  rfl

/-- An OPEN peer becomes LOST from the tail of the Credit Return List (R37, R61). -/
theorem State.creditOutcome_reached {s : State} {p : StationId} {c : Carried}
    (hcarries : (s.peer p).carries c = true) (hlisted : p ∈ s.cru.list)
    (hlimit : reachesLimit s.stc.retryLimit (s.peer p).raisedCtl = true) :
    s.creditOutcome p c none =
      ({ s with cru := (s.creditRetried p).cru } : State).sessionEnds p (s.peer p).givenUp false
        .retryExhausted (lostCause p none) := by
  obtain ⟨hstate, -⟩ := ((s.peer p).carries_iff c).mp hcarries
  have hopen : ((s.creditRetried p).peer p).state = .isOpen := by
    rw [State.creditRetried_peer, Peer.retried, hstate]
  have hpeers : (s.creditRetried p).ssu.peers.set p (s.peer p).givenUp =
      s.ssu.peers.set p (s.peer p).givenUp := peers_set_set _ _ _ _
  have hssu : (s.creditRetried p).ssu.updated p (s.peer p).givenUp false =
      s.ssu.updated p (s.peer p).givenUp false := by
    rw [Ssu.updated, hpeers]
    rfl
  rw [State.creditOutcome_none hcarries hlisted, if_pos hlimit, State.becomeLost_open _ _ _ _ hopen,
    State.creditRetried_peer]
  change (s.creditRetried p).sessionEnds p (s.peer p).givenUp false .retryExhausted (lostCause p none) = _
  rw [State.sessionEnds, hpeers, hssu]
  rfl

/-- Settles O48, by the item and the retry limit. -/
theorem replyTimeoutOfAGreetOrCredit : Obligations.ReplyTimeoutOfAGreetOrCredit := by
  intro s p hline hcount
  have hbelow (h : s.stc.retryLimit = none ∨
      ∃ l, s.stc.retryLimit = some l ∧ min 64 ((s.peer p).ctlAttempts + 1) < l) :
      ¬ reachesLimit s.stc.retryLimit (s.peer p).raisedCtl = true := by
    rw [reachesLimit_below s.stc.retryLimit (s.peer p).raisedCtl h]
    exact Bool.false_ne_true
  have hreached (h : ∃ l, s.stc.retryLimit = some l ∧ l ≤ min 64 ((s.peer p).ctlAttempts + 1)) :
      reachesLimit s.stc.retryLimit (s.peer p).raisedCtl = true := by
    obtain ⟨l, hl, hle⟩ := h
    rw [hl]
    exact reachesLimit_reached l _ hle
  refine ⟨fun hawaiting hstate hlisted => ?_, fun c hawaiting hstate hmine htheirs hlisted => ?_⟩
  · have hover := exec_replyTimeout_over hawaiting hline hcount
    rw [State.applyOutcome] at hover
    refine ⟨fun h => ?_, fun h => ?_⟩
    · rw [hover, State.greetOutcome_none (s := s.idleAt 24) hstate hlisted, if_neg (by exact hbelow h)]
      rfl
    · rw [hover, State.greetOutcome_reached (s := s.idleAt 24) hstate hlisted (hreached h), lostCause_none]
      rfl
  · have hover := exec_replyTimeout_over hawaiting hline hcount
    have hcarries : ((s.idleAt 24).peer p).carries c = true :=
      (Peer.carries_iff _ c).mpr ⟨hstate, hmine, htheirs⟩
    rw [State.applyOutcome] at hover
    refine ⟨fun h => ?_, fun h => ?_⟩
    · rw [hover, State.creditOutcome_none hcarries hlisted, if_neg (by exact hbelow h)]
      rfl
    · rw [hover, State.creditOutcome_reached hcarries hlisted (hreached h), lostCause_none]
      rfl

end Sys2Proof.Machine
end

