-- ==== Sys2Proof/Proofs/Replies.lean ====
section
/-! PROOF. Replies (R29, R34, R53, R61, R75 to R77, R119): the outcome that a reply brings to the exchange. -/

namespace Sys2Proof.Machine

/-! ### A source that is heard -/

theorem State.heardFrom_dead {s : State} {p : StationId}
    (h : (s.peer p).state = .absent ∨ (s.peer p).state = .lost) : s.heardFrom p = s.greetNow p .heard :=
  if_pos h

theorem State.heardFrom_alive {s : State} {p : StationId}
    (h : ¬ ((s.peer p).state = .absent ∨ (s.peer p).state = .lost)) : s.heardFrom p = s :=
  if_neg h

theorem State.greetNow_peer (s : State) (p : StationId) (why : Reason) :
    (s.greetNow p why).peer p = (s.peer p).owed :=
  (peers_set s.ssu.peers p p _).trans (if_pos rfl)

theorem State.heardFrom_open {s : State} {p : StationId} (h : (s.peer p).state = .isOpen) :
    s.heardFrom p = s := by
  refine State.heardFrom_alive ?_
  rw [h]
  decide

theorem State.heardFrom_notOpen {s : State} {p : StationId} (h : (s.peer p).state ≠ .isOpen) :
    ((s.heardFrom p).peer p).state ≠ .isOpen := by
  unfold State.heardFrom
  split
  · rw [State.greetNow_peer]
    nofun
  · exact h

theorem State.heardFrom_frame (s : State) (p : StationId) :
    (s.heardFrom p).rif = s.rif ∧ (s.heardFrom p).txa = s.txa ∧ (s.heardFrom p).stc = s.stc ∧
      (s.heardFrom p).cru = s.cru := by
  unfold State.heardFrom
  split <;> exact ⟨rfl, rfl, rfl, rfl⟩

theorem State.replyEffect_heard {s : State} (hfill : s.rxu.fill = none) (p : StationId) :
    s.lineFree.replyEffect p.byte = s.received.heardFrom p := by
  rw [State.replyEffect, State.dropVerdict_received s hfill, State.hearSource, stationOf_byte]
  exact s.received.hear_heardFrom p

/-! ### The outcome of a reply -/

/-- A REPLY of the destination of the frame hands its status (R119). -/
theorem State.replyOutcome_own {s : State} {item : Item} {p : StationId} (hitem : s.txa.item = some item)
    (hdest : item.dest? = some p) (status sess grant : Byte) :
    s.replyOutcome p.byte s.stc.sid status sess grant = ReplyStatus.ofBytes status sess grant := by
  have hbind : s.txa.item.bind Item.dest? = some p := by
    rw [hitem]
    exact hdest
  rw [State.replyOutcome, hbind, if_pos ⟨rfl, stationOf_byte p, rfl⟩]

/-- A reply ends the wait with its outcome, after its source has been heard (R38, R119). -/
theorem exec_reply_over {s : State} {item : Item} {p : StationId} (h : s.Awaiting item)
    (hdest : item.dest? = some p) (hreception : s.rif.reception.isSome = true) (hfill : s.rxu.fill = none)
    (hother : p ≠ s.stc.sid) (status sess grant : Byte) :
    exec (.replyFrameEnd p.byte s.stc.sid status sess grant) s =
      .next
        (((s.received.heardFrom p).applyOutcome item (ReplyStatus.ofBytes status sess grant)).exchangeOver
          (answers item (ReplyStatus.ofBytes status sess grant))) := by
  obtain ⟨hopen, honline, hmark, hexchange, hitem⟩ := h
  obtain ⟨-, htxa, hstc, -⟩ := s.received.heardFrom_frame p
  have hawait : (s.received.heardFrom p).txa.exchange = .awaitReply := by
    rw [htxa]
    exact hexchange
  have hheld : (s.received.heardFrom p).txa.item = some item := by
    rw [htxa]
    exact hitem
  rw [exec_replyFrameEnd_ends hopen (Rif.endsReception_of_reception hreception),
    State.goodFrame_reply s p _ _ hother honline, State.replyEffect_heard hfill,
    State.replyOutcome_own hitem hdest, State.endAwait_awaiting _ _ hawait,
    State.finishExchange_over _ item _ hheld]
  rw [State.applyOutcome_stc, hstc]
  exact hmark

/-- The outcome of a reply: the effect has been made, and the answered exchange is over. -/
def State.nextAnswered (t : State) : Host.Outcome State Fault Refusal :=
  .next (t.exchangeOver true)

theorem State.nextAnswered_eq (t : State) : t.nextAnswered = .next (t.exchangeOver true) :=
  rfl

/-! ### Outcomes by the record -/

/-- The record is in the session of a frame (R53). -/
def Peer.InSessionOf (q : Peer) (c : Carried) : Prop :=
  q.state = .isOpen ∧ q.mySess = c.srcSess ∧ q.theirSess = some c.dstSess

theorem State.acceptTotal_same {s : State} {p : StationId} {c : Carried} (h : (s.peer p).InSessionOf c) :
    s.acceptTotal p c = s.acknowledged p c :=
  s.acceptTotal_acknowledged p c h.1 h.2.1 h.2.2

theorem State.refusedReply_stale {s : State} {p : StationId} (h : (s.peer p).state = .isOpen) :
    s.refusedReply p .staleReply true = s.sessionRestarts p .staleReply := by
  rw [State.refusedReply, if_pos h, State.greetOwed_restart s p _ h]

theorem State.refusedReply_noCredit {s : State} {p : StationId} (h : (s.peer p).state = .isOpen) :
    s.refusedReply p .noCreditReply false =
      s.sessionEnds p (s.peer p).owed true .noCreditReply fun _ => none := by
  rw [State.refusedReply, if_pos h, State.greetOwed_quiet s p _ h]

/-- With the leave mark clear a MESSAGE entry completes by the status of its reply (R75 to R77). -/
theorem State.messageOutcome_replied {s : State} (hmark : s.stc.leaveMark = false) (h : Handle)
    (p : StationId) (c : Carried) :
    s.messageOutcome h p c (some .accept) = (s.completed (exchangeEnds h .delivered)).acceptTotal p c ∧
      s.messageOutcome h p c (some .stale) =
        (s.completed (exchangeEnds h .sessionReset)).refusedReply p .staleReply true ∧
      s.messageOutcome h p c (some .noCredit) =
        (s.completed (exchangeEnds h .refusedNoCredit)).refusedReply p .noCreditReply false := by
  simp only [State.messageOutcome, hmark, State.completeWhere_completed, entryCause_counted,
    Bool.false_eq_true, if_false, and_self]

section Heard

variable {s : State} {p : StationId}

/-- Hearing the source changes no record that is in a session. -/
theorem State.heardFrom_inSession {c : Carried} (h : (s.peer p).InSessionOf c) :
    ((s.heardFrom p).peer p).InSessionOf c := by
  rw [State.heardFrom_open h.1]
  exact h

theorem State.heardFrom_notInSession {c : Carried} (h : ¬ (s.peer p).InSessionOf c) :
    ¬ ((s.heardFrom p).peer p).InSessionOf c := by
  by_cases hopen : (s.peer p).state = .isOpen
  · rw [State.heardFrom_open hopen]
    exact h
  · exact fun k => State.heardFrom_notOpen hopen k.1

end Heard

/-- Settles O49: the replies to a MESSAGE, then those to a CREDIT and to a GREET. -/
theorem repliesAreTaken : Obligations.RepliesAreTaken := by
  refine ⟨fun s h p c hawaiting hreception hfill hother => ?_, fun s p hreception hfill hother =>
    ⟨fun c hawaiting => ?_, fun hawaiting sess grant => ?_⟩⟩
  · have hover (status : Byte) := exec_reply_over hawaiting rfl hreception hfill hother status 0 0
    obtain ⟨-, -, hmark, -⟩ := id hawaiting
    obtain ⟨-, -, hstc, -⟩ := s.received.heardFrom_frame p
    obtain ⟨haccept, hstale, hnoCredit⟩ := State.messageOutcome_replied (s := s.received.heardFrom p)
      (by rw [hstc]; exact hmark) h p c
    have hpeer (cause : SendEntry → Option (Status × Nat)) :=
      (s.received.heardFrom p).completed_peer cause p
    refine ⟨fun hsame => ?_, fun hother => ?_, fun hopen => ⟨?_, ?_⟩, fun hnotOpen => ⟨?_, ?_⟩⟩
    · refine (hover 1).trans (congrArg State.nextAnswered (haccept.trans ?_))
      refine State.acceptTotal_same ?_
      rw [hpeer]
      exact State.heardFrom_inSession (s := s.received) hsame
    · refine (hover 1).trans (congrArg State.nextAnswered (haccept.trans ?_))
      refine State.acceptTotal_cleared _ p c ?_
      rw [hpeer]
      exact State.heardFrom_notInSession (s := s.received) hother
    · refine (hover 2).trans (congrArg State.nextAnswered (hstale.trans ?_))
      refine State.refusedReply_stale ?_
      rw [hpeer, State.heardFrom_open (s := s.received) hopen]
      exact hopen
    · refine (hover 3).trans (congrArg State.nextAnswered (hnoCredit.trans ?_))
      have hrecord : ((s.received.heardFrom p).completed (exchangeEnds h .refusedNoCredit)).peer p = s.peer p := by
        rw [hpeer, State.heardFrom_open (s := s.received) hopen]
        rfl
      rw [State.refusedReply_noCredit (by rw [hrecord]; exact hopen), hrecord]
    · refine (hover 2).trans (congrArg State.nextAnswered (hstale.trans ?_))
      refine State.refusedReply_notOpen _ p _ _ ?_
      rw [hpeer]
      exact State.heardFrom_notOpen (s := s.received) hnotOpen
    · refine (hover 3).trans (congrArg State.nextAnswered (hnoCredit.trans ?_))
      refine State.refusedReply_notOpen _ p _ _ ?_
      rw [hpeer]
      exact State.heardFrom_notOpen (s := s.received) hnotOpen
  · have hover (status : Byte) := exec_reply_over hawaiting rfl hreception hfill hother status 0 0
    refine ⟨fun hsame => ?_, fun hother => ?_, fun hopen => ?_, fun hnotOpen => ?_⟩
    · refine (hover 1).trans (congrArg State.nextAnswered ?_)
      exact State.acceptTotal_same (State.heardFrom_inSession (s := s.received) hsame)
    · refine (hover 1).trans (congrArg State.nextAnswered ?_)
      exact State.acceptTotal_cleared _ p c (State.heardFrom_notInSession (s := s.received) hother)
    · refine (hover 2).trans (congrArg State.nextAnswered ?_)
      refine State.refusedReply_stale ?_
      rw [State.heardFrom_open (s := s.received) hopen]
      exact hopen
    · refine (hover 2).trans (congrArg State.nextAnswered ?_)
      exact State.refusedReply_notOpen _ p _ _ (State.heardFrom_notOpen (s := s.received) hnotOpen)
  · have hover := exec_reply_over hawaiting rfl hreception hfill hother 4 sess grant
    obtain ⟨-, -, -, hcru⟩ := s.received.heardFrom_frame p
    refine ⟨fun hgreeting => ?_, fun hnot => ?_⟩
    · refine hover.trans (congrArg State.nextAnswered ?_)
      have hopens : (s.received.heardFrom p).applyOutcome (.greet p) (some (.greeted sess grant)) =
          (s.received.heardFrom p).openSession p sess grant := if_pos hgreeting
      refine hopens.trans ?_
      rw [State.openSession_eq, hcru]
      rfl
    · refine hover.trans (congrArg State.nextAnswered ?_)
      exact if_neg hnot

end Sys2Proof.Machine
end

