-- ==== Sys2Proof/Proofs/FrameEffects.lean ====
section
/-! PROOF. What the effects of a frame leave aside: none of them reads or changes the exchange and the leave
mark, so that they are the same whatever the station waits for (R93, R118, R148). -/

namespace Sys2Proof.Machine

/-! ### Another wait -/

/-- The state with another exchange and another leave mark. -/
def State.waiting (x : Txa) (mark : Bool) (s : State) : State :=
  { s with txa := x, stc := { s.stc with leaveMark := mark } }

theorem State.waiting_self (s : State) : s.waiting s.txa s.stc.leaveMark = s :=
  rfl

/-- The operation neither reads nor changes the exchange and the leave mark. -/
def Blind (f : State → State) : Prop :=
  ∀ (x : Txa) (mark : Bool) (s : State), f (s.waiting x mark) = (f s).waiting x mark

theorem Blind.comp {f g : State → State} (hf : Blind f) (hg : Blind g) : Blind fun s => f (g s) :=
  fun x mark s => (congrArg f (hg x mark s)).trans (hf x mark (g s))

theorem Blind.txa {f : State → State} (hf : Blind f) (s : State) : (f s).txa = s.txa := by
  have h := hf s.txa s.stc.leaveMark s
  rw [State.waiting_self] at h
  rw [h]
  rfl

theorem Blind.leaveMark {f : State → State} (hf : Blind f) (s : State) :
    (f s).stc.leaveMark = s.stc.leaveMark := by
  have h := hf s.txa s.stc.leaveMark s
  rw [State.waiting_self] at h
  rw [h]
  rfl

section Operations

variable (x : Txa) (mark : Bool) (s : State)

/-! ### What is read -/

@[simp] theorem State.waiting_peer (p : StationId) : (s.waiting x mark).peer p = s.peer p :=
  rfl

@[simp] theorem State.waiting_sid : (s.waiting x mark).stc.sid = s.stc.sid :=
  rfl

@[simp] theorem State.waiting_rxu : (s.waiting x mark).rxu = s.rxu :=
  rfl

@[simp] theorem State.waiting_ssu : (s.waiting x mark).ssu = s.ssu :=
  rfl

@[simp] theorem State.waiting_cru : (s.waiting x mark).cru = s.cru :=
  rfl

@[simp] theorem State.waiting_rif : (s.waiting x mark).rif = s.rif :=
  rfl

/-! ### Records and lists -/

@[simp] theorem State.waiting_setPeer (p : StationId) (q : Peer) :
    (s.waiting x mark).setPeer p q = (s.setPeer p q).waiting x mark :=
  rfl

@[simp] theorem State.waiting_appendGreet (p : StationId) :
    (s.waiting x mark).appendGreet p = (s.appendGreet p).waiting x mark := by
  unfold State.appendGreet
  rw [State.waiting_ssu]
  split <;> rfl

@[simp] theorem State.waiting_removeGreet (p : StationId) :
    (s.waiting x mark).removeGreet p = (s.removeGreet p).waiting x mark :=
  rfl

@[simp] theorem State.waiting_greetToTail (p : StationId) :
    (s.waiting x mark).greetToTail p = (s.greetToTail p).waiting x mark := by
  unfold State.greetToTail
  rw [State.waiting_ssu]
  split <;> rfl

@[simp] theorem State.waiting_addCredit (p : StationId) :
    (s.waiting x mark).addCredit p = (s.addCredit p).waiting x mark := by
  unfold State.addCredit
  rw [State.waiting_cru]
  split <;> rfl

@[simp] theorem State.waiting_creditToTail (p : StationId) :
    (s.waiting x mark).creditToTail p = (s.creditToTail p).waiting x mark := by
  unfold State.creditToTail
  rw [State.waiting_cru]
  split <;> rfl

@[simp] theorem State.waiting_dropCredit (p : StationId) :
    (s.waiting x mark).dropCredit p = (s.dropCredit p).waiting x mark :=
  rfl

@[simp] theorem State.waiting_evalDemand :
    (s.waiting x mark).evalDemand = s.evalDemand.waiting x mark :=
  rfl

@[simp] theorem State.waiting_completeWhere (cause : SendEntry → Option (Status × Nat)) :
    (s.waiting x mark).completeWhere cause = (s.completeWhere cause).waiting x mark := by
  rw [State.completeWhere_completed, State.completeWhere_completed]
  rfl

@[simp] theorem State.waiting_peerEvent (p : StationId) (st : PeerState) (why : Reason) :
    (s.waiting x mark).peerEvent p st why = (s.peerEvent p st why).waiting x mark :=
  rfl

@[simp] theorem State.waiting_handFault (kind : FaultKind) (p : StationId) (frame : FrameKind)
    (value : Byte) :
    (s.waiting x mark).handFault kind p frame value = (s.handFault kind p frame value).waiting x mark :=
  rfl

@[simp] theorem State.waiting_handReply (p : StationId) (status : ReplyStatus) :
    (s.waiting x mark).handReply p status = (s.handReply p status).waiting x mark :=
  rfl

/-! ### Sessions -/

@[simp] theorem State.waiting_greetOwed (p : StationId) (why : Reason) (notice : Bool) :
    (s.waiting x mark).greetOwed p why notice = (s.greetOwed p why notice).waiting x mark := by
  unfold State.greetOwed
  simp only [State.waiting_peer, State.waiting_setPeer, State.waiting_appendGreet]
  split
  · split <;> simp
  · simp

@[simp] theorem State.waiting_becomeLost (p : StationId) (why : Reason) (named : Option Handle) :
    (s.waiting x mark).becomeLost p why named = (s.becomeLost p why named).waiting x mark := by
  unfold State.becomeLost
  simp only [State.waiting_peer, State.waiting_setPeer, State.waiting_removeGreet]
  by_cases hopen : (s.peer p).state = .isOpen
  · simp [hopen]
  · simp [hopen]

@[simp] theorem State.waiting_peerLeft (p : StationId) :
    (s.waiting x mark).peerLeft p = (s.peerLeft p).waiting x mark := by
  unfold State.peerLeft
  simp only [State.waiting_peer, State.waiting_setPeer, State.waiting_removeGreet]
  by_cases habsent : (s.peer p).state = .absent
  · simp [habsent]
  · by_cases hopen : (s.peer p).state = .isOpen
    · simp [hopen]
    · simp [habsent, hopen]

@[simp] theorem State.waiting_hear (p : StationId) :
    (s.waiting x mark).hear p = (s.hear p).waiting x mark := by
  unfold State.hear
  rw [State.waiting_peer]
  split <;> simp

@[simp] theorem State.waiting_hearSource (src : Byte) :
    (s.waiting x mark).hearSource src = (s.hearSource src).waiting x mark := by
  unfold State.hearSource
  split <;> simp

@[simp] theorem State.waiting_announced (p : StationId) :
    (s.waiting x mark).announced p = (s.announced p).waiting x mark := by
  unfold State.announced
  rw [State.waiting_peer]
  split <;> simp

@[simp] theorem State.waiting_protocolFault (p : StationId) :
    (s.waiting x mark).protocolFault p = (s.protocolFault p).waiting x mark := by
  unfold State.protocolFault
  rw [State.waiting_peer]
  split <;> simp

@[simp] theorem State.waiting_openSession (p : StationId) (sess grant : Byte) :
    (s.waiting x mark).openSession p sess grant = (s.openSession p sess grant).waiting x mark := by
  unfold State.openSession
  simp only [State.waiting_peer, State.waiting_setPeer, State.waiting_removeGreet]
  by_cases hlevel : (s.peer p).releasedTotal = (s.peer p).ackedTotal
  · simp [hlevel]
  · simp [hlevel]

@[simp] theorem State.waiting_evaluateTotal (p : StationId) (frame : FrameKind) (total : Byte) :
    (s.waiting x mark).evaluateTotal p frame total = (s.evaluateTotal p frame total).waiting x mark := by
  unfold State.evaluateTotal
  rw [State.waiting_peer]
  split <;> simp

/-! ### Verdicts -/

@[simp] theorem State.waiting_forgetVerdict :
    (s.waiting x mark).forgetVerdict = s.forgetVerdict.waiting x mark :=
  rfl

@[simp] theorem State.waiting_dropVerdict :
    (s.waiting x mark).dropVerdict = s.dropVerdict.waiting x mark := by
  unfold State.dropVerdict State.abortFill
  rw [State.waiting_rxu]
  split <;> rfl

@[simp] theorem State.waiting_postFill (p : StationId) (seq : Byte) :
    (s.waiting x mark).postFill p seq = (s.postFill p seq).waiting x mark := by
  unfold State.postFill
  rw [State.waiting_rxu]
  split <;> rfl

@[simp] theorem State.waiting_actOnVerdict :
    (s.waiting x mark).actOnVerdict = s.actOnVerdict.waiting x mark := by
  unfold State.actOnVerdict
  rw [State.waiting_rxu]
  split
  · rfl
  · dsimp only
    split
    · rfl
    · split <;> simp

/-! ### The line -/

@[simp] theorem State.waiting_wonLine (src : Byte) (kind : FrameKind) :
    (s.waiting x mark).wonLine src kind = (s.wonLine src kind).waiting x mark := by
  unfold State.wonLine State.takeWinner
  split
  · rfl
  · split <;> rfl

end Operations

/-! ### The effects of frames -/

theorem messageEffect_blind (src : Byte) : Blind (State.messageEffect src) := fun x mark s => by
  simp only [State.messageEffect, State.waiting_actOnVerdict, State.waiting_dropVerdict,
    State.waiting_hearSource]

theorem creditEffect_blind (src : Byte) (dst : StationId) (srcSess dstSess total : Byte) :
    Blind (State.creditEffect src dst srcSess dstSess total) := fun x mark s => by
  unfold State.creditEffect
  simp only [State.waiting_dropVerdict, State.waiting_sid, State.waiting_peer]
  split
  · rfl
  · split
    · split <;> simp
    · simp

theorem greetEffect_blind (src : Byte) (dst : StationId) (sess grant : Byte) :
    Blind (State.greetEffect src dst sess grant) := fun x mark s => by
  unfold State.greetEffect
  simp only [State.waiting_dropVerdict, State.waiting_sid]
  split
  · rfl
  · split <;> simp

theorem announceEffect_blind (src : Byte) : Blind (State.announceEffect src) := fun x mark s => by
  unfold State.announceEffect
  split <;> simp

theorem leaveEffect_blind (src : Byte) : Blind (State.leaveEffect src) := fun x mark s => by
  unfold State.leaveEffect
  split <;> simp

theorem replyEffect_blind (src : Byte) : Blind (State.replyEffect src) := fun x mark s => by
  simp only [State.replyEffect, State.waiting_dropVerdict, State.waiting_hearSource]

theorem wonLine_blind (src : Byte) (kind : FrameKind) : Blind fun s => s.wonLine src kind :=
  fun x mark s => s.waiting_wonLine x mark src kind

/-! ### Frames of other stations -/

theorem StationId.byte_of_stationOf {b : Byte} {p : StationId} (h : stationOf b = some p) : b = p.byte :=
  (stationOf_iff b p).mp h

theorem State.isDuplicate_ne {s : State} {src : Byte} (h : src ≠ s.stc.sid.byte) :
    s.isDuplicate src = false := by
  have hsrc : (stationOf src == some s.stc.sid) = false := by
    rw [beq_eq_false_iff_ne]
    exact fun heq => h (StationId.byte_of_stationOf heq)
  rw [State.isDuplicate, hsrc]
  rfl

/-- A good frame of another station in ONLINE is its effect, and then it ends a wait (R118, R119). -/
theorem State.goodFrame_online {s : State} {src : Byte} (hsrc : src ≠ s.stc.sid.byte)
    (honline : s.stc.state = .online) (kind : FrameKind) (effect : State → State) (r : Option ReplyStatus) :
    s.goodFrame src kind effect r = (effect (s.wonLine src kind)).endAwait r := by
  have hview := s.wonLine_lineView src kind
  have hstate : (s.wonLine src kind).stc.state = .online := (congrArg LineView.state hview).trans honline
  have hsid : (s.wonLine src kind).stc.sid = s.stc.sid := congrArg LineView.sid hview
  have hlistens : ¬ ((kind ≠ .reply ∧ (stationOf src).isSome = true) ∧
      (s.wonLine src kind).stc.state = .listening) := by
    rw [hstate]
    simp
  rw [State.goodFrame_eq, State.frameTaken_heard (State.isDuplicate_ne (by rw [hsid]; exact hsrc)) hlistens,
    if_pos hstate]

theorem StationId.byte_inj {p q : StationId} (h : p.byte = q.byte) : p = q := by
  have hstation := congrArg stationOf h
  rw [stationOf_byte, stationOf_byte] at hstation
  exact Option.some.inj hstation

/-- A good frame of another station that finds no wait is its effect alone. -/
theorem State.goodFrame_effect {s : State} (h : s.AtFrameEnd) {p : StationId} (hother : p ≠ s.stc.sid)
    {kind : FrameKind} {effect : State → State} (hblind : Blind effect) (r : Option ReplyStatus) :
    s.goodFrame p.byte kind effect r = effect (s.wonLine p.byte kind) := by
  obtain ⟨-, -, honline, hmark, hawait⟩ := h
  have hall := hblind.comp (wonLine_blind p.byte kind)
  rw [State.goodFrame_online (fun heq => hother (StationId.byte_inj heq)) honline]
  refine State.endAwait_none _ r ?_ ?_
  · rw [hall.txa]
    exact hawait
  · rw [hall.leaveMark]
    exact hmark

theorem State.wonLine_wonBy (s : State) (p : StationId) {kind : FrameKind} (hkind : kind ≠ .reply) :
    s.wonLine p.byte kind = s.lineFree.wonBy p := by
  rw [State.wonLine, if_neg hkind, State.takeWinner_wonBy]

theorem State.wonLine_reply (s : State) (src : Byte) : s.wonLine src .reply = s.lineFree :=
  if_pos rfl

end Sys2Proof.Machine
end

