-- ==== Sys2Proof/Proofs/FrameRules.lean ====
section
/-! PROOF. Good frames of other stations in ONLINE: ANNOUNCE and LEAVE (R27, R40), CREDIT, GREET and REPLY (R31,
R38, R52), and MESSAGE by its verdict (R87, R95 to R101). -/

namespace Sys2Proof.Machine

section AtEnd

variable {s : State} (hend : s.AtFrameEnd) {p : StationId} (hother : p ≠ s.stc.sid)
include hend hother

/-! ### The effect of each kind -/

theorem exec_message_effect (dst : StationId) :
    exec (.messageFrameEnd p.byte dst) s = .next ((s.lineFree.wonBy p).messageEffect p.byte) := by
  obtain ⟨hopen, hreception, -⟩ := id hend
  rw [exec_messageFrameEnd_ends hopen (Rif.endsReception_of_reception hreception),
    State.goodFrame_effect hend hother (messageEffect_blind p.byte), State.wonLine_wonBy s p (by decide)]

theorem exec_credit_effect (dst : StationId) (srcSess dstSess total : Byte) :
    exec (.creditFrameEnd p.byte dst srcSess dstSess total) s =
      .next ((s.lineFree.wonBy p).creditEffect p.byte dst srcSess dstSess total) := by
  obtain ⟨hopen, hreception, -⟩ := id hend
  rw [exec_creditFrameEnd_ends hopen (Rif.endsReception_of_reception hreception),
    State.goodFrame_effect hend hother (creditEffect_blind p.byte dst srcSess dstSess total),
    State.wonLine_wonBy s p (by decide)]

theorem exec_greet_effect (dst : StationId) (sess grant : Byte) :
    exec (.greetFrameEnd p.byte dst sess grant) s =
      .next ((s.lineFree.wonBy p).greetEffect p.byte dst sess grant) := by
  obtain ⟨hopen, hreception, -⟩ := id hend
  rw [exec_greetFrameEnd_ends hopen (Rif.endsReception_of_reception hreception),
    State.goodFrame_effect hend hother (greetEffect_blind p.byte dst sess grant),
    State.wonLine_wonBy s p (by decide)]

theorem exec_announce_effect :
    exec (.announceFrameEnd p.byte) s = .next ((s.lineFree.wonBy p).announceEffect p.byte) := by
  obtain ⟨hopen, hreception, -⟩ := id hend
  rw [exec_announceFrameEnd_ends hopen (Rif.endsReception_of_reception hreception),
    State.goodFrame_effect hend hother (announceEffect_blind p.byte), State.wonLine_wonBy s p (by decide)]

theorem exec_leave_effect :
    exec (.leaveFrameEnd p.byte) s = .next ((s.lineFree.wonBy p).leaveEffect p.byte) := by
  obtain ⟨hopen, hreception, -⟩ := id hend
  rw [exec_leaveFrameEnd_ends hopen (Rif.endsReception_of_reception hreception),
    State.goodFrame_effect hend hother (leaveEffect_blind p.byte), State.wonLine_wonBy s p (by decide)]

theorem exec_reply_effect (dst : StationId) (status sess grant : Byte) :
    exec (.replyFrameEnd p.byte dst status sess grant) s = .next (s.lineFree.replyEffect p.byte) := by
  obtain ⟨hopen, hreception, -⟩ := id hend
  rw [exec_replyFrameEnd_ends hopen (Rif.endsReception_of_reception hreception),
    State.goodFrame_effect hend hother (replyEffect_blind p.byte), State.wonLine_reply]

end AtEnd

/-! ### ANNOUNCE and LEAVE -/

theorem State.announced_dead {s : State} {p : StationId}
    (h : (s.peer p).state = .absent ∨ (s.peer p).state = .lost) :
    s.announced p = s.greetNow p .announced := by
  rw [State.announced]
  rcases h with h | h
  · rw [h]
    exact State.greetOwed_notOpen s p .announced true (by rw [h]; decide)
  · rw [h]
    exact State.greetOwed_notOpen s p .announced true (by rw [h]; decide)

theorem State.announced_open {s : State} {p : StationId} (h : (s.peer p).state = .isOpen) :
    s.announced p = s.sessionRestarts p .announced := by
  rw [State.announced, h]
  exact State.greetOwed_restart s p .announced h

theorem State.announced_greeting {s : State} {p : StationId} (h : (s.peer p).state = .greeting) :
    s.announced p =
      { s with ssu := { s.ssu with peers := s.ssu.peers.set p { s.peer p with ctlAttempts := 0 } } } := by
  rw [State.announced, h]
  rfl

theorem State.peerLeft_absent {s : State} {p : StationId} (h : (s.peer p).state = .absent) :
    s.peerLeft p = s :=
  if_pos h

/-- The effects of ANNOUNCE and LEAVE, once the reception is over (R27, R40). -/
theorem State.announceEffect_received {s : State} (hfill : s.rxu.fill = none) (p : StationId) :
    (s.lineFree.wonBy p).announceEffect p.byte = (s.received.wonBy p).announced p := by
  rw [State.announceEffect, stationOf_byte, State.dropVerdict_won s p hfill]

theorem State.leaveEffect_received {s : State} (hfill : s.rxu.fill = none) (p : StationId) :
    (s.lineFree.wonBy p).leaveEffect p.byte = (s.received.wonBy p).peerLeft p := by
  rw [State.leaveEffect, stationOf_byte, State.dropVerdict_won s p hfill]

theorem leftCause_notice (p : StationId) :
    leftCause p = fun e => if e.dest = p then some (.peerLeft, noticeCount e) else none :=
  rfl

/-- Settles O55: ANNOUNCE, then LEAVE, by the state of the record. -/
theorem announceAndLeaveFrames : Obligations.AnnounceAndLeaveFrames := by
  refine ⟨fun s p hend hfill hother => ?_, fun s p hend hfill hother => ?_⟩
  · rw [exec_announce_effect hend hother, State.announceEffect_received hfill]
    exact ⟨fun hdead => congrArg _ (State.announced_dead (s := s.received.wonBy p) hdead),
      fun hopen => congrArg _ (State.announced_open (s := s.received.wonBy p) hopen),
      fun hgreeting => congrArg _ (State.announced_greeting (s := s.received.wonBy p) hgreeting)⟩
  · rw [exec_leave_effect hend hother, State.leaveEffect_received hfill]
    refine ⟨fun habsent => congrArg _ (State.peerLeft_absent (s := s.received.wonBy p) habsent),
      fun hopen => congrArg _ (State.peerLeft_open (s.received.wonBy p) p hopen), fun hstate => ?_⟩
    refine congrArg _ (State.peerLeft_notOpen (s.received.wonBy p) p (fun hopen => ?_) fun habsent => ?_)
    · rw [show (s.peer p).state = .isOpen from hopen] at hstate
      simp at hstate
    · rw [show (s.peer p).state = .absent from habsent] at hstate
      simp at hstate

/-! ### CREDIT, GREET and REPLY -/

/-- The effects of a CREDIT by its destination and its session (R33, R38, R52). -/
theorem State.creditEffect_received {s : State} (hfill : s.rxu.fill = none) (p dst : StationId)
    (srcSess dstSess total : Byte) :
    (s.lineFree.wonBy p).creditEffect p.byte dst srcSess dstSess total =
      if dst = s.stc.sid then
        if (s.peer p).inSession srcSess dstSess then (s.received.wonBy p).evaluateTotal p .credit total
        else ((s.received.wonBy p).replying p .stale).hear p
      else (s.received.wonBy p).hear p := by
  rw [State.creditEffect, stationOf_byte]
  dsimp only
  rw [State.dropVerdict_won s p hfill]
  rfl

theorem Peer.inSession_iff (q : Peer) (srcSess dstSess : Byte) :
    q.inSession srcSess dstSess = true ↔
      q.state = .isOpen ∧ q.theirSess = some srcSess ∧ q.mySess = dstSess := by
  simp [Peer.inSession, and_assoc]

theorem Peer.inSession_dead {q : Peer} (h : q.state = .absent ∨ q.state = .lost) (srcSess dstSess : Byte) :
    ¬ q.inSession srcSess dstSess = true := by
  rw [Peer.inSession_iff]
  rintro ⟨hopen, -, -⟩
  rw [hopen] at h
  simp at h

theorem State.greetEffect_received {s : State} (hfill : s.rxu.fill = none) (p dst : StationId)
    (sess grant : Byte) :
    (s.lineFree.wonBy p).greetEffect p.byte dst sess grant =
      if dst = s.stc.sid then (s.received.wonBy p).replying p (.greeted sess grant)
      else (s.received.wonBy p).hear p := by
  rw [State.greetEffect, stationOf_byte]
  dsimp only
  rw [State.dropVerdict_won s p hfill]
  rfl

/-- Settles O54: a CREDIT, then a GREET and a REPLY. -/
theorem creditGreetAndReplyFrames : Obligations.CreditGreetAndReplyFrames := by
  refine ⟨fun s p dst srcSess dstSess total hend hfill hother => ?_, fun s p dst a b c hend hfill hother =>
    ⟨fun hdst => ?_, fun hdst => ?_, ?_⟩⟩
  · rw [exec_credit_effect hend hother, State.creditEffect_received hfill]
    refine ⟨fun hdst => ?_, fun hdst => ?_⟩
    · rw [if_neg hdst]
      exact ⟨fun hdead => congrArg _ (State.hear_dead (s.received.wonBy p) p hdead),
        fun halive => congrArg _ (State.hear_alive (s.received.wonBy p) p halive)⟩
    · rw [if_pos hdst]
      refine ⟨fun hdead => ?_, fun halive hnot => ?_, fun hbelongs hrange => ?_,
        fun hbelongs hdistance hover => ?_⟩
      · rw [if_neg (Peer.inSession_dead hdead srcSess dstSess)]
        exact congrArg _ (State.hear_dead ((s.received.wonBy p).replying p .stale) p hdead)
      · rw [if_neg fun h => hnot ((Peer.inSession_iff _ _ _).mp h)]
        exact congrArg _ (State.hear_alive ((s.received.wonBy p).replying p .stale) p halive)
      · rw [if_pos ((Peer.inSession_iff _ _ _).mpr hbelongs)]
        exact congrArg _ (State.evaluateTotal_inRange (s.received.wonBy p) p .credit total hrange)
      · rw [if_pos ((Peer.inSession_iff _ _ _).mpr hbelongs)]
        refine congrArg _ (State.evaluateTotal_outOfRange (s.received.wonBy p) p .credit total hbelongs.1
          fun hrange => hrange.elim hdistance fun hle => ?_)
        exact absurd (Nat.lt_of_lt_of_le hover hle) (lt_irrefl 15)
  · rw [exec_greet_effect hend hother, State.greetEffect_received hfill, if_pos hdst]
  · rw [exec_greet_effect hend hother, State.greetEffect_received hfill, if_neg hdst]
    exact ⟨fun hdead => congrArg _ (State.hear_dead (s.received.wonBy p) p hdead),
      fun halive => congrArg _ (State.hear_alive (s.received.wonBy p) p halive)⟩
  · rw [exec_reply_effect hend hother, State.replyEffect_heard hfill]
    exact ⟨fun hdead => congrArg _ (State.heardFrom_dead (s := s.received) hdead),
      fun halive => congrArg _ (State.heardFrom_alive (s := s.received) halive)⟩

/-! ### MESSAGE -/

/-- What the receiver does by a verdict on a frame of p, the verdict taken down (R95 to R101). -/
def State.actsOn (s : State) (p : StationId) (v : Verdict) : State :=
  match v.cls with
  | .ignored => s
  | .outside => s.handReply p .stale
  | .sequence => ((s.handFault .sequence p .message v.seq).protocolFault p).handReply p .stale
  | .overrun => ((s.handFault .creditOverrun p .message v.seq).protocolFault p).handReply p .noCredit
  | .duplicate => s.evaluateTotal p .message v.total
  | .admitted => (s.postFill p v.seq).evaluateTotal p .message v.total

theorem State.actOnVerdict_from {s : State} {p : StationId} {v : Verdict} (hverdict : s.rxu.verdict = some v)
    (hsource : v.source = p.byte) : s.actOnVerdict = s.forgetVerdict.actsOn p v := by
  have hstation : stationOf v.source = some p := by rw [hsource, stationOf_byte]
  unfold State.actOnVerdict State.actsOn
  rw [hverdict]
  dsimp only
  cases hcls : v.cls <;> simp only [hstation]

/-- With no verdict and no fill there is nothing to drop. -/
theorem State.dropVerdict_clean {s : State} (hverdict : s.rxu.verdict = none) (hfill : s.rxu.fill = none) :
    s.dropVerdict = s := by
  rw [State.dropVerdict_noFill s hfill, ← hverdict]

/-- The effect of a MESSAGE with a verdict: the receiver acts on it, and the source is heard (R38, R100). -/
theorem State.messageEffect_from {s t : State} {p : StationId} {v : Verdict}
    (hverdict : s.rxu.verdict = some v) (hsource : v.source = p.byte)
    (hacts : (s.received.wonBy p).actsOn p v = t) (hnone : t.rxu.verdict = none)
    (hfill : t.rxu.fill = none) : (s.lineFree.wonBy p).messageEffect p.byte = t.hear p := by
  have hact : (s.lineFree.wonBy p).actOnVerdict = t :=
    (State.actOnVerdict_from (s := s.lineFree.wonBy p) hverdict hsource).trans hacts
  rw [State.messageEffect, hact, State.dropVerdict_clean hnone hfill, State.hearSource, stationOf_byte]

theorem not_dead_of_open {x : PeerState} (h : x = .isOpen) : ¬ (x = .absent ∨ x = .lost) := by
  rw [h]
  decide

theorem State.messageEffect_noVerdict {s : State} (hverdict : s.rxu.verdict = none)
    (hfill : s.rxu.fill = none) (p : StationId) :
    (s.lineFree.wonBy p).messageEffect p.byte = (s.received.wonBy p).hear p := by
  have hact : (s.lineFree.wonBy p).actOnVerdict = s.lineFree.wonBy p := by
    rw [State.actOnVerdict, show (s.lineFree.wonBy p).rxu.verdict = none from hverdict]
  rw [State.messageEffect, hact, State.dropVerdict_won s p hfill, State.hearSource, stationOf_byte]

/-- A peer whose session has just restarted is in GREETING, and it is not heard again. -/
theorem State.sessionRestarts_heard (s : State) (p : StationId) (why : Reason) (status : ReplyStatus) :
    ((s.sessionRestarts p why).replying p status).hear p = (s.sessionRestarts p why).replying p status := by
  refine State.hear_alive _ p ?_
  have hpeer : ((s.sessionRestarts p why).replying p status).peer p = (s.peer p).owed :=
    s.sessionRestarts_peer p why
  rw [hpeer]
  rintro (h | h) <;> cases h

/-- A fault in a MESSAGE of an OPEN peer ends its session (R35, R98, R99). -/
theorem State.protocolFault_faulted {s : State} {p : StationId} (h : (s.peer p).state = .isOpen)
    (kind : FaultKind) (value : Byte) :
    (s.handFault kind p .message value).protocolFault p =
      (s.faulted kind p .message value).sessionRestarts p .protocolFault := by
  rw [State.handFault_faulted, State.protocolFault_open _ _ (by exact h)]

section Judged

variable {s : State} (hend : s.AtFrameEnd) {p : StationId} (hother : p ≠ s.stc.sid) {v : Verdict}
  (hverdict : s.rxu.verdict = some v) (hsource : v.source = p.byte)
include hend hother hverdict hsource

/-- A MESSAGE of an OPEN peer that brings a fault (R98, R99). -/
theorem exec_message_fault (hfill : s.rxu.fill = none) (hopen : (s.peer p).state = .isOpen)
    (kind : FaultKind) (status : ReplyStatus) (dst : StationId)
    (hacts : ∀ u : State, u.actsOn p v =
      ((u.handFault kind p .message v.seq).protocolFault p).handReply p status) :
    exec (.messageFrameEnd p.byte dst) s =
      .next
        ((((s.received.wonBy p).faulted kind p .message v.seq).sessionRestarts p .protocolFault).replying p
          status) := by
  have hrxu : ((((s.received.wonBy p).faulted kind p .message v.seq).sessionRestarts p
      .protocolFault).replying p status).rxu = s.received.rxu :=
    ((s.received.wonBy p).faulted kind p .message v.seq).sessionRestarts_rxu p .protocolFault
  have heffect := State.messageEffect_from hverdict hsource
    ((hacts _).trans (congrArg (fun u : State => u.handReply p status)
      (State.protocolFault_faulted (s := s.received.wonBy p) hopen kind v.seq)))
    (congrArg Rxu.verdict hrxu) ((congrArg Rxu.fill hrxu).trans hfill)
  rw [exec_message_effect hend hother, heffect]
  exact congrArg _ (State.sessionRestarts_heard _ p .protocolFault status)

/-- A MESSAGE of an OPEN peer whose credit total is evaluated (R50, R51, R95, R96). `u` is the state once the
message is taken, with the record of the peer still in its session. -/
theorem exec_message_answered {u : State} (hacts : (s.received.wonBy p).actsOn p v =
      u.evaluateTotal p .message v.total) (hnone : u.rxu.verdict = none) (hfill : u.rxu.fill = none)
    (hopen : (s.peer p).state = .isOpen) (hstate : (u.peer p).state = (s.peer p).state)
    (hheld : (u.peer p).creditsHeld = (s.peer p).creditsHeld)
    (hseen : (u.peer p).creditSeen = (s.peer p).creditSeen) (dst : StationId) :
    let d := distance (s.peer p).creditSeen v.total
    let inRange : Prop := d = 0 ∨ (s.peer p).creditsHeld + d ≤ 15
    (inRange →
      exec (.messageFrameEnd p.byte dst) s =
        .next
          (({ u with
              ssu :=
                { u.ssu with
                  peers := u.ssu.peers.set p
                    { u.peer p with
                      creditsHeld := (s.peer p).creditsHeld + d, creditSeen := v.total } } } :
            State).replying p .accept)) ∧
    (¬ inRange →
      exec (.messageFrameEnd p.byte dst) s =
        .next
          (((u.faulted .creditRange p .message v.total).sessionRestarts p .protocolFault).replying p
            .stale)) := by
  dsimp only
  have hopen' : (u.peer p).state = .isOpen := hstate.trans hopen
  rw [← hheld, ← hseen, exec_message_effect hend hother]
  refine ⟨fun hrange => ?_, fun hout => ?_⟩
  · have heffect := State.messageEffect_from hverdict hsource
      (hacts.trans (u.evaluateTotal_inRange p .message v.total hrange)) hnone hfill
    have hpeer := peers_set u.ssu.peers p p
      { u.peer p with
        creditsHeld := (u.peer p).creditsHeld + distance (u.peer p).creditSeen v.total
        creditSeen := v.total }
    rw [if_pos rfl] at hpeer
    have hstays := (congrArg Peer.state hpeer).trans hopen'
    exact congrArg _ (heffect.trans (State.hear_alive _ p (not_dead_of_open hstays)))
  · have hrxu : (((u.faulted .creditRange p .message v.total).sessionRestarts p
        .protocolFault).replying p .stale).rxu = u.rxu :=
      (u.faulted .creditRange p .message v.total).sessionRestarts_rxu p .protocolFault
    have heffect := State.messageEffect_from hverdict hsource
      (hacts.trans (u.evaluateTotal_outOfRange p .message v.total hopen' hout))
      ((congrArg Rxu.verdict hrxu).trans hnone) ((congrArg Rxu.fill hrxu).trans hfill)
    exact congrArg _ (heffect.trans (State.sessionRestarts_heard _ p .protocolFault .stale))

end Judged

/-- Settles O53: the frame with no verdict, then each verdict. -/
theorem messageFrameEnds : Obligations.MessageFrameEnds := by
  refine ⟨fun s p dst hend hfill hother => ⟨fun hverdict => ?_, fun v hverdict hsource => ⟨fun hcls => ?_,
      fun hopen => ⟨fun hcls => ?_, fun hcls => ?_⟩⟩⟩,
    fun s p dst v hend hother hverdict hsource hopen => ⟨fun hcls hfill => ?_, fun f hcls hfill hof => ?_⟩⟩
  · rw [exec_message_effect hend hother, State.messageEffect_noVerdict hverdict hfill]
    exact ⟨fun hdead => congrArg _ (State.hear_dead (s.received.wonBy p) p hdead),
      fun halive => congrArg _ (State.hear_alive (s.received.wonBy p) p halive)⟩
  · have hacts : (s.received.wonBy p).actsOn p v = (s.received.wonBy p).replying p .stale := by
      rw [State.actsOn, hcls]
      rfl
    rw [exec_message_effect hend hother, State.messageEffect_from hverdict hsource hacts rfl hfill]
    exact ⟨fun hdead => congrArg _ (State.hear_dead ((s.received.wonBy p).replying p .stale) p hdead),
      fun halive => congrArg _ (State.hear_alive ((s.received.wonBy p).replying p .stale) p halive)⟩
  · exact exec_message_fault hend hother hverdict hsource hfill hopen .sequence .stale dst fun u => by
      rw [State.actsOn, hcls]
  · exact exec_message_fault hend hother hverdict hsource hfill hopen .creditOverrun .noCredit dst fun u => by
      rw [State.actsOn, hcls]
  · exact exec_message_answered hend hother hverdict hsource (u := s.received.wonBy p)
      (by rw [State.actsOn, hcls]) rfl hfill hopen rfl rfl rfl dst
  · have hacts : (s.received.wonBy p).actsOn p v =
        ((s.received.wonBy p).postFill p v.seq).evaluateTotal p .message v.total := by
      rw [State.actsOn, hcls]
    rw [State.postFill_some (s := s.received.wonBy p) p v.seq hfill, hof] at hacts
    have hpeer := peers_set s.ssu.peers p p { s.peer p with lastRxSeq := some v.seq }
    rw [if_pos rfl] at hpeer
    exact exec_message_answered hend hother hverdict hsource hacts rfl rfl hopen (congrArg Peer.state hpeer :)
      (congrArg Peer.creditsHeld hpeer :) (congrArg Peer.creditSeen hpeer :) dst

end Sys2Proof.Machine
end

