-- ==== Sys2Proof/Proofs/FrameOutcomes.lean ====
section
/-! PROOF. What the end of a frame brings to the exchange: first the effect of the frame, which leaves the wait
aside, and then the outcome (R93, R118, R119, R136). -/

namespace Sys2Proof.Machine

/-! ### The outcome that a command brings -/

/-- The outcome that a frame end or a timeout brings to the exchange that waits (R118, R119). -/
def State.brought (s : State) (c : Instr) : Option ReplyStatus :=
  match c with
  | .replyFrameEnd src dst status sess grant => s.replyOutcome src dst status sess grant
  | _ => none

/-- The four status codes (R119). -/
theorem ReplyStatus.ofBytes_eq (code sess grant : Byte) :
    ReplyStatus.ofBytes code sess grant = none ∨
      (code = 1 ∧ ReplyStatus.ofBytes code sess grant = some .accept) ∨
      (code = 2 ∧ ReplyStatus.ofBytes code sess grant = some .stale) ∨
      (code = 3 ∧ ReplyStatus.ofBytes code sess grant = some .noCredit) ∨
      (code = 4 ∧ ReplyStatus.ofBytes code sess grant = some (.greeted sess grant)) := by
  unfold ReplyStatus.ofBytes
  split
  · exact .inr (.inl ⟨‹_›, rfl⟩)
  · split
    · exact .inr (.inr (.inl ⟨‹_›, rfl⟩))
    · split
      · exact .inr (.inr (.inr (.inl ⟨‹_›, rfl⟩)))
      · split
        · exact .inr (.inr (.inr (.inr ⟨‹_›, rfl⟩)))
        · exact .inl rfl

/-- A REPLY brings its status when the destination of the frame sends it to the station, and otherwise no
reply (R119). -/
theorem State.replyOutcome_cases {s : State} {item : Item} (hitem : s.txa.item = some item) (src : Byte)
    (dst : StationId) (status sess grant : Byte) :
    s.replyOutcome src dst status sess grant = none ∨
      (∃ p, item.dest? = some p ∧ src = p.byte ∧ dst = s.stc.sid ∧
        s.replyOutcome src dst status sess grant = ReplyStatus.ofBytes status sess grant) := by
  unfold State.replyOutcome
  rw [hitem]
  dsimp only [Option.bind_some]
  split
  · rename_i h
    obtain ⟨hsome, hsrc, hdst⟩ := h
    obtain ⟨p, hp⟩ := Option.isSome_iff_exists.mp hsome
    exact .inr ⟨p, hp, StationId.byte_of_stationOf (hsrc.trans hp), hdst, rfl⟩
  · exact .inl rfl

/-! ### Outcomes that answer nothing -/

/-- A status that does not answer the frame has the effects of no reply (R30, R61, R78). -/
theorem State.applyOutcome_unanswered (s : State) {item : Item} {r : Option ReplyStatus}
    (h : answers item r = false) : s.applyOutcome item r = s.applyOutcome item none := by
  cases item with
  | greet p =>
    rcases r with _ | status
    · rfl
    · cases status with
      | greeted => cases h
      | accept | stale | noCredit => rfl
  | credit p k =>
    rcases r with _ | status
    · rfl
    · cases status with
      | accept | stale => cases h
      | noCredit | greeted => rfl
  | message m p k =>
    rcases r with _ | status
    · rfl
    · cases status with
      | accept | stale | noCredit => cases h
      | greeted => rfl
  | announce | leave => rfl

theorem answers_none_of_unanswered {item : Item} {r : Option ReplyStatus} (h : answers item r = false) :
    answers item none = false := by
  cases item with
  | announce => cases r <;> cases h
  | greet | credit | message | leave => rfl

theorem State.finishExchange_unanswered {s : State} {item : Item} (hitem : s.txa.item = some item)
    {r : Option ReplyStatus} (h : r = none ∨ answers item r = false) :
    s.finishExchange r = s.finishExchange none := by
  rcases h with rfl | h
  · rfl
  · unfold State.finishExchange
    rw [hitem]
    dsimp only
    rw [s.applyOutcome_unanswered h, h, answers_none_of_unanswered h]

/-! ### Effect and outcome -/

/-- At the end of a frame the command has the effect `f`, and then it ends the wait with the outcome brought. -/
structure State.EndsBy (s : State) (c : Instr) (f : State → State) : Prop where
  blind : Blind f
  reception : (f s).rif.reception = none
  transmit : (f s).rif.transmit = s.rif.transmit
  state : (f s).stc.state = s.stc.state
  runs : ∀ (x : Txa) (mark : Bool),
    exec c (s.waiting x mark) = .next (((f s).waiting x mark).endAwait ((s.waiting x mark).brought c))

section Ends

variable {s : State} (hopen : s.resetLow = false) (hreception : s.rif.reception.isSome = true)
include hopen hreception

theorem State.endsBy_frame {c : Instr} {src : Byte} {kind : FrameKind} {effect : State → State}
    (honline : s.stc.state = .online) (hsrc : src ≠ s.stc.sid.byte) (hblind : Blind effect)
    (hanswered : (s.wonLine src kind).Answered (effect (s.wonLine src kind)))
    (hruns : ∀ t : State, t.resetLow = false → t.rif.endsReception = true →
      exec c t = .next (t.goodFrame src kind effect (t.brought c))) :
    s.EndsBy c fun t => effect (t.wonLine src kind) := by
  obtain ⟨due, -, hview⟩ := hanswered
  have hline := s.wonLine_lineView src kind
  have hrif : (s.wonLine src kind).rif = s.lineView.free.rif := congrArg LineView.rif hline
  have hall := hblind.comp (wonLine_blind src kind)
  have hafter : (effect (s.wonLine src kind)).rif = { (s.wonLine src kind).rif with replyDue := due } :=
    congrArg LineView.rif hview
  rw [hrif] at hafter
  refine ⟨hall, (congrArg Rif.reception hafter :), (congrArg Rif.transmit hafter :),
    (congrArg LineView.state hview).trans (congrArg LineView.state hline), fun x mark => ?_⟩
  rw [hruns (s.waiting x mark) hopen (Rif.endsReception_of_reception hreception),
    State.goodFrame_online (s := s.waiting x mark) hsrc honline]
  exact congrArg (fun t : State => (.next (t.endAwait _) : Host.Outcome State Fault Refusal))
    (hall x mark s)

/-- Every frame end of another station has such an effect. -/
theorem State.endsBy_other (honline : s.stc.state = .online) {c : Instr}
    (hc : c.EndsFrameOfOther s.stc.sid) : ∃ f, s.EndsBy c f := by
  have hends := Rif.endsReception_of_reception hreception
  rcases hc with rfl | rfl | ⟨src, dst, b1, b2, b3, hsrc, hc⟩
  · refine ⟨fun t => t.lineFree.takeOrdered.dropVerdict, fun x mark t => ?_, ?_, ?_, ?_, fun x mark => ?_⟩
    · exact State.waiting_dropVerdict x mark t.lineFree.takeOrdered
    · rw [(State.dropVerdict_frame _).2.2.1]
      rfl
    · rw [(State.dropVerdict_frame _).2.2.1]
      rfl
    · exact congrArg LineView.state s.lineFree.takeOrdered.dropVerdict_lineView
    · rw [exec_badFrameEnd_ends (s := s.waiting x mark) hopen hends]
      exact congrArg (fun t : State => (.next (t.endAwait none) : Host.Outcome State Fault Refusal))
        (State.waiting_dropVerdict x mark s.lineFree.takeOrdered)
  · refine ⟨fun t => t.lineFree.dropVerdict, fun x mark t => ?_, ?_, ?_, ?_, fun x mark => ?_⟩
    · exact State.waiting_dropVerdict x mark t.lineFree
    · rw [(State.dropVerdict_frame _).2.2.1]
      rfl
    · rw [(State.dropVerdict_frame _).2.2.1]
      rfl
    · exact congrArg LineView.state s.lineFree.dropVerdict_lineView
    · rw [exec_unknownKindFrameEnd_ends (s := s.waiting x mark) hopen hends]
      exact congrArg (fun t : State => (.next (t.endAwait none) : Host.Outcome State Fault Refusal))
        (State.waiting_dropVerdict x mark s.lineFree)
  · rcases hc with rfl | rfl | rfl | rfl | rfl | rfl
    · exact ⟨_, State.endsBy_frame hopen hreception honline hsrc (messageEffect_blind src)
        (State.messageEffect_answered src _) fun t h h' => exec_messageFrameEnd_ends h h' src dst⟩
    · exact ⟨_, State.endsBy_frame hopen hreception honline hsrc (creditEffect_blind src dst b1 b2 b3)
        (State.creditEffect_answered src dst b1 b2 b3 _) fun t h h' =>
          exec_creditFrameEnd_ends h h' src dst b1 b2 b3⟩
    · have hother : stationOf src ≠ some (s.wonLine src .greet).stc.sid := by
        rw [show (s.wonLine src .greet).stc.sid = s.stc.sid from
          congrArg LineView.sid (s.wonLine_lineView src .greet)]
        exact fun h => hsrc (StationId.byte_of_stationOf h)
      exact ⟨_, State.endsBy_frame hopen hreception honline hsrc (greetEffect_blind src dst b1 b2)
        (State.greetEffect_answered src dst b1 b2 hother) fun t h h' =>
          exec_greetFrameEnd_ends h h' src dst b1 b2⟩
    · exact ⟨_, State.endsBy_frame hopen hreception honline hsrc (announceEffect_blind src)
        (State.announceEffect_answered src _) fun t h h' => exec_announceFrameEnd_ends h h' src⟩
    · exact ⟨_, State.endsBy_frame hopen hreception honline hsrc (leaveEffect_blind src)
        (State.leaveEffect_answered src _) fun t h h' => exec_leaveFrameEnd_ends h h' src⟩
    · exact ⟨_, State.endsBy_frame hopen hreception honline hsrc (replyEffect_blind src)
        (State.replyEffect_answered src _) fun t h h' => exec_replyFrameEnd_ends h h' src dst b1 b2 b3⟩

end Ends

theorem State.waiting_mark {s : State} {mark : Bool} (h : s.stc.leaveMark = mark) (x : Txa) :
    s.waiting x mark = { s with txa := x } := by
  subst h
  rfl

theorem State.EndsBy.idle {s : State} {c : Instr} {f : State → State} (h : s.EndsBy c f) {x : Txa}
    (hx : x.exchange ≠ .awaitReply) :
    exec c (s.waiting x false) = .next ((f s).waiting x false) := by
  rw [h.runs, State.endAwait_none ((f s).waiting x false) _ hx rfl]

theorem State.EndsBy.awaiting {s : State} {c : Instr} {f : State → State} (h : s.EndsBy c f) {x : Txa}
    (hx : x.exchange = .awaitReply) (mark : Bool) :
    exec c (s.waiting x mark) =
      .next (((f s).waiting x mark).finishExchange ((s.waiting x mark).brought c)) := by
  rw [h.runs, State.endAwait_awaiting ((f s).waiting x mark) _ hx]

/-- What the frame ends of O50 bring does not answer the frame. -/
theorem State.replyOutcome_unanswered {s : State} {item : Item} (hitem : s.txa.item = some item) {src : Byte}
    {dst : StationId} {b1 b2 b3 : Byte}
    (h : dst ≠ s.stc.sid ∨ item.dest?.map StationId.byte ≠ some src ∨ b1 = 0 ∨ 4 < b1.toNat ∨
      (b1 = 4 ∧ ∃ h p k, item = .message h p k) ∨
      ((b1 = 3 ∨ b1 = 4) ∧ ∃ p k, item = .credit p k) ∨
      ((b1 = 1 ∨ b1 = 2 ∨ b1 = 3) ∧ ∃ p, item = .greet p)) :
    s.replyOutcome src dst b1 b2 b3 = none ∨ answers item (s.replyOutcome src dst b1 b2 b3) = false := by
  rcases State.replyOutcome_cases hitem src dst b1 b2 b3 with hnone | ⟨p, hp, hsrc, hdst, hstatus⟩
  · exact .inl hnone
  · rw [hstatus]
    rcases h with h | h | rfl | h | ⟨rfl, m, q, k, rfl⟩ | ⟨h, q, k, rfl⟩ | ⟨h, q, rfl⟩
    · exact absurd hdst h
    · rw [hp, hsrc] at h
      exact absurd rfl h
    · exact .inl rfl
    · left
      rcases ReplyStatus.ofBytes_eq b1 b2 b3 with hnone | ⟨rfl, -⟩ | ⟨rfl, -⟩ | ⟨rfl, -⟩ | ⟨rfl, -⟩
      · exact hnone
      all_goals exact absurd h (by decide)
    · exact .inr rfl
    · rcases h with rfl | rfl
      · exact .inr rfl
      · exact .inr rfl
    · rcases h with rfl | rfl | rfl
      · exact .inr rfl
      · exact .inr rfl
      · exact .inr rfl

/-- Settles O50: the effect is the same with the arbiter idle, and what is brought answers nothing. -/
theorem frameEffectsComeBeforeTheOutcome : Obligations.FrameEffectsComeBeforeTheOutcome := by
  intro s t item c hawaiting hreception hc hidle
  obtain ⟨hopen, honline, hmark, hexchange, hitem⟩ := hawaiting
  have hends : c.EndsFrameOfOther s.stc.sid ∧ (s.brought c = none ∨ answers item (s.brought c) = false) := by
    rcases hc with rfl | rfl | ⟨src, dst, b1, b2, b3, hsrc, hc⟩
    · exact ⟨.inl rfl, .inl rfl⟩
    · exact ⟨.inr (.inl rfl), .inl rfl⟩
    · rcases hc with rfl | rfl | rfl | rfl | rfl | ⟨rfl, hstatus⟩
      · exact ⟨.inr (.inr ⟨src, dst, b1, b2, b3, hsrc, by simp⟩), .inl rfl⟩
      · exact ⟨.inr (.inr ⟨src, dst, b1, b2, b3, hsrc, by simp⟩), .inl rfl⟩
      · exact ⟨.inr (.inr ⟨src, dst, b1, b2, b3, hsrc, by simp⟩), .inl rfl⟩
      · exact ⟨.inr (.inr ⟨src, dst, b1, b2, b3, hsrc, by simp⟩), .inl rfl⟩
      · exact ⟨.inr (.inr ⟨src, dst, b1, b2, b3, hsrc, by simp⟩), .inl rfl⟩
      · exact ⟨.inr (.inr ⟨src, dst, b1, b2, b3, hsrc, by simp⟩), State.replyOutcome_unanswered hitem hstatus⟩
  obtain ⟨hother, hbrought⟩ := hends
  obtain ⟨f, hf⟩ := State.endsBy_other hopen hreception honline hother
  have hself : s.waiting s.txa false = s := State.waiting_mark hmark s.txa
  have hrun := hf.awaiting hexchange false
  rw [hself, State.finishExchange_unanswered (s := (f s).waiting s.txa false) hitem hbrought] at hrun
  have hquiet := hf.idle (x := { exchange := .idle, train := 0, gap := false, item := none }) (by exact nofun)
  rw [State.waiting_mark hmark] at hquiet
  cases hquiet.symm.trans hidle
  exact hrun

end Sys2Proof.Machine
end

