-- ==== Sys2Proof/Proofs/LeaveMark.lean ====
section
/-! PROOF. The leave mark (R85, R148, R149): what the station does with the mark set is what it does with the mark
clear, and then it enters LEAVING once its part in the line is settled. -/

namespace Sys2Proof.Machine

/-! ### Settling -/

/-- Between transmissions and receptions the station leaves unless it has a reply to send (R148). -/
theorem State.settleLeave_unlessReplying {s : State} (honline : s.stc.state = .online)
    (hmark : s.stc.leaveMark = true) (hexchange : s.txa.exchange = .idle)
    (hreception : s.rif.reception = none) (htransmit : s.rif.transmit = none) :
    s.settleLeave = s.leavesUnlessReplying := by
  unfold State.leavesUnlessReplying
  split
  · exact s.settleLeave_now honline hmark hexchange hreception ‹_› htransmit
  · rename_i hdue
    refine s.settleLeave_waits fun ⟨_, _, hnone, _⟩ => hdue hnone

theorem State.leavesUnlessReplying_now {s : State} (hdue : s.rif.replyDue = none) :
    s.leavesUnlessReplying = s.leavingNow :=
  if_pos hdue

/-- The train is decided by what it was when the exchange ended (R136). -/
theorem State.exchangeOver_ended (s : State) (answered : Bool) :
    (({ s with txa := { s.txa with exchange := .idle, item := none } } : State).leavesUnlessReplying).exchangeOver
        answered =
      s.leavesUnlessReplying.exchangeOver answered := by
  unfold State.leavesUnlessReplying
  by_cases hdue : s.rif.replyDue = none
  · rw [if_pos hdue, if_pos hdue]
    rfl
  · rw [if_neg hdue, if_neg hdue]
    rfl

/-- With the mark set, an exchange ends with its outcome, the station leaves, and the train is decided
(R133, R136, R148). -/
theorem State.finishExchange_marked {s : State} {item : Item} (hitem : s.txa.item = some item)
    (honline : s.stc.state = .online) (hmark : s.stc.leaveMark = true) (hreception : s.rif.reception = none)
    (htransmit : s.rif.transmit = none) (r : Option ReplyStatus) :
    s.finishExchange r =
      ((s.applyOutcome item r).leavesUnlessReplying).exchangeOver (answers item r) := by
  obtain ⟨-, -, hrif, -, -, -, hstc, -⟩ := s.applyOutcome_frame item r
  unfold State.finishExchange
  rw [hitem]
  dsimp only
  rw [State.settleLeave_unlessReplying (s := { s.applyOutcome item r with
      txa := { (s.applyOutcome item r).txa with exchange := .idle, item := none } })
    ((congrArg Stc.state hstc).trans honline) ((congrArg Stc.leaveMark hstc).trans hmark) rfl
    ((congrArg Rif.reception hrif).trans hreception) ((congrArg Rif.transmit hrif).trans htransmit),
    State.decideTrain_over, State.exchangeOver_ended]

/-! ### Outcomes with another mark -/

section Operations

variable (x : Txa) (mark : Bool) (s : State)

@[simp] theorem State.waiting_retryLimit : (s.waiting x mark).stc.retryLimit = s.stc.retryLimit :=
  rfl

@[simp] theorem State.waiting_acceptTotal (p : StationId) (k : Carried) :
    (s.waiting x mark).acceptTotal p k = (s.acceptTotal p k).waiting x mark := by
  unfold State.acceptTotal
  simp only [State.waiting_peer, State.waiting_setPeer]
  by_cases hcarries : (s.peer p).carries k = true
  · by_cases hlevel : k.total = (s.peer p).releasedTotal
    · simp [hcarries, hlevel]
    · simp [hcarries, hlevel]
  · simp [hcarries]

@[simp] theorem State.waiting_refusedReply (p : StationId) (why : Reason) (notice : Bool) :
    (s.waiting x mark).refusedReply p why notice = (s.refusedReply p why notice).waiting x mark := by
  unfold State.refusedReply
  rw [State.waiting_peer]
  split <;> simp

/-- An unanswered GREET or CREDIT, at the retry limit or below it (R30, R61). -/
theorem State.waiting_limit (u : State) (p : StationId) (n : Nat) (why : Reason) :
    (if reachesLimit s.stc.retryLimit n then (u.waiting x mark).becomeLost p why none else u.waiting x mark) =
      (if reachesLimit s.stc.retryLimit n then u.becomeLost p why none else u).waiting x mark := by
  split <;> simp

@[simp] theorem State.waiting_greetOutcome (p : StationId) (r : Option ReplyStatus) :
    (s.waiting x mark).greetOutcome p r = (s.greetOutcome p r).waiting x mark := by
  unfold State.greetOutcome
  simp only [State.waiting_peer, State.waiting_setPeer, State.waiting_ssu, State.waiting_greetToTail,
    State.waiting_openSession, State.waiting_retryLimit]
  split
  · split <;> rfl
  all_goals
    simp only [State.waiting_limit]
    by_cases howed : (s.peer p).state = .greeting ∧ p ∈ s.ssu.greetList
    · rw [if_pos howed, if_pos howed]
    · rw [if_neg howed, if_neg howed]

@[simp] theorem State.waiting_creditOutcome (p : StationId) (k : Carried) (r : Option ReplyStatus) :
    (s.waiting x mark).creditOutcome p k r = (s.creditOutcome p k r).waiting x mark := by
  unfold State.creditOutcome
  simp only [State.waiting_peer, State.waiting_setPeer, State.waiting_creditToTail,
    State.waiting_acceptTotal, State.waiting_refusedReply, State.waiting_retryLimit]
  split
  · rfl
  · rfl
  all_goals
    simp only [State.waiting_limit]
    by_cases hcarries : (s.peer p).carries k = true
    · rw [if_pos hcarries, if_pos hcarries]
    · rw [if_neg hcarries, if_neg hcarries]

end Operations

/-- The item is that of a GREET or of a CREDIT. -/
def Item.IsControl (item : Item) : Prop :=
  (∃ p, item = .greet p) ∨ ∃ p k, item = .credit p k

/-- The outcome of a GREET or a CREDIT does not look at the leave mark. -/
theorem State.waiting_applyOutcome {item : Item} (hitem : item.IsControl) (x : Txa) (mark : Bool) (s : State)
    (r : Option ReplyStatus) :
    (s.waiting x mark).applyOutcome item r = (s.applyOutcome item r).waiting x mark := by
  rcases hitem with ⟨p, rfl⟩ | ⟨p, k, rfl⟩
  · exact s.waiting_greetOutcome x mark p r
  · exact s.waiting_creditOutcome x mark p k r

/-! ### Answers -/

/-- The command is the reply that answers a GREET or a CREDIT (R29, R53). -/
def State.AnsweredBy (s : State) (item : Item) (c : Instr) : Prop :=
  ∃ (p : StationId) (b2 b3 : Byte),
    (item = .greet p ∧ c = .replyFrameEnd p.byte s.stc.sid 4 b2 b3) ∨
      ∃ k, item = .credit p k ∧
        (c = .replyFrameEnd p.byte s.stc.sid 1 b2 b3 ∨ c = .replyFrameEnd p.byte s.stc.sid 2 b2 b3)

theorem State.brought_cases (s : State) (c : Instr) :
    s.brought c = none ∨
      ∃ (src : Byte) (dst : StationId) (b1 b2 b3 : Byte), c = .replyFrameEnd src dst b1 b2 b3 := by
  cases c with
  | replyFrameEnd src dst b1 b2 b3 => exact .inr ⟨src, dst, b1, b2, b3, rfl⟩
  | _ => exact .inl rfl

theorem Item.IsControl.answers_none {item : Item} (h : item.IsControl) : answers item none = false := by
  rcases h with ⟨p, rfl⟩ | ⟨p, k, rfl⟩
  · rfl
  · rfl

theorem State.answeredBy_of_answers {s : State} {item : Item} (hitem : s.txa.item = some item)
    (hcontrol : item.IsControl) {c : Instr} (h : answers item (s.brought c) = true) : s.AnsweredBy item c := by
  have hsome : s.brought c ≠ none := by
    intro hnone
    rw [hnone, hcontrol.answers_none] at h
    cases h
  rcases s.brought_cases c with hnone | ⟨src, dst, b1, b2, b3, rfl⟩
  · exact absurd hnone hsome
  · rcases State.replyOutcome_cases hitem src dst b1 b2 b3 with hnone | ⟨p, hp, rfl, rfl, hstatus⟩
    · exact absurd hnone hsome
    · rw [State.brought, hstatus] at h hsome
      rcases hcontrol with ⟨q, rfl⟩ | ⟨q, k, rfl⟩
      · cases hp
        refine ⟨p, b2, b3, .inl ⟨rfl, ?_⟩⟩
        rcases ReplyStatus.ofBytes_eq b1 b2 b3 with hb | ⟨-, hb⟩ | ⟨-, hb⟩ | ⟨-, hb⟩ | ⟨rfl, -⟩
        · exact absurd hb hsome
        · rw [hb] at h
          cases h
        · rw [hb] at h
          cases h
        · rw [hb] at h
          cases h
        · rfl
      · cases hp
        refine ⟨p, b2, b3, .inr ⟨k, rfl, ?_⟩⟩
        rcases ReplyStatus.ofBytes_eq b1 b2 b3 with hb | ⟨rfl, -⟩ | ⟨rfl, -⟩ | ⟨-, hb⟩ | ⟨-, hb⟩
        · exact absurd hb hsome
        · exact .inl rfl
        · exact .inr rfl
        · rw [hb] at h
          cases h
        · rw [hb] at h
          cases h

theorem State.answers_of_answeredBy {s : State} {item : Item} (hitem : s.txa.item = some item) {c : Instr}
    (h : s.AnsweredBy item c) : answers item (s.brought c) = true := by
  obtain ⟨p, b2, b3, ⟨rfl, rfl⟩ | ⟨k, rfl, rfl | rfl⟩⟩ := h
  · rw [State.brought, State.replyOutcome_own hitem rfl]
    rfl
  · rw [State.brought, State.replyOutcome_own hitem rfl]
    rfl
  · rw [State.brought, State.replyOutcome_own hitem rfl]
    rfl

/-! ### The same effects, and then LEAVING -/

/-- The leave mark set. -/
def State.marked (t : State) : State :=
  { t with stc := { t.stc with leaveMark := true } }

section Marked

variable {s : State} (honline : s.stc.state = .online) (hmark : s.stc.leaveMark = true)
  (htransmit : s.rif.transmit = none)
include honline hmark htransmit

theorem State.EndsBy.marked_idle {c : Instr} {f : State → State} (hf : s.EndsBy c f)
    (hexchange : s.txa.exchange = .idle) {t : State} (ht : exec c (s.waiting s.txa false) = .next t) :
    exec c s = .next t.marked.leavesUnlessReplying := by
  have hrun := hf.runs s.txa true
  have hidle : s.txa.exchange ≠ .awaitReply := by
    rw [hexchange]
    nofun
  rw [State.waiting_mark hmark, State.endAwait, if_neg (by exact hidle),
    State.settleLeave_unlessReplying (s := (f s).waiting s.txa true) (hf.state.trans honline) rfl hexchange
      hf.reception (hf.transmit.trans htransmit)] at hrun
  cases (hf.idle hidle).symm.trans ht
  exact hrun

/-- The outcome of a GREET or a CREDIT, with the mark clear and with the mark set. `u` is the state that the
frame's effect, or the time that passes, has made. -/
theorem exec_marked_awaiting {c : Instr} {item : Item} {u : State} {r : Option ReplyStatus}
    (hitem : s.txa.item = some item) (hcontrol : item.IsControl) (hstate : u.stc.state = s.stc.state)
    (hreception : u.rif.reception = none) (hsilent : u.rif.transmit = s.rif.transmit)
    (hruns : ∀ mark : Bool,
      exec c (s.waiting s.txa mark) = .next ((u.waiting s.txa mark).finishExchange r))
    {t : State} (ht : exec c (s.waiting s.txa false) = .next t) :
    exec c s =
      .next
        (((({ t with txa := s.txa } : State).marked).leavesUnlessReplying).exchangeOver
          (answers item r)) := by
  have hunmarked : ((u.waiting s.txa false).applyOutcome item r).stc.leaveMark = false := by
    rw [State.applyOutcome_stc]
    rfl
  have hclear := hruns false
  rw [State.finishExchange_over (u.waiting s.txa false) item r hitem hunmarked,
    State.waiting_applyOutcome hcontrol] at hclear
  have hset := hruns true
  rw [State.waiting_mark hmark, State.finishExchange_marked (s := u.waiting s.txa true) hitem
    (hstate.trans honline) rfl hreception (hsilent.trans htransmit), State.waiting_applyOutcome hcontrol] at hset
  cases hclear.symm.trans ht
  exact hset

/-- A MESSAGE whose exchange ends with no answer is withdrawn (R85). -/
theorem State.EndsBy.marked_message {c : Instr} {f : State → State} (hf : s.EndsBy c f)
    (hexchange : s.txa.exchange = .awaitReply) {h : Handle} {p : StationId} {k : Carried}
    (hitem : s.txa.item = some (.message h p k))
    (hunanswered : s.brought c = none ∨ answers (.message h p k) (s.brought c) = false) {t : State}
    (ht : exec c (s.waiting { exchange := .idle, train := 0, gap := false, item := none } false) = .next t) :
    exec c s =
      .next
        ((((({ t with txa := s.txa } : State).marked).completed
          (exchangeEnds h .withdrawn)).leavesUnlessReplying).exchangeOver false) := by
  have hset := hf.awaiting hexchange true
  rw [State.waiting_mark hmark,
    State.finishExchange_unanswered (s := (f s).waiting s.txa true) hitem hunanswered,
    State.finishExchange_marked (s := (f s).waiting s.txa true) hitem (hf.state.trans honline) rfl
      hf.reception (hf.transmit.trans htransmit)] at hset
  have houtcome : ((f s).waiting s.txa true).applyOutcome (.message h p k) none =
      ((f s).waiting s.txa true).completed (exchangeEnds h .withdrawn) :=
    State.completeWhere_completed _ _
  rw [houtcome] at hset
  cases (hf.idle (x := { exchange := .idle, train := 0, gap := false, item := none }) nofun).symm.trans ht
  exact hset

end Marked

/-- The reply timeout as the time that passes, and then the outcome no reply (R118). -/
theorem exec_replyTimeout_finish {s : State} (hopen : s.resetLow = false)
    (hexchange : s.txa.exchange = .awaitReply) (hline : s.rif.line = .idle) :
    exec .replyTimeout s = .next ((s.elapseTo 24).finishExchange none) := by
  rw [exec_replyTimeout_open hopen, State.replyTimeout, if_pos ⟨hexchange, hline⟩]

end Sys2Proof.Machine
end

