-- ==== Sys2Proof/Proofs/LeaveEnds.lean ====
section
/-! PROOF. The leave mark with a MESSAGE in its exchange, a REPLY on the line or a collision (R85, R135, R148). -/

namespace Sys2Proof.Machine

/-- An ONLINE station with the leave mark set and nothing to send (R148). -/
def State.WaitsToLeave (s : State) : Prop :=
  s.resetLow = false ∧ s.stc.state = .online ∧ s.stc.leaveMark = true ∧ s.rif.replyDue = none

/-! ### Outcomes of a MESSAGE -/

/-- With the leave mark set a MESSAGE is delivered on ACCEPT and withdrawn otherwise (R85). -/
theorem State.messageOutcome_marked {s : State} (hmark : s.stc.leaveMark = true) (h : Handle)
    (p : StationId) (c : Carried) :
    s.messageOutcome h p c none = s.completed (exchangeEnds h .withdrawn) ∧
      s.messageOutcome h p c (some .accept) = (s.completed (exchangeEnds h .delivered)).acceptTotal p c ∧
      s.messageOutcome h p c (some .stale) =
        (s.completed (exchangeEnds h .withdrawn)).refusedReply p .staleReply true ∧
      s.messageOutcome h p c (some .noCredit) =
        (s.completed (exchangeEnds h .withdrawn)).refusedReply p .noCreditReply false := by
  simp only [State.messageOutcome, hmark, State.completeWhere_completed, entryCause_counted, if_true,
    and_self]

/-- An outcome with the leave mark set: the effect, LEAVING, and the decision on the train (R133, R148). -/
theorem State.finishExchange_left {s : State} {item : Item} (hwaits : s.WaitsToLeave)
    (hitem : s.txa.item = some item) (hreception : s.rif.reception = none) (htransmit : s.rif.transmit = none)
    (r : Option ReplyStatus) :
    s.finishExchange r = (s.applyOutcome item r).leavingNow.exchangeOver (answers item r) := by
  obtain ⟨-, honline, hmark, hdue⟩ := hwaits
  obtain ⟨-, -, hrif, -⟩ := s.applyOutcome_frame item r
  rw [State.finishExchange_marked hitem honline hmark hreception htransmit,
    State.leavesUnlessReplying_now ((congrArg Rif.replyDue hrif).trans hdue)]

/-- The outcome of an answered exchange of a station that leaves. -/
def State.nextLeft (t : State) : Host.Outcome State Fault Refusal :=
  .next (t.leavingNow.exchangeOver true)

theorem State.nextLeft_eq (t : State) : t.nextLeft = .next (t.leavingNow.exchangeOver true) :=
  rfl

section Reply

variable {s : State} (hwaits : s.WaitsToLeave) (hfill : s.rxu.fill = none) {h : Handle} {p : StationId}
  {c : Carried} (hitem : s.txa.item = some (.message h p c)) (hexchange : s.txa.exchange = .awaitReply)
  (hreception : s.rif.reception.isSome = true) (htransmit : s.rif.transmit = none) (hother : p ≠ s.stc.sid)
include hwaits hfill hitem hexchange hreception htransmit hother

theorem exec_reply_left (status : Byte) :
    exec (.replyFrameEnd p.byte s.stc.sid status 0 0) s =
      .next
        (((s.received.heardFrom p).messageOutcome h p c (ReplyStatus.ofBytes status 0 0)).leavingNow.exchangeOver
          (answers (.message h p c) (ReplyStatus.ofBytes status 0 0))) := by
  obtain ⟨hopen, honline, hmark, hdue⟩ := hwaits
  obtain ⟨hrif, htxa, hstc, -⟩ := s.received.heardFrom_frame p
  have hheard : (s.received.heardFrom p).WaitsToLeave := by
    refine ⟨?_, ?_, ?_, ?_⟩
    · rw [← State.hear_heardFrom, (State.hear_frame _ _).2.1]
      exact hopen
    · rw [hstc]
      exact honline
    · rw [hstc]
      exact hmark
    · rw [hrif]
      exact hdue
  rw [exec_replyFrameEnd_ends hopen (Rif.endsReception_of_reception hreception),
    State.goodFrame_reply s p _ _ hother honline, State.replyEffect_heard hfill,
    State.replyOutcome_own hitem rfl,
    State.endAwait_awaiting (s.received.heardFrom p) _ ((congrArg Txa.exchange htxa).trans hexchange),
    State.finishExchange_left hheard ((congrArg Txa.item htxa).trans hitem)
      (congrArg Rif.reception hrif) ((congrArg Rif.transmit hrif).trans htransmit)]
  rfl

/-- The replies to a MESSAGE of a station that leaves, by its record (R53, R85). -/
theorem repliesTaken_marked :
    let u := s.received.heardFrom p
    ((s.peer p).InSessionOf c →
        exec (.replyFrameEnd p.byte s.stc.sid 1 0 0) s =
          ((u.completed (exchangeEnds h .delivered)).acknowledged p c).nextLeft) ∧
      (¬ (s.peer p).InSessionOf c →
        exec (.replyFrameEnd p.byte s.stc.sid 1 0 0) s =
          ((u.completed (exchangeEnds h .delivered)).ctlCleared p).nextLeft) ∧
      ((s.peer p).state = .isOpen →
        exec (.replyFrameEnd p.byte s.stc.sid 2 0 0) s =
            ((u.completed (exchangeEnds h .withdrawn)).sessionRestarts p .staleReply).nextLeft ∧
          exec (.replyFrameEnd p.byte s.stc.sid 3 0 0) s =
            ((u.completed (exchangeEnds h .withdrawn)).sessionEnds p (s.peer p).owed true .noCreditReply
              fun _ => none).nextLeft) ∧
      ((s.peer p).state ≠ .isOpen →
        exec (.replyFrameEnd p.byte s.stc.sid 2 0 0) s =
            (u.completed (exchangeEnds h .withdrawn)).nextLeft ∧
          exec (.replyFrameEnd p.byte s.stc.sid 3 0 0) s =
            (u.completed (exchangeEnds h .withdrawn)).nextLeft) := by
  have hover := exec_reply_left hwaits hfill hitem hexchange hreception htransmit hother
  obtain ⟨-, -, hmark, -⟩ := id hwaits
  obtain ⟨-, -, hstc, -⟩ := s.received.heardFrom_frame p
  obtain ⟨-, haccept, hstale, hnoCredit⟩ := State.messageOutcome_marked (s := s.received.heardFrom p)
    (by rw [hstc]; exact hmark) h p c
  have hpeer (cause : SendEntry → Option (Status × Nat)) :=
    (s.received.heardFrom p).completed_peer cause p
  refine ⟨fun hsame => ?_, fun hnot => ?_, fun hopen => ⟨?_, ?_⟩, fun hnotOpen => ⟨?_, ?_⟩⟩
  · refine (hover 1).trans (congrArg State.nextLeft (haccept.trans (State.acceptTotal_same ?_)))
    rw [hpeer]
    exact State.heardFrom_inSession (s := s.received) hsame
  · refine (hover 1).trans (congrArg State.nextLeft (haccept.trans (State.acceptTotal_cleared _ p c ?_)))
    rw [hpeer]
    exact State.heardFrom_notInSession (s := s.received) hnot
  · refine (hover 2).trans (congrArg State.nextLeft (hstale.trans (State.refusedReply_stale ?_)))
    rw [hpeer, State.heardFrom_open (s := s.received) hopen]
    exact hopen
  · refine (hover 3).trans (congrArg State.nextLeft (hnoCredit.trans ?_))
    have hrecord : ((s.received.heardFrom p).completed (exchangeEnds h .withdrawn)).peer p = s.peer p := by
      rw [hpeer, State.heardFrom_open (s := s.received) hopen]
      rfl
    rw [State.refusedReply_noCredit (by rw [hrecord]; exact hopen), hrecord]
  · refine (hover 2).trans (congrArg State.nextLeft (hstale.trans (State.refusedReply_notOpen _ p _ _ ?_)))
    rw [hpeer]
    exact State.heardFrom_notOpen (s := s.received) hnotOpen
  · refine (hover 3).trans (congrArg State.nextLeft (hnoCredit.trans (State.refusedReply_notOpen _ p _ _ ?_)))
    rw [hpeer]
    exact State.heardFrom_notOpen (s := s.received) hnotOpen

end Reply

/-! ### Transmissions that end -/

section Cut

variable {s : State} (hwaits : s.WaitsToLeave) {f : Frame} (htransmit : s.rif.transmit = some f)
  (hreception : s.rif.reception = none)
include hwaits htransmit hreception

/-- A station that leaves does so when its REPLY is cut (R135, R148). -/
theorem exec_collision_reply (hkind : f.kind = .reply) (hexchange : s.txa.exchange = .idle) :
    exec .collision s = .next s.cutShort.leavingNow := by
  obtain ⟨hopen, honline, hmark, hdue⟩ := hwaits
  rw [exec_collision_open hopen, State.collide_reply htransmit hkind,
    s.cutShort.settleLeave_now honline hmark hexchange hreception hdue rfl]

/-- A station that leaves does so when the frame of its exchange is cut. `u` is the state once the item is cut. -/
theorem exec_collision_exchange (hkind : f.kind ≠ .reply) {u : State} (hcut : s.cutShort.cutExchange = u)
    (hrif : u.rif = s.cutShort.rif) (hstc : u.stc = s.stc) (hexchange : u.txa.exchange = .idle) :
    exec .collision s = .next u.leavingNow := by
  obtain ⟨hopen, honline, hmark, hdue⟩ := hwaits
  rw [exec_collision_open hopen, State.collide_exchange htransmit hkind, hcut,
    u.settleLeave_now (by rw [hstc]; exact honline) (by rw [hstc]; exact hmark) hexchange
      (by rw [hrif]; exact hreception) (by rw [hrif]; exact hdue) (by rw [hrif]; rfl)]

end Cut

/-- A MESSAGE that is cut after a LEAVE is withdrawn with its attempts as they are (R85, log 13). -/
theorem State.cutExchange_withdrawn {s : State} (hmark : s.stc.leaveMark = true) {h : Handle} {p : StationId}
    {c : Carried} (hitem : s.txa.item = some (.message h p c)) :
    s.cutExchange =
      s.arbiterIdle.completed fun e =>
        if e.handle = h ∧ e.phase = .sending then some (.withdrawn, e.attempts) else none := by
  unfold State.cutExchange
  rw [hitem, hmark]
  dsimp only
  rw [if_pos rfl, State.completeWhere_completed]
  rfl

/-- No other command than an ACCEPT, a STALE or a NO_CREDIT of its destination answers a MESSAGE. -/
theorem State.brought_message {s : State} {h : Handle} {p : StationId} {k : Carried}
    (hitem : s.txa.item = some (.message h p k)) {c : Instr}
    (hnot : ∀ b1 b2 b3 : Byte, b1 = 1 ∨ b1 = 2 ∨ b1 = 3 → c ≠ .replyFrameEnd p.byte s.stc.sid b1 b2 b3) :
    s.brought c = none ∨ answers (.message h p k) (s.brought c) = false := by
  rcases s.brought_cases c with hnone | ⟨src, dst, b1, b2, b3, rfl⟩
  · exact .inl hnone
  · rcases State.replyOutcome_cases hitem src dst b1 b2 b3 with hnone | ⟨q, hq, rfl, rfl, hstatus⟩
    · exact .inl hnone
    · cases hq
      rw [State.brought, hstatus]
      rcases ReplyStatus.ofBytes_eq b1 b2 b3 with hb | ⟨rfl, -⟩ | ⟨rfl, -⟩ | ⟨rfl, -⟩ | ⟨-, hb⟩
      · exact .inl hb
      · exact absurd rfl (hnot 1 b2 b3 (by decide))
      · exact absurd rfl (hnot 2 b2 b3 (by decide))
      · exact absurd rfl (hnot 3 b2 b3 (by decide))
      · rw [hb]
        exact .inr rfl

theorem State.cutExchange_control {s : State} {item : Item} (hitem : s.txa.item = some item)
    (hcontrol : item.IsControl) : s.cutExchange = s.arbiterIdle := by
  unfold State.cutExchange
  rw [hitem]
  rcases hcontrol with ⟨p, rfl⟩ | ⟨p, k, rfl⟩
  · rfl
  · rfl

/-! ### Waiting to leave -/

/-- A station that waits to leave, its MESSAGE in the exchange (R85). -/
theorem message_leaves {s : State} (hwaits : s.WaitsToLeave) {h : Handle}
    {p : StationId} {c : Carried} (hitem : s.txa.item = some (.message h p c)) :
    (s.txa.exchange = .awaitReply → s.rif.line = .idle → s.rif.idleCount ≤ 24 → s.rif.reception = none →
      s.rif.transmit = none →
        exec .replyTimeout s =
          .next
            ((((s.idleAt 24).completed (exchangeEnds h .withdrawn)).leavingNow).exchangeOver false)) ∧
    ∀ f : Frame, s.rif.transmit = some f → f.kind ≠ .reply → s.rif.reception = none →
      exec .collision s =
        .next
          ({ s.completed fun e =>
              if e.handle = h ∧ e.phase = .sending then some (.withdrawn, e.attempts) else none
            with
            rif := { s.rif with transmit := none }
            ctu := { s.ctu with kind := .ordered }
            txa := { exchange := .idle, train := 0, gap := false, item := none } } : State).leavingNow := by
  obtain ⟨hopen, -, hmark, -⟩ := id hwaits
  refine ⟨fun hexchange hline hcount hreception htransmit => ?_, fun f htransmit hkind hreception => ?_⟩
  · obtain ⟨hwithdrawn, -⟩ := State.messageOutcome_marked (s := s.idleAt 24) hmark h p c
    rw [exec_replyTimeout_finish hopen hexchange hline, State.elapseTo_idleAt s 24 hcount (by decide),
      State.finishExchange_left (s := s.idleAt 24) hwaits hitem hreception htransmit]
    exact congrArg (fun t : State => (.next (t.leavingNow.exchangeOver false) :
      Host.Outcome State Fault Refusal)) hwithdrawn
  · obtain ⟨-, -, hrif, -, htxa, -, -, -, hstc, -⟩ := s.cutShort.arbiterIdle.completed_frame fun e =>
      if e.handle = h ∧ e.phase = .sending then some (.withdrawn, e.attempts) else none
    exact exec_collision_exchange hwaits htransmit hreception hkind
      (State.cutExchange_withdrawn (s := s.cutShort) hmark hitem) hrif hstc (congrArg Txa.exchange htxa)

/-- A station that waits to leave with no exchange (R148). -/
theorem idle_leaves {s : State} (hwaits : s.WaitsToLeave) (hfill : s.rxu.fill = none)
    (hexchange : s.txa.exchange = .idle) :
    (∀ (me p : StationId) (st : ReplyStatus), s.rif.transmit = some (.reply me p st) →
      exec .ownReplyEnd s =
        .next
          ({ s with
            rif :=
              { s.rif with
                line := .idle, idleCount := 1, reception := none, transmit := none, broken := none } } :
            State).leavingNow) ∧
    (s.rif.reception.isSome = true → s.rif.transmit = none →
      exec .unknownKindFrameEnd s = .next s.received.leavingNow) := by
  obtain ⟨hopen, honline, hmark, hdue⟩ := hwaits
  refine ⟨fun me p st htransmit => ?_, fun hreception htransmit => ?_⟩
  · refine congrArg _ ((State.onRail_open hopen State.replyEnds).trans ?_)
    rw [State.replyEnds_sent htransmit rfl]
    exact State.settleLeave_now ({ s with rif := s.rif.afterSending } : State) honline hmark hexchange rfl
      hdue rfl
  · have hidle : s.received.txa.exchange ≠ .awaitReply := by
      rw [show s.received.txa.exchange = .idle from hexchange]
      nofun
    rw [exec_unknownKindFrameEnd_ends hopen (Rif.endsReception_of_reception hreception),
      State.dropVerdict_received s hfill, State.endAwait, if_neg hidle,
      s.received.settleLeave_now honline hmark hexchange rfl hdue htransmit]

/-- With the mark set every frame end and every timeout has its effects, and the station then leaves
(R93, R136, R148). -/
theorem markedEnds (s : State) (c : Instr) (hopen : s.resetLow = false) (honline : s.stc.state = .online)
    (hmark : s.stc.leaveMark = true) (htransmit : s.rif.transmit = none) :
    (s.txa.exchange = .idle → s.rif.reception.isSome = true ∧ c.EndsFrameOfOther s.stc.sid →
      ∀ t : State, exec c (s.waiting s.txa false) = .next t →
        exec c s = .next t.marked.leavesUnlessReplying) ∧
    (s.txa.exchange = .awaitReply →
      (∀ item : Item, s.txa.item = some item → item.IsControl →
        (s.rif.reception.isSome = true ∧ c.EndsFrameOfOther s.stc.sid) ∨
            (c = .replyTimeout ∧ s.rif.line = .idle ∧ s.rif.reception = none ∧ s.rif.replyDue = none) →
          ∀ t : State, exec c (s.waiting s.txa false) = .next t →
            exec c s =
              .next
                (((({ t with txa := s.txa } : State).marked).leavesUnlessReplying).exchangeOver
                  (answers item (s.brought c)))) ∧
      ∀ (h : Handle) (p : StationId) (k : Carried), s.txa.item = some (.message h p k) →
        s.rif.reception.isSome = true ∧ c.EndsFrameOfOther s.stc.sid →
        (∀ b1 b2 b3 : Byte, b1 = 1 ∨ b1 = 2 ∨ b1 = 3 → c ≠ .replyFrameEnd p.byte s.stc.sid b1 b2 b3) →
        ∀ t : State,
          exec c (s.waiting { exchange := .idle, train := 0, gap := false, item := none } false) = .next t →
            exec c s =
              .next
                ((((({ t with txa := s.txa } : State).marked).completed
                  (exchangeEnds h .withdrawn)).leavesUnlessReplying).exchangeOver false)) := by
  refine ⟨fun hexchange hatEnd t ht => ?_, fun hexchange => ⟨fun item hitem hcontrol hends t ht => ?_,
    fun h p k hitem hatEnd hnot t ht => ?_⟩⟩
  · obtain ⟨hreception, hother⟩ := hatEnd
    obtain ⟨f, hf⟩ := State.endsBy_other hopen hreception honline hother
    exact hf.marked_idle honline hmark htransmit hexchange ht
  · rcases hends with ⟨hreception, hother⟩ | ⟨rfl, hline, hreception, -⟩
    · obtain ⟨f, hf⟩ := State.endsBy_other hopen hreception honline hother
      exact exec_marked_awaiting honline hmark htransmit hitem hcontrol hf.state hf.reception hf.transmit
        (fun mark => hf.awaiting hexchange mark) ht
    · exact exec_marked_awaiting (u := s.elapseTo 24) honline hmark htransmit hitem hcontrol rfl hreception rfl
        (fun mark => exec_replyTimeout_finish (s := s.waiting s.txa mark) hopen hexchange hline) ht
  · obtain ⟨hreception, hother⟩ := hatEnd
    obtain ⟨f, hf⟩ := State.endsBy_other hopen hreception honline hother
    exact hf.marked_message honline hmark htransmit hexchange hitem (State.brought_message hitem hnot) ht

/-- Settles O58: the outcomes of a MESSAGE, the ends with no exchange, the collisions, and then the effects that
come before LEAVING. -/
theorem theLeaveMarkWaitsForTheLine : Obligations.TheLeaveMarkWaitsForTheLine := by
  refine ⟨fun s hopen honline hmark hdue hfill => ?_, fun s c hopen honline hmark htransmit => ?_⟩
  · have hwaits : s.WaitsToLeave := ⟨hopen, honline, hmark, hdue⟩
    refine ⟨fun h p c hitem => ?_, idle_leaves hwaits hfill, fun f htransmit hreception => ⟨fun hkind hexchange =>
      exec_collision_reply hwaits htransmit hreception hkind hexchange, fun hkind hcontrol => ?_⟩⟩
    · obtain ⟨htimeout, hcollision⟩ := message_leaves hwaits hitem
      exact ⟨htimeout, fun hexchange hreception htransmit hother =>
        repliesTaken_marked hwaits hfill hitem hexchange hreception htransmit hother, hcollision⟩
    · obtain ⟨item, hitem, hkinds⟩ : ∃ item, s.txa.item = some item ∧ item.IsControl := by
        rcases hcontrol with ⟨p, hp⟩ | ⟨p, k, hp⟩
        · exact ⟨_, hp, .inl ⟨p, rfl⟩⟩
        · exact ⟨_, hp, .inr ⟨p, k, rfl⟩⟩
      exact exec_collision_exchange hwaits htransmit hreception hkind
        (State.cutExchange_control (s := s.cutShort) hitem hkinds) rfl rfl rfl
  · obtain ⟨hidle, hawaiting⟩ := markedEnds s c hopen honline hmark htransmit
    refine ⟨hidle, fun hexchange => ?_⟩
    obtain ⟨hcontrol, hmessage⟩ := hawaiting hexchange
    refine ⟨fun item hitem hkinds hends t ht => ⟨fun hanswer => ?_, fun hnot => ?_⟩, hmessage⟩
    · have hrun := hcontrol item hitem hkinds hends t ht
      rw [State.answers_of_answeredBy hitem hanswer] at hrun
      exact hrun
    · have hrun := hcontrol item hitem hkinds hends t ht
      rw [Bool.eq_false_iff.mpr fun h => hnot (State.answeredBy_of_answers hitem hkinds h)] at hrun
      exact hrun

end Sys2Proof.Machine
end

