-- ==== Sys2Proof/Proofs/Headers.lean ====
section
/-! PROOF. MESSAGE headers (R88 to R92): the checks in order, and the fill that an ADMITTED header starts. -/

namespace Sys2Proof.Machine

/-! ### The header of a reception -/

/-- A header that the receiver has seen, with no verdict on it (R113). -/
def State.headerSeen (s : State) : State :=
  { s with rif := { s.rif with reception := some { headerSeen := true } } }

/-- A header that the receiver has judged (R87). -/
def State.judgedAs (s : State) (h : MessageHeader) (cls : VerdictClass) : State :=
  { s.headerSeen with rxu := { s.rxu with verdict := some (verdictOf h cls) } }

section Arrives

variable {s : State} (hopen : s.resetLow = false) (hreception : s.rif.reception = some { headerSeen := false })
include hopen hreception

theorem exec_messageHeader_takes (h : MessageHeader) (payload : List Byte) :
    exec (.messageHeader h payload) s = .next (s.takeHeader h payload) := by
  refine congrArg _ ((State.onRail_open hopen fun t => t.headerArrives h payload).trans ?_)
  rw [State.headerArrives, if_pos hreception]

end Arrives

section Takes

variable {s : State} {h : MessageHeader}

theorem State.takeHeader_passed (hpassed : h.version ≠ 1 ∨ h.dst ≠ s.stc.sid.byte) (payload : List Byte) :
    s.takeHeader h payload = s.headerSeen := by
  rw [State.takeHeader]
  dsimp only
  rw [if_neg]
  · rfl
  · rintro ⟨hversion, hstation⟩
    rcases hpassed with hne | hne
    · exact hne hversion
    · exact hne (StationId.byte_of_stationOf hstation)

variable (hversion : h.version = 1) (hdst : h.dst = s.stc.sid.byte)
include hversion hdst

/-- A header that is not admitted changes nothing but the verdict (R88 to R91). -/
theorem State.takeHeader_judged {cls : VerdictClass} (hcls : s.headerClass h = cls)
    (hrefused : cls ≠ .admitted) (payload : List Byte) : s.takeHeader h payload = s.judgedAs h cls := by
  have hstation : stationOf h.dst = some s.stc.sid := by rw [hdst, stationOf_byte]
  rw [State.takeHeader]
  dsimp only
  rw [if_pos ⟨hversion, hstation⟩, hcls]
  split
  · rename_i hadmitted _ _ _
    exact absurd hadmitted hrefused
  · rfl

/-- An admitted header starts a fill (R92). -/
theorem State.takeHeader_admitted (hcls : s.headerClass h = .admitted) {p : StationId} (hsrc : h.src = p.byte)
    {f : Handle} {rest : List Handle} (hfree : s.bfm.rxFree = f :: rest) (hfill : s.rxu.fill = none)
    (payload : List Byte) :
    s.takeHeader h payload =
      (s.judgedAs h .admitted).startFill p f rest (verdictOf h .admitted) payload := by
  have hstation : stationOf h.dst = some s.stc.sid := by rw [hdst, stationOf_byte]
  have hsource : stationOf h.src = some p := by rw [hsrc, stationOf_byte]
  rw [State.takeHeader]
  dsimp only
  rw [if_pos ⟨hversion, hstation⟩, hcls, hsource, hfree, hfill]
  rfl

end Takes

/-! ### The class of a header -/

section Class

variable {s : State} {h : MessageHeader}

/-- A header that the station does not examine: outside ONLINE, after a LEAVE, from itself or from no station
(R88). -/
theorem State.headerClass_ignored
    (hignored : s.stc.state ≠ .online ∨ s.stc.leaveMark = true ∨ h.src = s.stc.sid.byte ∨ 32 ≤ h.src.toNat) :
    s.headerClass h = .ignored := by
  unfold State.headerClass
  split
  · rfl
  · rename_i p hsrc
    refine if_pos ?_
    rcases hignored with hstate | hmark | hself | hover
    · exact .inl hstate
    · exact .inr (.inl hmark)
    · rw [hself, stationOf_byte] at hsrc
      exact .inr (.inr (Option.some.inj hsrc).symm)
    · rw [stationOf_none hover] at hsrc
      cases hsrc

variable {p : StationId} (honline : s.stc.state = .online) (hmark : s.stc.leaveMark = false)
  (hsrc : h.src = p.byte) (hother : p ≠ s.stc.sid)
include honline hmark hsrc hother

theorem State.headerClass_judge : s.headerClass h = s.judge p h := by
  unfold State.headerClass
  rw [hsrc, stationOf_byte]
  refine if_neg ?_
  rw [honline, hmark]
  simp [hother]

theorem State.headerClass_outside (hnot : ¬ ((s.peer p).state = .isOpen ∧
    (s.peer p).theirSess = some h.srcSess ∧ (s.peer p).mySess = h.dstSess)) :
    s.headerClass h = .outside := by
  rw [State.headerClass_judge honline hmark hsrc hother, State.judge]
  exact if_neg fun hin => hnot ((Peer.inSession_iff _ _ _).mp hin)

variable (hbelongs : (s.peer p).state = .isOpen ∧ (s.peer p).theirSess = some h.srcSess ∧
  (s.peer p).mySess = h.dstSess)
include hbelongs

/-- The sequence check decides the class of a header of the session (R90). -/
theorem State.headerClass_checked {cls : VerdictClass}
    (hcheck : sequenceCheck (s.peer p).lastRxSeq h.seq = some cls) : s.headerClass h = cls := by
  rw [State.headerClass_judge honline hmark hsrc hother, State.judge]
  rw [if_pos ((Peer.inSession_iff _ _ _).mpr hbelongs), hcheck]

/-- Past the sequence check the room decides it (R91). -/
theorem State.headerClass_room (hcheck : sequenceCheck (s.peer p).lastRxSeq h.seq = none) :
    s.headerClass h = if 1 ≤ (s.peer p).room ∧ s.bfm.rxFree ≠ [] then .admitted else .overrun := by
  rw [State.headerClass_judge honline hmark hsrc hother, State.judge]
  rw [if_pos ((Peer.inSession_iff _ _ _).mpr hbelongs), hcheck]

end Class

theorem sequenceCheck_last (seq : Byte) : sequenceCheck (some seq) seq = some .duplicate :=
  if_pos rfl

theorem sequenceCheck_gap {v seq : Byte} (hne : seq ≠ v) (hnext : seq ≠ v + 1) :
    sequenceCheck (some v) seq = some .sequence := by
  rw [sequenceCheck, if_neg hne, if_neg hnext]

theorem sequenceCheck_first {seq : Byte} (hne : seq ≠ 0) : sequenceCheck none seq = some .sequence :=
  if_neg hne

/-- A new message: the first of the session, or the one after the last (R90). -/
theorem sequenceCheck_new {last : Option Byte} {seq : Byte}
    (h : last = none ∧ seq = 0 ∨ last = some (seq - 1)) : sequenceCheck last seq = none := by
  rcases h with ⟨rfl, rfl⟩ | rfl
  · rfl
  · rw [sequenceCheck, if_neg (by bv_omega), if_pos (by bv_omega)]

/-- Settles O51: the checks in their order. -/
theorem headersAreJudgedInOrder : Obligations.HeadersAreJudgedInOrder := by
  intro s h payload hopen hreception
  refine ⟨fun hpassed => ?_, fun hversion hdst => ?_⟩
  · rw [exec_messageHeader_takes hopen hreception, State.takeHeader_passed hpassed]
    rfl
  · have hjudged {cls : VerdictClass} (hcls : s.headerClass h = cls) (hrefused : cls ≠ .admitted) :
        exec (.messageHeader h payload) s = .next (s.judgedAs h cls) := by
      rw [exec_messageHeader_takes hopen hreception,
        State.takeHeader_judged hversion hdst hcls hrefused]
    refine ⟨fun hignored => hjudged (State.headerClass_ignored hignored) nofun,
      fun honline hmark p hsrc hother => ⟨fun hnot => ?_, fun hbelongs hlast => ?_,
        fun hbelongs v hlast hne hnext => ?_, fun hbelongs hlast hne => ?_, fun hbelongs hnew hroom => ?_⟩⟩
    · exact hjudged (State.headerClass_outside honline hmark hsrc hother hnot) nofun
    · refine hjudged (State.headerClass_checked honline hmark hsrc hother hbelongs ?_) nofun
      rw [hlast, sequenceCheck_last]
    · refine hjudged (State.headerClass_checked honline hmark hsrc hother hbelongs ?_) nofun
      rw [hlast, sequenceCheck_gap hne hnext]
    · refine hjudged (State.headerClass_checked honline hmark hsrc hother hbelongs ?_) nofun
      rw [hlast, sequenceCheck_first hne]
    · refine hjudged ((State.headerClass_room honline hmark hsrc hother hbelongs
        (sequenceCheck_new hnew)).trans (if_neg ?_)) nofun
      rintro ⟨hfits, -⟩
      have hnone : (s.peer p).room = 0 := hroom
      omega

/-! ### Fills -/

/-- What the start of a fill makes of the station; `m` is the memory with the payload in it (R11, R17, R92). -/
theorem State.startFill_eq (s : State) (p : StationId) (f : Handle) (rest : List Handle) (v : Verdict)
    (payload : List Byte) :
    s.startFill p f rest v payload =
      { s with
        ssu := { s.ssu with peers := s.ssu.peers.set p { s.peer p with inUse := (s.peer p).inUse + 1 } }
        cru :=
          s.cru.evaluated s.cru.list (s.ssu.peers.set p { s.peer p with inUse := (s.peer p).inUse + 1 })
        bfm :=
          { s.bfm with
            table := s.bfm.table.set f (.filling p)
            rxFree := rest
            mem := Memory.writeBytes s.bfm.mem (bufferAddress f 0) (payload.take v.length) }
        rxu :=
          { s.rxu with
            fill :=
              some
                { handle := f, source := p, seq := v.seq, tag := v.tag, length := v.length,
                  sess := v.srcSess } } } :=
  rfl

/-- Settles O52: the class by the checks, then the fill, and the payload that its buffer holds. -/
theorem admittedHeaderStartsAFill : Obligations.AdmittedHeaderStartsAFill := by
  intro s h payload p f rest hopen hcanonical hreception hversion hdst honline hmark hsrc hother hpeer htheir
    hmine hnew hroom hfree hfill hlength peers
  have hcls : s.headerClass h = .admitted := by
    rw [State.headerClass_room honline hmark hsrc hother ⟨hpeer, htheir, hmine⟩ (sequenceCheck_new hnew)]
    exact if_pos ⟨hroom, by rw [hfree]; exact List.cons_ne_nil f rest⟩
  have hbuffer : bufferAddress f 0 = 256 * f.val := rfl
  have hwithin : 256 * f.val + payload.length ≤ memoryBytes := by
    have hhandle := f.isLt
    have hbyte := h.lengthByte.isLt
    simp only [memoryBytes]
    omega
  refine ⟨Memory.writeBytes s.bfm.mem (256 * f.val) payload, ?_, fun i hi => ?_, fun a ha => ?_⟩
  · rw [exec_messageHeader_takes hopen hreception,
      State.takeHeader_admitted hversion hdst hcls hsrc hfree hfill, State.startFill_eq,
      List.take_of_length_le (by exact hlength), hbuffer]
    rfl
  · exact Memory.read_writeBytes_at hcanonical payload hwithin hi
  · exact Memory.read_writeBytes_other hcanonical payload hwithin ha

end Sys2Proof.Machine
end

