-- ==== Sys2Proof/Proofs/RailFrames.lean ====
section
/-! PROOF. A frame on the rail (R105, R106, R108 to R113, R181, R182): what the station drives, and that every frame
it sends is received whole. -/

namespace Sys2Proof.Machine

/-! ### The pins -/

theorem railLevel_dominant_iff (drives : List RailDrive) :
    railLevel drives = .dominant ↔ ∃ d ∈ drives, d.rde = true := by
  rw [railLevel, ← List.any_eq_true]
  split
  · exact iff_of_true rfl ‹_›
  · exact iff_of_false nofun ‹_›

theorem rrxPin_low_iff (level : Level) : rrxPin level = .low ↔ level = .dominant := by
  cases level <;> decide

theorem senseRrx_rrxPin (level : Level) : senseRrx (rrxPin level) = level := by
  cases level <;> rfl

/-! ### Bits and bytes -/

theorem classifyHalves_bitHalves (b : Bool) : classifyHalves (bitHalves b) = .bit b := by
  cases b <;> rfl

theorem Frame.classified (f : Frame) : f.lineHalves.map classifyHalves = f.lineBits.map BitTime.bit := by
  rw [Frame.lineHalves, List.map_map]
  exact List.map_congr_left fun b _ => classifyHalves_bitHalves b

theorem receptionBits_bits (bits : List Bool) : receptionBits (bits.map BitTime.bit) = some bits := by
  induction bits with
  | nil => rfl
  | cons b rest ih =>
    rw [List.map_cons, receptionBits, ih]
    rfl

theorem leadingBits_bits (bits : List Bool) : leadingBits (bits.map BitTime.bit) = bits := by
  induction bits with
  | nil => rfl
  | cons b rest ih =>
    rw [List.map_cons, leadingBits, ih]
    rfl

/-- A byte is assembled from its own bits (R108): each of its 256 values is checked. -/
theorem byteOfBits_byteBits (b : Byte) :
    byteOfBits (b.getLsbD 7) (b.getLsbD 6) (b.getLsbD 5) (b.getLsbD 4) (b.getLsbD 3) (b.getLsbD 2)
      (b.getLsbD 1) (b.getLsbD 0) = b := by
  revert b
  decide +kernel

theorem bytesOfBits_byteBits (bytes : List Byte) : bytesOfBits (bytes.flatMap byteBits) = some bytes := by
  induction bytes with
  | nil => rfl
  | cons b rest ih =>
    rw [List.flatMap_cons, byteBits]
    simp only [List.cons_append, List.nil_append]
    rw [bytesOfBits, ih, byteOfBits_byteBits]
    rfl

theorem wholeBytes_byteBits (bytes : List Byte) : wholeBytes (bytes.flatMap byteBits) = bytes := by
  induction bytes with
  | nil => rfl
  | cons b rest ih =>
    rw [List.flatMap_cons, byteBits]
    simp only [List.cons_append, List.nil_append]
    rw [wholeBytes, ih, byteOfBits_byteBits]

/-! ### The start and the check -/

theorem startBits_length : startBits.length = 16 := rfl

theorem Frame.lineBits_take (f : Frame) : f.lineBits.take 16 = startBits :=
  List.take_left' startBits_length

theorem Frame.lineBits_drop (f : Frame) : f.lineBits.drop 16 = f.bytes.flatMap byteBits :=
  List.drop_left' startBits_length

/-- The receiver assembles the bytes of a whole frame (R108, R111). -/
theorem Frame.assembled (f : Frame) : assembledBytes (f.lineBits.map BitTime.bit) = f.bytes := by
  rw [assembledBytes, leadingBits_bits, if_pos f.lineBits_take, f.lineBits_drop, wholeBytes_byteBits]

theorem Frame.receivedWhole {f : Frame} (h : f.bytes.length ≤ 270) :
    receivedBytes (f.lineBits.map BitTime.bit) = some f.bytes := by
  rw [receivedBytes, receptionBits_bits]
  dsimp only
  rw [if_pos f.lineBits_take, f.lineBits_drop, bytesOfBits_byteBits]
  exact if_pos h

theorem withCheck_length (body : List Byte) : (withCheck body).length = body.length + 4 :=
  List.length_append

/-- The check that closes a frame matches the bytes before it (R110). -/
theorem checkMatches_withCheck (body : List Byte) : checkMatches (withCheck body) = true := by
  have hlength : (withCheck body).length - 4 = body.length := by
    rw [withCheck_length]
    omega
  rw [checkMatches, hlength, withCheck, List.drop_left, List.take_left, beq_self_eq_true]

/-! ### The fields -/

theorem unicastDst_byte (p : StationId) : unicastDst p.byte = some p :=
  stationOf_byte p

theorem knownKind_byte0 (k : FrameKind) : knownKind k.byte0 = some k := by
  cases k <;> decide

theorem tag_append (tag : Word) : (tag.extractLsb' 8 8 ++ tag.extractLsb' 0 8 : Word) = tag := by
  apply BitVec.eq_of_getLsbD_eq
  intro i hi
  rw [BitVec.getLsbD_append]
  simp only [BitVec.getLsbD_extractLsb']
  split
  · simp [*]
  · have hrest : i - 8 < 8 := by omega
    simp [hrest, show 8 + (i - 8) = i by omega]

/-- A frame with a matching check, a known kind and the size of that kind ends good (R109 to R112). -/
theorem frameEndCommand_good {bytes : List Byte} {kind : FrameKind} (hcheck : checkMatches bytes = true)
    (hkind : bytes.head?.bind knownKind = some kind) (hsize : frameSize kind bytes = some bytes.length) :
    frameEndCommand (some bytes) = goodFrameCommand kind bytes := by
  rw [frameEndCommand]
  rw [if_neg (by simp [hcheck]), hkind]
  exact if_pos hsize

theorem Frame.bytes_length (f : Frame) : f.bytes.length = f.body.length + 4 :=
  withCheck_length f.body

/-- The byte that gives the length of a MESSAGE payload of 1 to 256 bytes (R109). -/
theorem lengthByte_toNat {n : Nat} (hmin : 1 ≤ n) (hmax : n ≤ 256) :
    (BitVec.ofNat 8 (n - 1)).toNat + 1 = n := by
  rw [BitVec.toNat_ofNat, Nat.mod_eq_of_lt (by omega)]
  omega

theorem Frame.body_head (f : Frame) : f.body.head? = some f.kind.byte0 := by
  cases f with
  | reply s d status => cases status <;> rfl
  | announce | leave | greet | credit | message => rfl

theorem Frame.bytes_check (f : Frame) : checkMatches f.bytes = true :=
  checkMatches_withCheck f.body

theorem Frame.bytes_kind (f : Frame) : f.bytes.head?.bind knownKind = some f.kind := by
  rw [Frame.bytes, withCheck, List.head?_append, f.body_head]
  exact knownKind_byte0 f.kind

theorem Frame.size {f : Frame} (h : f.Sendable) : frameSize f.kind f.bytes = some f.bytes.length := by
  rw [f.bytes_length]
  cases f with
  | announce | leave | greet | credit => rfl
  | reply s d status => cases status <;> rfl
  | message s d c seq tag payload =>
    obtain ⟨hmin, hmax⟩ := h
    have hsize : frameSize .message (Frame.message s d c seq tag payload).bytes =
        some (14 + ((BitVec.ofNat 8 (payload.length - 1)).toNat + 1)) := rfl
    rw [Frame.kind, hsize, lengthByte_toNat hmin hmax, Frame.body, List.length_append]
    simp only [List.length_cons, List.length_nil]
    congr 1
    omega

theorem Frame.bytes_bounded {f : Frame} (h : f.Sendable) : f.bytes.length ≤ 270 := by
  rw [f.bytes_length]
  cases f with
  | announce | leave | greet | credit => simp [Frame.body]
  | reply s d status => cases status <;> simp [Frame.body]
  | message s d c seq tag payload =>
    obtain ⟨-, hmax⟩ := h
    rw [Frame.body, List.length_append]
    simp only [List.length_cons, List.length_nil]
    omega

/-- The frame end that the bytes of a frame give (R112, R113). -/
theorem Frame.goodCommand (f : Frame) : goodFrameCommand f.kind f.bytes = f.endEvent := by
  have hdst (d : StationId) := unicastDst_byte d
  cases f with
  | announce s => rfl
  | leave s => rfl
  | greet s d sess grant =>
    simp [Frame.kind, Frame.bytes, withCheck, Frame.body, goodFrameCommand, hdst, Frame.endEvent]
  | message s d c seq tag payload =>
    simp [Frame.kind, Frame.bytes, withCheck, Frame.body, goodFrameCommand, hdst, Frame.endEvent]
  | credit s d c =>
    simp [Frame.kind, Frame.bytes, withCheck, Frame.body, goodFrameCommand, hdst, Frame.endEvent]
  | reply s d status =>
    cases status <;>
      simp [Frame.kind, Frame.bytes, withCheck, Frame.body, goodFrameCommand, hdst, Frame.endEvent, checkBytes]

/-- The header that the bytes of a frame give (R113). -/
theorem Frame.headerCommand_eq {f : Frame} (h : f.Sendable) :
    (headerCommand f.bytes).toList = f.headerEvent := by
  cases f with
  | announce s => rfl
  | leave s => rfl
  | greet s d sess grant => rfl
  | credit s d c => rfl
  | reply s d status => cases status <;> rfl
  | message s d c seq tag payload =>
    obtain ⟨hmin, hmax⟩ := h
    have hheader : headerCommand (Frame.message s d c seq tag payload).bytes =
        some (.messageHeader
          { version := 1, src := s.byte, dst := d.byte, srcSess := c.srcSess, dstSess := c.dstSess,
            seq := seq, creditTotal := c.total, tag := tag.extractLsb' 8 8 ++ tag.extractLsb' 0 8,
            lengthByte := BitVec.ofNat 8 (payload.length - 1) }
          ((payload ++ checkBytes (frameCheck (Frame.message s d c seq tag payload).body)).take
            ((BitVec.ofNat 8 (payload.length - 1)).toNat + 1))) := rfl
    rw [hheader, lengthByte_toNat hmin hmax, List.take_left, tag_append]
    rfl

/-- Settles O60: the pins by the halves driven, then the receiver on the bits of a whole frame. -/
theorem sentFramesAreReceivedWhole : Obligations.SentFramesAreReceivedWhole := by
  refine ⟨⟨fun s n htransmit => State.railPins_silent htransmit n,
    fun s f i first second htransmit hhalves => ⟨?_, ?_⟩, fun s f n htransmit hpast => ?_,
    fun s n hdriven => driveHalf_rtx _ hdriven, railLevel_dominant_iff,
    fun level => ⟨rrxPin_low_iff level, senseRrx_rrxPin level⟩⟩, fun f hsendable => ?_⟩
  · rw [State.railPins_sending htransmit, Frame.half_first hhalves, driveHalf_rde]
  · rw [State.railPins_sending htransmit, Frame.half_second hhalves, driveHalf_rde]
  · rw [State.railPins_sending htransmit, Frame.half_past hpast]
    rfl
  · rw [f.classified, receptionCommands, f.assembled, Frame.receivedWhole (Frame.bytes_bounded hsendable),
      Frame.headerCommand_eq hsendable, frameEndCommand_good f.bytes_check f.bytes_kind
        (Frame.size hsendable), f.goodCommand]

end Sys2Proof.Machine
end
